-- ==== Sys2Proof/Word.lean ====
section
/-! DEFINITION. The words of the machine: bytes and the 16- and 32-bit fields of frames and of the
configuration image (10_formats.md). Everything else the manual counts is a Nat. -/

namespace Sys2Proof

/-- One byte of a frame or of the configuration image (10_formats.md). -/
abbrev Byte := BitVec 8

/-- A two-byte field, and the register of the check sequence (R170). -/
abbrev Word16 := BitVec 16

/-- A four-byte field: the epoch (R101, R171). -/
abbrev Word32 := BitVec 32

/-- A length of time, or a moment, in microseconds (log 1). -/
abbrev Micros := Nat

end Sys2Proof
end

