-- ==== Sys2Proof/Config.lean ====
section
/-! DEFINITION. What the part fixes (capacities and fixed times) and the free values the manual leaves
open. A free value has no body: no proof can see which value it is. -/

namespace Sys2Proof.Config

/-- `n` milliseconds (log 1). -/
def ms (n : Nat) : Micros := n * 1000

/-- `n` seconds. -/
def sec (n : Nat) : Micros := n * 1000000

/-- `n` minutes. -/
def minutes (n : Nat) : Micros := n * 60000000

/-- The transmit queue never holds more than 16 frames (R156). -/
def queueCapacity : Nat := 16

/-- The Claim Table holds zero to 24 entries (R75). -/
def claimCapacity : Nat := 24

/-- The Hold List never holds more than 8 entries (R119). -/
def holdCapacity : Nat := 8

/-- The Peer Table holds at most 32 references (R52). -/
def peerCapacity : Nat := 32

/-- A frame is dropped when its attempt count reaches 8 (R155). -/
def maxAttempts : Nat := 8

/-- The confirmation count runs from 0 to 15 (R33). -/
def countMax : Nat := 15

/-- The cadence is capped at 65535 s (R42). -/
def cadenceCap : Nat := 65535

/-- The time since the newest onset saturates at 40 hours (R33, R43). -/
def onsetSaturation : Micros := minutes 2400

/-- An onset mark has a resolution of 0.1 s (R33). -/
def markStep : Micros := ms 100

/-- The debounce of hold keys and wake buttons (R123, R130). -/
def keyDebounce : Micros := ms 50

/-- One lamp step (R164). -/
def lampStep : Micros := ms 125

/-- The unit of the bypass and isolation staggers (R31, R140, R146). -/
def staggerUnit : Micros := sec 2

/-- The fixed heartbeat of UNCONFIGURED (R140, R158). -/
def unconfiguredHeartbeat : Micros := sec 2

/-- The station term of the retry gap (R86). -/
def retryGapStation : Micros := ms 100

/-- FREE VALUE (log 5): whether the moment of an onset, when it lies between two 0.1 s marks, is
recorded as the later of them. The manual gives the resolution of a mark (R33) and not its rounding. -/
opaque markRoundsUp : Micros → Bool

end Sys2Proof.Config
end

