-- ==== Sys2Proof/Syntax.lean ====
section
/-! DEFINITION. The commands of the node, one constructor for each row of spec/opcode_table.json, and
the kinds of their operands. -/

namespace Sys2Proof

/-- A channel of the node, Ch0 to Ch5 (00_scope.md, Terms). -/
inductive Ch where
  | c0 | c1 | c2 | c3 | c4 | c5
  deriving DecidableEq, Repr

/-- The six channels in order of channel number. -/
def Ch.all : List Ch := [.c0, .c1, .c2, .c3, .c4, .c5]

/-- The channel number, 0 to 5. -/
def Ch.toNat : Ch → Nat
  | .c0 => 0
  | .c1 => 1
  | .c2 => 2
  | .c3 => 3
  | .c4 => 4
  | .c5 => 5

/-- The channel of a number, if the node has one. -/
def Ch.ofNat? : Nat → Option Ch
  | 0 => some .c0
  | 1 => some .c1
  | 2 => some .c2
  | 3 => some .c3
  | 4 => some .c4
  | 5 => some .c5
  | _ => none

/-- One thing for each of the six channels. -/
structure PerChannel (α : Type) where
  p0 : α
  p1 : α
  p2 : α
  p3 : α
  p4 : α
  p5 : α
  deriving DecidableEq, Repr

namespace PerChannel

/-- The same thing for every channel. -/
def all {α : Type} (a : α) : PerChannel α := ⟨a, a, a, a, a, a⟩

/-- The thing of one channel. -/
def get {α : Type} (p : PerChannel α) : Ch → α
  | .c0 => p.p0
  | .c1 => p.p1
  | .c2 => p.p2
  | .c3 => p.p3
  | .c4 => p.p4
  | .c5 => p.p5

/-- Replace the thing of one channel. -/
def set {α : Type} (p : PerChannel α) (ch : Ch) (a : α) : PerChannel α :=
  match ch with
  | .c0 => { p with p0 := a }
  | .c1 => { p with p1 := a }
  | .c2 => { p with p2 := a }
  | .c3 => { p with p3 := a }
  | .c4 => { p with p4 := a }
  | .c5 => { p with p5 := a }

/-- Apply a function to the thing of every channel. -/
def map {α β : Type} (f : α → β) (p : PerChannel α) : PerChannel β :=
  ⟨f p.p0, f p.p1, f p.p2, f p.p3, f p.p4, f p.p5⟩

/-- Build the thing of every channel from the channel. -/
def tabulate {α : Type} (f : Ch → α) : PerChannel α :=
  ⟨f .c0, f .c1, f .c2, f .c3, f .c4, f .c5⟩

/-- The six things in order of channel number. -/
def toList {α : Type} (p : PerChannel α) : List α := [p.p0, p.p1, p.p2, p.p3, p.p4, p.p5]

end PerChannel

/-- The three causes of a reset (R136). -/
inductive StartCause where
  | power | line | dip
  deriving DecidableEq, Repr

/-- The blocks that queue frames (R152): Indicator Unit (NOTICE), Dependency Unit (CALL), Budget Unit
(CLAIM, WITHDRAW, RELEASE), Command Unit (REPLY) and Line Interface (STATE). -/
inductive Block where
  | iu | du | bu | cu | li
  deriving DecidableEq, Repr

/-- The order in which the return from ISOLATED and the effect of the frame that causes it are taken
(R117, R147, log 11). -/
inductive ArrivalOrder where
  /-- The return, then the frame. -/
  | returnFirst
  /-- The frame, judged in ISOLATED, then the return. -/
  | frameFirst
  /-- The frame, then the expiry of the isolation stagger that falls in the same moment, then the return
  (R146). -/
  | frameThenStagger
  deriving DecidableEq, Repr

/-- When a command happens, and the open choices it settles. -/
structure Moment where
  /-- The time since the command before it (log 1). -/
  elapsed : Micros
  /-- Whose frame joins the queue next, at an event at which several blocks queue frames and no rule
  orders them (R156, log 4). Frames left over join in the order of `Block`. -/
  order : List Block
  /-- The order of the two effects of a frame that ends an isolation (log 11). -/
  arrival : ArrivalOrder
  deriving DecidableEq, Repr

/-- The target of a hold: one channel, or ALL (R119). -/
inductive Target where
  | channel (ch : Ch)
  | all
  deriving DecidableEq, Repr

/-- What names a Hold List entry: no two share all three (R119). -/
structure HoldKey where
  origin : Nat
  target : Target
  tag : Nat
  deriving DecidableEq, Repr

/-- One of the seven lamps (R164). -/
inductive Lamp where
  | channel (ch : Ch)
  | node
  deriving DecidableEq, Repr

/-- What the configuration memory gave when it was read (R138): the bytes of each of the eight
records, or `none` for a record it did not answer. -/
structure ImageRead where
  header : Option (List Byte)
  channels : PerChannel (Option (List Byte))
  console : Option (List Byte)
  deriving DecidableEq, Repr

/-- The opening field and the target station of a received frame (10_formats.md, 10.1). -/
structure Envelope where
  sender : Byte
  target : Byte
  deriving DecidableEq, Repr

/-- The payload of a STATE frame (R171). -/
structure StatePayload where
  mode : Byte
  cause : Byte
  phase : Byte
  epoch : Word32
  source : Byte
  reports : PerChannel Byte
  deriving DecidableEq, Repr

/-- One target slot of a CALL frame: a station byte, then a channel byte (R171). -/
structure CallSlot where
  station : Byte
  channel : Byte
  deriving DecidableEq, Repr

/-- The payload of a CALL frame (R171). -/
structure CallPayload where
  caller : Byte
  count : Byte
  slot1 : CallSlot
  slot2 : CallSlot
  slot3 : CallSlot
  slot4 : CallSlot
  deriving DecidableEq, Repr

/-- The commands, one for each row of spec/opcode_table.json, in the table's order. -/
inductive Instr where
  /-- RESET (R136): a reset cause arises and holds the node in reset. -/
  | reset (m : Moment) (cause : StartCause)
  /-- RESET_RELEASE (R136): the reset is released; ADR0 to ADR5 read `adr`. -/
  | resetRelease (m : Moment) (adr : BitVec 6)
  /-- IMAGE_READ_COMPLETE (R139): the read of the configuration memory ends with `read`. -/
  | imageReadComplete (m : Moment) (read : ImageRead)
  /-- FEEDBACK_CHANGE (R3): FBn now reports closed, or open. -/
  | feedbackChange (m : Moment) (ch : Ch) (closed : Bool)
  /-- FEEDBACK_MISMATCH (R5): the mismatch timer of a channel expires. -/
  | feedbackMismatch (m : Moment) (ch : Ch)
  /-- RETRY_TIMER_EXPIRY (R11). -/
  | retryTimerExpiry (m : Moment) (ch : Ch)
  /-- RUN_DOWN_EXPIRY (R20). -/
  | runDownExpiry (m : Moment) (ch : Ch)
  /-- INRUSH_EXPIRY (R26): the inrush timer of a STARTING channel expires. -/
  | inrushExpiry (m : Moment) (ch : Ch)
  /-- INRUSH_HOLD_EXPIRY (R90): the hold of the channel's own LIVE claim expires. -/
  | inrushHoldExpiry (m : Moment) (ch : Ch)
  /-- ACTIVITY_SENSE_CHANGE (R35): ASn now reports active, or inactive. -/
  | activitySenseChange (m : Moment) (ch : Ch) (active : Bool)
  /-- ACTIVITY_DEBOUNCE_EXPIRY (R35). -/
  | activityDebounceExpiry (m : Moment) (ch : Ch)
  /-- IDLE_WINDOW_EXPIRY (R39). -/
  | idleWindowExpiry (m : Moment) (ch : Ch)
  /-- HOLD_KEY_CHANGE (R123): HKn is now on, or off. -/
  | holdKeyChange (m : Moment) (ch : Ch) (on : Bool)
  /-- HOLD_KEY_DEBOUNCE_EXPIRY (R123). -/
  | holdKeyDebounceExpiry (m : Moment) (ch : Ch)
  /-- WAKE_BUTTON_CHANGE (R130): WBn is now pressed, or released. -/
  | wakeButtonChange (m : Moment) (ch : Ch) (pressed : Bool)
  /-- WAKE_BUTTON_DEBOUNCE_EXPIRY (R130). -/
  | wakeButtonDebounceExpiry (m : Moment) (ch : Ch)
  /-- CALL_WAIT_EXPIRY (R65). -/
  | callWaitExpiry (m : Moment) (ch : Ch)
  /-- AGE_TIMER_EXPIRY (R54): the entries of these stations age out at one event. -/
  | ageTimerExpiry (m : Moment) (stations : List Nat)
  /-- SETTLE_EXPIRY (R87): the settle timer of the channel's own PROVISIONAL claim expires. -/
  | settleExpiry (m : Moment) (ch : Ch)
  /-- CLAIM_HOLD_TIMER_EXPIRY (R94): the hold timer of the remote entry with this key expires. -/
  | claimHoldTimerExpiry (m : Moment) (station number : Nat)
  /-- OVERFLOW_TIMER_EXPIRY (R96). -/
  | overflowTimerExpiry (m : Moment)
  /-- RETRY_GAP_EXPIRY (R86). -/
  | retryGapExpiry (m : Moment) (ch : Ch)
  /-- HOLD_ENTRY_EXPIRY (R122): the expiry timers of these entries run out at one event. -/
  | holdEntryExpiry (m : Moment) (entries : List HoldKey)
  /-- LISTEN_EXPIRY (R143). -/
  | listenExpiry (m : Moment)
  /-- ISOLATION_EXPIRY (R144). -/
  | isolationExpiry (m : Moment)
  /-- ISOLATION_STAGGER_EXPIRY (R146). -/
  | isolationStaggerExpiry (m : Moment)
  /-- BYPASS_TIMER_EXPIRY (R31). -/
  | bypassTimerExpiry (m : Moment) (ch : Ch)
  /-- HEARTBEAT_EXPIRY (R158). -/
  | heartbeatExpiry (m : Moment)
  /-- LAMP_STEP (R164). -/
  | lampStep (m : Moment) (lamp : Lamp)
  /-- LINE_ACCESS_GAP (R153): the line has been quiet for an access gap or longer (log 35). -/
  | lineAccessGap (m : Moment)
  /-- CONTENTION_LOST (R154): the opening field on the line was that of `winner`. -/
  | contentionLost (m : Moment) (winner : Byte)
  /-- FRAME_SENT (R155). -/
  | frameSent (m : Moment)
  /-- SEND_FAULT (R155). -/
  | sendFault (m : Moment)
  /-- INVALID_FRAME (R160): what was received of a broken or invalid frame. -/
  | invalidFrame (m : Moment) (bytes : List Byte)
  /-- UNKNOWN_KIND_FRAME (R160). -/
  | unknownKindFrame (m : Moment) (env : Envelope) (kind : Byte) (payload : List Byte)
  /-- STATE_RECEIVED (R53). -/
  | stateReceived (m : Moment) (env : Envelope) (payload : StatePayload)
  /-- PHASE_RECEIVED (R104). -/
  | phaseReceived (m : Moment) (env : Envelope) (phase : Byte) (epoch : Word32) (level : Byte)
  /-- CLAIM_RECEIVED (R92). -/
  | claimReceived (m : Moment) (env : Envelope) (number channel weight rank : Byte)
  /-- WITHDRAW_RECEIVED (R93). -/
  | withdrawReceived (m : Moment) (env : Envelope) (number : Byte)
  /-- RELEASE_RECEIVED (R93). -/
  | releaseReceived (m : Moment) (env : Envelope) (number : Byte)
  /-- CALL_RECEIVED (R67). -/
  | callReceived (m : Moment) (env : Envelope) (payload : CallPayload)
  /-- WAKE (R129). -/
  | wake (m : Moment) (env : Envelope) (channel level : Byte)
  /-- SHED (R131). -/
  | shed (m : Moment) (env : Envelope) (channel level : Byte)
  /-- HOLD (R120). -/
  | hold (m : Moment) (env : Envelope) (target tag level : Byte) (expiry : Word16)
  /-- UNHOLD (R121). -/
  | unhold (m : Moment) (env : Envelope) (target tag level : Byte)
  /-- UNLOCK (R133). -/
  | unlock (m : Moment) (env : Envelope) (channel level : Byte)
  /-- REPLY_RECEIVED (R162). -/
  | replyReceived (m : Moment) (env : Envelope) (kind channel tag code : Byte)
  /-- NOTICE_RECEIVED (R162). -/
  | noticeReceived (m : Moment) (env : Envelope) (channel code detail1 detail2 : Byte)
  deriving DecidableEq, Repr

end Sys2Proof
end

