-- ==== Sys2Proof/Machine/State.lean ====
section
/-! DEFINITION. Everything the manual gives the node, as plain data, block by block (00_scope.md,
Blocks), the state after reset, and the reasons a step can stop. -/

namespace Sys2Proof.Machine

/-- A timer: stopped, or running with the time it has left. A timer with no time left is due: its
expiry is the next event of its owner (log 1, log 2). -/
abbrev Timer := Option Micros

/-! ## Load Channels (01_load_channels.md) -/

/-- The sub-phase of PENDING (R1, R22). -/
inductive SubPhase where
  | calling | budget | claiming
  deriving DecidableEq, Repr

/-- The start kind of STARTING (R1). -/
inductive StartKind where
  | claimed | unclaimed
  deriving DecidableEq, Repr

/-- The trip cause (R1, R5). -/
inductive TripCause where
  | feedbackCloseFail | dropout
  deriving DecidableEq, Repr

/-- The lock cause (R1, R5, R11). -/
inductive LockCause where
  | feedbackCloseFail | dropout | repeatedTrip | welded | forced
  deriving DecidableEq, Repr

/-- The ten channel states, each with the items that are present only in it (R1, log 29). -/
inductive ChState where
  | offline
  | awake
  | waiting
  | coast
  | rest
  | pending (sub : SubPhase)
  | starting (kind : StartKind)
  | tripped (cause : TripCause)
  | locked (cause : LockCause)
  | bypass
  deriving DecidableEq, Repr

/-- The ten channel states as STATE frames report them (table 10-4). -/
inductive StateCode where
  | offline | awake | waiting | coast | rest | pending | starting | tripped | locked | bypass
  deriving DecidableEq, Repr

/-- The eight wake origins (R13). -/
inductive Origin where
  | loc | console | call | morning | hold | start | isolation | retry
  deriving DecidableEq, Repr

/-- A set of wake origins: each is in it at most once (R1, R13). -/
structure OriginSet where
  loc : Bool := false
  console : Bool := false
  call : Bool := false
  morning : Bool := false
  hold : Bool := false
  start : Bool := false
  isolation : Bool := false
  retry : Bool := false
  deriving DecidableEq, Repr

/-- Which signal moved first to open a disagreement (R4). -/
inductive Mark where
  | output | feedback
  deriving DecidableEq, Repr

/-- What a Channel Controller holds (R1). -/
structure Controller where
  state : ChState
  origins : OriginSet
  tripCount : Nat
  feedbackClosed : Bool
  mark : Option Mark
  mismatchTimer : Timer
  runDownTimer : Timer
  inrushTimer : Timer
  retryTimer : Timer
  deriving DecidableEq, Repr

/-! ## Idle Detection (02_idle_detection.md) -/

/-- The tracker status (R33). -/
inductive TrackerStatus where
  | stopped | running | paused
  deriving DecidableEq, Repr

/-- What an Idle Tracker holds (R33). -/
structure Tracker where
  status : TrackerStatus
  active : Bool
  debounceTimer : Timer
  windowTimer : Timer
  remaining : Option Micros
  count : Nat
  history : List Nat
  cadence : Option Nat
  sinceOnset : Option Micros
  deriving DecidableEq, Repr

/-! ## The configuration image (07, 10_formats.md) -/

/-- The load kind of a channel (table 10-6). -/
inductive Kind where
  | none | press | hydraulic | air | fan | conveyor | aux
  deriving DecidableEq, Repr

/-- The name of one load: a station number and a channel number (R51). -/
structure Ref where
  station : Nat
  channel : Nat
  deriving DecidableEq, Repr

/-- A channel record of the image, its times multiplied out (R172). -/
structure ChannelRecord where
  kind : Kind
  rank : Nat
  weight : Nat
  idleWindow : Micros
  requiredCount : Nat
  debounce : Micros
  runDown : Micros
  inrushWindow : Micros
  feedbackWindow : Micros
  retryDelay : Micros
  retryLimit : Nat
  callWaitLimit : Micros
  morning : Bool
  needs : List Ref
  serves : List Ref
  deriving DecidableEq, Repr

/-- An entry of the console list (R114). -/
structure ConsoleEntry where
  station : Nat
  level : Nat
  deriving DecidableEq, Repr

/-- The attention mask's five flags (R167, header offset 14). -/
structure AttentionMask where
  locked : Bool
  tripped : Bool
  isolated : Bool
  overflow : Bool
  peerAbsent : Bool
  deriving DecidableEq, Repr

/-- The accepted image, its times multiplied out (R172). -/
structure Image where
  plantBudget : Nat
  heartbeatPeriod : Micros
  stalenessLimit : Micros
  isolationLimit : Micros
  listenInterval : Micros
  settleInterval : Micros
  claimHoldLimit : Micros
  retryGap : Micros
  mask : AttentionMask
  channels : PerChannel ChannelRecord
  consoles : List ConsoleEntry
  deriving DecidableEq, Repr

/-- The reject reasons (R139, table 10-6). -/
inductive RejectReason where
  | noImage | check | version | length | range | weight | reference | duplicate | peerLimit
  | holdLimit | address
  deriving DecidableEq, Repr

/-! ## Dependencies (03) -/

/-- An entry of the Peer Table (R52). `state` is `none` for UNKNOWN. -/
structure PeerEntry where
  ref : Ref
  state : Option StateCode
  feedbackClosed : Bool
  held : Bool
  isPresent : Bool
  ageTimer : Timer
  deriving DecidableEq, Repr

/-- What the Dependency Unit holds beside the lists of the image (R50). `marks` lists, for each
channel, the needs references whose watch mark is set, in the order of the needs list. -/
structure DependencyUnit where
  peers : List PeerEntry
  callWait : PerChannel Timer
  marks : PerChannel (List Ref)
  deriving DecidableEq, Repr

/-! ## The Start Budget (04) -/

/-- An arrival mark of a remote entry with respect to an own PROVISIONAL claim (R82). -/
inductive Arrival where
  | before | during
  deriving DecidableEq, Repr

/-- The origin and status of a Claim Table entry; a remote one carries its arrival marks, each with the
number of the own PROVISIONAL claim it is with respect to (R75, R82). -/
inductive ClaimStatus where
  | provisional
  | live
  | remote (marks : List (Nat × Arrival))
  deriving DecidableEq, Repr

/-- An entry of the Claim Table (R75). `timer` is the settle timer of an own PROVISIONAL claim, the
inrush hold of an own LIVE claim whose channel has left STARTING (R90), and the hold timer of a remote
entry (R94). -/
structure Claim where
  station : Nat
  number : Nat
  ch : Ch
  weight : Nat
  rank : Nat
  status : ClaimStatus
  timer : Timer
  deriving DecidableEq, Repr

/-- What the Budget Unit holds beside the fields of the image (R74). `fullAtEval` says that the
transmit queue was full at the last evaluation (R80, log 24). -/
structure BudgetUnit where
  claims : List Claim
  counter : Nat
  overflow : Bool
  overflowTimer : Timer
  retryGap : PerChannel Timer
  fullAtEval : Bool
  deriving DecidableEq, Repr

/-! ## Holds (06) -/

/-- An entry of the Hold List (R119), with its expiry timer (R122). -/
structure HoldEntry where
  target : Target
  origin : Nat
  tag : Nat
  level : Nat
  expiryMinutes : Option Nat
  timer : Timer
  deriving DecidableEq, Repr

/-- What the Command Unit holds beside the console list of the image (R113). -/
structure CommandUnit where
  holds : List HoldEntry
  keyFlag : PerChannel Bool
  keyTimer : PerChannel Timer
  button : PerChannel Bool
  buttonTimer : PerChannel Timer
  deriving DecidableEq, Repr

/-! ## Plant Phase (05) -/

/-- The plant phase (R101). -/
inductive Phase where
  | day | evening | night | morning
  deriving DecidableEq, Repr

/-- What the Phase Unit holds (R101). -/
structure PhaseUnit where
  phase : Phase
  epoch : Word32
  source : Nat
  deriving DecidableEq, Repr

/-! ## Mode Control (07) -/

/-- The node mode (R135). -/
inductive Mode where
  | loading | unconfigured | listening | operating | isolated | silent
  deriving DecidableEq, Repr

/-- What Mode Control holds (R135). The stagger's status is RUNNING while its timer runs and IDLE
otherwise (R146, log 29). -/
structure ModeControl where
  mode : Mode
  inReset : Bool
  station : Nat
  startCause : StartCause
  image : Option Image
  reject : Option (RejectReason × Nat)
  listenTimer : Timer
  isolationTimer : Timer
  staggerTimer : Timer
  bypassTimer : PerChannel Timer
  deriving DecidableEq, Repr

/-! ## The Span Line (08) and its frames (10) -/

/-- The reply codes (table 10-7). -/
inductive ReplyCode where
  | accepted | deferred | refusedLevel | refusedMode | refusedHeld | refusedInUse | refusedLocked
  | refusedState | listFull | noSuch | refusedForm
  deriving DecidableEq, Repr

/-- What a NOTICE reports: its code, channel and detail (R168). -/
inductive Notice where
  | started (cause : StartCause)
  | imageRejected (record : Nat) (reason : RejectReason)
  | tripped (ch : Ch) (cause : TripCause)
  | locked (ch : Ch) (cause : LockCause)
  | providerLost (ch : Ch) (provider : Ref)
  | callUnanswered (ch : Ch) (provider : Ref)
  | peerAbsent (station : Nat)
  | holdExpired (target : Target) (tag : Nat)
  | claimOverflow
  | isolated
  | rejoined
  deriving DecidableEq, Repr

/-- One channel's report in a STATE frame (R159, R171). -/
structure ChannelReport where
  state : StateCode
  closed : Bool
  held : Bool
  deriving DecidableEq, Repr

/-- What a STATE frame reports (R159). -/
structure StateReport where
  mode : Mode
  cause : StartCause
  phase : Phase
  epoch : Word32
  source : Nat
  channels : PerChannel ChannelReport
  deriving DecidableEq, Repr

/-- The contents of a frame the node sends, one constructor for each of its seven kinds (R152). -/
inductive Body where
  | state (report : StateReport)
  | claim (number : Nat) (ch : Ch) (weight rank : Nat)
  | withdraw (number : Nat)
  | release (number : Nat)
  | call (caller : Ch) (targets : List Ref)
  | reply (kind channel tag : Byte) (code : ReplyCode)
  | notice (n : Notice)
  deriving DecidableEq, Repr

/-- A frame the node has queued: its target station and its contents, fixed when it is queued (R152).
The sender is the node's station number (R151). -/
structure Frame where
  target : Byte
  body : Body
  deriving DecidableEq, Repr

/-- The frame in the sender and its bytes on the line, check sequence included (R153, R170). -/
structure Sending where
  frame : Frame
  wire : List Byte
  deriving DecidableEq, Repr

/-- What the Line Interface holds (R150). `awaitingGap`: since the release of reset the line has not
yet been seen quiet for an access gap. `inProgress`: the opening field of a frame being received. How
long the line has been quiet is not held (log 35). -/
structure LineInterface where
  queue : List Frame
  sender : Option Sending
  attempts : Nat
  driving : Bool
  heartbeatTimer : Timer
  awaitingGap : Bool
  inProgress : Option Byte
  deriving DecidableEq, Repr

/-! ## Lamps (09) -/

/-- The step position of a lamp and the time left of its step (R164). -/
structure LampState where
  step : Nat
  timer : Timer
  deriving DecidableEq, Repr

/-- What the Indicator Unit holds beside the attention mask of the image (R164). -/
structure IndicatorUnit where
  channels : PerChannel LampState
  node : LampState
  deriving DecidableEq, Repr

/-! ## Field inputs -/

/-- The levels of the field inputs now (00_scope.md, pin summary). -/
structure FieldInputs where
  feedbackClosed : PerChannel Bool
  senseActive : PerChannel Bool
  keyOn : PerChannel Bool
  buttonPressed : PerChannel Bool
  deriving DecidableEq, Repr

/-! ## The whole node -/

/-- The state of the node: its blocks, the field inputs, the time (log 1) and the queue of the
commands that wait, first in, first out (log 3). -/
structure State where
  cc : PerChannel Controller
  it : PerChannel Tracker
  du : DependencyUnit
  bu : BudgetUnit
  cu : CommandUnit
  pu : PhaseUnit
  mc : ModeControl
  li : LineInterface
  iu : IndicatorUnit
  pins : FieldInputs
  now : Micros
  pending : List Instr
  deriving DecidableEq, Repr

/-- No command of this node stops it: the manual describes no fault that ends a step (INVENTORY,
Faults). The type has no constructor. -/
inductive Fault where
  deriving DecidableEq, Repr

/-- Why a command has no meaning here. -/
inductive Refusal where
  /-- Raised by an arm of `exec` whose command is not modelled yet; safe: the machine stops where the
  hardware goes on. No arm of this model raises it. -/
  | notModelled (mnemonic : String)
  deriving DecidableEq, Repr

/-! ## Reset values -/

/-- A controller after a reset whose FBn reports `closed` (R1). -/
def Controller.reset (closed : Bool) : Controller where
  state := .offline
  origins := {}
  tripCount := 0
  feedbackClosed := closed
  mark := none
  mismatchTimer := none
  runDownTimer := none
  inrushTimer := none
  retryTimer := none

/-- A tracker after a reset (R33). -/
def Tracker.reset : Tracker where
  status := .stopped
  active := false
  debounceTimer := none
  windowTimer := none
  remaining := none
  count := 0
  history := []
  cadence := none
  sinceOnset := none

/-- The Dependency Unit after a reset (R50). -/
def DependencyUnit.reset : DependencyUnit where
  peers := []
  callWait := .all none
  marks := .all []

/-- The Budget Unit after a reset (R74). -/
def BudgetUnit.reset : BudgetUnit where
  claims := []
  counter := 1
  overflow := false
  overflowTimer := none
  retryGap := .all none
  fullAtEval := false

/-- The Command Unit after a reset: flags and buttons take the positions of their inputs (R113). -/
def CommandUnit.reset (pins : FieldInputs) : CommandUnit where
  holds := []
  keyFlag := pins.keyOn
  keyTimer := .all none
  button := pins.buttonPressed
  buttonTimer := .all none

/-- The Phase Unit after a reset (R101). -/
def PhaseUnit.reset : PhaseUnit where
  phase := .day
  epoch := 0
  source := 0

/-- Mode Control in a reset of this cause (R135, R136). The station number is read at the release;
until then it is 0 (log 6). -/
def ModeControl.reset (cause : StartCause) : ModeControl where
  mode := .loading
  inReset := true
  station := 0
  startCause := cause
  image := none
  reject := none
  listenTimer := none
  isolationTimer := none
  staggerTimer := none
  bypassTimer := .all none

/-- The Line Interface after a reset (R150). -/
def LineInterface.reset : LineInterface where
  queue := []
  sender := none
  attempts := 0
  driving := false
  heartbeatTimer := none
  awaitingGap := true
  inProgress := none

/-- The Indicator Unit while the node is held in reset (R164). -/
def IndicatorUnit.reset : IndicatorUnit where
  channels := .all ⟨0, none⟩
  node := ⟨0, none⟩

/-- The field inputs at the model's start (log 6): contacts open, no activity, keys off, buttons
released. -/
def FieldInputs.initial : FieldInputs where
  feedbackClosed := .all false
  senseActive := .all false
  keyOn := .all false
  buttonPressed := .all false

/-- The node right after a POWER reset, still held in it: RESET_RELEASE comes next (R136, log 6). -/
def State.reset : State where
  cc := .all (Controller.reset false)
  it := .all Tracker.reset
  du := DependencyUnit.reset
  bu := BudgetUnit.reset
  cu := CommandUnit.reset FieldInputs.initial
  pu := PhaseUnit.reset
  mc := ModeControl.reset .power
  li := LineInterface.reset
  iu := IndicatorUnit.reset
  pins := FieldInputs.initial
  now := 0
  pending := []

end Sys2Proof.Machine
end

