-- ==== Sys2Proof/Machine/Operands.lean ====
section
/-! DEFINITION. The byte layouts of 10_formats.md: the codes, the payload of every frame the node sends
or receives, the frame envelope with its check sequence (R170), the receiver's validity checks (R160)
and the reading of payload fields (R171). -/

namespace Sys2Proof.Machine

/-! ## Fields of more than one byte: most significant byte first (R171, R172) -/

/-- The two bytes of a 16-bit field. -/
def bytes16 (w : Word16) : List Byte := [w.extractLsb' 8 8, w.extractLsb' 0 8]

/-- The four bytes of a 32-bit field. -/
def bytes32 (w : Word32) : List Byte :=
  [w.extractLsb' 24 8, w.extractLsb' 16 8, w.extractLsb' 8 8, w.extractLsb' 0 8]

/-- The 16-bit field of two bytes. -/
def word16 (hi lo : Byte) : Word16 := hi ++ lo

/-- The 32-bit field of four bytes. -/
def word32 (a b c d : Byte) : Word32 := a ++ b ++ c ++ d

/-- A count as a byte. -/
def byte (n : Nat) : Byte := BitVec.ofNat 8 n

/-! ## Code tables (10.3) -/

/-- Table 10-4. -/
def StateCode.toNat : StateCode → Nat
  | .offline => 0
  | .awake => 1
  | .waiting => 2
  | .coast => 3
  | .rest => 4
  | .pending => 5
  | .starting => 6
  | .tripped => 7
  | .locked => 8
  | .bypass => 9

/-- Table 10-4, read back; a code from 10 to 15 is no channel state (R171). -/
def StateCode.ofNat? : Nat → Option StateCode
  | 0 => some .offline
  | 1 => some .awake
  | 2 => some .waiting
  | 3 => some .coast
  | 4 => some .rest
  | 5 => some .pending
  | 6 => some .starting
  | 7 => some .tripped
  | 8 => some .locked
  | 9 => some .bypass
  | _ => none

/-- The state a STATE frame reports for a channel (R1, table 10-4). -/
def ChState.code : ChState → StateCode
  | .offline => .offline
  | .awake => .awake
  | .waiting => .waiting
  | .coast => .coast
  | .rest => .rest
  | .pending _ => .pending
  | .starting _ => .starting
  | .tripped _ => .tripped
  | .locked _ => .locked
  | .bypass => .bypass

/-- Table 10-5. LOADING and SILENT have no code: the node sends no frame in them. -/
def Mode.code : Mode → Nat
  | .loading => 0
  | .unconfigured => 1
  | .listening => 2
  | .operating => 3
  | .isolated => 4
  | .silent => 0

/-- The start causes of a STATE frame (R171). -/
def startCauseCode : StartCause → Nat
  | .power => 1
  | .line => 2
  | .dip => 3

/-- The phase codes (R171). -/
def Phase.code : Phase → Nat
  | .day => 0
  | .evening => 1
  | .night => 2
  | .morning => 3

/-- The phase codes, read back (R104, R105). -/
def Phase.ofNat? : Nat → Option Phase
  | 0 => some .day
  | 1 => some .evening
  | 2 => some .night
  | 3 => some .morning
  | _ => none

/-- The load kinds of table 10-6. -/
def Kind.ofNat? : Nat → Option Kind
  | 0 => some .none
  | 1 => some .press
  | 2 => some .hydraulic
  | 3 => some .air
  | 4 => some .fan
  | 5 => some .conveyor
  | 6 => some .aux
  | _ => none

/-- The fault causes of table 10-6, as trip causes. -/
def TripCause.code : TripCause → Nat
  | .feedbackCloseFail => 1
  | .dropout => 2

/-- The fault causes of table 10-6, as lock causes. -/
def LockCause.code : LockCause → Nat
  | .feedbackCloseFail => 1
  | .dropout => 2
  | .repeatedTrip => 3
  | .welded => 4
  | .forced => 5

/-- The reject reasons of table 10-6. -/
def RejectReason.code : RejectReason → Nat
  | .noImage => 1
  | .check => 2
  | .version => 3
  | .length => 4
  | .range => 5
  | .weight => 6
  | .reference => 7
  | .duplicate => 8
  | .peerLimit => 9
  | .holdLimit => 10
  | .address => 11

/-- Table 10-7. -/
def ReplyCode.code : ReplyCode → Nat
  | .accepted => 0
  | .deferred => 1
  | .refusedLevel => 2
  | .refusedMode => 3
  | .refusedHeld => 4
  | .refusedInUse => 5
  | .refusedLocked => 6
  | .refusedState => 7
  | .listFull => 8
  | .noSuch => 9
  | .refusedForm => 10

/-- A channel byte that names ALL, or none (R171). -/
def channelAll : Byte := 0xFF

/-- The channel byte of a hold's target (R171). -/
def targetByte : Target → Byte
  | .channel ch => byte ch.toNat
  | .all => channelAll

/-! ## Table 10-3: frame kinds -/

/-- Table 10-3: the payload length of each of the thirteen kinds. -/
def payloadLength? : Nat → Option Nat
  | 0x01 => some 14
  | 0x02 => some 4
  | 0x03 => some 1
  | 0x04 => some 1
  | 0x05 => some 10
  | 0x06 => some 6
  | 0x07 => some 2
  | 0x08 => some 2
  | 0x09 => some 5
  | 0x0A => some 3
  | 0x0B => some 2
  | 0x0C => some 4
  | 0x0D => some 4
  | _ => none

/-- Kind codes of table 10-3. -/
def kindState : Byte := 0x01
def kindClaim : Byte := 0x02
def kindWithdraw : Byte := 0x03
def kindRelease : Byte := 0x04
def kindCall : Byte := 0x05
def kindPhase : Byte := 0x06
def kindWake : Byte := 0x07
def kindShed : Byte := 0x08
def kindHold : Byte := 0x09
def kindUnhold : Byte := 0x0A
def kindUnlock : Byte := 0x0B
def kindReply : Byte := 0x0C
def kindNotice : Byte := 0x0D

/-! ## Payloads of the frames the node sends (R171) -/

/-- A channel report byte: the state code in bits 0 to 3, feedback closed in bit 4, held in bit 5. -/
def ChannelReport.toByte (r : ChannelReport) : Byte :=
  byte (r.state.toNat + (if r.closed then 16 else 0) + (if r.held then 32 else 0))

/-- The payload of a STATE frame. -/
def StateReport.payload (r : StateReport) : List Byte :=
  [byte r.mode.code, byte (startCauseCode r.cause), byte r.phase.code] ++ bytes32 r.epoch ++ [byte r.source] ++
    (r.channels.map ChannelReport.toByte).toList

/-- The two bytes of a reference. -/
def Ref.bytes (r : Ref) : List Byte := [byte r.station, byte r.channel]

/-- The target slots of a CALL frame, unused ones zero. -/
def callSlots (targets : List Ref) : List Byte :=
  ((targets.flatMap Ref.bytes) ++ List.replicate 8 0).take 8

/-- The code, channel byte and detail bytes of a NOTICE (tables 10-8 and 10-9). -/
def Notice.payload : Notice → List Byte
  | .started cause => [channelAll, 1, byte (startCauseCode cause), 0]
  | .imageRejected record reason => [channelAll, 2, byte record, byte reason.code]
  | .tripped ch cause => [byte ch.toNat, 3, byte cause.code, 0]
  | .locked ch cause => [byte ch.toNat, 4, byte cause.code, 0]
  | .providerLost ch p => [byte ch.toNat, 5, byte p.station, byte p.channel]
  | .callUnanswered ch p => [byte ch.toNat, 6, byte p.station, byte p.channel]
  | .peerAbsent station => [channelAll, 7, byte station, 0]
  | .holdExpired target tag => [targetByte target, 8, targetByte target, byte tag]
  | .claimOverflow => [channelAll, 9, 0, 0]
  | .isolated => [channelAll, 10, 0, 0]
  | .rejoined => [channelAll, 11, 0, 0]

/-- The kind code of a frame the node sends. -/
def Body.kind : Body → Byte
  | .state _ => kindState
  | .claim _ _ _ _ => kindClaim
  | .withdraw _ => kindWithdraw
  | .release _ => kindRelease
  | .call _ _ => kindCall
  | .reply _ _ _ _ => kindReply
  | .notice _ => kindNotice

/-- The payload of a frame the node sends. -/
def Body.payload : Body → List Byte
  | .state r => r.payload
  | .claim number ch weight rank => [byte number, byte ch.toNat, byte weight, byte rank]
  | .withdraw number => [byte number]
  | .release number => [byte number]
  | .call caller targets => [byte caller.toNat, byte targets.length] ++ callSlots targets
  | .reply kind channel tag code => [kind, channel, tag, byte code.code]
  | .notice n => n.payload

/-! ## Payloads of the frames the node receives (R171) -/

/-- The payload of a received STATE frame. -/
def statePayloadBytes (p : StatePayload) : List Byte :=
  [p.mode, p.cause, p.phase] ++ bytes32 p.epoch ++ [p.source] ++ p.reports.toList

/-- The payload of a received CALL frame. -/
def callPayloadBytes (p : CallPayload) : List Byte :=
  [p.caller, p.count, p.slot1.station, p.slot1.channel, p.slot2.station, p.slot2.channel,
    p.slot3.station, p.slot3.channel, p.slot4.station, p.slot4.channel]

/-- The targets of a CALL: the first `count` slots in order; none when the count is 0 or above 4
(R171). -/
def callTargets (p : CallPayload) : List Ref :=
  let slots := [p.slot1, p.slot2, p.slot3, p.slot4].map fun s =>
    (⟨s.station.toNat, s.channel.toNat⟩ : Ref)
  if p.count.toNat ≤ 4 then slots.take p.count.toNat else []

/-- The state a channel report byte carries, `none` for UNKNOWN (R53, R171). -/
def reportState (b : Byte) : Option StateCode := StateCode.ofNat? (b.extractLsb' 0 4).toNat

/-- The feedback flag a channel report byte carries. -/
def reportClosed (b : Byte) : Bool := b.getLsbD 4

/-- The held flag a channel report byte carries. -/
def reportHeld (b : Byte) : Bool := b.getLsbD 5

/-- The channel or ALL that a channel byte names; `none` for a channel the node does not have
(R171). -/
def targetOfByte? (b : Byte) : Option Target :=
  if b = channelAll then some .all else (Ch.ofNat? b.toNat).map .channel

/-! ## The check sequence (R170) -/

/-- One data bit: the register shifts toward its most significant end, and is combined with 1021h when
the bit shifted out differs from the data bit. -/
def checkBit (r : Word16) (bit : Bool) : Word16 :=
  if r.msb = bit then r <<< 1 else (r <<< 1) ^^^ 0x1021

/-- One byte, most significant bit first. -/
def checkByte (r : Word16) (b : Byte) : Word16 :=
  [7, 6, 5, 4, 3, 2, 1, 0].foldl (fun r i => checkBit r (b.getLsbD i)) r

/-- The check sequence of the fields before it. -/
def checkSequence (bytes : List Byte) : Word16 := bytes.foldl checkByte 0xFFFF

/-! ## The frame envelope (10.1) -/

/-- The bytes of a frame on the line: opening field, kind, target, length, payload, check sequence. -/
def lineBytes (sender kind target : Byte) (payload : List Byte) : List Byte :=
  let fields := [sender, kind, target, byte payload.length] ++ payload
  fields ++ bytes16 (checkSequence fields)

/-- The bytes on the line of a frame that this station sends (R151). -/
def Frame.wire (station : Nat) (f : Frame) : List Byte :=
  lineBytes (byte station) f.body.kind f.target f.body.payload

/-- A valid frame's fields. -/
structure RawFrame where
  sender : Byte
  kind : Byte
  target : Byte
  payload : List Byte
  deriving DecidableEq, Repr

/-- The payload length is the one table 10-3 gives for the kind, where the kind is one of the thirteen
(R160). -/
def lengthMatches (kind : Byte) (n : Nat) : Bool :=
  match payloadLength? kind.toNat with
  | some k => k == n
  | none => true

/-- A station number that can send (R151, R160). -/
def isStation (b : Byte) : Bool := decide (1 ≤ b.toNat ∧ b.toNat ≤ 63)

/-- The receiver's judgement of what it took from the line: the fields of a valid frame, or `none`
(R160). -/
def receive : List Byte → Option RawFrame
  | sender :: kind :: target :: len :: rest =>
    let payload := rest.take len.toNat
    let check := bytes16 (checkSequence ([sender, kind, target, len] ++ payload))
    if isStation sender ∧ len.toNat ≤ 40 ∧ rest.length = len.toNat + 2 ∧
        lengthMatches kind len.toNat ∧ rest.drop len.toNat = check then
      some ⟨sender, kind, target, payload⟩
    else none
  | _ => none

end Sys2Proof.Machine
end

