-- ==== Sys2Proof/Decode.lean ====
section
/-! DEFINITION. What spells a command. No row of the command table has bits, so no word does (log 7); the
bytes of a frame on the line spell the command of its arrival (10.1, 10.2). -/

namespace Sys2Proof

/-- The command that a word of the command table spells: none, for the table gives no row bits
(log 7). -/
def decodeTableWord (_nbits _w : Nat) : Option Instr := none

open Sys2Proof.Machine

/-- The command of a frame with no payload field of its own to spell: its kind is none of the thirteen,
or its payload is not of the kind's length (which `receive` has refused). -/
def otherFrame (m : Moment) (r : RawFrame) : Instr :=
  .unknownKindFrame m ⟨r.sender, r.target⟩ r.kind r.payload

/-- The command of a STATE frame's arrival. -/
def stateFrame (m : Moment) (r : RawFrame) : Instr :=
  match r.payload with
  | [mode, cause, phase, e0, e1, e2, e3, source, r0, r1, r2, r3, r4, r5] =>
    .stateReceived m ⟨r.sender, r.target⟩
      ⟨mode, cause, phase, word32 e0 e1 e2 e3, source, ⟨r0, r1, r2, r3, r4, r5⟩⟩
  | _ => otherFrame m r

/-- The command of a CALL frame's arrival. -/
def callFrameCommand (m : Moment) (r : RawFrame) : Instr :=
  match r.payload with
  | [caller, count, s1, c1, s2, c2, s3, c3, s4, c4] =>
    .callReceived m ⟨r.sender, r.target⟩ ⟨caller, count, ⟨s1, c1⟩, ⟨s2, c2⟩, ⟨s3, c3⟩, ⟨s4, c4⟩⟩
  | _ => otherFrame m r

/-- The command of a valid frame's arrival, by its kind (tables 10-3 and 10.2). -/
def rawCommand (m : Moment) (r : RawFrame) : Instr :=
  match r.kind.toNat, r.payload with
  | 0x01, _ => stateFrame m r
  | 0x02, [number, channel, weight, rank] =>
    .claimReceived m ⟨r.sender, r.target⟩ number channel weight rank
  | 0x03, [number] => .withdrawReceived m ⟨r.sender, r.target⟩ number
  | 0x04, [number] => .releaseReceived m ⟨r.sender, r.target⟩ number
  | 0x05, _ => callFrameCommand m r
  | 0x06, [phase, e0, e1, e2, e3, level] =>
    .phaseReceived m ⟨r.sender, r.target⟩ phase (word32 e0 e1 e2 e3) level
  | 0x07, [channel, level] => .wake m ⟨r.sender, r.target⟩ channel level
  | 0x08, [channel, level] => .shed m ⟨r.sender, r.target⟩ channel level
  | 0x09, [target, tag, level, x0, x1] =>
    .hold m ⟨r.sender, r.target⟩ target tag level (word16 x0 x1)
  | 0x0A, [target, tag, level] => .unhold m ⟨r.sender, r.target⟩ target tag level
  | 0x0B, [channel, level] => .unlock m ⟨r.sender, r.target⟩ channel level
  | 0x0C, [kind, channel, tag, code] =>
    .replyReceived m ⟨r.sender, r.target⟩ kind channel tag code
  | 0x0D, [channel, code, detail1, detail2] =>
    .noticeReceived m ⟨r.sender, r.target⟩ channel code detail1 detail2
  | _, _ => otherFrame m r

/-- The command that bytes taken from the line spell: the arrival of a valid frame, or of an invalid one
(R160). -/
def frameCommand (m : Moment) (bytes : List Byte) : Instr :=
  match receive bytes with
  | some r => rawCommand m r
  | none => .invalidFrame m bytes

/-- The bytes on the line of the frame whose arrival a command is, if it is a frame's arrival
(10.1, 10.2). -/
def commandBytes : Instr → Option (List Byte)
  | .unknownKindFrame _ env kind payload => some (lineBytes env.sender kind env.target payload)
  | .stateReceived _ env p => some (lineBytes env.sender kindState env.target (statePayloadBytes p))
  | .phaseReceived _ env phase epoch level =>
    some (lineBytes env.sender kindPhase env.target ([phase] ++ bytes32 epoch ++ [level]))
  | .claimReceived _ env number channel weight rank =>
    some (lineBytes env.sender kindClaim env.target [number, channel, weight, rank])
  | .withdrawReceived _ env number => some (lineBytes env.sender kindWithdraw env.target [number])
  | .releaseReceived _ env number => some (lineBytes env.sender kindRelease env.target [number])
  | .callReceived _ env p => some (lineBytes env.sender kindCall env.target (callPayloadBytes p))
  | .wake _ env channel level => some (lineBytes env.sender kindWake env.target [channel, level])
  | .shed _ env channel level => some (lineBytes env.sender kindShed env.target [channel, level])
  | .hold _ env target tag level expiry =>
    some (lineBytes env.sender kindHold env.target ([target, tag, level] ++ bytes16 expiry))
  | .unhold _ env target tag level =>
    some (lineBytes env.sender kindUnhold env.target [target, tag, level])
  | .unlock _ env channel level =>
    some (lineBytes env.sender kindUnlock env.target [channel, level])
  | .replyReceived _ env kind channel tag code =>
    some (lineBytes env.sender kindReply env.target [kind, channel, tag, code])
  | .noticeReceived _ env channel code detail1 detail2 =>
    some (lineBytes env.sender kindNotice env.target [channel, code, detail1, detail2])
  | _ => none

end Sys2Proof
end

