-- ==== Sys2Proof/Machine/Image.lean ====
section
/-! DEFINITION. The configuration image: its fields in the bytes of the configuration memory (10.4,
R172), the checks that judge it whole in the manual's order (R138, R139), and the list of remote
references from which the Peer Table is built (R52). -/

namespace Sys2Proof.Machine

/-! ## Bytes of a record -/

/-- The byte at an offset of a record. -/
def byteAt (record : List Byte) (offset : Nat) : Nat := (record.getD offset 0).toNat

/-- The two-byte field at an offset of a record, most significant byte first (R172). -/
def wordAt (record : List Byte) (offset : Nat) : Nat :=
  byteAt record offset * 256 + byteAt record (offset + 1)

/-- The record's check byte is correct: all its bytes add to 0 modulo 256 (R172). -/
def sumCorrect (record : List Byte) : Bool := record.foldl (· + ·) (0 : Byte) == 0

/-- The first `count` two-byte slots from an offset (R172). -/
def slotsAt (record : List Byte) (offset count : Nat) : List (Nat × Nat) :=
  (List.range count).map fun k => (byteAt record (offset + 2 * k), byteAt record (offset + 2 * k + 1))

/-- A record that the memory answered whole (R138, log 19). -/
def answered (length : Nat) : Option (List Byte) → Option (List Byte)
  | some bytes => if bytes.length = length then some bytes else none
  | none => none

/-! ## Ranges (check 7) -/

/-- A value lies in a range, both ends included. -/
def inRange (v lo hi : Nat) : Bool := decide (lo ≤ v ∧ v ≤ hi)

/-- Every field of the header lies in its range (10.4, header). -/
def headerInRange (h : List Byte) : Bool :=
  inRange (byteAt h 3) 1 63 && inRange (byteAt h 4) 1 10 && inRange (byteAt h 5) 3 120 &&
  inRange (wordAt h 6) 5 600 && inRange (byteAt h 8) 2 60 && inRange (wordAt h 9) 10 500 &&
  inRange (wordAt h 11) 5 600 && inRange (byteAt h 13) 1 60 && inRange (byteAt h 14) 0 31

/-- A reference slot in use lies in its range: station 0 to 63, channel 0 to 5 (R172). -/
def slotInRange (s : Nat × Nat) : Bool := inRange s.1 0 63 && inRange s.2 0 5

/-- Every field of a channel record lies in its range; kind NONE has both lists empty (10.4, R139,
R172). -/
def channelInRange (r : List Byte) : Bool :=
  inRange (byteAt r 0) 0 6 && inRange (byteAt r 1) 1 3 && inRange (byteAt r 2) 1 63 &&
  inRange (byteAt r 3) 1 120 && inRange (byteAt r 4) 1 15 && inRange (byteAt r 5) 1 255 &&
  inRange (wordAt r 6) 0 1800 && inRange (byteAt r 8) 1 120 && inRange (byteAt r 9) 5 255 &&
  inRange (wordAt r 10) 10 3600 && inRange (byteAt r 12) 0 3 && inRange (wordAt r 13) 10 1800 &&
  inRange (byteAt r 15) 0 1 && inRange (byteAt r 16) 0 4 && inRange (byteAt r 25) 0 8 &&
  (slotsAt r 17 (byteAt r 16)).all slotInRange && (slotsAt r 26 (byteAt r 25)).all slotInRange &&
  (byteAt r 0 != 0 || (byteAt r 16 == 0 && byteAt r 25 == 0))

/-- Every field of the console record lies in its range (10.4, R139). -/
def consoleInRange (r : List Byte) : Bool :=
  inRange (byteAt r 0) 0 8 &&
  (slotsAt r 1 (byteAt r 0)).all fun s => inRange s.1 1 63 && inRange s.2 0 3

/-! ## The fields of an image, stored counts multiplied by their steps (R172) -/

/-- The references of a list. -/
def refsAt (r : List Byte) (offset count : Nat) : List Ref :=
  (slotsAt r offset count).map fun s => ⟨s.1, s.2⟩

/-- A channel record's fields (10.4). -/
def parseChannel (r : List Byte) : ChannelRecord where
  kind := (Kind.ofNat? (byteAt r 0)).getD .none
  rank := byteAt r 1
  weight := byteAt r 2
  idleWindow := Config.minutes (byteAt r 3)
  requiredCount := byteAt r 4
  debounce := Config.ms (100 * byteAt r 5)
  runDown := Config.sec (wordAt r 6)
  inrushWindow := Config.sec (byteAt r 8)
  feedbackWindow := Config.ms (10 * byteAt r 9)
  retryDelay := Config.sec (wordAt r 10)
  retryLimit := byteAt r 12
  callWaitLimit := Config.sec (wordAt r 13)
  morning := byteAt r 15 == 1
  needs := refsAt r 17 (byteAt r 16)
  serves := refsAt r 26 (byteAt r 25)

/-- The attention mask's flags (header offset 14). -/
def parseMask (b : Byte) : AttentionMask where
  locked := b.getLsbD 0
  tripped := b.getLsbD 1
  isolated := b.getLsbD 2
  overflow := b.getLsbD 3
  peerAbsent := b.getLsbD 4

/-- The image of its header, channel records and console record (10.4). -/
def parseImage (h : List Byte) (channels : PerChannel (List Byte)) (c : List Byte) : Image where
  plantBudget := byteAt h 3
  heartbeatPeriod := Config.sec (byteAt h 4)
  stalenessLimit := Config.sec (byteAt h 5)
  isolationLimit := Config.sec (wordAt h 6)
  listenInterval := Config.sec (byteAt h 8)
  settleInterval := Config.ms (10 * wordAt h 9)
  claimHoldLimit := Config.sec (wordAt h 11)
  retryGap := Config.sec (byteAt h 13)
  mask := parseMask (h.getD 14 0)
  channels := channels.map parseChannel
  consoles := (slotsAt c 1 (byteAt c 0)).map fun s => ⟨s.1, s.2⟩

/-! ## Remote references (R51, R52) -/

/-- The order of the Peer Table: station, then channel (R52). -/
def refBefore (a b : Ref) : Bool :=
  decide (a.station < b.station ∨ (a.station = b.station ∧ a.channel < b.channel))

/-- Put a reference in its place, once. -/
def insertRef (r : Ref) : List Ref → List Ref
  | [] => [r]
  | x :: xs => if r = x then x :: xs else if refBefore r x then r :: x :: xs else x :: insertRef r xs

/-- The distinct remote references of some channel records, in order of station then channel (R52). -/
def remoteRefs (station : Nat) (records : List ChannelRecord) : List Ref :=
  ((records.flatMap fun r => r.needs ++ r.serves).filter fun r => r.station != station).foldl
    (fun acc r => insertRef r acc) []

/-- A configured channel's record: its kind is other than NONE (00_scope.md, Terms). -/
def ChannelRecord.used (r : ChannelRecord) : Bool := r.kind != .none

/-! ## The checks of R139, in table order -/

/-- No list holds the same reference twice. -/
def noDuplicates : List Ref → Bool
  | [] => true
  | r :: rest => !rest.contains r && noDuplicates rest

/-- No reference of the record names station 0 or the record's own channel (check 9). -/
def referencesGood (station channel : Nat) (r : ChannelRecord) : Bool :=
  (r.needs ++ r.serves).all fun ref =>
    ref.station != 0 && !(ref.station == station && ref.channel == channel)

/-- One row of R139's table: the reason on failure, the record index of the row's first item, and
whether each item passes, in memory order. -/
structure ImageCheck where
  reason : RejectReason
  base : Nat
  passes : List Bool

/-- The index of the first item that fails. -/
def firstFailing : List Bool → Option Nat
  | [] => none
  | false :: _ => some 0
  | true :: rest => (firstFailing rest).map (· + 1)

/-- The first check that fails, in table order, with the record index it reports (R139). -/
def firstReject : List ImageCheck → Option (RejectReason × Nat)
  | [] => none
  | c :: rest =>
    match firstFailing c.passes with
    | some i => some (c.reason, c.base + i)
    | none => firstReject rest

/-- What the memory answered of each record, empty where it did not answer whole (R138). -/
def imageBytes (read : ImageRead) : List Byte × PerChannel (List Byte) × List Byte :=
  ((answered 16 read.header).getD [], read.channels.map fun r => (answered 43 r).getD [],
    (answered 18 read.console).getD [])

/-- The image that the memory's answer spells, whether or not it is accepted. -/
def imageOf (read : ImageRead) : Image :=
  let b := imageBytes read
  parseImage b.1 b.2.1 b.2.2

/-- The thirteen checks of R139, in table order. -/
def imageChecks (station : Nat) (read : ImageRead) : List ImageCheck :=
  let b := imageBytes read
  let header := b.1
  let records := b.2.1.toList ++ [b.2.2]
  let image := imageOf read
  let channels := image.channels.toList
  [ ⟨.noImage, 0, [(answered 16 read.header).isSome]⟩,
    ⟨.check, 0, [sumCorrect header]⟩,
    ⟨.version, 0, [byteAt header 0 == 1]⟩,
    ⟨.length, 0, [wordAt header 1 == 292]⟩,
    ⟨.noImage, 1, (read.channels.map fun r => (answered 43 r).isSome).toList ++
      [(answered 18 read.console).isSome]⟩,
    ⟨.check, 1, records.map sumCorrect⟩,
    ⟨.range, 0, [headerInRange header] ++ b.2.1.toList.map channelInRange ++ [consoleInRange b.2.2]⟩,
    ⟨.weight, 1, channels.map fun r => !r.used || decide (r.weight ≤ image.plantBudget)⟩,
    ⟨.reference, 1, Ch.all.map fun ch => referencesGood station ch.toNat (image.channels.get ch)⟩,
    ⟨.duplicate, 1, channels.map fun r => noDuplicates r.needs && noDuplicates r.serves⟩,
    ⟨.peerLimit, 1, Ch.all.map fun ch =>
      decide ((remoteRefs station (channels.take (ch.toNat + 1))).length ≤ Config.peerCapacity)⟩,
    ⟨.holdLimit, 1, channels.map fun r =>
      !r.used || decide (r.inrushWindow ≤ image.claimHoldLimit)⟩,
    ⟨.address, 0, [station != 0]⟩ ]

/-- The judgement of an image: accepted, or rejected for a reason at a record (R139). -/
inductive ImageVerdict where
  | accepted (image : Image)
  | rejected (reason : RejectReason) (record : Nat)
  deriving DecidableEq, Repr

/-- Mode Control judges the image whole (R139). -/
def judgeImage (station : Nat) (read : ImageRead) : ImageVerdict :=
  match firstReject (imageChecks station read) with
  | some (reason, record) => .rejected reason record
  | none => .accepted (imageOf read)

end Sys2Proof.Machine
end

