-- ==== Sys2Proof/Machine/Flags.lean ====
section
/-! DEFINITION. What follows from the state without changing it: the verdicts, conditions and
comparisons the rules ask for, and the outputs (coil drives, lamps, attention line, STATE reports). -/

namespace Sys2Proof.Machine

/-! ## Channel states (R2, R4) -/

/-- The contactor output is energised in this state (R2). -/
def ChState.energised : ChState → Bool
  | .awake => true
  | .waiting => true
  | .starting _ => true
  | .bypass => true
  | .offline => false
  | .coast => false
  | .rest => false
  | .pending _ => false
  | .tripped _ => false
  | .locked _ => false

/-- Mismatch supervision operates in this state (R4). In LOADING every channel is OFFLINE. -/
def ChState.supervised : ChState → Bool
  | .awake => true
  | .waiting => true
  | .starting _ => true
  | .coast => true
  | .rest => true
  | .pending _ => true
  | .tripped _ => true
  | .offline => false
  | .locked _ => false
  | .bypass => false

/-- AWAKE or WAITING: the two states in which the tracker runs (R34). -/
def ChState.tracked : ChState → Bool
  | .awake => true
  | .waiting => true
  | _ => false

/-- AWAKE, WAITING or STARTING: the needs watch is active (R69). -/
def ChState.watching : ChState → Bool
  | .awake => true
  | .waiting => true
  | .starting _ => true
  | _ => false

/-- PENDING, in any sub-phase. -/
def ChState.isPending : ChState → Bool
  | .pending _ => true
  | _ => false

/-- The kind allows a flying restart (01, introduction; R15). -/
def Kind.flying : Kind → Bool
  | .fan => true
  | .conveyor => true
  | .aux => true
  | .press => false
  | .hydraulic => false
  | .air => false
  | .none => false

/-! ## Origin sets (R13) -/

/-- Add an origin to a set. -/
def OriginSet.add (o : Origin) (s : OriginSet) : OriginSet :=
  match o with
  | .loc => { s with loc := true }
  | .console => { s with console := true }
  | .call => { s with call := true }
  | .morning => { s with morning := true }
  | .hold => { s with hold := true }
  | .start => { s with start := true }
  | .isolation => { s with isolation := true }
  | .retry => { s with retry := true }

/-- An origin is in a set. -/
def OriginSet.has (o : Origin) (s : OriginSet) : Bool :=
  match o with
  | .loc => s.loc
  | .console => s.console
  | .call => s.call
  | .morning => s.morning
  | .hold => s.hold
  | .start => s.start
  | .isolation => s.isolation
  | .retry => s.retry

/-- The set is empty. -/
def OriginSet.isEmpty (s : OriginSet) : Bool := s == {}

/-! ## The image (R135, R141) -/

/-- The record of an unused channel, which stands for every record while no image is accepted. -/
def ChannelRecord.unused : ChannelRecord where
  kind := .none
  rank := 1
  weight := 0
  idleWindow := 0
  requiredCount := 0
  debounce := 0
  runDown := 0
  inrushWindow := 0
  feedbackWindow := 0
  retryDelay := 0
  retryLimit := 0
  callWaitLimit := 0
  morning := false
  needs := []
  serves := []

/-- The channel's record in the accepted image. -/
def State.record (s : State) (ch : Ch) : ChannelRecord :=
  match s.mc.image with
  | some image => image.channels.get ch
  | none => .unused

/-- The channel is configured: its kind in the accepted image is other than NONE. -/
def State.configured (s : State) (ch : Ch) : Bool := (s.record ch).used

/-- The plant budget B (R74). -/
def State.plantBudget (s : State) : Nat :=
  match s.mc.image with
  | some image => image.plantBudget
  | none => 0

/-- A plant time of the accepted image. -/
def State.plantTime (s : State) (field : Image → Micros) : Micros :=
  match s.mc.image with
  | some image => field image
  | none => 0

/-- The heartbeat period: the image's, or 2 s where there is none (R158). -/
def State.heartbeatPeriod (s : State) : Micros :=
  match s.mc.image with
  | some image => image.heartbeatPeriod
  | none => Config.unconfiguredHeartbeat

/-! ## Holds (R124) -/

/-- A hold targets a channel: it names it, or ALL. -/
def HoldEntry.targets (h : HoldEntry) (ch : Ch) : Bool :=
  match h.target with
  | .channel k => decide (k = ch)
  | .all => true

/-- The channel is held (R124): configured, and its key flag is on or a hold targets it. -/
def State.held (s : State) (ch : Ch) : Bool :=
  s.configured ch && (s.cu.keyFlag.get ch || s.cu.holds.any fun h => h.targets ch)

/-! ## Authority (R114, R115) -/

/-- The configured level of a station: its first entry in the console list, or 3 (R114). -/
def configuredLevel (consoles : List ConsoleEntry) (station : Nat) : Nat :=
  match consoles.find? fun c => c.station == station with
  | some c => c.level
  | none => 3

/-- The effective level: the weaker of the configured and the requested level (R114). -/
def State.effectiveLevel (s : State) (station requested : Nat) : Nat :=
  match s.mc.image with
  | some image => max (configuredLevel image.consoles station) requested
  | none => max 3 requested

/-! ## Phase permission (R102) -/

/-- The phase permits the rank to rest (R102). -/
def Phase.permits : Phase → Nat → Bool
  | .day, _ => false
  | .evening, rank => rank == 1
  | .night, rank => rank == 1 || rank == 2 || rank == 3
  | .morning, _ => false

/-! ## At rest and available (R56) -/

/-- A consumer in this state counts as at rest (R56). -/
def countsAtRest (state : StateCode) (closed : Bool) : Bool :=
  match state with
  | .offline => true
  | .rest => true
  | .locked => !closed
  | .awake => false
  | .waiting => false
  | .coast => false
  | .pending => false
  | .starting => false
  | .tripped => false
  | .bypass => false

/-- A provider in this state counts as available (R56). -/
def countsAvailable (state : StateCode) (closed : Bool) : Bool :=
  match state with
  | .awake => true
  | .waiting => true
  | .locked => closed
  | .bypass => true
  | .offline => false
  | .coast => false
  | .rest => false
  | .pending => false
  | .starting => false
  | .tripped => false

/-- A provider in this state is at rest or going to rest beneath its consumer (R69). -/
def countsLost (state : StateCode) : Bool :=
  match state with
  | .coast => true
  | .rest => true
  | _ => false

/-- The reference is local: it names the node's own station (R51). -/
def State.isLocal (s : State) (r : Ref) : Bool := r.station == s.mc.station

/-- The channel a local reference names (R51). -/
def State.localCh? (s : State) (r : Ref) : Option Ch :=
  if s.isLocal r then Ch.ofNat? r.channel else none

/-- The Peer Table entry of a reference. -/
def State.peer? (s : State) (r : Ref) : Option PeerEntry := s.du.peers.find? fun p => p.ref == r

/-- The state and feedback flag of a load as the node knows them; `none` where its entry is absent or
UNKNOWN (R51, R56). -/
def State.known (s : State) (r : Ref) : Option (StateCode × Bool) :=
  match s.localCh? r with
  | some ch => some ((s.cc.get ch).state.code, (s.cc.get ch).feedbackClosed)
  | none =>
    match s.peer? r with
    | some p => if p.isPresent then p.state.map fun st => (st, p.feedbackClosed) else none
    | none => none

/-- The reference counts as at rest (R56). -/
def State.atRest (s : State) (r : Ref) : Bool :=
  match s.known r with
  | some (st, closed) => countsAtRest st closed
  | none => false

/-- The reference counts as available (R56). -/
def State.available (s : State) (r : Ref) : Bool :=
  match s.known r with
  | some (st, closed) => countsAvailable st closed
  | none => false

/-- The reference is known to be in COAST or REST (R69). -/
def State.restsBeneath (s : State) (r : Ref) : Bool :=
  match s.known r with
  | some (st, _) => countsLost st
  | none => false

/-- The consumers verdict (R57). -/
def State.consumersVerdict (s : State) (ch : Ch) : Bool := (s.record ch).serves.all s.atRest

/-- The needs references whose providers verdict does not hold, in list order (R61). -/
def State.unavailable (s : State) (ch : Ch) : List Ref :=
  (s.record ch).needs.filter fun r => !s.available r

/-- The providers verdict (R57). -/
def State.providersVerdict (s : State) (ch : Ch) : Bool := (s.record ch).needs.all s.available

/-- The needs references whose lost condition holds for the channel (R69). -/
def State.lostProviders (s : State) (ch : Ch) : List Ref :=
  if (s.cc.get ch).state.watching then (s.record ch).needs.filter s.restsBeneath else []

/-! ## Resting (R17, R19) -/

/-- The channel is idle-confirmed (R40). -/
def State.idleConfirmed (s : State) (ch : Ch) : Bool :=
  decide ((s.record ch).requiredCount ≤ (s.it.get ch).count)

/-- The four conditions of R17 hold for a channel in AWAKE. -/
def State.mayWait (s : State) (ch : Ch) : Bool :=
  decide ((s.cc.get ch).state = .awake) && s.idleConfirmed ch &&
    s.pu.phase.permits (s.record ch).rank && !s.held ch && decide (s.mc.mode = .operating)

/-- A channel in WAITING may enter COAST (R19, R58). -/
def State.mayCoast (s : State) (ch : Ch) : Bool :=
  decide ((s.cc.get ch).state = .waiting) && !s.held ch && decide (s.mc.mode = .operating) &&
    s.consumersVerdict ch

/-- The mode in which an origin added in REST acts at once (R14). -/
def Mode.wakesAtOnce : Mode → Bool
  | .operating => true
  | .isolated => true
  | .silent => true
  | .loading => false
  | .unconfigured => false
  | .listening => false

/-! ## Cadence (R42, R43) -/

/-- An interval differs from the mean of three by no more than one eighth of the mean; `sum` is the sum
of the three, in 0.1 s steps. -/
def regularInterval (sum interval : Nat) : Bool :=
  decide (8 * (3 * interval) ≤ 9 * sum) && decide (7 * sum ≤ 8 * (3 * interval))

/-- The cadence of an onset history, newest first (R42). -/
def cadenceOf : List Nat → Option Nat
  | a :: b :: c :: d :: _ =>
    let sum := (a - b) + (b - c) + (c - d)
    if regularInterval sum (a - b) && regularInterval sum (b - c) && regularInterval sum (c - d) &&
        decide (30 ≤ sum) then
      some (min (sum / 30) Config.cadenceCap)
    else none
  | _ => none

/-- The cadence guard is passed (R43). -/
def Tracker.guardPassed (t : Tracker) : Bool :=
  match t.cadence, t.sinceOnset with
  | some c, some since => decide (Config.sec (2 * c) < since)
  | none, _ => true
  | some _, none => true

/-- The moment of an onset as its mark records it, in 0.1 s (R33; rounding: log 5; where marks count from: log 27). -/
def onsetMark (now : Micros) : Nat :=
  if now % Config.markStep = 0 then now / Config.markStep
  else if Config.markRoundsUp now then now / Config.markStep + 1
  else now / Config.markStep

/-! ## The Claim Table (R75, R78, R83) -/

/-- An own entry. -/
def Claim.isOwn (c : Claim) : Bool :=
  match c.status with
  | .provisional => true
  | .live => true
  | .remote _ => false

/-- An own PROVISIONAL entry. -/
def Claim.isProvisional (c : Claim) : Bool :=
  match c.status with
  | .provisional => true
  | _ => false

/-- An own LIVE entry. -/
def Claim.isLive (c : Claim) : Bool :=
  match c.status with
  | .live => true
  | _ => false

/-- The entry has this key (R75). -/
def Claim.hasKey (c : Claim) (station number : Nat) : Bool :=
  c.station == station && c.number == number

/-- The total of the weights of some entries (R75). -/
def weightSum (claims : List Claim) : Nat := (claims.map Claim.weight).sum

/-- The own PROVISIONAL claim of a channel (R76). -/
def State.provisionalOf (s : State) (ch : Ch) : Option Claim :=
  s.bu.claims.find? fun c => c.isProvisional && decide (c.ch = ch)

/-- The own LIVE claim of a channel (R76). -/
def State.liveOf (s : State) (ch : Ch) : Option Claim :=
  s.bu.claims.find? fun c => c.isLive && decide (c.ch = ch)

/-- Higher rank, or equal rank and the first number lower than the second (R83). -/
def ranksAbove (rankE rankX numE numX : Nat) : Bool :=
  decide (rankX < rankE) || (rankE == rankX && decide (numE < numX))

/-- Entry `e` outranks the own PROVISIONAL claim `x` of the station (R83). -/
def outranks (station : Nat) (x e : Claim) : Bool :=
  match e.status with
  | .live => true
  | .provisional => ranksAbove e.rank x.rank e.ch.toNat x.ch.toNat
  | .remote marks =>
    match marks.find? fun m => m.1 == x.number with
    | some (_, .before) => true
    | some (_, .during) => ranksAbove e.rank x.rank e.station station
    | none => false

/-- The weights that outrank `x`, and `x`'s own (R84). -/
def State.conflictWeight (s : State) (x : Claim) : Nat :=
  weightSum (s.bu.claims.filter fun e => outranks s.mc.station x e) + x.weight

/-- The order of own-claim precedence: highest rank first, lowest channel number first (R80, R84). -/
def byPrecedence : List (Nat × Ch) := [3, 2, 1].flatMap fun r => Ch.all.map fun ch => (r, ch)

/-- The conditions of R78 for a channel in sub-phase BUDGET. -/
def State.claimable (s : State) (ch : Ch) : Bool :=
  decide ((s.cc.get ch).state = .pending .budget) && decide (s.mc.mode = .operating) &&
  !s.bu.overflow && !(s.bu.claims.any fun c => c.isOwn && decide (c.ch = ch)) &&
  (s.bu.retryGap.get ch).isNone && decide (s.bu.claims.length < Config.claimCapacity) &&
  decide (s.li.queue.length < Config.queueCapacity) &&
  decide (weightSum s.bu.claims + (s.record ch).weight ≤ s.plantBudget)

/-! ## Outputs -/

/-- The coil drive KDn (R2). -/
def State.coilDrive (s : State) (ch : Ch) : Bool :=
  decide (s.mc.mode ≠ .loading) && (s.cc.get ch).state.energised

/-- The steps a channel lamp is lit in (R165). -/
def channelPattern (state : ChState) (held : Bool) (step : Nat) : Bool :=
  match state with
  | .awake => !held || step != 15
  | .bypass => true
  | .waiting => decide (step ≤ 7)
  | .coast => step % 4 == 0 || step % 4 == 1
  | .rest => step == 0
  | .pending _ => step == 0 || step == 2
  | .starting _ => step % 2 == 0
  | .tripped _ => decide (step % 8 ≤ 3)
  | .locked _ => step == 0 || step == 2 || step == 4
  | .offline => false

/-- The channel lamp LPn is lit (R165). -/
def State.channelLampLit (s : State) (ch : Ch) : Bool :=
  channelPattern (s.cc.get ch).state (s.held ch) (s.iu.channels.get ch).step

/-- The steps the node lamp is lit in (R166). -/
def nodePattern (mode : Mode) (step : Nat) : Bool :=
  match mode with
  | .loading => true
  | .listening => decide (step ≤ 7)
  | .operating => step == 0
  | .isolated => decide (step % 8 ≤ 3)
  | .unconfigured => step % 4 == 0 || step % 4 == 1
  | .silent => step == 0 || step == 2 || step == 4

/-- The node lamp NLP is lit (R166). -/
def State.nodeLampLit (s : State) : Bool := nodePattern s.mc.mode s.iu.node.step

/-- The PEER_ABSENT condition of the entry's station is in force (R54). -/
def PeerEntry.absentCondition (p : PeerEntry) : Bool := !p.isPresent && p.ageTimer.isNone

/-- Some channel's state reports as this code. -/
def State.someChannel (s : State) (code : StateCode) : Bool :=
  Ch.all.any fun ch => decide ((s.cc.get ch).state.code = code)

/-- The OR of the conditions that the mask enables (R167). -/
def State.maskedCondition (s : State) (mask : AttentionMask) : Bool :=
  (mask.locked && s.someChannel .locked) || (mask.tripped && s.someChannel .tripped) ||
  (mask.isolated && decide (s.mc.mode = .isolated)) || (mask.overflow && s.bu.overflow) ||
  (mask.peerAbsent && s.du.peers.any PeerEntry.absentCondition)

/-- The attention line ATN is asserted (R167). -/
def State.attention (s : State) : Bool :=
  match s.mc.mode with
  | .loading => false
  | .unconfigured => true
  | .silent => true
  | _ =>
    match s.mc.image with
    | some image => s.maskedCondition image.mask
    | none => false

/-- The held flag a STATE frame reports: the key flag alone while there is no image (R124, R159). -/
def State.reportedHeld (s : State) (ch : Ch) : Bool :=
  match s.mc.image with
  | some _ => s.held ch
  | none => s.cu.keyFlag.get ch

/-- The report of one channel (R159). -/
def State.channelReport (s : State) (ch : Ch) : ChannelReport where
  state := (s.cc.get ch).state.code
  closed := (s.cc.get ch).feedbackClosed
  held := s.reportedHeld ch

/-- What a STATE frame reports of the node as it stands (R159). -/
def State.report (s : State) : StateReport where
  mode := s.mc.mode
  cause := s.mc.startCause
  phase := s.pu.phase
  epoch := s.pu.epoch
  source := s.pu.source
  channels := .tabulate s.channelReport

/-- The queue takes frames of this content in the node's mode (R163, R151). -/
def State.queueTakes (s : State) (b : Body) : Bool :=
  decide (s.mc.station ≠ 0) &&
  match s.mc.mode with
  | .loading => false
  | .silent => false
  | .unconfigured =>
    match b with
    | .state _ => true
    | .notice _ => true
    | .reply _ _ _ _ => true
    | .claim _ _ _ _ => false
    | .withdraw _ => false
    | .release _ => false
    | .call _ _ => false
  | .listening => true
  | .operating => true
  | .isolated => true

end Sys2Proof.Machine
end

