-- ==== Sys2Proof/Machine/Queue.lean ====
section
/-! DEFINITION. The transmit queue by itself: how a frame joins it (R156, R157). -/

namespace Sys2Proof.Machine

/-- A STATE frame. -/
def Frame.isState (f : Frame) : Bool :=
  match f.body with
  | .state _ => true
  | _ => false

/-- A NOTICE or a REPLY: the frames that the full-queue rule may remove (R157). -/
def Frame.isReport (f : Frame) : Bool :=
  match f.body with
  | .notice _ => true
  | .reply _ _ _ _ => true
  | _ => false

/-- A STATE, WITHDRAW or RELEASE frame: one for which a full queue makes room (R157). -/
def Frame.displaces (f : Frame) : Bool :=
  match f.body with
  | .state _ => true
  | .withdraw _ => true
  | .release _ => true
  | _ => false

/-- The queue without its oldest NOTICE or REPLY, if it holds one (R157). -/
def dropOldestReport : List Frame → Option (List Frame)
  | [] => none
  | f :: rest => if f.isReport then some rest else (dropOldestReport rest).map (f :: ·)

/-- The STATE frame in the queue is replaced in place (R156). -/
def replaceState (f : Frame) (q : List Frame) : List Frame :=
  q.map fun g => if g.isState then f else g

/-- A frame is queued (R156, R157). -/
def joinQueue (f : Frame) (q : List Frame) : List Frame :=
  if f.isState && q.any Frame.isState then replaceState f q
  else if q.length < Config.queueCapacity then q ++ [f]
  else if f.displaces then
    match dropOldestReport q with
    | some q' => q' ++ [f]
    | none => q
  else q

end Sys2Proof.Machine
end

