-- ==== Sys2Proof/Machine/Tracker.lean ====
section
/-! DEFINITION. The Idle Tracker by itself (02_idle_detection.md): what each event does to what it
holds. What the Channel Controller makes of its reports is in Ops. -/

namespace Sys2Proof.Machine

/-- A new idle window begins at its full length: in the timer while RUNNING, in the remaining time
while PAUSED (R36, R37, R38, R47). -/
def Tracker.beginWindow (full : Micros) (t : Tracker) : Tracker :=
  match t.status with
  | .running => { t with windowTimer := some full }
  | .paused => { t with remaining := some full }
  | .stopped => t

/-- The tracker starts at entry to AWAKE from STARTING (R34). -/
def Tracker.start (full debounce : Micros) (held sense : Bool) : Tracker where
  status := if held then .paused else .running
  active := false
  debounceTimer := if sense then some debounce else none
  windowTimer := if held then none else some full
  remaining := if held then some full else none
  count := 0
  history := []
  cadence := none
  sinceOnset := none

/-- The tracker stops; count, history and cadence are left as they stand (R34). -/
def Tracker.stop (t : Tracker) : Tracker :=
  { t with status := .stopped, debounceTimer := none, windowTimer := none, remaining := none }

/-- A RUNNING or PAUSED tracker stops with its count, history and cadence cleared. -/
def Tracker.clear (t : Tracker) : Tracker :=
  { t.stop with count := 0, history := [], cadence := none, sinceOnset := none }

/-- The channel enters COAST: a tracker that runs stops with its count, history and cadence cleared
(R19, R34, R49); one that is STOPPED, as in STARTING, is not touched (R34, R46, log 30). -/
def Tracker.stopClear (t : Tracker) : Tracker :=
  match t.status with
  | .stopped => t
  | .running => t.clear
  | .paused => t.clear

/-- The channel becomes held (R44). -/
def Tracker.pause (t : Tracker) : Tracker :=
  match t.status with
  | .running => { t with status := .paused, remaining := t.windowTimer, windowTimer := none }
  | .paused => t
  | .stopped => t

/-- The channel ceases to be held (R45). -/
def Tracker.resume (t : Tracker) : Tracker :=
  match t.status with
  | .paused => { t with status := .running, windowTimer := t.remaining, remaining := none }
  | .running => t
  | .stopped => t

/-- ASn changes to this level (R35). -/
def Tracker.senseChange (debounce : Micros) (active : Bool) (t : Tracker) : Tracker :=
  match t.status with
  | .stopped => t
  | _ => { t with debounceTimer := if active = t.active then none else some debounce }

/-- An onset (R36, R41, R42). -/
def Tracker.onset (full : Micros) (now : Micros) (t : Tracker) : Tracker :=
  let history := (onsetMark now :: t.history).take 4
  Tracker.beginWindow full
    { t with
      active := true
      debounceTimer := none
      count := 0
      history := history
      cadence := cadenceOf history
      sinceOnset := some 0 }

/-- An activity end (R37). -/
def Tracker.activityEnd (full : Micros) (t : Tracker) : Tracker :=
  Tracker.beginWindow full { t with active := false, debounceTimer := none }

/-- A WAKE or a press of the wake button (R47). -/
def Tracker.wake (full : Micros) (t : Tracker) : Tracker :=
  Tracker.beginWindow full { t with count := 0 }

/-- The window that expires now confirms (R39). -/
def Tracker.confirms (held : Bool) (t : Tracker) : Bool := !t.active && t.guardPassed && !held

/-- An idle window expires: it is judged and the next window begins (R38, R39). -/
def Tracker.windowExpired (full : Micros) (held : Bool) (t : Tracker) : Tracker :=
  { t with
    count := if t.confirms held then min (t.count + 1) Config.countMax else t.count
    windowTimer := some full }

/-- A SHED raises the count to the required count if it is lower (R48). -/
def Tracker.shed (required : Nat) (t : Tracker) : Tracker :=
  { t with count := max t.count required }

end Sys2Proof.Machine
end

