-- ==== Sys2Proof/Machine/Ops.lean ====
section
/-! DEFINITION. The shared operations of an event. An event is the state as a command is changing it,
with the frames that the blocks have queued in it so far and the work that the event still owes. It
ends when nothing more follows from it (`settle`) and its frames have joined the transmit queue
(`flush`). -/

namespace Sys2Proof.Machine

/-- What an event has queued, block by block, and what it still owes. -/
structure Outbox where
  /-- NOTICE frames that concern no channel, in the order they arose (R169). -/
  nodeNotices : List Frame := []
  /-- The expired Hold List entries whose HOLD_EXPIRED is to be noticed, in list order (R122, R169). -/
  expiredHolds : List (Target × Nat) := []
  /-- NOTICE frames of each channel (R169). -/
  notices : PerChannel (List Frame) := .all []
  /-- CALL frames of each channel (R63, R72). -/
  calls : PerChannel (List Frame) := .all []
  /-- WITHDRAW and RELEASE frames (R85, R89). -/
  budget : List Frame := []
  /-- REPLY frames (R118). -/
  replies : List Frame := []
  /-- A STATE frame is to be queued (R159). -/
  stateDue : Bool := false
  /-- The BUDGET channels are to be evaluated (R80, log 8). -/
  evalDue : Bool := false
  /-- The channel, in CALLING, is to make its first or repeated call (R61, R64). -/
  callDue : PerChannel Bool := .all false
  /-- The local providers to which the channel is to make standing calls (R70). -/
  standingDue : PerChannel (List Ref) := .all []
  deriving DecidableEq, Repr

/-- The state as a command is changing it. -/
structure Event extends State where
  out : Outbox := {}
  deriving DecidableEq, Repr

/-! ## Time (log 1) -/

/-- Time passes for a timer. -/
def Timer.run (d : Micros) (t : Timer) : Timer := t.map (· - d)

/-- The timer is running and has no time left: its expiry is due (log 2). -/
def Timer.due (t : Timer) : Bool := t == some 0

def Controller.elapse (d : Micros) (c : Controller) : Controller :=
  { c with
    mismatchTimer := Timer.run d c.mismatchTimer
    runDownTimer := Timer.run d c.runDownTimer
    inrushTimer := Timer.run d c.inrushTimer
    retryTimer := Timer.run d c.retryTimer }

/-- The time since the newest onset runs while the tracker is RUNNING or PAUSED and saturates
(R43, log 26). -/
def Tracker.elapse (d : Micros) (t : Tracker) : Tracker :=
  { t with
    debounceTimer := Timer.run d t.debounceTimer
    windowTimer := Timer.run d t.windowTimer
    sinceOnset :=
      match t.status with
      | .stopped => t.sinceOnset
      | _ => t.sinceOnset.map fun x => min (x + d) Config.onsetSaturation }

def PeerEntry.elapse (d : Micros) (p : PeerEntry) : PeerEntry :=
  { p with ageTimer := Timer.run d p.ageTimer }

def DependencyUnit.elapse (d : Micros) (u : DependencyUnit) : DependencyUnit :=
  { u with peers := u.peers.map (PeerEntry.elapse d), callWait := u.callWait.map (Timer.run d) }

def Claim.elapse (d : Micros) (c : Claim) : Claim := { c with timer := Timer.run d c.timer }

def BudgetUnit.elapse (d : Micros) (u : BudgetUnit) : BudgetUnit :=
  { u with
    claims := u.claims.map (Claim.elapse d)
    overflowTimer := Timer.run d u.overflowTimer
    retryGap := u.retryGap.map (Timer.run d) }

def HoldEntry.elapse (d : Micros) (h : HoldEntry) : HoldEntry :=
  { h with timer := Timer.run d h.timer }

def CommandUnit.elapse (d : Micros) (u : CommandUnit) : CommandUnit :=
  { u with
    holds := u.holds.map (HoldEntry.elapse d)
    keyTimer := u.keyTimer.map (Timer.run d)
    buttonTimer := u.buttonTimer.map (Timer.run d) }

def ModeControl.elapse (d : Micros) (u : ModeControl) : ModeControl :=
  { u with
    listenTimer := Timer.run d u.listenTimer
    isolationTimer := Timer.run d u.isolationTimer
    staggerTimer := Timer.run d u.staggerTimer
    bypassTimer := u.bypassTimer.map (Timer.run d) }

def LineInterface.elapse (d : Micros) (u : LineInterface) : LineInterface :=
  { u with heartbeatTimer := Timer.run d u.heartbeatTimer }

def LampState.elapse (d : Micros) (l : LampState) : LampState :=
  { l with timer := Timer.run d l.timer }

def IndicatorUnit.elapse (d : Micros) (u : IndicatorUnit) : IndicatorUnit :=
  { channels := u.channels.map (LampState.elapse d), node := LampState.elapse d u.node }

/-- Time passes for the whole node: every running timer runs. -/
def State.elapse (d : Micros) (s : State) : State :=
  { s with
    cc := s.cc.map (Controller.elapse d)
    it := s.it.map (Tracker.elapse d)
    du := s.du.elapse d
    bu := s.bu.elapse d
    cu := s.cu.elapse d
    mc := s.mc.elapse d
    li := s.li.elapse d
    iu := s.iu.elapse d
    now := s.now + d }

/-- The event begins: the time before it has passed and nothing is queued yet. -/
def State.begin (m : Moment) (s : State) : Event where
  toState := s.elapse m.elapsed

/-! ## Updates of one channel -/

/-- Change a channel's controller. -/
def Event.modCc (ch : Ch) (f : Controller → Controller) (e : Event) : Event :=
  { e with cc := e.cc.set ch (f (e.cc.get ch)) }

/-- Change a channel's tracker. -/
def Event.modIt (ch : Ch) (f : Tracker → Tracker) (e : Event) : Event :=
  { e with it := e.it.set ch (f (e.it.get ch)) }

/-- Start or stop a channel's call wait timer. -/
def Event.setCallWait (ch : Ch) (t : Timer) (e : Event) : Event :=
  { e with du.callWait := e.du.callWait.set ch t }

/-- Start or stop a channel's retry gap timer. -/
def Event.setRetryGap (ch : Ch) (t : Timer) (e : Event) : Event :=
  { e with bu.retryGap := e.bu.retryGap.set ch t }

/-- Do something for each of the six channels, in order of channel number. -/
def Event.forChannels (f : Ch → Event → Event) (e : Event) : Event :=
  Ch.all.foldl (fun e ch => f ch e) e

/-! ## Frames and work owed -/

/-- A STATE frame is to be queued at the end of the event (R159). -/
def Event.oweState (e : Event) : Event := { e with out.stateDue := true }

/-- The BUDGET channels are to be evaluated in this event (R80). -/
def Event.oweEval (e : Event) : Event := { e with out.evalDue := true }

/-- The node notices something that concerns no one channel (R168). -/
def Event.noticeNode (n : Notice) (e : Event) : Event :=
  { e with out.nodeNotices := e.out.nodeNotices ++ [⟨0, .notice n⟩] }

/-- The node notices the expiry of a Hold List entry (R122, R168). -/
def Event.noticeHold (target : Target) (tag : Nat) (e : Event) : Event :=
  { e with out.expiredHolds := e.out.expiredHolds ++ [(target, tag)] }

/-- The node notices something of a channel (R168). -/
def Event.noticeCh (ch : Ch) (n : Notice) (e : Event) : Event :=
  { e with out.notices := e.out.notices.set ch (e.out.notices.get ch ++ [⟨0, .notice n⟩]) }

/-- The Dependency Unit queues a CALL frame for a channel (R63). -/
def Event.queueCall (ch : Ch) (targets : List Ref) (e : Event) : Event :=
  { e with out.calls := e.out.calls.set ch (e.out.calls.get ch ++ [⟨0, .call ch targets⟩]) }

/-- The Budget Unit queues a WITHDRAW or RELEASE frame (R85, R89). -/
def Event.queueBudget (b : Body) (e : Event) : Event :=
  { e with out.budget := e.out.budget ++ [⟨0, b⟩] }

/-- The Command Unit queues a REPLY frame to a station (R118). -/
def Event.queueReply (target kind channel tag : Byte) (code : ReplyCode) (e : Event) : Event :=
  { e with out.replies := e.out.replies ++ [⟨target, .reply kind channel tag code⟩] }

/-- A frame joins the transmit queue, where the queue takes it in the node's mode (R156, R163). -/
def Event.enqueue (f : Frame) (e : Event) : Event :=
  if e.queueTakes f.body then { e with li.queue := joinQueue f e.li.queue } else e

/-! ## Channel and node states -/

/-- A lamp's step restarts (R164). -/
def LampState.restarted : LampState := ⟨0, some Config.lampStep⟩

/-- A controller enters a state: the output follows the state, and an output change opens or closes a
disagreement (R2, R4). -/
def Controller.enter (window : Micros) (st : ChState) (c : Controller) : Controller :=
  if !st.supervised then { c with state := st, mark := none, mismatchTimer := none }
  else if c.state.supervised && c.state.energised == st.energised then { c with state := st }
  else if st.energised == c.feedbackClosed then
    { c with state := st, mark := none, mismatchTimer := none }
  else { c with state := st, mark := some .output, mismatchTimer := some window }

/-- A channel enters a state. A change of the reported state restarts its lamp and is reported
(R159, R164); a change of sub-phase is neither. -/
def Event.setState (ch : Ch) (st : ChState) (e : Event) : Event :=
  let e' := e.modCc ch (Controller.enter (e.record ch).feedbackWindow st)
  if (e.cc.get ch).state.code = st.code then e'
  else { e' with iu.channels := e.iu.channels.set ch .restarted, out.stateDue := true }

/-- The node enters a mode: its lamp restarts and the change is reported (R135, R159, R164). -/
def Event.setMode (mode : Mode) (e : Event) : Event :=
  if e.mc.mode = mode then e
  else { e with mc.mode := mode, iu.node := .restarted, out.stateDue := true }

/-! ## Waking (R13 to R15, R21) -/

/-- The stagger timer's first interval: the station number multiplied by 2 s (R146). -/
def State.staggerStart (s : State) : Micros := s.mc.station * Config.staggerUnit

/-- While ISOLATED or SILENT with the stagger IDLE, a channel's entry to PENDING starts it (R146). -/
def Event.wakeStagger (e : Event) : Event :=
  match e.mc.mode, e.mc.staggerTimer with
  | .isolated, none => { e with mc.staggerTimer := some e.staggerStart }
  | .silent, none => { e with mc.staggerTimer := some e.staggerStart }
  | _, _ => e

/-- A channel enters PENDING; the providers verdict chooses the sub-phase (R21, R61). -/
def Event.enterPending (ch : Ch) (e : Event) : Event :=
  let e := e.modCc ch fun c => { c with runDownTimer := none, retryTimer := none }
  let e :=
    if e.providersVerdict ch then (e.setState ch (.pending .budget)).oweEval
    else
      let e := (e.setState ch (.pending .calling)).setCallWait ch (some (e.record ch).callWaitLimit)
      { e with out.callDue := e.out.callDue.set ch true }
  e.wakeStagger

/-- Record an origin in a channel's set. -/
def Event.recordOrigin (o : Origin) (ch : Ch) (e : Event) : Event :=
  e.modCc ch fun c => { c with origins := c.origins.add o }

/-- Clear a channel's origin set. -/
def Event.clearOrigins (ch : Ch) (e : Event) : Event := e.modCc ch fun c => { c with origins := {} }

/-- An origin is added to a channel (R13, R14, R15). -/
def Event.addOrigin (o : Origin) (ch : Ch) (e : Event) : Event :=
  match (e.cc.get ch).state with
  | .coast =>
    if (e.record ch).kind.flying then (e.recordOrigin o ch).enterPending ch
    else e.recordOrigin o ch
  | .rest =>
    if e.mc.mode.wakesAtOnce then (e.recordOrigin o ch).enterPending ch else e.recordOrigin o ch
  | .pending _ => e.recordOrigin o ch
  | .starting _ => e.recordOrigin o ch
  | .tripped _ => e.recordOrigin o ch
  | .offline => e
  | .awake => e
  | .waiting => e
  | .locked _ => e
  | .bypass => e

/-! ## Running and resting (R16 to R20) -/

/-- A WAITING channel returns to AWAKE, its count as it stands (R18). -/
def Event.returnToAwake (ch : Ch) (e : Event) : Event :=
  match (e.cc.get ch).state with
  | .waiting => e.setState ch .awake
  | _ => e

/-- An AWAKE channel enters WAITING where the four conditions of R17 hold. -/
def Event.tryWait (ch : Ch) (e : Event) : Event :=
  if e.mayWait ch then e.setState ch .waiting else e

/-- A WAKE or a press reaches a channel in AWAKE or WAITING (R16, R47). -/
def Event.wakeRunning (ch : Ch) (e : Event) : Event :=
  (e.modIt ch (Tracker.wake (e.record ch).idleWindow)).returnToAwake ch

/-- An idle window of a channel expires (R10, R38 to R40). -/
def Event.windowExpired (ch : Ch) (e : Event) : Event :=
  let before := e.idleConfirmed ch
  let e := e.modCc ch fun c => { c with tripCount := 0 }
  let e := e.modIt ch (Tracker.windowExpired (e.record ch).idleWindow (e.held ch))
  if !before && e.idleConfirmed ch then e.tryWait ch else e

/-- The run-down of a COAST channel ends (R20). -/
def Event.runDownEnds (ch : Ch) (e : Event) : Event :=
  let e := e.modCc ch fun c => { c with runDownTimer := none }
  if (e.cc.get ch).origins.isEmpty then e.setState ch .rest else e.enterPending ch

/-- A channel enters COAST; a run-down of 0 s ends at the same event (R19, R20). The tracker of a channel
that was WAITING stops cleared (R34, R49); that of one shed from STARTING is STOPPED and is not touched
(R34, R46, log 30). -/
def Event.enterCoast (ch : Ch) (e : Event) : Event :=
  let e := (e.setState ch .coast).modIt ch Tracker.stopClear
  let e := e.modCc ch fun c => { c with runDownTimer := some (e.record ch).runDown }
  if (e.record ch).runDown = 0 then e.runDownEnds ch else e

/-! ## Claims (04) -/

/-- The arrival marks with respect to an own claim cease to exist (R82). -/
def Claim.dropMarks (number : Nat) (c : Claim) : Claim :=
  match c.status with
  | .remote marks => { c with status := .remote (marks.filter fun m => m.1 != number) }
  | .provisional => c
  | .live => c

/-- An own PROVISIONAL claim is removed from the table, and WITHDRAW is queued (R85, R91). -/
def Event.removeProvisional (x : Claim) (e : Event) : Event :=
  let claims := (e.bu.claims.filter fun c => !c.hasKey x.station x.number).map
    (Claim.dropMarks x.number)
  (({ e with bu.claims := claims } : Event).queueBudget (.withdraw x.number)).oweEval

/-- The retry gap of this station (R86). -/
def State.retryGapTime (s : State) : Micros :=
  s.plantTime Image.retryGap + s.mc.station * Config.retryGapStation

/-- Withdrawal for a conflict, for the overflow state or for a mode: the retry gap starts and the
channel returns to BUDGET (R85). -/
def Event.withdraw (x : Claim) (e : Event) : Event :=
  let e := (e.removeProvisional x).setRetryGap x.ch (some e.retryGapTime)
  match (e.cc.get x.ch).state with
  | .pending .claiming => e.setState x.ch (.pending .budget)
  | _ => e

/-- Something is done to each own PROVISIONAL claim, in own-claim precedence, each on the table as it
then stands (R84, R95, R98). -/
def Event.forProvisional (f : Claim → Event → Event) (e : Event) : Event :=
  byPrecedence.foldl
    (fun e p =>
      match e.provisionalOf p.2 with
      | some x => if x.rank = p.1 then f x e else e
      | none => e) e

/-- Every own PROVISIONAL claim is withdrawn (R95, R98, R99). -/
def Event.withdrawAll (e : Event) : Event := e.forProvisional Event.withdraw

/-- The conflict check of an insertion (R84). -/
def Event.conflictCheck (e : Event) : Event :=
  e.forProvisional fun x e => if e.plantBudget < e.conflictWeight x then e.withdraw x else e

/-- An own LIVE claim's inrush window has ended: it leaves the table and RELEASE is queued (R89,
R90). -/
def Event.releaseClaim (x : Claim) (e : Event) : Event :=
  let claims := e.bu.claims.filter fun c => !c.hasKey x.station x.number
  (({ e with bu.claims := claims } : Event).queueBudget (.release x.number)).oweEval

/-- A channel leaves PENDING before its start: its call wait and retry gap timers stop and its
PROVISIONAL claim is withdrawn without a gap (R66, R86, R91). -/
def Event.leavePending (ch : Ch) (e : Event) : Event :=
  let e := (e.setCallWait ch none).setRetryGap ch none
  match e.provisionalOf ch with
  | some x => e.removeProvisional x
  | none => e

/-- A channel leaves STARTING early: a CLAIMED start passes its inrush timer to the Budget Unit as the
hold of its LIVE claim, an UNCLAIMED one stops it (R27, R90). -/
def Event.handOverInrush (ch : Ch) (e : Event) : Event :=
  let timer := (e.cc.get ch).inrushTimer
  let e' := e.modCc ch fun c => { c with inrushTimer := none }
  match (e.cc.get ch).state with
  | .starting .claimed =>
    { e' with
      bu.claims := e.bu.claims.map fun c =>
        if c.isLive && decide (c.ch = ch) then { c with timer := timer } else c }
  | _ => e'

/-! ## Locks and trips (R6, R7, R11) -/

/-- A channel enters LOCKED: its origins are dropped, its timers stop and LOCKED is noticed (R7, R11,
R30). -/
def Event.lock (ch : Ch) (cause : LockCause) (e : Event) : Event :=
  let e := if (e.cc.get ch).state.isPending then e.leavePending ch else e
  let e := e.modCc ch fun c =>
    { c with origins := {}, runDownTimer := none, retryTimer := none }
  (e.setState ch (.locked cause)).noticeCh ch (.locked ch cause)

/-- A channel trips (R6). -/
def Event.trip (ch : Ch) (cause : TripCause) (e : Event) : Event :=
  let e := e.handOverInrush ch
  let e := e.modIt ch Tracker.stop
  let e := e.modCc ch fun c =>
    { c with
      tripCount := min (c.tripCount + 1) (max c.tripCount ((e.record ch).retryLimit + 1))
      retryTimer := some (e.record ch).retryDelay }
  (e.setState ch (.tripped cause)).noticeCh ch (.tripped ch cause)

/-! ## Holds (R124 to R126) -/

/-- A channel becomes held (R125). -/
def Event.becomeHeld (ch : Ch) (e : Event) : Event :=
  if (e.cc.get ch).state.tracked then (e.modIt ch Tracker.pause).returnToAwake ch
  else e.addOrigin .hold ch

/-- A channel ceases to be held. A window that was paused with no time left is judged at once (R39,
R126, log 16). -/
def Event.ceaseHeld (ch : Ch) (e : Event) : Event :=
  let e := e.modIt ch Tracker.resume
  let e := if Timer.due (e.it.get ch).windowTimer then e.windowExpired ch else e
  e.tryWait ch

/-- A held flag that STATE frames report differs between two states of the node (R124, R159). -/
def State.heldFlagsDiffer (a b : State) : Bool :=
  Ch.all.any fun ch => a.reportedHeld ch != b.reportedHeld ch

/-- The Hold List and the key flags change. Each configured channel, in order, becomes held or ceases to
be held where its causes came or went, and a change of a reported held flag is reported, in
UNCONFIGURED too (R124, R156, R159, log 12). -/
def Event.changeHolds (cu : CommandUnit) (e : Event) : Event :=
  let after : Event := { e with cu := cu }
  let after := if e.heldFlagsDiffer after.toState then after.oweState else after
  after.forChannels fun ch acc =>
    if !e.held ch && after.held ch then acc.becomeHeld ch
    else if e.held ch && !after.held ch then acc.ceaseHeld ch
    else acc

/-! ## Calls and the needs watch (R61 to R64, R69, R70) -/

/-- A local call (R62). -/
def Event.localCall (r : Ref) (e : Event) : Event :=
  match e.localCh? r with
  | some ch => e.addOrigin .call ch
  | none => e

/-- Local calls to the local references among some, in order. -/
def Event.localCalls (refs : List Ref) (e : Event) : Event :=
  refs.foldl (fun e r => e.localCall r) e

/-- A CALL frame naming these remote references, if there are any (R63). -/
def Event.callFrame (ch : Ch) (targets : List Ref) (e : Event) : Event :=
  match targets with
  | [] => e
  | _ => e.queueCall ch targets

/-- A CALLING channel calls its unavailable providers (R61, R64). -/
def Event.makeCall (ch : Ch) (e : Event) : Event :=
  let refs := e.unavailable ch
  (e.callFrame ch (refs.filter fun r => !e.isLocal r)).localCalls refs

/-- The marked remote providers that their entries do not report held (R70). -/
def State.standingTargets (s : State) (ch : Ch) : List Ref :=
  (s.du.marks.get ch).filter fun r =>
    !s.isLocal r &&
      match s.peer? r with
      | some p => !p.held
      | none => true

/-- The CALL frame of the channel's standing calls: it names every marked remote provider that is not
reported held (R70). -/
def Event.standingFrame (ch : Ch) (e : Event) : Event := e.callFrame ch (e.standingTargets ch)

/-- The channel owes standing calls to the local providers among some (R70). -/
def Event.oweStanding (ch : Ch) (refs : List Ref) (e : Event) : Event :=
  { e with out.standingDue := e.out.standingDue.set ch (e.out.standingDue.get ch ++ refs) }

/-- The call that a CALLING channel owes is made (R61, R64). -/
def Event.payCall (ch : Ch) (e : Event) : Event :=
  if e.out.callDue.get ch then
    let e : Event := { e with out.callDue := e.out.callDue.set ch false }
    if (e.cc.get ch).state = .pending .calling then e.makeCall ch else e
  else e

/-- The local standing calls that a channel owes are made (R62, R70). -/
def Event.payStanding (ch : Ch) (e : Event) : Event :=
  ({ e with out.standingDue := e.out.standingDue.set ch [] } : Event).localCalls
    (e.out.standingDue.get ch)

/-- The calls that a channel owes are made. -/
def Event.payCalls (ch : Ch) (e : Event) : Event := (e.payCall ch).payStanding ch

/-- The channel owes a call. -/
def Event.owesCall (e : Event) (ch : Ch) : Bool :=
  e.out.callDue.get ch || e.out.standingDue.get ch != []

/-- The needs watch of a channel is brought up to date: marks whose occurrence has ended are cleared;
for each that begins, PROVIDER_LOST is noticed, and the first standing call is made or owed (R69, R70,
log 14). Several that begin together are noticed in the order of the needs list (log 31). -/
def Event.watch (ch : Ch) (e : Event) : Event :=
  let lost := e.lostProviders ch
  let begun := lost.filter fun r => !(e.du.marks.get ch).contains r
  let e : Event := { e with du.marks := e.du.marks.set ch lost }
  let e := begun.foldl (fun e r => e.noticeCh ch (.providerLost ch r)) e
  let e := if begun.any fun r => !e.isLocal r then e.standingFrame ch else e
  e.oweStanding ch (begun.filter e.isLocal)

/-- A watch mark of the channel differs from its lost condition. -/
def State.watchStale (s : State) (ch : Ch) : Bool := decide (s.du.marks.get ch ≠ s.lostProviders ch)

/-- A verdict that holds concerns the channel: CALLING on the providers verdict (R59), WAITING on the
consumers verdict (R58). -/
def State.reportDue (s : State) (ch : Ch) : Bool :=
  (decide ((s.cc.get ch).state = .pending .calling) && s.providersVerdict ch) || s.mayCoast ch

/-- A verdict is reported to the channel, where it is due: the end of CALLING (R59), the entry to COAST
(R58). -/
def Event.reportVerdict (due : PerChannel Bool) (ch : Ch) (e : Event) : Event :=
  if due.get ch then
    match (e.cc.get ch).state with
    | .pending .calling => ((e.setState ch (.pending .budget)).setCallWait ch none).oweEval
    | .waiting => e.enterCoast ch
    | _ => e
  else e

/-- The verdicts that hold are reported, all as the node stands before the first of the reports: what
a report changes is a further event (R57). -/
def Event.takeReports (e : Event) : Event :=
  e.forChannels (Event.reportVerdict (.tabulate e.reportDue))

/-- What follows from the event is taken until nothing more follows. At each further event inside it the
verdicts that hold are reported and the watch of every channel is brought up to date; the calls owed
are made when no report and no watch is due, so that no call hides a verdict or a lost condition that
came to hold (R57, R62, R69, log 9, log 10). -/
def Event.settle : Nat → Event → Event
  | 0, e => e
  | n + 1, e =>
    if Ch.all.any e.reportDue || Ch.all.any e.watchStale then
      (e.takeReports.forChannels Event.watch).settle n
    else if Ch.all.any e.owesCall then (e.forChannels Event.payCalls).settle n
    else e

/-- Rounds enough for every chain: a channel makes at most four moves in them (log 9). -/
def settleRounds : Nat := 96

/-- Everything that follows from the event so far. -/
def Event.settled (e : Event) : Event := e.settle settleRounds

/-! ## The budget evaluation (R77 to R80) -/

/-- The claim number after this one (R77). -/
def nextNumber (n : Nat) : Nat := if n < 255 then n + 1 else 1

/-- The first number from the counter on that no own entry carries (R77). -/
def freeNumber (taken : List Nat) : Nat → Nat → Nat
  | 0, n => n
  | fuel + 1, n => if taken.contains n then freeNumber taken fuel (nextNumber n) else n

/-- The number the node's next own claim takes (R77). -/
def State.claimNumber (s : State) : Nat :=
  freeNumber ((s.bu.claims.filter Claim.isOwn).map Claim.number) Config.claimCapacity s.bu.counter

/-- A remote entry is marked with respect to an own claim (R79, R82). -/
def Claim.addMark (number : Nat) (a : Arrival) (c : Claim) : Claim :=
  match c.status with
  | .remote marks => { c with status := .remote (marks ++ [(number, a)]) }
  | .provisional => c
  | .live => c

/-- The entry of a new own claim (R79). -/
def State.newClaim (s : State) (ch : Ch) : Claim where
  station := s.mc.station
  number := s.claimNumber
  ch := ch
  weight := (s.record ch).weight
  rank := (s.record ch).rank
  status := .provisional
  timer := some (s.plantTime Image.settleInterval)

/-- A claim is created for a channel in BUDGET (R79); its creation is an insertion (R84). -/
def Event.createClaim (ch : Ch) (e : Event) : Event :=
  let x := e.newClaim ch
  let e : Event := { e with
    bu.counter := nextNumber x.number
    bu.claims := e.bu.claims.map (Claim.addMark x.number .before) ++ [x] }
  let e := e.enqueue ⟨0, .claim x.number ch x.weight x.rank⟩
  (e.setState ch (.pending .claiming)).conflictCheck

/-- The BUDGET channels are evaluated in order of rank, then channel number (R80). Each CLAIM joins the
queue at its claim's creation (R79), so that no other block's frame stands between the CLAIMs of one
evaluation (log 4). -/
def Event.evaluateBudget (e : Event) : Event :=
  let e : Event := { e with out.evalDue := false }
  let e := byPrecedence.foldl
    (fun e p =>
      if (e.record p.2).rank = p.1 ∧ e.claimable p.2 then e.createClaim p.2 else e) e
  { e with bu.fullAtEval := decide (Config.queueCapacity ≤ e.li.queue.length) }

/-- Frames join the queue, in order. -/
def Event.enqueueAll (fs : List Frame) (e : Event) : Event := fs.foldl (fun e f => e.enqueue f) e

/-- The Budget Unit's frames join the queue, then its owed evaluation is made; again while it queues
or owes more (R80, R156). -/
def Event.drainBudget : Nat → Event → Event
  | 0, e => e
  | n + 1, e =>
    if e.out.budget = [] ∧ e.out.evalDue = false then e
    else
      let e' : Event := Event.enqueueAll e.out.budget { e with out.budget := [] }
      (if e'.out.evalDue then e'.evaluateBudget else e').drainBudget n

/-- Rounds enough for the Budget Unit's work of an event: it has at most six own claims to withdraw. -/
def budgetRounds : Nat := 8

/-! ## The end of an event (R156, R159, R169; log 4, log 15) -/

/-- The HOLD_EXPIRED notice of an expired hold. -/
def expiryNotice (h : Target × Nat) : Frame := ⟨0, .notice (.holdExpired h.1 h.2)⟩

/-- The target of an expired hold is a channel of higher number. -/
def holdAbove (ch : Ch) (h : Target × Nat) : Bool :=
  match h.1 with
  | .channel k => decide (ch.toNat < k.toNat)
  | .all => false

/-- The notices of expired holds and of channels: the holds in list order, and each channel's own after
those of the holds before the first that targets a higher channel (R169, log 15). -/
def mergeNotices (notices : PerChannel (List Frame)) : List Ch → List (Target × Nat) → List Frame
  | [], holds => holds.map expiryNotice
  | ch :: rest, holds =>
    (holds.takeWhile fun h => !holdAbove ch h).map expiryNotice ++ notices.get ch ++
      mergeNotices notices rest (holds.dropWhile fun h => !holdAbove ch h)

/-- The NOTICE frames of the event, in the order of R169. -/
def Outbox.allNotices (o : Outbox) : List Frame :=
  o.nodeNotices ++ mergeNotices o.notices Ch.all o.expiredHolds

/-- The CALL frames of the event, in channel order: at a heartbeat as R64 and R72 have it, at any other
event by choice, also where the call of a lower channel follows from that of a higher one (R61, R62,
log 33). -/
def Outbox.allCalls (o : Outbox) : List Frame := o.calls.toList.flatten

/-- An event whose frames are joining the queue, with the frames of the Indicator, Dependency and
Command Units that have not joined yet. -/
structure Ending where
  ev : Event
  notices : List Frame
  calls : List Frame
  replies : List Frame
  deriving DecidableEq, Repr

/-- The STATE frame owed joins the queue; it reports the node as the event leaves it (R159). -/
def Event.payState (e : Event) : Event :=
  if e.out.stateDue then
    ({ e with out.stateDue := false } : Event).enqueue ⟨0, .state e.report⟩
  else e

/-- The Budget Unit's next frame, or its owed evaluation. -/
def Event.payBudget (e : Event) : Event :=
  match e.out.budget with
  | f :: rest => ({ e with out.budget := rest } : Event).enqueue f
  | [] => if e.out.evalDue then e.evaluateBudget else e

/-- The next frame of one block joins the queue. -/
def Ending.next (d : Ending) (b : Block) : Ending :=
  match b with
  | .iu =>
    match d.notices with
    | f :: rest => { d with ev := d.ev.enqueue f, notices := rest }
    | [] => d
  | .du =>
    match d.calls with
    | f :: rest => { d with ev := d.ev.enqueue f, calls := rest }
    | [] => d
  | .cu =>
    match d.replies with
    | f :: rest => { d with ev := d.ev.enqueue f, replies := rest }
    | [] => d
  | .bu => { d with ev := d.ev.payBudget }
  | .li => { d with ev := d.ev.payState }

/-- All frames of the event join the queue: first as the moment's order says, then those left, block
by block (R156, log 4). -/
def Event.flush (order : List Block) (e : Event) : Event :=
  let d := order.foldl Ending.next ⟨e, e.out.allNotices, e.out.allCalls, e.out.replies⟩
  let e := (d.ev.enqueueAll d.notices).enqueueAll d.calls
  let e := (e.drainBudget budgetRounds).enqueueAll d.replies
  e.payState

/-- One command: time passes, its effect is taken, what follows from it is taken, its frames join the
queue. -/
def take (m : Moment) (effect : Event → Event) (s : State) : Host.Outcome State Fault Refusal :=
  .next ((effect (s.begin m)).settled.flush m.order).toState

end Sys2Proof.Machine
end

