-- ==== Sys2Proof/Machine/Budget.lean ====
section
/-! DEFINITION. The Budget Unit's timers (04): SETTLE_EXPIRY, CLAIM_HOLD_TIMER_EXPIRY,
OVERFLOW_TIMER_EXPIRY and RETRY_GAP_EXPIRY. -/

namespace Sys2Proof.Machine

/-- An own PROVISIONAL claim becomes LIVE: its settle timer has run and the arrival marks with respect
to it are discarded (R82, R87). -/
def promote (x : Claim) (claims : List Claim) : List Claim :=
  claims.map fun c =>
    if c.hasKey x.station x.number then { c with status := .live, timer := none }
    else c.dropMarks x.number

/-- A channel is granted its start (R24). -/
def Event.startClaimed (ch : Ch) (e : Event) : Event :=
  let e := e.setState ch (.starting .claimed)
  e.modCc ch fun c => { c with inrushTimer := some (e.record ch).inrushWindow }

/-- The settle timer of the channel's own PROVISIONAL claim expires (R87). -/
def Event.settleEnds (ch : Ch) (e : Event) : Event :=
  match e.provisionalOf ch with
  | some x =>
    if Timer.due x.timer then
      ({ e with bu.claims := promote x e.bu.claims } : Event).startClaimed ch
    else e
  | none => e

/-- A remote entry of this key whose hold timer is due (R94). -/
def Claim.expiresAs (station number : Nat) (c : Claim) : Bool :=
  !c.isOwn && c.hasKey station number && Timer.due c.timer

/-- The hold timer of a remote entry expires: it is removed (R94). -/
def Event.claimHoldEnds (station number : Nat) (e : Event) : Event :=
  if e.bu.claims.any (Claim.expiresAs station number) then
    ({ e with
      bu.claims := e.bu.claims.filter fun c => !c.expiresAs station number } : Event).oweEval
  else e

/-- The overflow timer expires: the overflow state clears (R96). -/
def Event.overflowEnds (e : Event) : Event :=
  if Timer.due e.bu.overflowTimer then
    ({ e with bu.overflow := false, bu.overflowTimer := none } : Event).oweEval
  else e

/-- The retry gap timer of a channel expires (R86). -/
def Event.retryGapEnds (ch : Ch) (e : Event) : Event :=
  if Timer.due (e.bu.retryGap.get ch) then (e.setRetryGap ch none).oweEval else e

/-- SETTLE_EXPIRY (R87). -/
def execSettleExpiry (m : Moment) (ch : Ch) (s : State) : Host.Outcome State Fault Refusal :=
  take m (Event.settleEnds ch) s

/-- CLAIM_HOLD_TIMER_EXPIRY (R94). -/
def execClaimHoldTimerExpiry (m : Moment) (station number : Nat) (s : State) :
    Host.Outcome State Fault Refusal :=
  take m (Event.claimHoldEnds station number) s

/-- OVERFLOW_TIMER_EXPIRY (R96). -/
def execOverflowTimerExpiry (m : Moment) (s : State) : Host.Outcome State Fault Refusal :=
  take m Event.overflowEnds s

/-- RETRY_GAP_EXPIRY (R86). -/
def execRetryGapExpiry (m : Moment) (ch : Ch) (s : State) : Host.Outcome State Fault Refusal :=
  take m (Event.retryGapEnds ch) s

end Sys2Proof.Machine
end

