-- ==== Sys2Proof/Machine/Modes.lean ====
section
/-! DEFINITION. Mode Control (07): the changes of node mode, which several events share, and the
commands LISTEN_EXPIRY, ISOLATION_EXPIRY, ISOLATION_STAGGER_EXPIRY and BYPASS_TIMER_EXPIRY. -/

namespace Sys2Proof.Machine

/-- COAST, REST or TRIPPED: the states in which the node's entry to ISOLATED or SILENT adds origin
ISOLATION (R32, R145, R149), and an entry to MORNING origin MORNING (R110). -/
def ChState.resting : ChState → Bool
  | .coast => true
  | .rest => true
  | .tripped _ => true
  | .offline => false
  | .awake => false
  | .waiting => false
  | .pending _ => false
  | .starting _ => false
  | .locked _ => false
  | .bypass => false

/-- Add an origin to a channel if it is in COAST, REST or TRIPPED. -/
def Event.addIfResting (o : Origin) (ch : Ch) (e : Event) : Event :=
  if (e.cc.get ch).state.resting then e.addOrigin o ch else e

/-- What entry to ISOLATED, and to SILENT from LISTENING or OPERATING, does to claims and channels: the
stagger starts, provisional claims are withdrawn, WAITING channels return to AWAKE, origin ISOLATION is
added (R32, R98, R99, R145, R146, R149). -/
def Event.cutOff (e : Event) : Event :=
  let e : Event := { e with mc.staggerTimer := some e.staggerStart }
  let e := e.withdrawAll.forChannels Event.returnToAwake
  e.forChannels (Event.addIfResting .isolation)

/-- The listen and isolation timers stop. -/
def Event.stopModeTimers (e : Event) : Event :=
  { e with mc.listenTimer := none, mc.isolationTimer := none }

/-- Entry to ISOLATED from LISTENING or OPERATING (R145). -/
def Event.enterIsolated (e : Event) : Event :=
  (((e.noticeNode .isolated).stopModeTimers).setMode .isolated).cutOff

/-- The line side of the entry to SILENT: queue and sender are emptied, and the node ceases to drive the
line (R148, R163). -/
def Event.goQuiet (e : Event) : Event :=
  { e with li.queue := [], li.sender := none, li.attempts := 0, li.driving := false }

/-- The node's own number has been heard: entry to SILENT from every mode but LOADING (R148, R149,
R161). -/
def Event.enterSilent (e : Event) : Event :=
  match e.mc.mode with
  | .loading => e
  | .silent => e
  | .unconfigured => e.goQuiet.setMode .silent
  | .isolated => (e.goQuiet.setMode .silent).withdrawAll
  | .listening => ((e.goQuiet.stopModeTimers).setMode .silent).cutOff
  | .operating => ((e.goQuiet.stopModeTimers).setMode .silent).cutOff

/-- The return from ISOLATED to OPERATING at the first frame heard (R147). -/
def Event.rejoin (e : Event) : Event :=
  let e := (e.setMode .operating).noticeNode .rejoined
  let e : Event :=
    { e with mc.isolationTimer := some (e.plantTime Image.isolationLimit), mc.staggerTimer := none }
  (e.forChannels Event.tryWait).oweEval

/-- The START rule at one channel (R143): where the phase permits the rank, START is removed. -/
def Event.startRule (ch : Ch) (e : Event) : Event :=
  if e.configured ch && e.pu.phase.permits (e.record ch).rank then
    e.modCc ch fun c => { c with origins := { c.origins with start := false } }
  else e

/-- A REST channel with a non-empty set enters PENDING at the end of the listen interval (R14, R143). -/
def Event.actOnOrigins (ch : Ch) (e : Event) : Event :=
  match (e.cc.get ch).state with
  | .rest => if (e.cc.get ch).origins.isEmpty then e else e.enterPending ch
  | _ => e

/-- The start decision (R143, R100). -/
def Event.startDecision (e : Event) : Event :=
  ((e.forChannels Event.startRule).forChannels Event.actOnOrigins).oweEval

/-- The listen timer expires (R143). -/
def Event.listenEnds (e : Event) : Event :=
  if e.mc.mode = .listening ∧ Timer.due e.mc.listenTimer then
    (({ e with mc.listenTimer := none } : Event).setMode .operating).startDecision
  else e

/-- The isolation timer expires (R142, R144). -/
def Event.isolationEnds (e : Event) : Event :=
  if (e.mc.mode = .listening ∨ e.mc.mode = .operating) ∧ Timer.due e.mc.isolationTimer then
    e.enterIsolated
  else e

/-- The channel that the stagger takes next: PENDING, of highest rank, then lowest number (R146). -/
def State.staggerChoice (s : State) : Option Ch :=
  (byPrecedence.find? fun p =>
    (s.record p.2).rank == p.1 && (s.cc.get p.2).state.isPending).map Prod.snd

/-- A PENDING channel starts UNCLAIMED (R25). -/
def Event.startUnclaimed (ch : Ch) (e : Event) : Event :=
  let e := (e.leavePending ch).setState ch (.starting .unclaimed)
  e.modCc ch fun c => { c with inrushTimer := some (e.record ch).inrushWindow }

/-- The stagger timer expires (R146). -/
def Event.staggerEnds (e : Event) : Event :=
  if (e.mc.mode = .isolated ∨ e.mc.mode = .silent) ∧ Timer.due e.mc.staggerTimer then
    match e.staggerChoice with
    | some ch =>
      let e := e.startUnclaimed ch
      { e with mc.staggerTimer := some (e.record ch).inrushWindow }
    | none => { e with mc.staggerTimer := none }
  else e

/-- How the return from ISOLATED and the effect of the frame that causes it stand to each other
(R147, log 11). -/
inductive RejoinOrder where
  /-- One after the other, in the order of the moment (R98, R117, R146). -/
  | inTurn (arrival : ArrivalOrder)
  /-- As one: a frame that the Phase Unit adopts has one outcome in either order (R111). -/
  | asOne
  deriving DecidableEq, Repr

/-- The return from ISOLATED and the effect of the frame that causes it (R147, log 11). In turn, what is
taken first is taken to its end: its calls are made (R61), a load that the return admits to WAITING
coasts where its consumers rest (R19), and the budget is evaluated at the return (R98). The CLAIM frames
of that evaluation join the queue at once, before every other frame of the command, whatever the order of
the moment (log 4). The notices of all parts are one event's (log 15). As one, what follows from the
return follows from the frame's effect with it (R106, R111). -/
def Event.rejoinWith (order : RejoinOrder) (dispatch : Event → Event) (e : Event) : Event :=
  match order with
  | .asOne => dispatch e.rejoin
  | .inTurn .returnFirst => dispatch ((e.rejoin.settled).drainBudget budgetRounds)
  | .inTurn .frameFirst => ((dispatch e).settled).rejoin
  | .inTurn .frameThenStagger => ((((dispatch e).settled).staggerEnds).settled).rejoin

/-- A frame from another station is heard, and dispatched (R142, R144, R147, R161). -/
def Event.heard (order : RejoinOrder) (dispatch : Event → Event) (e : Event) : Event :=
  match e.mc.mode with
  | .listening => dispatch { e with mc.isolationTimer := some (e.plantTime Image.isolationLimit) }
  | .operating => dispatch { e with mc.isolationTimer := some (e.plantTime Image.isolationLimit) }
  | .isolated => e.rejoinWith order dispatch
  | .loading => dispatch e
  | .unconfigured => dispatch e
  | .silent => dispatch e

/-- The bypass timer of a channel expires (R31). -/
def Event.bypassEnds (ch : Ch) (e : Event) : Event :=
  if Timer.due (e.mc.bypassTimer.get ch) then
    ({ e with mc.bypassTimer := e.mc.bypassTimer.set ch none } : Event).setState ch .bypass
  else e

/-- LISTEN_EXPIRY (R143). -/
def execListenExpiry (m : Moment) (s : State) : Host.Outcome State Fault Refusal :=
  take m Event.listenEnds s

/-- ISOLATION_EXPIRY (R144, R145). -/
def execIsolationExpiry (m : Moment) (s : State) : Host.Outcome State Fault Refusal :=
  take m Event.isolationEnds s

/-- ISOLATION_STAGGER_EXPIRY (R146). -/
def execIsolationStaggerExpiry (m : Moment) (s : State) : Host.Outcome State Fault Refusal :=
  take m Event.staggerEnds s

/-- BYPASS_TIMER_EXPIRY (R31). -/
def execBypassTimerExpiry (m : Moment) (ch : Ch) (s : State) : Host.Outcome State Fault Refusal :=
  take m (Event.bypassEnds ch) s

end Sys2Proof.Machine
end

