-- ==== Sys2Proof/Machine/Frames.lean ====
section
/-! DEFINITION. Frames received from other stations, but for commands (08, 10, and the chapters of the
blocks that take them): UNKNOWN_KIND_FRAME, STATE_RECEIVED, PHASE_RECEIVED, CLAIM_RECEIVED,
WITHDRAW_RECEIVED, RELEASE_RECEIVED, CALL_RECEIVED, REPLY_RECEIVED and NOTICE_RECEIVED. -/

namespace Sys2Proof.Machine

/-! ## Arrival (R144, R148, R160, R161) -/

/-- The node is sending exactly these bytes, so its receiver does not receive them (R160, log 18). -/
def State.isSending (s : State) (bytes : List Byte) : Bool :=
  s.li.driving &&
    match s.li.sender with
    | some x => x.wire == bytes
    | none => false

/-- A valid frame arrives. In LOADING it is not taken (R137), nor before the line has been quiet for an
access gap since the release of the reset (R150, log 17). One with the node's own number makes the node
SILENT and is not dispatched; any other is heard and dispatched (R161, R162). -/
def Event.hear (order : RejoinOrder) (env : Envelope) (kind : Byte) (payload : List Byte)
    (dispatch : Event → Event) (e : Event) : Event :=
  if e.mc.mode = .loading ∨ e.li.awaitingGap = true ∨ isStation env.sender = false then e
  else if e.isSending (lineBytes env.sender kind env.target payload) then e
  else
    let e : Event := { e with li.inProgress := none }
    if env.sender.toNat = e.mc.station then e.enterSilent else e.heard order dispatch

/-- LISTENING, OPERATING or ISOLATED: the modes in which the Phase Unit, and the Budget Unit for a CLAIM,
take frames (R92, R104, R105). -/
def Mode.takesAll : Mode → Bool
  | .listening => true
  | .operating => true
  | .isolated => true
  | .loading => false
  | .unconfigured => false
  | .silent => false

/-- LISTENING, OPERATING, ISOLATED or SILENT: the modes in which STATE frames reach the Peer Table, CALL
frames the channels, and WITHDRAW and RELEASE the Claim Table (R53, R67, R93). -/
def Mode.takesReports : Mode → Bool
  | .listening => true
  | .operating => true
  | .isolated => true
  | .silent => true
  | .loading => false
  | .unconfigured => false

/-! ## Phase (R104 to R110) -/

/-- A phase entry at one channel (R108, R109, R110). -/
def Event.takePhase (ch : Ch) (e : Event) : Event :=
  match (e.cc.get ch).state with
  | .waiting => if e.pu.phase.permits (e.record ch).rank then e else e.returnToAwake ch
  | .awake => e.tryWait ch
  | _ =>
    if e.pu.phase = .morning ∧ e.configured ch ∧ (e.record ch).morning then
      e.addIfResting .morning ch
    else e

/-- What the Phase Unit adopts from a STATE frame, if it adopts it (R105). -/
def State.stateAdoption (p : StatePayload) (s : State) : Option PhaseUnit :=
  match Phase.ofNat? p.phase.toNat with
  | some phase =>
    if s.mc.mode.takesAll ∧ p.mode.toNat = Mode.operating.code ∧ p.source.toNat ≤ 63 ∧
        s.pu.epoch < p.epoch then
      some ⟨phase, p.epoch, p.source.toNat⟩
    else none
  | none => none

/-- What the Phase Unit adopts from a PHASE frame, if it adopts it (R104). -/
def State.phaseAdoption (env : Envelope) (phase : Byte) (epoch : Word32) (level : Byte) (s : State) :
    Option PhaseUnit :=
  match Phase.ofNat? phase.toNat with
  | some ph =>
    if s.mc.mode.takesAll ∧ (env.target = 0 ∨ env.target.toNat = s.mc.station) ∧
        level.toNat ≤ 3 ∧ s.effectiveLevel env.sender.toNat level.toNat ≤ 1 ∧ s.pu.epoch < epoch then
      some ⟨ph, epoch, env.sender.toNat⟩
    else none
  | none => none

/-- An adoption, if there is one; where the phase differs from the one held, a phase entry (R106). -/
def Event.adopt (adoption : Option PhaseUnit) (e : Event) : Event :=
  match adoption with
  | some u =>
    let adopted := ({ e with pu := u } : Event).oweState
    if e.pu.phase = u.phase then adopted else adopted.forChannels Event.takePhase
  | none => e

/-- The order of the return from ISOLATED and the effect of a frame that the Phase Unit may adopt. An
adoption has one outcome whichever of the two is taken first, so a frame that brings one is taken as one
with the return, whatever the moment says (R111, log 11). -/
def rejoinOrderOf (adoption : Option PhaseUnit) (arrival : ArrivalOrder) : RejoinOrder :=
  if adoption.isSome then .asOne else .inTurn arrival

/-- The Phase Unit takes a PHASE frame (R104). -/
def Event.takePhaseFrame (env : Envelope) (phase : Byte) (epoch : Word32) (level : Byte)
    (e : Event) : Event :=
  e.adopt (e.phaseAdoption env phase epoch level)

/-! ## The Peer Table (R53, R55) -/

/-- An entry takes its channel's report of a STATE frame (R53). -/
def PeerEntry.report (limit : Micros) (reports : PerChannel Byte) (p : PeerEntry) : PeerEntry :=
  match Ch.ofNat? p.ref.channel with
  | some ch =>
    let b := reports.get ch
    { p with
      state := reportState b
      feedbackClosed := reportClosed b
      held := reportHeld b
      isPresent := true
      ageTimer := some limit }
  | none => p

/-- The Dependency Unit takes a STATE frame: every entry of the sender is updated (R53). -/
def Event.updatePeers (station : Nat) (reports : PerChannel Byte) (e : Event) : Event :=
  if e.mc.mode.takesReports then
    { e with
      du.peers := e.du.peers.map fun p =>
        if p.ref.station = station then
          p.report (e.plantTime Image.stalenessLimit) reports
        else p }
  else e

/-- A STATE frame is dispatched: to the Phase Unit, whose entry acts to its end, then to the Dependency
Unit (R162). -/
def Event.takeState (env : Envelope) (p : StatePayload) (e : Event) : Event :=
  ((e.adopt (e.stateAdoption p)).settled).updatePeers env.sender.toNat p.reports

/-! ## Claims of other stations (R92 to R95) -/

/-- The remote entry that a CLAIM frame describes, unless a field is out of its range (R92). -/
def remoteClaim? (station : Nat) (number channel weight rank : Byte) : Option Claim :=
  match Ch.ofNat? channel.toNat with
  | some ch =>
    if number ≠ 0 ∧ (1 ≤ weight.toNat ∧ weight.toNat ≤ 63) ∧ (1 ≤ rank.toNat ∧ rank.toNat ≤ 3) then
      some ⟨station, number.toNat, ch, weight.toNat, rank.toNat, .remote [], none⟩
    else none
  | none => none

/-- A remote entry with this key. -/
def Claim.isRemote (station number : Nat) (c : Claim) : Bool :=
  !c.isOwn && c.hasKey station number

/-- A remote entry of this station for this channel (R92). -/
def Claim.isRemoteFor (station : Nat) (ch : Ch) (c : Claim) : Bool :=
  !c.isOwn && c.station == station && decide (c.ch = ch)

/-- An entry with the key is replaced in place: its position and marks are kept (R92). -/
def Event.replaceClaim (c old : Claim) (e : Event) : Event :=
  let limit := e.plantTime Image.claimHoldLimit
  let claims := e.bu.claims.map fun x =>
    if x.isRemote c.station c.number then
      { x with ch := c.ch, weight := c.weight, rank := c.rank, timer := some limit }
    else x
  let e := ({ e with bu.claims := claims } : Event).conflictCheck
  if c.weight < old.weight then e.oweEval else e

/-- An older entry of the same station and channel is removed, at which the BUDGET channels are evaluated
before the new claim is recorded (R80, R92, log 25). The new claim is recorded even where it came to a
full table (R95): where the evaluation would leave it no place, the evaluation follows the recording
(log 8). -/
def Event.dropOlder (c : Claim) (e : Event) : Event :=
  if e.bu.claims.any (Claim.isRemoteFor c.station c.ch) then
    let removed := ({ e with
      bu.claims := e.bu.claims.filter fun x => !x.isRemoteFor c.station c.ch } : Event).oweEval
    let evaluated := removed.drainBudget budgetRounds
    if evaluated.bu.claims.length < Config.claimCapacity then evaluated else removed
  else e

/-- The entry with which a new remote claim is recorded: its hold timer runs, and it is marked during
with respect to every own PROVISIONAL claim (R82, R92). -/
def State.recorded (s : State) (c : Claim) : Claim :=
  { c with
    status := .remote ((s.bu.claims.filter Claim.isProvisional).map fun x => (x.number, .during))
    timer := some (s.plantTime Image.claimHoldLimit) }

/-- A claim that the full table cannot record sets the overflow state (R95). -/
def Event.setOverflow (e : Event) : Event :=
  let e' : Event :=
    { e with bu.overflow := true, bu.overflowTimer := some (e.plantTime Image.claimHoldLimit) }
  if e.bu.overflow then e' else (e'.noticeNode .claimOverflow).withdrawAll

/-- A CLAIM is recorded (R92). -/
def Event.recordClaim (c : Claim) (e : Event) : Event :=
  match e.bu.claims.find? (Claim.isRemote c.station c.number) with
  | some old => e.replaceClaim c old
  | none =>
    let e := e.dropOlder c
    if e.bu.claims.length < Config.claimCapacity then
      ({ e with bu.claims := e.bu.claims ++ [e.recorded c] } : Event).conflictCheck
    else e.setOverflow

/-- The Budget Unit takes a CLAIM frame (R92). -/
def Event.takeClaim (env : Envelope) (number channel weight rank : Byte) (e : Event) : Event :=
  match remoteClaim? env.sender.toNat number channel weight rank with
  | some c => if e.mc.mode.takesAll then e.recordClaim c else e
  | none => e

/-- The Budget Unit takes a WITHDRAW or RELEASE frame (R93). -/
def Event.takeEnd (env : Envelope) (number : Byte) (e : Event) : Event :=
  if e.mc.mode.takesReports ∧ e.bu.claims.any (Claim.isRemote env.sender.toNat number.toNat) then
    ({ e with
      bu.claims := e.bu.claims.filter fun c =>
        !c.isRemote env.sender.toNat number.toNat } : Event).oweEval
  else e

/-! ## Calls (R67, R68) -/

/-- A target of a CALL acts if it names this station and a configured channel (R67). -/
def Event.callTarget (r : Ref) (e : Event) : Event :=
  match e.localCh? r with
  | some ch => if e.configured ch then e.addOrigin .call ch else e
  | none => e

/-- The Dependency Unit takes a CALL frame (R67). -/
def Event.takeCall (p : CallPayload) (e : Event) : Event :=
  if e.mc.mode.takesReports then (callTargets p).foldl (fun e r => e.callTarget r) e else e

/-! ## Frames of unknown kind (R160, R170) -/

/-- A frame of a kind that is none of the thirteen is heard; one of a listed kind, or of more than 40
bytes, is not such a frame (R160). -/
def Event.unknownKind (order : RejoinOrder) (env : Envelope) (kind : Byte) (payload : List Byte)
    (e : Event) : Event :=
  if payloadLength? kind.toNat = none ∧ payload.length ≤ 40 then e.hear order env kind payload id
  else e

/-! ## The commands -/

/-- UNKNOWN_KIND_FRAME (R160): heard, and not dispatched. -/
def execUnknownKindFrame (m : Moment) (env : Envelope) (kind : Byte) (payload : List Byte)
    (s : State) : Host.Outcome State Fault Refusal :=
  take m (Event.unknownKind (.inTurn m.arrival) env kind payload) s

/-- STATE_RECEIVED (R53, R105, R162). -/
def execStateReceived (m : Moment) (env : Envelope) (p : StatePayload) (s : State) :
    Host.Outcome State Fault Refusal :=
  take m (fun e => e.hear (rejoinOrderOf (e.stateAdoption p) m.arrival) env kindState
    (statePayloadBytes p) (Event.takeState env p)) s

/-- PHASE_RECEIVED (R104). -/
def execPhaseReceived (m : Moment) (env : Envelope) (phase : Byte) (epoch : Word32) (level : Byte)
    (s : State) : Host.Outcome State Fault Refusal :=
  take m (fun e => e.hear (rejoinOrderOf (e.phaseAdoption env phase epoch level) m.arrival) env
    kindPhase ([phase] ++ bytes32 epoch ++ [level]) (Event.takePhaseFrame env phase epoch level)) s

/-- CLAIM_RECEIVED (R92). -/
def execClaimReceived (m : Moment) (env : Envelope) (number channel weight rank : Byte)
    (s : State) : Host.Outcome State Fault Refusal :=
  take m (Event.hear (.inTurn m.arrival) env kindClaim [number, channel, weight, rank]
    (Event.takeClaim env number channel weight rank)) s

/-- WITHDRAW_RECEIVED (R93). -/
def execWithdrawReceived (m : Moment) (env : Envelope) (number : Byte) (s : State) :
    Host.Outcome State Fault Refusal :=
  take m (Event.hear (.inTurn m.arrival) env kindWithdraw [number] (Event.takeEnd env number)) s

/-- RELEASE_RECEIVED (R93). -/
def execReleaseReceived (m : Moment) (env : Envelope) (number : Byte) (s : State) :
    Host.Outcome State Fault Refusal :=
  take m (Event.hear (.inTurn m.arrival) env kindRelease [number] (Event.takeEnd env number)) s

/-- CALL_RECEIVED (R67). -/
def execCallReceived (m : Moment) (env : Envelope) (p : CallPayload) (s : State) :
    Host.Outcome State Fault Refusal :=
  take m (Event.hear (.inTurn m.arrival) env kindCall (callPayloadBytes p) (Event.takeCall p)) s

/-- REPLY_RECEIVED (R162): heard, and not dispatched. -/
def execReplyReceived (m : Moment) (env : Envelope) (kind channel tag code : Byte) (s : State) :
    Host.Outcome State Fault Refusal :=
  take m (Event.hear (.inTurn m.arrival) env kindReply [kind, channel, tag, code] id) s

/-- NOTICE_RECEIVED (R162): heard, and not dispatched. -/
def execNoticeReceived (m : Moment) (env : Envelope) (channel code detail1 detail2 : Byte)
    (s : State) : Host.Outcome State Fault Refusal :=
  take m (Event.hear (.inTurn m.arrival) env kindNotice [channel, code, detail1, detail2] id) s

end Sys2Proof.Machine
end

