-- ==== Sys2Proof/Machine/Keys.lean ====
section
/-! DEFINITION. Hold keys, wake buttons and hold expiries (06): HOLD_KEY_CHANGE,
HOLD_KEY_DEBOUNCE_EXPIRY, WAKE_BUTTON_CHANGE, WAKE_BUTTON_DEBOUNCE_EXPIRY and HOLD_ENTRY_EXPIRY. -/

namespace Sys2Proof.Machine

/-- The debounce timer after an input takes a level: it starts where the level comes to differ from the
debounced one, and stops where it returns to it (R123, R130). -/
def debounceAfter (debounced level : Bool) (full : Micros) : Timer :=
  if level = debounced then none else some full

/-- HKn takes a position. While the node is held in reset the flag follows at once (R113, R123,
R136). -/
def Event.holdKeyChange (ch : Ch) (on : Bool) (e : Event) : Event :=
  if e.pins.keyOn.get ch = on then e
  else
    let e : Event := { e with pins.keyOn := e.pins.keyOn.set ch on }
    if e.mc.inReset then { e with cu.keyFlag := e.cu.keyFlag.set ch on }
    else
      { e with
        cu.keyTimer := e.cu.keyTimer.set ch
          (debounceAfter (e.cu.keyFlag.get ch) on Config.keyDebounce) }

/-- The hold-key debounce expires: the flag takes the position of HKn, and a configured channel may
become held or cease to be held (R123, R124). -/
def Event.holdKeyDebounced (ch : Ch) (e : Event) : Event :=
  if Timer.due (e.cu.keyTimer.get ch) then
    e.changeHolds
      { e.cu with
        keyFlag := e.cu.keyFlag.set ch (e.pins.keyOn.get ch)
        keyTimer := e.cu.keyTimer.set ch none }
  else e

/-- WBn takes a position. While the node is held in reset the debounced position follows at once (R113,
R130, R136). -/
def Event.wakeButtonChange (ch : Ch) (pressed : Bool) (e : Event) : Event :=
  if e.pins.buttonPressed.get ch = pressed then e
  else
    let e : Event := { e with pins.buttonPressed := e.pins.buttonPressed.set ch pressed }
    if e.mc.inReset then { e with cu.button := e.cu.button.set ch pressed }
    else
      { e with
        cu.buttonTimer := e.cu.buttonTimer.set ch
          (debounceAfter (e.cu.button.get ch) pressed Config.keyDebounce) }

/-- A wake reaches a channel from its button or from a console: it restarts the count and window of a
running channel, and is an origin elsewhere (R16, R129, R130). -/
def Event.wakeChannel (o : Origin) (ch : Ch) (e : Event) : Event :=
  if (e.cc.get ch).state.tracked then e.wakeRunning ch else e.addOrigin o ch

/-- A press of a wake button (R130). -/
def Event.press (ch : Ch) (e : Event) : Event :=
  match e.mc.mode with
  | .listening => e.wakeChannel .loc ch
  | .operating => e.wakeChannel .loc ch
  | .isolated => e.wakeChannel .loc ch
  | .silent => e.wakeChannel .loc ch
  | .loading => e
  | .unconfigured => e

/-- The wake-button debounce expires: the debounced position takes the position of WBn, and a press is
taken where it becomes pressed (R130). -/
def Event.wakeButtonDebounced (ch : Ch) (e : Event) : Event :=
  if Timer.due (e.cu.buttonTimer.get ch) then
    let e : Event :=
      { e with
        cu.button := e.cu.button.set ch (e.pins.buttonPressed.get ch)
        cu.buttonTimer := e.cu.buttonTimer.set ch none }
    if e.pins.buttonPressed.get ch then e.press ch else e
  else e

/-- What names an entry (R119). -/
def HoldEntry.key (h : HoldEntry) : HoldKey := ⟨h.origin, h.target, h.tag⟩

/-- The entry is among those named, and its timer is due (R122, log 22). -/
def HoldEntry.expiresAmong (keys : List HoldKey) (h : HoldEntry) : Bool :=
  Timer.due h.timer && keys.contains h.key

/-- The expiry timers of some Hold List entries run out: each is removed and noticed, in list order
(R122). -/
def Event.holdEntriesExpire (keys : List HoldKey) (e : Event) : Event :=
  let gone := e.cu.holds.filter fun h => h.expiresAmong keys
  let e := gone.foldl (fun e h => e.noticeHold h.target h.tag) e
  e.changeHolds { e.cu with holds := e.cu.holds.filter fun h => !h.expiresAmong keys }

/-- HOLD_KEY_CHANGE (R123). -/
def execHoldKeyChange (m : Moment) (ch : Ch) (on : Bool) (s : State) :
    Host.Outcome State Fault Refusal :=
  take m (Event.holdKeyChange ch on) s

/-- HOLD_KEY_DEBOUNCE_EXPIRY (R123). -/
def execHoldKeyDebounceExpiry (m : Moment) (ch : Ch) (s : State) :
    Host.Outcome State Fault Refusal :=
  take m (Event.holdKeyDebounced ch) s

/-- WAKE_BUTTON_CHANGE (R130). -/
def execWakeButtonChange (m : Moment) (ch : Ch) (pressed : Bool) (s : State) :
    Host.Outcome State Fault Refusal :=
  take m (Event.wakeButtonChange ch pressed) s

/-- WAKE_BUTTON_DEBOUNCE_EXPIRY (R130). -/
def execWakeButtonDebounceExpiry (m : Moment) (ch : Ch) (s : State) :
    Host.Outcome State Fault Refusal :=
  take m (Event.wakeButtonDebounced ch) s

/-- HOLD_ENTRY_EXPIRY (R122). -/
def execHoldEntryExpiry (m : Moment) (entries : List HoldKey) (s : State) :
    Host.Outcome State Fault Refusal :=
  take m (Event.holdEntriesExpire entries) s

end Sys2Proof.Machine
end

