-- ==== Sys2Proof/Machine/Commands.lean ====
section
/-! DEFINITION. The commands of consoles (06): WAKE, SHED, HOLD, UNHOLD and UNLOCK. -/

namespace Sys2Proof.Machine

/-- A judged command: its reply code and what it has done. -/
abbrev Judged := ReplyCode × Event

/-! ## Taking a command (R116 to R118) -/

/-- The reply joins what the command has done (R118). -/
def Judged.answer (env : Envelope) (kind channel tag : Byte) (j : Judged) : Event :=
  j.2.queueReply env.sender kind channel tag j.1

/-- A command frame reaches the Command Unit: checks 1 and 2 of R116, then the judgement `judge`, and one
reply (R116, R117, R118). -/
def Event.command (env : Envelope) (kind channel tag : Byte) (judge : Event → Judged) (e : Event) :
    Event :=
  if env.target = 0 ∨ env.target.toNat ≠ e.mc.station then e
  else
    match e.mc.mode with
    | .loading => e
    | .silent => e
    | .unconfigured => Judged.answer env kind channel tag (.refusedMode, e)
    | .listening => Judged.answer env kind channel tag (judge e)
    | .operating => Judged.answer env kind channel tag (judge e)
    | .isolated => Judged.answer env kind channel tag (judge e)

/-- The configured channel that a channel byte names (R116, check 4). -/
def State.commandCh? (s : State) (b : Byte) : Option Ch :=
  match Ch.ofNat? b.toNat with
  | some ch => if s.configured ch then some ch else none
  | none => none

/-- The target that the target byte of a HOLD or UNHOLD names: ALL, or a configured channel (R116,
check 4). -/
def State.commandTarget? (s : State) (b : Byte) : Option Target :=
  if b = channelAll then some .all else (s.commandCh? b).map .channel

/-- Checks 3 to 5 of R116 for a command that names one channel. -/
def Event.judgeChannel (env : Envelope) (channel level : Byte) (gate : Nat)
    (carryOut : Ch → Event → Judged) (e : Event) : Judged :=
  if 3 < level.toNat ∨ channel = channelAll then (.refusedForm, e)
  else
    match e.commandCh? channel with
    | none => (.noSuch, e)
    | some ch =>
      if gate < e.effectiveLevel env.sender.toNat level.toNat then (.refusedLevel, e)
      else carryOut ch e

/-! ## WAKE (R129) -/

/-- The reply to a WAKE that passes the checks (R129; OFFLINE and BYPASS: log 20). -/
def wakeReply (state : ChState) (kind : Kind) : ReplyCode :=
  match state with
  | .awake => .accepted
  | .waiting => .accepted
  | .rest => .accepted
  | .coast => if kind.flying then .accepted else .deferred
  | .pending _ => .accepted
  | .starting _ => .accepted
  | .tripped _ => .deferred
  | .locked _ => .refusedLocked
  | .offline => .refusedMode
  | .bypass => .refusedMode

/-- A WAKE is carried out (R129). -/
def Event.carryOutWake (ch : Ch) (e : Event) : Judged :=
  (wakeReply (e.cc.get ch).state (e.record ch).kind, e.wakeChannel .console ch)

/-- A WAKE is judged. Its gate admits every level (R115). -/
def Event.judgeWake (env : Envelope) (channel level : Byte) (e : Event) : Judged :=
  e.judgeChannel env channel level 3 Event.carryOutWake

/-! ## SHED (R29, R131, R132) -/

/-- A PENDING channel is shed into REST (R29, R132). -/
def Event.shedPending (ch : Ch) (e : Event) : Event :=
  ((e.leavePending ch).clearOrigins ch).setState ch .rest

/-- A TRIPPED channel is shed into REST, its trip count kept (R29, R132). -/
def Event.shedTripped (ch : Ch) (e : Event) : Event :=
  ((e.modCc ch fun c => { c with retryTimer := none }).clearOrigins ch).setState ch .rest

/-- A STARTING channel is shed into COAST (R29, R132). -/
def Event.shedStarting (ch : Ch) (e : Event) : Event :=
  ((e.handOverInrush ch).clearOrigins ch).enterCoast ch

/-- An AWAKE channel is shed: its count is raised and it may enter WAITING (R48, R131). -/
def Event.shedAwake (ch : Ch) (e : Event) : Event :=
  (e.modIt ch (Tracker.shed (e.record ch).requiredCount)).tryWait ch

/-- The consumers verdict decides a shed (R60, R132). -/
def Event.shedIfUnused (ch : Ch) (shed : Event → Event) (e : Event) : Judged :=
  if e.consumersVerdict ch then (.accepted, shed e) else (.refusedInUse, e)

/-- A SHED is carried out (R131, R132; OFFLINE and BYPASS: log 20). -/
def Event.carryOutShed (ch : Ch) (e : Event) : Judged :=
  if e.held ch then (.refusedHeld, e)
  else
    match (e.cc.get ch).state with
    | .awake =>
      let after := e.shedAwake ch
      (if (after.cc.get ch).state = .waiting then .accepted else .deferred, after)
    | .waiting => (.accepted, e)
    | .rest => (.accepted, e)
    | .coast => (.accepted, e.clearOrigins ch)
    | .pending _ => e.shedIfUnused ch (Event.shedPending ch)
    | .tripped _ => e.shedIfUnused ch (Event.shedTripped ch)
    | .starting _ =>
      if e.mc.mode = .operating then e.shedIfUnused ch (Event.shedStarting ch)
      else (.refusedMode, e)
    | .locked _ => (.refusedLocked, e)
    | .offline => (.refusedMode, e)
    | .bypass => (.refusedMode, e)

/-- A SHED is judged: refused in LISTENING (R117); its gate is level 2 (R115). -/
def Event.judgeShed (env : Envelope) (channel level : Byte) (e : Event) : Judged :=
  if e.mc.mode = .listening then (.refusedMode, e)
  else e.judgeChannel env channel level 2 Event.carryOutShed

/-! ## HOLD (R120) -/

/-- The expiry of a HOLD: 0 means none (R120). -/
def holdExpiry (expiry : Word16) : Option Nat := if expiry = 0 then none else some expiry.toNat

/-- The entry that a HOLD sets (R119, R120). -/
def holdEntry (target : Target) (origin tag level : Nat) (expiry : Word16) : HoldEntry where
  target := target
  origin := origin
  tag := tag
  level := level
  expiryMinutes := holdExpiry expiry
  timer := (holdExpiry expiry).map Config.minutes

/-- The Hold List after a HOLD: refreshed in place, or a new entry at its end; `none` where it has no
room (R120). -/
def holdsAfter (h : HoldEntry) (holds : List HoldEntry) : Option (List HoldEntry) :=
  if holds.any fun x => x.key == h.key then
    some (holds.map fun x => if x.key == h.key then h else x)
  else if holds.length < Config.holdCapacity then some (holds ++ [h])
  else none

/-- A HOLD is carried out (R120). -/
def Event.carryOutHold (h : HoldEntry) (e : Event) : Judged :=
  match holdsAfter h e.cu.holds with
  | some holds => (.accepted, e.changeHolds { e.cu with holds := holds })
  | none => (.listFull, e)

/-- A HOLD is judged. Its gate admits every level (R115, R116). -/
def Event.judgeHold (env : Envelope) (target tag level : Byte) (expiry : Word16) (e : Event) :
    Judged :=
  if 3 < level.toNat ∨ tag = 0 ∨ 1440 < expiry.toNat then (.refusedForm, e)
  else
    match e.commandTarget? target with
    | none => (.noSuch, e)
    | some t =>
      e.carryOutHold (holdEntry t env.sender.toNat tag.toNat
        (e.effectiveLevel env.sender.toNat level.toNat) expiry)

/-! ## UNHOLD (R121) -/

/-- An entry matches an UNHOLD: its target and tag are the command's (R121). -/
def HoldEntry.matchedBy (target : Target) (tag : Nat) (h : HoldEntry) : Bool :=
  decide (h.target = target) && h.tag == tag

/-- An UNHOLD is carried out (R121). -/
def Event.carryOutUnhold (target : Target) (tag level : Nat) (e : Event) : Judged :=
  let found := e.cu.holds.filter fun h => h.matchedBy target tag
  if found = [] then (.noSuch, e)
  else if found.any fun h => decide (h.level < level) then (.refusedLevel, e)
  else
    (.accepted,
      e.changeHolds { e.cu with holds := e.cu.holds.filter fun h => !h.matchedBy target tag })

/-- An UNHOLD is judged (R116, R121). -/
def Event.judgeUnhold (env : Envelope) (target tag level : Byte) (e : Event) : Judged :=
  if 3 < level.toNat ∨ tag = 0 then (.refusedForm, e)
  else
    match e.commandTarget? target with
    | none => (.noSuch, e)
    | some t =>
      e.carryOutUnhold t tag.toNat (e.effectiveLevel env.sender.toNat level.toNat)

/-! ## UNLOCK (R9, R133) -/

/-- A LOCKED channel is unlocked into REST (R9, R127). Where it is held and enters PENDING at the same event,
the REST it passes begins no occurrence of a needs watch (R69, log 32). -/
def Event.unlockToRest (ch : Ch) (e : Event) : Event :=
  let e := (e.modCc ch fun c => { c with tripCount := 0, origins := {} }).setState ch .rest
  if e.held ch then e.addOrigin .hold ch else e

/-- The state is LOCKED. -/
def ChState.isLocked : ChState → Bool
  | .locked _ => true
  | _ => false

/-- An UNLOCK is carried out (R133). -/
def Event.carryOutUnlock (ch : Ch) (e : Event) : Judged :=
  if (e.cc.get ch).state.isLocked && !(e.cc.get ch).feedbackClosed then
    (.accepted, e.unlockToRest ch)
  else (.refusedState, e)

/-- An UNLOCK is judged: its gate is level 1 (R115). -/
def Event.judgeUnlock (env : Envelope) (channel level : Byte) (e : Event) : Judged :=
  e.judgeChannel env channel level 1 Event.carryOutUnlock

/-! ## The commands -/

/-- WAKE (R129). -/
def execWake (m : Moment) (env : Envelope) (channel level : Byte) (s : State) :
    Host.Outcome State Fault Refusal :=
  take m (Event.hear (.inTurn m.arrival) env kindWake [channel, level]
    (Event.command env kindWake channel 0 (Event.judgeWake env channel level))) s

/-- SHED (R131). -/
def execShed (m : Moment) (env : Envelope) (channel level : Byte) (s : State) :
    Host.Outcome State Fault Refusal :=
  take m (Event.hear (.inTurn m.arrival) env kindShed [channel, level]
    (Event.command env kindShed channel 0 (Event.judgeShed env channel level))) s

/-- HOLD (R120). -/
def execHold (m : Moment) (env : Envelope) (target tag level : Byte) (expiry : Word16) (s : State) :
    Host.Outcome State Fault Refusal :=
  take m (Event.hear (.inTurn m.arrival) env kindHold ([target, tag, level] ++ bytes16 expiry)
    (Event.command env kindHold target tag (Event.judgeHold env target tag level expiry))) s

/-- UNHOLD (R121). -/
def execUnhold (m : Moment) (env : Envelope) (target tag level : Byte) (s : State) :
    Host.Outcome State Fault Refusal :=
  take m (Event.hear (.inTurn m.arrival) env kindUnhold [target, tag, level]
    (Event.command env kindUnhold target tag (Event.judgeUnhold env target tag level))) s

/-- UNLOCK (R133). -/
def execUnlock (m : Moment) (env : Envelope) (channel level : Byte) (s : State) :
    Host.Outcome State Fault Refusal :=
  take m (Event.hear (.inTurn m.arrival) env kindUnlock [channel, level]
    (Event.command env kindUnlock channel 0 (Event.judgeUnlock env channel level))) s

end Sys2Proof.Machine
end

