-- ==== Sys2Proof/Machine/Contactor.lean ====
section
/-! DEFINITION. The Channel Controller's own events (01): FEEDBACK_CHANGE, FEEDBACK_MISMATCH,
RETRY_TIMER_EXPIRY, RUN_DOWN_EXPIRY, INRUSH_EXPIRY and INRUSH_HOLD_EXPIRY. -/

namespace Sys2Proof.Machine

/-! ## Feedback (R3, R4) -/

/-- The feedback flag changes; a change under supervision opens or closes a disagreement (R3, R4). -/
def Controller.feedback (supervise : Bool) (window : Micros) (closed : Bool) (c : Controller) :
    Controller :=
  if !supervise then { c with feedbackClosed := closed }
  else if c.state.energised == closed then
    { c with feedbackClosed := closed, mark := none, mismatchTimer := none }
  else { c with feedbackClosed := closed, mark := some .feedback, mismatchTimer := some window }

/-- Mismatch supervision operates for the channel (R4). -/
def State.supervises (s : State) (ch : Ch) : Bool :=
  (s.cc.get ch).state.supervised && decide (s.mc.mode ≠ .loading)

/-- FBn takes a level: a change of it changes the flag at once and is reported (R3, R159). -/
def Event.feedbackChange (ch : Ch) (closed : Bool) (e : Event) : Event :=
  let e : Event := { e with pins.feedbackClosed := e.pins.feedbackClosed.set ch closed }
  if (e.cc.get ch).feedbackClosed = closed then e
  else (e.modCc ch
    (Controller.feedback (e.supervises ch) (e.record ch).feedbackWindow closed)).oweState

/-! ## Mismatch (R5 to R7) -/

/-- The trip cause of a mismatch with the output energised (R5). -/
def tripCauseOf : Mark → TripCause
  | .output => .feedbackCloseFail
  | .feedback => .dropout

/-- The lock cause of a mismatch with the output de-energised (R5). -/
def lockCauseOf : Mark → LockCause
  | .output => .welded
  | .feedback => .forced

/-- The channel's mismatch timer is due, under supervision (R4). -/
def Controller.mismatchDue (c : Controller) : Bool := c.state.supervised && Timer.due c.mismatchTimer

/-- The mismatch timer expires: the channel trips or locks (R5, R6, R7). -/
def Event.feedbackMismatch (ch : Ch) (e : Event) : Event :=
  match (e.cc.get ch).mark, (e.cc.get ch).mismatchDue with
  | some mark, true =>
    let e := e.modCc ch fun c => { c with mark := none, mismatchTimer := none }
    if (e.cc.get ch).state.energised then e.trip ch (tripCauseOf mark)
    else e.lock ch (lockCauseOf mark)
  | _, _ => e

/-! ## Retry (R11) -/

/-- A trip cause as a lock cause (R11). -/
def TripCause.asLock : TripCause → LockCause
  | .feedbackCloseFail => .feedbackCloseFail
  | .dropout => .dropout

/-- The lock cause at a retry expiry (R11). -/
def retryLockCause (retryLimit : Nat) (cause : TripCause) : LockCause :=
  if 1 ≤ retryLimit then .repeatedTrip else cause.asLock

/-- The retry timer expires: a retry or a lock (R11). -/
def Event.retryEnds (ch : Ch) (e : Event) : Event :=
  match (e.cc.get ch).state, Timer.due (e.cc.get ch).retryTimer with
  | .tripped cause, true =>
    if (e.cc.get ch).tripCount ≤ (e.record ch).retryLimit then
      (e.recordOrigin .retry ch).enterPending ch
    else e.lock ch (retryLockCause (e.record ch).retryLimit cause)
  | _, _ => e

/-! ## Run-down (R20) -/

/-- The run-down timer of a COAST channel expires (R20). -/
def Event.runDownExpires (ch : Ch) (e : Event) : Event :=
  match (e.cc.get ch).state, Timer.due (e.cc.get ch).runDownTimer with
  | .coast, true => e.runDownEnds ch
  | _, _ => e

/-! ## Inrush (R26, R89, R90) -/

/-- The channel enters AWAKE: its wakes have been served and its tracker starts (R26, R34). -/
def Event.enterAwake (ch : Ch) (e : Event) : Event :=
  let e := (e.modCc ch fun c => { c with inrushTimer := none, origins := {} }).setState ch .awake
  e.modIt ch fun _ =>
    Tracker.start (e.record ch).idleWindow (e.record ch).debounce (e.held ch)
      (e.pins.senseActive.get ch)

/-- The channel's own LIVE claim is released, if it has one (R89). -/
def Event.releaseLive (ch : Ch) (e : Event) : Event :=
  match e.liveOf ch with
  | some x => e.releaseClaim x
  | none => e

/-- The inrush timer of a STARTING channel expires (R26, R89). -/
def Event.inrushEnds (ch : Ch) (e : Event) : Event :=
  match (e.cc.get ch).state, Timer.due (e.cc.get ch).inrushTimer with
  | .starting .claimed, true => (e.enterAwake ch).releaseLive ch
  | .starting .unclaimed, true => e.enterAwake ch
  | _, _ => e

/-- The inrush hold of the channel's own LIVE claim expires (R90). -/
def Event.inrushHoldEnds (ch : Ch) (e : Event) : Event :=
  match e.liveOf ch with
  | some x => if Timer.due x.timer then e.releaseClaim x else e
  | none => e

/-! ## The commands -/

/-- FEEDBACK_CHANGE (R3). -/
def execFeedbackChange (m : Moment) (ch : Ch) (closed : Bool) (s : State) :
    Host.Outcome State Fault Refusal :=
  take m (Event.feedbackChange ch closed) s

/-- FEEDBACK_MISMATCH (R5). -/
def execFeedbackMismatch (m : Moment) (ch : Ch) (s : State) : Host.Outcome State Fault Refusal :=
  take m (Event.feedbackMismatch ch) s

/-- RETRY_TIMER_EXPIRY (R11). -/
def execRetryTimerExpiry (m : Moment) (ch : Ch) (s : State) : Host.Outcome State Fault Refusal :=
  take m (Event.retryEnds ch) s

/-- RUN_DOWN_EXPIRY (R20). -/
def execRunDownExpiry (m : Moment) (ch : Ch) (s : State) : Host.Outcome State Fault Refusal :=
  take m (Event.runDownExpires ch) s

/-- INRUSH_EXPIRY (R26). -/
def execInrushExpiry (m : Moment) (ch : Ch) (s : State) : Host.Outcome State Fault Refusal :=
  take m (Event.inrushEnds ch) s

/-- INRUSH_HOLD_EXPIRY (R90). -/
def execInrushHoldExpiry (m : Moment) (ch : Ch) (s : State) : Host.Outcome State Fault Refusal :=
  take m (Event.inrushHoldEnds ch) s

end Sys2Proof.Machine
end

