-- ==== Sys2Proof/Machine/Idle.lean ====
section
/-! DEFINITION. The Idle Tracker's events (02): ACTIVITY_SENSE_CHANGE, ACTIVITY_DEBOUNCE_EXPIRY and
IDLE_WINDOW_EXPIRY. -/

namespace Sys2Proof.Machine

/-- ASn takes a level: the tracker debounces a change of it (R35). -/
def Event.activitySenseChange (ch : Ch) (active : Bool) (e : Event) : Event :=
  if e.pins.senseActive.get ch = active then e
  else
    let e : Event := { e with pins.senseActive := e.pins.senseActive.set ch active }
    e.modIt ch (Tracker.senseChange (e.record ch).debounce active)

/-- An onset, reported to the controller (R18, R36). -/
def Event.onset (ch : Ch) (e : Event) : Event :=
  (e.modIt ch (Tracker.onset (e.record ch).idleWindow e.now)).returnToAwake ch

/-- The debounce timer expires: the debounced level takes the level of ASn (R35 to R37). -/
def Event.activityDebounced (ch : Ch) (e : Event) : Event :=
  if Timer.due (e.it.get ch).debounceTimer then
    if e.pins.senseActive.get ch then e.onset ch
    else e.modIt ch (Tracker.activityEnd (e.record ch).idleWindow)
  else e

/-- The idle window timer expires (R38, R39). -/
def Event.idleWindowEnds (ch : Ch) (e : Event) : Event :=
  if (e.it.get ch).status = .running ∧ Timer.due (e.it.get ch).windowTimer then e.windowExpired ch
  else e

/-- ACTIVITY_SENSE_CHANGE (R35). -/
def execActivitySenseChange (m : Moment) (ch : Ch) (active : Bool) (s : State) :
    Host.Outcome State Fault Refusal :=
  take m (Event.activitySenseChange ch active) s

/-- ACTIVITY_DEBOUNCE_EXPIRY (R35). -/
def execActivityDebounceExpiry (m : Moment) (ch : Ch) (s : State) :
    Host.Outcome State Fault Refusal :=
  take m (Event.activityDebounced ch) s

/-- IDLE_WINDOW_EXPIRY (R39). -/
def execIdleWindowExpiry (m : Moment) (ch : Ch) (s : State) : Host.Outcome State Fault Refusal :=
  take m (Event.idleWindowEnds ch) s

end Sys2Proof.Machine
end

