-- ==== Sys2Proof/Machine/Line.lean ====
section
/-! DEFINITION. The sender and the lamps (08, 09): LINE_ACCESS_GAP, CONTENTION_LOST, FRAME_SENT,
SEND_FAULT, INVALID_FRAME and LAMP_STEP. -/

namespace Sys2Proof.Machine

/-! ## Lamps (R164) -/

/-- A lamp's step elapses: from 15 it returns to 0 (R164). -/
def LampState.step125 (l : LampState) : LampState :=
  if Timer.due l.timer then ⟨(l.step + 1) % 16, some Config.lampStep⟩ else l

/-- A step of a lamp elapses (R164). -/
def Event.lampStep (lamp : Lamp) (e : Event) : Event :=
  match lamp with
  | .channel ch => { e with iu.channels := e.iu.channels.set ch (e.iu.channels.get ch).step125 }
  | .node => { e with iu.node := e.iu.node.step125 }

/-! ## Sending (R153 to R155) -/

/-- Some channel is in sub-phase BUDGET. -/
def State.someInBudget (s : State) : Bool :=
  Ch.all.any fun ch => decide ((s.cc.get ch).state = .pending .budget)

/-- The head of the queue enters the sender, its check sequence is computed and its attempt count is 0
(R153, R170). A BUDGET channel that found the queue full at the last evaluation is evaluated (R80). -/
def Event.fillSender (f : Frame) (rest : List Frame) (e : Event) : Event :=
  let e : Event :=
    { e with li.queue := rest, li.sender := some ⟨f, f.wire e.mc.station⟩, li.attempts := 0 }
  if e.someInBudget && e.bu.fullAtEval then e.oweEval else e

/-- The line has been quiet for one access gap: the receiver takes frames from here on (R150), a frame
in progress has ended (R160), and the node begins to send if it has a frame (R153). The command is itself
the report of the 320 us of quiet, which are not counted; a frame queued on a line quiet for longer is
begun at the next such command, not at the event that queues it; during a reset, or while the node
drives the line, the command has no effect (log 35). -/
def Event.accessGap (e : Event) : Event :=
  if e.mc.inReset ∨ e.li.driving then e
  else
    let e : Event := { e with li.awaitingGap := false, li.inProgress := none }
    match e.li.sender, e.li.queue with
    | some _, _ => { e with li.driving := true }
    | none, f :: rest => { e.fillSender f rest with li.driving := true }
    | none, [] => e

/-- A lower station number wins the opening field: the node stops driving, keeps its frame and receives
the winner's (R154, R160). What a disturbed line lets the node read back there, where it is no lower
station's number, has no effect (log 34). -/
def Event.contentionLost (winner : Byte) (e : Event) : Event :=
  if e.li.driving ∧ isStation winner ∧ winner.toNat < e.mc.station then
    { e with li.driving := false, li.inProgress := some winner }
  else e

/-- The frame is completed and sent (R155). -/
def Event.frameSent (e : Event) : Event :=
  if e.li.driving then { e with li.driving := false, li.sender := none } else e

/-- A difference after the opening field breaks the frame off; at 8 attempts it is dropped (R155). -/
def Event.sendFault (e : Event) : Event :=
  if e.li.driving then
    { e with
      li.driving := false
      li.attempts := e.li.attempts + 1
      li.sender := if e.li.attempts + 1 < Config.maxAttempts then e.li.sender else none }
  else e

/-- A broken or invalid frame ends and is discarded (R160). -/
def Event.invalidFrame (e : Event) : Event := { e with li.inProgress := none }

/-! ## The commands -/

/-- LAMP_STEP (R164). -/
def execLampStep (m : Moment) (lamp : Lamp) (s : State) : Host.Outcome State Fault Refusal :=
  take m (Event.lampStep lamp) s

/-- LINE_ACCESS_GAP (R153, log 35). -/
def execLineAccessGap (m : Moment) (s : State) : Host.Outcome State Fault Refusal :=
  take m Event.accessGap s

/-- CONTENTION_LOST (R154). -/
def execContentionLost (m : Moment) (winner : Byte) (s : State) :
    Host.Outcome State Fault Refusal :=
  take m (Event.contentionLost winner) s

/-- FRAME_SENT (R155). -/
def execFrameSent (m : Moment) (s : State) : Host.Outcome State Fault Refusal :=
  take m Event.frameSent s

/-- SEND_FAULT (R155). -/
def execSendFault (m : Moment) (s : State) : Host.Outcome State Fault Refusal :=
  take m Event.sendFault s

/-- INVALID_FRAME (R160): whatever was received of it has no effect on any block. -/
def execInvalidFrame (m : Moment) (_bytes : List Byte) (s : State) :
    Host.Outcome State Fault Refusal :=
  take m Event.invalidFrame s

end Sys2Proof.Machine
end

