-- ==== Sys2Proof/Machine/Peers.lean ====
section
/-! DEFINITION. The Dependency Unit's timers and the heartbeat (03, 08): CALL_WAIT_EXPIRY,
AGE_TIMER_EXPIRY and HEARTBEAT_EXPIRY. -/

namespace Sys2Proof.Machine

/-- CALL_UNANSWERED is noticed with the first unavailable provider (R65). -/
def Event.noticeUnanswered (ch : Ch) (e : Event) : Event :=
  match e.unavailable ch with
  | r :: _ => e.noticeCh ch (.callUnanswered ch r)
  | [] => e

/-- The call wait timer of a CALLING channel expires (R65). -/
def Event.callWaitEnds (ch : Ch) (e : Event) : Event :=
  if (e.cc.get ch).state = .pending .calling ∧ Timer.due (e.du.callWait.get ch) then
    (((e.noticeUnanswered ch).setCallWait ch none).setState ch (.pending .budget)).oweEval
  else e

/-- The entry is of one of the stations, and its age timer is due (R54, log 22). -/
def PeerEntry.agesOut (stations : List Nat) (p : PeerEntry) : Bool :=
  Timer.due p.ageTimer && stations.contains p.ref.station

/-- An entry whose age timer expires becomes absent and its timer stops (R54). -/
def PeerEntry.aged (stations : List Nat) (p : PeerEntry) : PeerEntry :=
  if p.agesOut stations then { p with isPresent := false, ageTimer := none } else p

/-- Each member of a list once, in order of first appearance. -/
def distinct : List Nat → List Nat
  | [] => []
  | n :: rest => n :: (distinct rest).filter fun k => k != n

/-- The stations whose entries age out, in the order of the Peer Table (R54). -/
def agingStations (stations : List Nat) (peers : List PeerEntry) : List Nat :=
  distinct ((peers.filter fun p => p.agesOut stations).map fun p => p.ref.station)

/-- The age timers of some stations' entries expire (R54). -/
def Event.ageOut (stations : List Nat) (e : Event) : Event :=
  let gone := agingStations stations e.du.peers
  let e : Event := { e with du.peers := e.du.peers.map (PeerEntry.aged stations) }
  gone.foldl (fun e n => e.noticeNode (.peerAbsent n)) e

/-- The calls due at a heartbeat: from each CALLING channel (R64), and from each channel with a watch
mark set (R70). -/
def Event.heartbeatCalls (ch : Ch) (e : Event) : Event :=
  let e : Event :=
    if (e.cc.get ch).state = .pending .calling then
      { e with out.callDue := e.out.callDue.set ch true }
    else e
  (e.standingFrame ch).oweStanding ch ((e.du.marks.get ch).filter e.isLocal)

/-- The heartbeat timer expires (R72, R158). -/
def Event.heartbeat (e : Event) : Event :=
  if Timer.due e.li.heartbeatTimer then
    (({ e with li.heartbeatTimer := some e.heartbeatPeriod } : Event).oweState).forChannels
      Event.heartbeatCalls
  else e

/-- CALL_WAIT_EXPIRY (R65). -/
def execCallWaitExpiry (m : Moment) (ch : Ch) (s : State) : Host.Outcome State Fault Refusal :=
  take m (Event.callWaitEnds ch) s

/-- AGE_TIMER_EXPIRY (R54). -/
def execAgeTimerExpiry (m : Moment) (stations : List Nat) (s : State) :
    Host.Outcome State Fault Refusal :=
  take m (Event.ageOut stations) s

/-- HEARTBEAT_EXPIRY (R158). -/
def execHeartbeatExpiry (m : Moment) (s : State) : Host.Outcome State Fault Refusal :=
  take m Event.heartbeat s

end Sys2Proof.Machine
end

