-- ==== Sys2Proof/Machine/Startup.lean ====
section
/-! DEFINITION. Reset, its release and the end of LOADING (07): RESET, RESET_RELEASE and
IMAGE_READ_COMPLETE. -/

namespace Sys2Proof.Machine

/-! ## Reset (R136) -/

/-- The start cause when a further cause arises in one period of being held in reset: POWER before DIP
before LINE (R136). -/
def strongerCause : StartCause → StartCause → StartCause
  | .power, _ => .power
  | _, .power => .power
  | .dip, _ => .dip
  | _, .dip => .dip
  | .line, .line => .line

/-- The start cause after a reset cause arises (R136). -/
def ModeControl.causeAfter (u : ModeControl) (cause : StartCause) : StartCause :=
  if u.inReset then strongerCause u.startCause cause else cause

/-- The node held in reset: every block takes its reset values, and what is read from the field inputs
takes their positions at once (R1, R33, R50, R74, R101, R113, R135, R136, R150, R164). -/
def State.heldInReset (cause : StartCause) (s : State) : State where
  cc := s.pins.feedbackClosed.map Controller.reset
  it := .all Tracker.reset
  du := DependencyUnit.reset
  bu := BudgetUnit.reset
  cu := CommandUnit.reset s.pins
  pu := PhaseUnit.reset
  mc := ModeControl.reset cause
  li := LineInterface.reset
  iu := IndicatorUnit.reset
  pins := s.pins
  now := s.now
  pending := s.pending

/-- A reset cause arises (R136). -/
def Event.resetNode (cause : StartCause) (e : Event) : Event where
  toState := e.toState.heldInReset (e.mc.causeAfter cause)

/-- The lamps begin to step: OFFLINE and LOADING are shown from step 0 (R164). -/
def IndicatorUnit.started : IndicatorUnit where
  channels := .all .restarted
  node := .restarted

/-- The reset is released with the address pins at `adr`: the node enters LOADING (R135, R136). -/
def Event.release (adr : BitVec 6) (e : Event) : Event :=
  if e.mc.inReset then
    { e with mc.inReset := false, mc.station := adr.toNat, iu := .started }
  else e

/-! ## The end of LOADING (R137, R140, R141) -/

/-- A Peer Table entry as the table is built (R52). -/
def PeerEntry.built (limit : Micros) (r : Ref) : PeerEntry where
  ref := r
  state := none
  feedbackClosed := false
  held := false
  isPresent := false
  ageTimer := some limit

/-- The Peer Table of an image: its distinct remote references (R52). -/
def Image.peerTable (station : Nat) (image : Image) : List PeerEntry :=
  (remoteRefs station image.channels.toList).map (PeerEntry.built image.stalenessLimit)

/-- A configured channel leaves OFFLINE at acceptance of the image (R30, R127). -/
def Event.leaveOffline (ch : Ch) (e : Event) : Event :=
  if e.configured ch then
    if (e.cc.get ch).feedbackClosed then e.lock ch .welded
    else
      let e := (e.setState ch .rest).addOrigin .start ch
      if e.held ch then e.addOrigin .hold ch else e
  else e

/-- The image is accepted: each block takes its part, and the node enters LISTENING (R141). -/
def Event.acceptImage (image : Image) (e : Event) : Event :=
  let e : Event :=
    { e with
      mc.image := some image
      mc.listenTimer := some image.listenInterval
      mc.isolationTimer := some image.isolationLimit
      du.peers := image.peerTable e.mc.station
      li.heartbeatTimer := some image.heartbeatPeriod }
  ((e.setMode .listening).noticeNode (.started e.mc.startCause)).forChannels Event.leaveOffline

/-- The bypass time of channel k: the station number plus k, multiplied by 2 s (R31, R140). -/
def bypassTime (station : Nat) (ch : Ch) : Micros := (station + ch.toNat) * Config.staggerUnit

/-- The image is rejected: the node enters UNCONFIGURED (R140, R158). -/
def Event.rejectImage (reason : RejectReason) (record : Nat) (e : Event) : Event :=
  let e : Event :=
    { e with
      mc.reject := some (reason, record)
      mc.bypassTimer := .tabulate fun ch => some (bypassTime e.mc.station ch)
      li.heartbeatTimer := if e.mc.station = 0 then none else some Config.unconfiguredHeartbeat }
  ((e.setMode .unconfigured).noticeNode (.started e.mc.startCause)).noticeNode
    (.imageRejected record reason)

/-- The read of the image ends, and the image is judged (R137, R138, R139). -/
def Event.imageRead (read : ImageRead) (e : Event) : Event :=
  if e.mc.mode = .loading ∧ e.mc.inReset = false then
    match judgeImage e.mc.station read with
    | .accepted image => e.acceptImage image
    | .rejected reason record => e.rejectImage reason record
  else e

/-! ## The commands -/

/-- RESET (R136). -/
def execReset (m : Moment) (cause : StartCause) (s : State) : Host.Outcome State Fault Refusal :=
  take m (Event.resetNode cause) s

/-- RESET_RELEASE (R136). -/
def execResetRelease (m : Moment) (adr : BitVec 6) (s : State) : Host.Outcome State Fault Refusal :=
  take m (Event.release adr) s

/-- IMAGE_READ_COMPLETE (R139). -/
def execImageReadComplete (m : Moment) (read : ImageRead) (s : State) :
    Host.Outcome State Fault Refusal :=
  take m (Event.imageRead read) s

end Sys2Proof.Machine
end

