-- ==== Sys2Proof/Machine/Dispatch.lean ====
section
/-! DEFINITION. One arm per command. -/

namespace Sys2Proof.Machine

def exec (i : Instr) (s : State) : Host.Outcome State Fault Refusal :=
  match i with
  | .reset m cause => Sys2Proof.Machine.execReset m cause s
  | .resetRelease m adr => Sys2Proof.Machine.execResetRelease m adr s
  | .imageReadComplete m read => Sys2Proof.Machine.execImageReadComplete m read s
  | .feedbackChange m ch closed => Sys2Proof.Machine.execFeedbackChange m ch closed s
  | .feedbackMismatch m ch => Sys2Proof.Machine.execFeedbackMismatch m ch s
  | .retryTimerExpiry m ch => Sys2Proof.Machine.execRetryTimerExpiry m ch s
  | .runDownExpiry m ch => Sys2Proof.Machine.execRunDownExpiry m ch s
  | .inrushExpiry m ch => Sys2Proof.Machine.execInrushExpiry m ch s
  | .inrushHoldExpiry m ch => Sys2Proof.Machine.execInrushHoldExpiry m ch s
  | .activitySenseChange m ch active => Sys2Proof.Machine.execActivitySenseChange m ch active s
  | .activityDebounceExpiry m ch => Sys2Proof.Machine.execActivityDebounceExpiry m ch s
  | .idleWindowExpiry m ch => Sys2Proof.Machine.execIdleWindowExpiry m ch s
  | .holdKeyChange m ch on => Sys2Proof.Machine.execHoldKeyChange m ch on s
  | .holdKeyDebounceExpiry m ch => Sys2Proof.Machine.execHoldKeyDebounceExpiry m ch s
  | .wakeButtonChange m ch pressed => Sys2Proof.Machine.execWakeButtonChange m ch pressed s
  | .wakeButtonDebounceExpiry m ch => Sys2Proof.Machine.execWakeButtonDebounceExpiry m ch s
  | .callWaitExpiry m ch => Sys2Proof.Machine.execCallWaitExpiry m ch s
  | .ageTimerExpiry m stations => Sys2Proof.Machine.execAgeTimerExpiry m stations s
  | .settleExpiry m ch => Sys2Proof.Machine.execSettleExpiry m ch s
  | .claimHoldTimerExpiry m station number => Sys2Proof.Machine.execClaimHoldTimerExpiry m station number s
  | .overflowTimerExpiry m => Sys2Proof.Machine.execOverflowTimerExpiry m s
  | .retryGapExpiry m ch => Sys2Proof.Machine.execRetryGapExpiry m ch s
  | .holdEntryExpiry m entries => Sys2Proof.Machine.execHoldEntryExpiry m entries s
  | .listenExpiry m => Sys2Proof.Machine.execListenExpiry m s
  | .isolationExpiry m => Sys2Proof.Machine.execIsolationExpiry m s
  | .isolationStaggerExpiry m => Sys2Proof.Machine.execIsolationStaggerExpiry m s
  | .bypassTimerExpiry m ch => Sys2Proof.Machine.execBypassTimerExpiry m ch s
  | .heartbeatExpiry m => Sys2Proof.Machine.execHeartbeatExpiry m s
  | .lampStep m lamp => Sys2Proof.Machine.execLampStep m lamp s
  | .lineAccessGap m => Sys2Proof.Machine.execLineAccessGap m s
  | .contentionLost m winner => Sys2Proof.Machine.execContentionLost m winner s
  | .frameSent m => Sys2Proof.Machine.execFrameSent m s
  | .sendFault m => Sys2Proof.Machine.execSendFault m s
  | .invalidFrame m bytes => Sys2Proof.Machine.execInvalidFrame m bytes s
  | .unknownKindFrame m env kind payload => Sys2Proof.Machine.execUnknownKindFrame m env kind payload s
  | .stateReceived m env payload => Sys2Proof.Machine.execStateReceived m env payload s
  | .phaseReceived m env phase epoch level => Sys2Proof.Machine.execPhaseReceived m env phase epoch level s
  | .claimReceived m env number channel weight rank => Sys2Proof.Machine.execClaimReceived m env number channel weight rank s
  | .withdrawReceived m env number => Sys2Proof.Machine.execWithdrawReceived m env number s
  | .releaseReceived m env number => Sys2Proof.Machine.execReleaseReceived m env number s
  | .callReceived m env payload => Sys2Proof.Machine.execCallReceived m env payload s
  | .wake m env channel level => Sys2Proof.Machine.execWake m env channel level s
  | .shed m env channel level => Sys2Proof.Machine.execShed m env channel level s
  | .hold m env target tag level expiry => Sys2Proof.Machine.execHold m env target tag level expiry s
  | .unhold m env target tag level => Sys2Proof.Machine.execUnhold m env target tag level s
  | .unlock m env channel level => Sys2Proof.Machine.execUnlock m env channel level s
  | .replyReceived m env kind channel tag code => Sys2Proof.Machine.execReplyReceived m env kind channel tag code s
  | .noticeReceived m env channel code detail1 detail2 => Sys2Proof.Machine.execNoticeReceived m env channel code detail1 detail2 s

end Sys2Proof.Machine
end

