-- ==== Sys2Proof/Safety.lean ====
section
/-! DEFINITION. What every step must keep: the bounds and the agreements between blocks that the rules
promise of a running node. -/

namespace Sys2Proof.Machine

/-- The transmit queue never holds more than 16 frames, nor more than one STATE frame (R156). -/
def State.queueBounded (s : State) : Prop :=
  s.li.queue.length ≤ Config.queueCapacity ∧ (s.li.queue.filter Frame.isState).length ≤ 1

/-- The node drives the line only with a frame in its sender; the frame has been attempted less than 8
times, and the count never passes 8 (R150, R153, R155). -/
def State.senderSound (s : State) : Prop :=
  (s.li.driving = true → s.li.sender.isSome = true) ∧
  (s.li.sender.isSome = true → s.li.attempts < Config.maxAttempts) ∧
  s.li.attempts ≤ Config.maxAttempts

/-- In SILENT the queue and the sender are empty and the node does not drive the line (R148, R163). -/
def State.silentIsQuiet (s : State) : Prop :=
  s.mc.mode = .silent → s.li.queue = [] ∧ s.li.sender = none ∧ s.li.driving = false

/-- The Hold List never holds more than 8 entries, and never two with the same origin station, target
and tag (R119). -/
def State.holdListSound (s : State) : Prop :=
  s.cu.holds.length ≤ Config.holdCapacity ∧ (s.cu.holds.map HoldEntry.key).Nodup

/-- The key of a Claim Table entry (R75). -/
def Claim.key (c : Claim) : Nat × Nat := (c.station, c.number)

/-- The Claim Table holds at most 24 entries and at most one for each key; own entries carry the node's
station and remote ones another (R75). A node held in reset is in LOADING with an empty table (R74,
R136). -/
def State.claimTableSound (s : State) : Prop :=
  s.bu.claims.length ≤ Config.claimCapacity ∧ (s.bu.claims.map Claim.key).Nodup ∧
  (∀ c ∈ s.bu.claims, c.isOwn = true → c.station = s.mc.station) ∧
  (∀ c ∈ s.bu.claims, c.isOwn = false → c.station ≠ s.mc.station) ∧
  (s.mc.inReset = true → s.mc.mode = .loading ∧ s.bu.claims = [])

/-- The confirmation counts run from 0 to 15, and so do the required counts (R33, R39, table of 2). -/
def State.countsBounded (s : State) : Prop :=
  ∀ ch, (s.it.get ch).count ≤ Config.countMax ∧ (s.record ch).requiredCount ≤ Config.countMax

/-- The tracker is RUNNING or PAUSED exactly while its channel is in AWAKE or WAITING (R34). -/
def State.trackersFollow (s : State) : Prop :=
  ∀ ch, (s.it.get ch).status ≠ .stopped ↔ (s.cc.get ch).state.tracked = true

/-- A STOPPED tracker has no timer running and no remaining time (R33, R34). -/
def State.stoppedTrackersRest (s : State) : Prop :=
  ∀ ch, (s.it.get ch).status = .stopped →
    (s.it.get ch).windowTimer = none ∧ (s.it.get ch).remaining = none ∧
    (s.it.get ch).debounceTimer = none

/-- A running load has no origin recorded (R13, R26). -/
def State.originsServed (s : State) : Prop :=
  ∀ ch, (s.cc.get ch).state.tracked = true → (s.cc.get ch).origins = {}

/-- A PROVISIONAL entry exists only while its channel is in CLAIMING, and a channel has at most one
(R76). -/
def State.provisionalClaiming (s : State) : Prop :=
  (∀ c ∈ s.bu.claims, c.isProvisional = true → (s.cc.get c.ch).state = .pending .claiming) ∧
  ∀ c ∈ s.bu.claims, ∀ d ∈ s.bu.claims, c.isProvisional = true → d.isProvisional = true →
    c.ch = d.ch → c.key = d.key

/-- A CLAIMING channel has its PROVISIONAL entry and a CLAIMED start its LIVE one, with no hold timer of
its own while the channel is in STARTING; a channel has at most one own claim (R76, R90). -/
def State.claimsStand (s : State) : Prop :=
  (∀ ch, (s.cc.get ch).state = .pending .claiming →
    ∃ c ∈ s.bu.claims, c.isProvisional = true ∧ c.ch = ch) ∧
  (∀ ch, (s.cc.get ch).state = .starting .claimed →
    ∃ c ∈ s.bu.claims, c.isLive = true ∧ c.ch = ch ∧ c.timer = none) ∧
  ∀ c ∈ s.bu.claims, ∀ d ∈ s.bu.claims, c.isOwn = true → d.isOwn = true → c.ch = d.ch →
    c.key = d.key

/-- In LOADING every channel is OFFLINE (R30, R137), in UNCONFIGURED OFFLINE or BYPASS (R31); a bypass
timer runs only in UNCONFIGURED, or in SILENT after it, and only for an OFFLINE channel (R31, R149). -/
def State.offlineBefore (s : State) : Prop :=
  (s.mc.mode = .loading → ∀ ch, (s.cc.get ch).state = .offline ∧ s.mc.bypassTimer.get ch = none) ∧
  (s.mc.mode = .unconfigured →
    ∀ ch, (s.cc.get ch).state = .offline ∨ (s.cc.get ch).state = .bypass) ∧
  ∀ ch, s.mc.bypassTimer.get ch ≠ none →
    (s.mc.mode = .unconfigured ∨ s.mc.mode = .silent) ∧ (s.cc.get ch).state = .offline

/-- The trackers follow their channels (R34), with what that rests on: where PROVISIONAL claims stand
(R76) and where channels are OFFLINE or BYPASS (R30, R31). -/
def State.channelsSound (s : State) : Prop :=
  s.trackersFollow ∧ s.provisionalClaiming ∧ s.offlineBefore

/-- Nothing more follows from what has happened: no call is owed, no verdict waits to be acted on, and
every watch mark agrees with its lost condition (R57, R58, R59, R69). -/
def State.settled (s : State) : Prop :=
  ∀ ch, ¬((s.cc.get ch).state = .pending .calling ∧ s.providersVerdict ch = true) ∧
    s.mayCoast ch = false ∧ s.du.marks.get ch = s.lostProviders ch

/-- The node's own claims, PROVISIONAL and LIVE, fit in the plant budget (R78), and in LOADING it has
none (R74). -/
def State.ownWithinBudget (s : State) : Prop :=
  weightSum (s.bu.claims.filter Claim.isOwn) ≤ s.plantBudget ∧
  (s.mc.mode = .loading → s.bu.claims.filter Claim.isOwn = [])

/-! ## What statements say of states and commands -/

/-- The states that the verdicts, calls and the needs watch never move a channel out of. -/
def ChState.stays : ChState → Bool
  | .offline => true
  | .awake => true
  | .waiting => false
  | .coast => false
  | .rest => false
  | .pending _ => false
  | .starting _ => true
  | .tripped _ => true
  | .locked _ => true
  | .bypass => true

/-- A valid frame of another station arrives, in a mode in which frames are taken, at a line seen quiet
since the last reset, and is none that the node itself is sending (R150, R160, R161). -/
def State.hears (s : State) (env : Envelope) (kind : Byte) (payload : List Byte) : Prop :=
  s.mc.mode ≠ .loading ∧ s.li.awaitingGap = false ∧ isStation env.sender = true ∧
  env.sender.toNat ≠ s.mc.station ∧
  s.isSending (lineBytes env.sender kind env.target payload) = false

/-- LISTENING or OPERATING: the modes with a running isolation timer (R142, R144). -/
def State.onLine (s : State) : Prop := s.mc.mode = .listening ∨ s.mc.mode = .operating

/-- A mode in which the node queues NOTICE frames, at a station on the line (R163, R169). -/
def State.speaks (s : State) : Prop :=
  s.mc.station ≠ 0 ∧ s.mc.mode ≠ .loading ∧ s.mc.mode ≠ .silent

/-- The frame stands in the transmit queue, unless the queue is full (R156, R157). -/
def State.queued (t : State) (f : Frame) : Prop := f ∈ t.li.queue ∨ 16 ≤ t.li.queue.length

/-- The node has noticed it: the NOTICE stands in the queue, unless the queue is full (R168). -/
def State.noticed (t : State) (n : Notice) : Prop := t.queued ⟨0, .notice n⟩

/-- The node has answered a command: the REPLY stands in the queue, unless the queue is full (R118). -/
def State.replied (t : State) (env : Envelope) (kind channel tag : Byte) (code : ReplyCode) : Prop :=
  t.queued ⟨env.sender, .reply kind channel tag code⟩

/-- What a change of a channel's output leaves of its mismatch supervision, on the way from `was` to `now`:
where the feedback does not agree with the new output, a disagreement with mark OUTPUT and the whole
feedback window to run; where it agrees, none (R4). -/
def Controller.outputChanged (full : Micros) (was now : Controller) : Prop :=
  if now.state.energised = was.feedbackClosed then now.mark = none ∧ now.mismatchTimer = none
  else now.mark = some .output ∧ now.mismatchTimer = some full

/-- What the release of the own LIVE claim `x` leaves in the state `t` after it: no LIVE entry with its
key, and, from a node whose mode queues frames, its RELEASE in the queue, unless the queue is full of
frames that make no room for it (R89, R90, R99, R157). -/
def State.released (s : State) (x : Claim) (t : State) : Prop :=
  (∀ c ∈ t.bu.claims, c.isLive = true → c.key ≠ x.key) ∧
  (s.mc.station ≠ 0 →
    s.mc.mode = .listening ∨ s.mc.mode = .operating ∨ s.mc.mode = .isolated →
    (⟨0, .release x.number⟩ : Frame) ∈ t.li.queue ∨
    16 ≤ t.li.queue.length ∧ ∀ f ∈ t.li.queue, f.isReport = false)

/-- No channel of the node has this channel in its needs list, so no local call reaches it (R62). -/
def State.notNeeded (s : State) (ch : Ch) : Prop :=
  ∀ k, ∀ r ∈ (s.record k).needs, s.localCh? r ≠ some ch

/-- The tracker with its count cleared and a new idle window begun (R38, R47). -/
def Tracker.woken (full : Micros) (t : Tracker) : Tracker :=
  { t with
    count := 0
    windowTimer := if t.status = .running then some full else t.windowTimer
    remaining := if t.status = .paused then some full else t.remaining }

/-- What ceasing to be held does to a channel on the way from `a` to `t` (R45, R126). A PAUSED tracker
with time left resumes, and an AWAKE channel that is idle-confirmed, of a permitted rank and in an
OPERATING node leaves AWAKE, its contactor opening where its consumers rest; any other AWAKE channel
runs on. In another state that the verdicts and calls do not move, its tracker STOPPED with no window
timer, nothing but an origin changes. -/
def State.resumes (a t : State) (ch : Ch) : Prop :=
  ((a.cc.get ch).state = .awake → (a.it.get ch).status = .paused →
    (a.it.get ch).remaining ≠ some 0 →
      let rests : Prop := (a.record ch).requiredCount ≤ (a.it.get ch).count ∧
        a.pu.phase.permits (a.record ch).rank = true ∧ a.mc.mode = .operating
      (¬rests → (t.cc.get ch).state = .awake ∧
        t.it.get ch = { a.it.get ch with
          status := .running
          windowTimer := (a.it.get ch).remaining
          remaining := none }) ∧
      (rests → (t.cc.get ch).state ≠ .awake ∧
        (a.consumersVerdict ch = true → t.coilDrive ch = false))) ∧
  ((a.cc.get ch).state.stays = true → (a.cc.get ch).state ≠ .awake →
    (a.it.get ch).status = .stopped → (a.it.get ch).windowTimer = none →
    { t.cc.get ch with origins := (a.cc.get ch).origins } = a.cc.get ch)

end Sys2Proof.Machine
end

