-- ==== Sys2Proof/WellFormed.lean ====
section
/-! DEFINITION. Which commands are well formed: their operands are what the event they name can bring. A
command that is not well formed is taken all the same, and changes nothing but the time where its
operands name nothing (log 2). -/

namespace Sys2Proof

open Sys2Proof.Machine

/-- A record that the memory answered has its whole length (10.4). -/
def recordWhole (length : Nat) : Option (List Byte) → Bool
  | some bytes => bytes.length == length
  | none => true

/-- Every record that the memory answered has its whole length (R138, 10.4). -/
def ImageRead.whole (r : ImageRead) : Bool :=
  recordWhole 16 r.header && r.channels.toList.all (recordWhole 43) && recordWhole 18 r.console

/-- A station number that a table entry can carry: 1 to 63 (R51, R75, R119). -/
def stationNumber (n : Nat) : Bool := decide (1 ≤ n ∧ n ≤ 63)

/-- A claim number or a tag: 1 to 255 (R75, R119). -/
def nameNumber (n : Nat) : Bool := decide (1 ≤ n ∧ n ≤ 255)

/-- What can name a Hold List entry (R119). -/
def HoldKey.wellFormed (k : HoldKey) : Bool := stationNumber k.origin && nameNumber k.tag

/-- The command is well formed: a frame has a sender (R160), an expiry names what can expire, an image
read gives whole records. -/
def Instr.wellFormed : Instr → Bool
  | .reset _ _ => true
  | .resetRelease _ _ => true
  | .imageReadComplete _ read => read.whole
  | .feedbackChange _ _ _ => true
  | .feedbackMismatch _ _ => true
  | .retryTimerExpiry _ _ => true
  | .runDownExpiry _ _ => true
  | .inrushExpiry _ _ => true
  | .inrushHoldExpiry _ _ => true
  | .activitySenseChange _ _ _ => true
  | .activityDebounceExpiry _ _ => true
  | .idleWindowExpiry _ _ => true
  | .holdKeyChange _ _ _ => true
  | .holdKeyDebounceExpiry _ _ => true
  | .wakeButtonChange _ _ _ => true
  | .wakeButtonDebounceExpiry _ _ => true
  | .callWaitExpiry _ _ => true
  | .ageTimerExpiry _ stations => stations.all stationNumber
  | .settleExpiry _ _ => true
  | .claimHoldTimerExpiry _ station number => stationNumber station && nameNumber number
  | .overflowTimerExpiry _ => true
  | .retryGapExpiry _ _ => true
  | .holdEntryExpiry _ entries => entries.all HoldKey.wellFormed
  | .listenExpiry _ => true
  | .isolationExpiry _ => true
  | .isolationStaggerExpiry _ => true
  | .bypassTimerExpiry _ _ => true
  | .heartbeatExpiry _ => true
  | .lampStep _ _ => true
  | .lineAccessGap _ => true
  | .contentionLost _ winner => isStation winner
  | .frameSent _ => true
  | .sendFault _ => true
  | .invalidFrame _ bytes => (receive bytes).isNone
  | .unknownKindFrame _ env kind payload =>
    isStation env.sender && (payloadLength? kind.toNat).isNone && decide (payload.length ≤ 40)
  | .stateReceived _ env _ => isStation env.sender
  | .phaseReceived _ env _ _ _ => isStation env.sender
  | .claimReceived _ env _ _ _ _ => isStation env.sender
  | .withdrawReceived _ env _ => isStation env.sender
  | .releaseReceived _ env _ => isStation env.sender
  | .callReceived _ env _ => isStation env.sender
  | .wake _ env _ _ => isStation env.sender
  | .shed _ env _ _ => isStation env.sender
  | .hold _ env _ _ _ _ => isStation env.sender
  | .unhold _ env _ _ _ => isStation env.sender
  | .unlock _ env _ _ => isStation env.sender
  | .replyReceived _ env _ _ _ _ => isStation env.sender
  | .noticeReceived _ env _ _ _ _ => isStation env.sender

/-- When the command happens. -/
def Instr.moment : Instr → Moment
  | .reset m _ => m
  | .resetRelease m _ => m
  | .imageReadComplete m _ => m
  | .feedbackChange m _ _ => m
  | .feedbackMismatch m _ => m
  | .retryTimerExpiry m _ => m
  | .runDownExpiry m _ => m
  | .inrushExpiry m _ => m
  | .inrushHoldExpiry m _ => m
  | .activitySenseChange m _ _ => m
  | .activityDebounceExpiry m _ => m
  | .idleWindowExpiry m _ => m
  | .holdKeyChange m _ _ => m
  | .holdKeyDebounceExpiry m _ => m
  | .wakeButtonChange m _ _ => m
  | .wakeButtonDebounceExpiry m _ => m
  | .callWaitExpiry m _ => m
  | .ageTimerExpiry m _ => m
  | .settleExpiry m _ => m
  | .claimHoldTimerExpiry m _ _ => m
  | .overflowTimerExpiry m => m
  | .retryGapExpiry m _ => m
  | .holdEntryExpiry m _ => m
  | .listenExpiry m => m
  | .isolationExpiry m => m
  | .isolationStaggerExpiry m => m
  | .bypassTimerExpiry m _ => m
  | .heartbeatExpiry m => m
  | .lampStep m _ => m
  | .lineAccessGap m => m
  | .contentionLost m _ => m
  | .frameSent m => m
  | .sendFault m => m
  | .invalidFrame m _ => m
  | .unknownKindFrame m _ _ _ => m
  | .stateReceived m _ _ => m
  | .phaseReceived m _ _ _ _ => m
  | .claimReceived m _ _ _ _ _ => m
  | .withdrawReceived m _ _ => m
  | .releaseReceived m _ _ => m
  | .callReceived m _ _ => m
  | .wake m _ _ _ => m
  | .shed m _ _ _ => m
  | .hold m _ _ _ _ _ => m
  | .unhold m _ _ _ _ => m
  | .unlock m _ _ _ => m
  | .replyReceived m _ _ _ _ _ => m
  | .noticeReceived m _ _ _ _ _ => m

end Sys2Proof
end

