-- ==== Sys2Proof/Certificates/Slice0/Obligations.lean ====
section
/-! DEFINITION. The statements for the provers. In each, `a` is the node when the command's time has come
(`s.elapse m.elapsed`, log 1), before the command acts. -/

open Sys2Proof Sys2Proof.Machine

/-! ## The machine -/

/-- A step takes the command at the front of the queue, on the queue's rest (log 3). -/
def Obligations.StepTakesTheFrontCommand : Prop :=
  ∀ (c : Instr) (rest : List Instr) (s : State),
    step { s with pending := c :: rest } = exec c { s with pending := rest }

/-! ## Reset and start -/

/-- A reset, whatever the node was doing, leaves every block at its reset values (R1, R33, R50, R74, R101,
R113, R135, R136, R150, R164) and the field inputs as they are; a further cause in one period of being
held in reset counts as POWER before DIP before LINE (R136). That the waiting commands stay as they are
is the model's choice (log 3). -/
def Obligations.ResetPutsEveryBlockAtItsResetValues : Prop :=
  ∀ (m : Moment) (cause : StartCause) (s : State),
    ∃ t, exec (.reset m cause) s = .next t ∧
      (∀ ch, t.cc.get ch =
          ⟨.offline, {}, 0, s.pins.feedbackClosed.get ch, none, none, none, none, none⟩ ∧
        t.coilDrive ch = false ∧
        t.it.get ch = ⟨.stopped, false, none, none, none, 0, [], none, none⟩ ∧
        t.du.callWait.get ch = none ∧ t.du.marks.get ch = [] ∧ t.bu.retryGap.get ch = none ∧
        t.cu.keyFlag.get ch = s.pins.keyOn.get ch ∧ t.cu.keyTimer.get ch = none ∧
        t.cu.button.get ch = s.pins.buttonPressed.get ch ∧ t.cu.buttonTimer.get ch = none ∧
        t.mc.bypassTimer.get ch = none ∧ (t.iu.channels.get ch).step = 0 ∧
        t.channelLampLit ch = false) ∧
      t.du.peers = [] ∧ t.bu.claims = [] ∧ t.bu.counter = 1 ∧ t.bu.overflow = false ∧
      t.bu.overflowTimer = none ∧ t.cu.holds = [] ∧ t.pu = ⟨.day, 0, 0⟩ ∧
      t.mc.mode = .loading ∧ t.mc.inReset = true ∧ t.mc.image = none ∧ t.mc.reject = none ∧
      t.mc.listenTimer = none ∧ t.mc.isolationTimer = none ∧ t.mc.staggerTimer = none ∧
      (s.mc.inReset = false → t.mc.startCause = cause) ∧
      (s.mc.inReset = true →
        t.mc.startCause =
          if s.mc.startCause = .power ∨ cause = .power then .power
          else if s.mc.startCause = .dip ∨ cause = .dip then .dip
          else .line) ∧
      t.li.queue = [] ∧ t.li.sender = none ∧ t.li.attempts = 0 ∧ t.li.driving = false ∧
      t.li.heartbeatTimer = none ∧ t.li.inProgress = none ∧ t.li.awaitingGap = true ∧
      t.iu.node.step = 0 ∧
      t.nodeLampLit = true ∧ t.attention = false ∧ t.pins = s.pins ∧ t.pending = s.pending

/-- The release of a reset reads the address pins and starts the lamps; nothing else changes (R135, R136,
R164). That the lamps begin to step at the release, with 125 ms of step 0 left, is the model's choice
(log 6). -/
def Obligations.ResetReleaseReadsTheAddress : Prop :=
  ∀ (m : Moment) (adr : BitVec 6) (s : State),
    let a := s.elapse m.elapsed
    s.mc.inReset = true → s.mc.image = none → s.settled →
      exec (.resetRelease m adr) s = .next
        { a with
          mc.inReset := false
          mc.station := adr.toNat
          iu := ⟨.all ⟨0, some (Config.ms 125)⟩, ⟨0, some (Config.ms 125)⟩⟩ }

/-- An accepted image takes the node to LISTENING; each block takes its part, and each configured channel
leaves OFFLINE, locked WELDED where its contact is closed, else resting with its start. STARTED is
noticed, and LOCKED of each channel locked (R30, R52, R127, R137, R141, R158, R168). -/
def Obligations.AcceptedImageStartsListening : Prop :=
  ∀ (m : Moment) (read : ImageRead) (image : Image) (s : State),
    let a := s.elapse m.elapsed
    s.mc.mode = .loading → s.mc.inReset = false → s.settled →
    (∀ ch, (s.cc.get ch).state = .offline) → judgeImage s.mc.station read = .accepted image →
      ∃ t, exec (.imageReadComplete m read) s = .next t ∧
        t.mc.mode = .listening ∧ t.mc.image = some image ∧
        t.mc.listenTimer = some image.listenInterval ∧
        t.mc.isolationTimer = some image.isolationLimit ∧
        t.li.heartbeatTimer = some image.heartbeatPeriod ∧
        t.du.peers = (remoteRefs s.mc.station image.channels.toList).map
          (fun r => ⟨r, none, false, false, false, some image.stalenessLimit⟩) ∧
        (∀ ch, (image.channels.get ch).kind = .none → t.cc.get ch = a.cc.get ch) ∧
        (∀ ch, (image.channels.get ch).kind ≠ .none → (s.cc.get ch).feedbackClosed = true →
          (t.cc.get ch).state = .locked .welded ∧ t.noticed (.locked ch .welded)) ∧
        t.noticed (.started s.mc.startCause) ∧
        (∀ ch, (image.channels.get ch).kind ≠ .none → (s.cc.get ch).feedbackClosed = false →
          (t.cc.get ch).state = .rest ∧ (t.cc.get ch).origins.has .start = true ∧
          (t.held ch = true → (t.cc.get ch).origins.has .hold = true))

/-- A rejected image takes the node to UNCONFIGURED with the reason, starts the bypass timers and the
2 s heartbeat, and STARTED and IMAGE_REJECTED are noticed (R137, R140, R158, R168). The reason and the
record are those of the first check that fails, in the order of the table of R139 and within a row in the
order of the records; with none that fails the image is accepted (R139, R172). At station 0 the bypass
time of Ch0 is 0 s: that Ch0 is still OFFLINE at the end of this event, its timer at 0 s, is the model's
choice (log 13), and so is that a record of a wrong length counts as not answered (log 19). -/
def Obligations.RejectedImageStartsTheBypassTimers : Prop :=
  (∀ (m : Moment) (read : ImageRead) (reason : RejectReason) (record : Nat) (s : State),
    let a := s.elapse m.elapsed
    s.mc.mode = .loading → s.mc.inReset = false →
    (∀ ch, (s.cc.get ch).state = .offline) →
    judgeImage s.mc.station read = .rejected reason record →
      ∃ t, exec (.imageReadComplete m read) s = .next t ∧
        t.mc.mode = .unconfigured ∧ t.mc.reject = some (reason, record) ∧ t.mc.image = s.mc.image ∧
        (∀ ch, t.mc.bypassTimer.get ch = some ((s.mc.station + ch.toNat) * Config.sec 2)) ∧
        t.li.heartbeatTimer = (if s.mc.station = 0 then none else some (Config.sec 2)) ∧
        (s.mc.station ≠ 0 →
          t.noticed (.started s.mc.startCause) ∧ t.noticed (.imageRejected record reason)) ∧
        ∀ ch, t.cc.get ch = a.cc.get ch) ∧
  ∀ (station : Nat) (read : ImageRead),
    let header := answered 16 read.header
    let channel (ch : Ch) := answered 43 (read.channels.get ch)
    let console := answered 18 read.console
    let h := header.getD []
    let image := imageOf read
    let wrongSum (bytes : List Byte) : Bool := decide ((bytes.map BitVec.toNat).sum % 256 ≠ 0)
    let row (reason : RejectReason) (fails : Ch → Bool) : List (RejectReason × Nat × Bool) :=
      Ch.all.map fun ch => (reason, ch.toNat + 1, fails ch)
    let rows : List (RejectReason × Nat × Bool) :=
      [(.noImage, 0, header.isNone), (.check, 0, wrongSum h),
        (.version, 0, decide (byteAt h 0 ≠ 1)), (.length, 0, decide (wordAt h 1 ≠ 292))] ++
      row .noImage (fun ch => (channel ch).isNone) ++ [(.noImage, 7, console.isNone)] ++
      row .check (fun ch => wrongSum ((channel ch).getD [])) ++
      [(.check, 7, wrongSum (console.getD []))] ++
      [(.range, 0, !headerInRange h)] ++
      row .range (fun ch => !channelInRange ((channel ch).getD [])) ++
      [(.range, 7, !consoleInRange (console.getD []))] ++
      row .weight (fun ch =>
        let r := image.channels.get ch
        decide (r.kind ≠ .none ∧ image.plantBudget < r.weight)) ++
      row .reference (fun ch =>
        let r := image.channels.get ch
        decide (∃ x ∈ r.needs ++ r.serves, x.station = 0 ∨ x = ⟨station, ch.toNat⟩)) ++
      row .duplicate (fun ch =>
        let r := image.channels.get ch
        decide (¬r.needs.Nodup ∨ ¬r.serves.Nodup)) ++
      row .peerLimit (fun ch =>
        decide (32 < (remoteRefs station (image.channels.toList.take (ch.toNat + 1))).length)) ++
      row .holdLimit (fun ch =>
        let r := image.channels.get ch
        decide (r.kind ≠ .none ∧ image.claimHoldLimit < r.inrushWindow)) ++
      [(.address, 0, decide (station = 0))]
    judgeImage station read =
      match rows.find? fun x => x.2.2 with
      | some (reason, record, _) => .rejected reason record
      | none => .accepted image

/-- An image is accepted only with every record answered whole, the bytes of each adding to 0 modulo
256, at a station number other than 0, with format version 1 and image length 292, bits 5 to 7 of the
attention mask clear, kind bytes from 0 to 6 and morning flags 0 or 1; it is the one the records spell,
with every field of the header, of the channel records and of the console record in its range,
references to other loads of stations 1 to 63 alone, none twice in a list, at most 32 of them remote,
empty lists at kind NONE, and weights and inrush windows within the plant's (R50, R51, R52, R139, R172).
-/
def Obligations.AcceptedImageIsInBounds : Prop :=
  ∀ (station : Nat) (read : ImageRead) (image : Image),
    judgeImage station read = .accepted image →
      let sound (length : Nat) (bytes : List Byte) : Prop :=
        bytes.length = length ∧ (bytes.map BitVec.toNat).sum % 256 = 0
      station ≠ 0 ∧ image = imageOf read ∧
      (∃ h, read.header = some h ∧ sound 16 h ∧ byteAt h 0 = 1 ∧ wordAt h 1 = 292 ∧
        byteAt h 14 < 32) ∧
      (∀ ch, ∃ r, read.channels.get ch = some r ∧ sound 43 r ∧ byteAt r 0 ≤ 6 ∧
        (byteAt r 15 = 0 ∨ byteAt r 15 = 1)) ∧
      (∃ c, read.console = some c ∧ sound 18 c) ∧
      (1 ≤ image.plantBudget ∧ image.plantBudget ≤ 63) ∧
      (Config.sec 1 ≤ image.heartbeatPeriod ∧ image.heartbeatPeriod ≤ Config.sec 10) ∧
      (Config.sec 3 ≤ image.stalenessLimit ∧ image.stalenessLimit ≤ Config.sec 120) ∧
      (Config.sec 5 ≤ image.isolationLimit ∧ image.isolationLimit ≤ Config.sec 600) ∧
      (Config.sec 2 ≤ image.listenInterval ∧ image.listenInterval ≤ Config.sec 60) ∧
      (Config.ms 100 ≤ image.settleInterval ∧ image.settleInterval ≤ Config.ms 5000) ∧
      (Config.sec 5 ≤ image.claimHoldLimit ∧ image.claimHoldLimit ≤ Config.sec 600) ∧
      (Config.sec 1 ≤ image.retryGap ∧ image.retryGap ≤ Config.sec 60) ∧
      image.consoles.length ≤ 8 ∧
      (∀ c ∈ image.consoles, 1 ≤ c.station ∧ c.station ≤ 63 ∧ c.level ≤ 3) ∧
      (remoteRefs station image.channels.toList).length ≤ 32 ∧
      ∀ ch,
        let r := image.channels.get ch
        (1 ≤ r.rank ∧ r.rank ≤ 3) ∧ (1 ≤ r.weight ∧ r.weight ≤ 63) ∧
        (Config.minutes 1 ≤ r.idleWindow ∧ r.idleWindow ≤ Config.minutes 120) ∧
        (1 ≤ r.requiredCount ∧ r.requiredCount ≤ 15) ∧
        (Config.ms 100 ≤ r.debounce ∧ r.debounce ≤ Config.ms 25500) ∧
        r.runDown ≤ Config.sec 1800 ∧
        (Config.sec 1 ≤ r.inrushWindow ∧ r.inrushWindow ≤ Config.sec 120) ∧
        (Config.ms 50 ≤ r.feedbackWindow ∧ r.feedbackWindow ≤ Config.ms 2550) ∧
        (Config.sec 10 ≤ r.retryDelay ∧ r.retryDelay ≤ Config.sec 3600) ∧ r.retryLimit ≤ 3 ∧
        (Config.sec 10 ≤ r.callWaitLimit ∧ r.callWaitLimit ≤ Config.sec 1800) ∧
        r.needs.length ≤ 4 ∧ r.serves.length ≤ 8 ∧ r.needs.Nodup ∧ r.serves.Nodup ∧
        (∀ x ∈ r.needs ++ r.serves, 1 ≤ x.station ∧ x.station ≤ 63 ∧ x.channel ≤ 5 ∧
          x ≠ ⟨station, ch.toNat⟩) ∧
        (r.kind = .none → r.needs = [] ∧ r.serves = []) ∧
        (r.kind ≠ .none → r.weight ≤ image.plantBudget ∧ r.inrushWindow ≤ image.claimHoldLimit)

/-! ## Contactors (01) -/

/-- The coil is driven exactly in AWAKE, WAITING, STARTING and BYPASS, and never in LOADING (R2). -/
def Obligations.CoilDriveFollowsTheState : Prop :=
  ∀ (s : State) (ch : Ch),
    s.coilDrive ch = true ↔
      s.mc.mode ≠ .loading ∧
      ((s.cc.get ch).state = .awake ∨ (s.cc.get ch).state = .waiting ∨
        (∃ k, (s.cc.get ch).state = .starting k) ∨ (s.cc.get ch).state = .bypass)

/-- A change of a feedback contact changes the flag at once in every state and mode; under supervision it
opens a disagreement with mark FEEDBACK and the whole feedback window to run, or closes one, and the
channel stays in its state: in AWAKE, STARTING and TRIPPED in every node, in WAITING, COAST, REST and
PENDING in a settled one, where nothing else of the channel changes (R3, R4). -/
def Obligations.FeedbackChangeMovesTheFlag : Prop :=
  ∀ (m : Moment) (ch : Ch) (closed : Bool) (s : State),
    let a := s.elapse m.elapsed
    ∃ t, exec (.feedbackChange m ch closed) s = .next t ∧
      (a.pins.feedbackClosed.set ch closed) = t.pins.feedbackClosed ∧
      (t.cc.get ch).feedbackClosed = closed ∧
      (∀ k, k ≠ ch → (t.cc.get k).feedbackClosed = (s.cc.get k).feedbackClosed) ∧
      ((a.cc.get ch).feedbackClosed ≠ closed → s.mc.mode ≠ .loading →
        (a.cc.get ch).state.stays = true ∨ s.settled → (a.cc.get ch).state.supervised = true →
        (t.cc.get ch).state = (a.cc.get ch).state ∧
        { t.cc.get ch with
          feedbackClosed := (a.cc.get ch).feedbackClosed
          mark := (a.cc.get ch).mark
          mismatchTimer := (a.cc.get ch).mismatchTimer
          origins := (a.cc.get ch).origins } = a.cc.get ch ∧
        (s.settled → (t.cc.get ch).origins = (a.cc.get ch).origins) ∧
        if (a.cc.get ch).state.energised = closed then
          (t.cc.get ch).mark = none ∧ (t.cc.get ch).mismatchTimer = none
        else
          (t.cc.get ch).mark = some .feedback ∧
          (t.cc.get ch).mismatchTimer = some (a.record ch).feedbackWindow)

/-- A mismatch of an energised channel trips it: the cause follows the mark, the count rises up to the
retry limit plus one, the retry timer starts, the tracker stops, the inrush window ends, and the inrush
time left of a CLAIMED start passes to its LIVE claim as the claim's hold; TRIPPED is noticed, and the
feedback is supervised against the new output (R4, R5, R6, R10, R27, R34, R90, R168). -/
def Obligations.EnergisedMismatchTrips : Prop :=
  ∀ (m : Moment) (ch : Ch) (mark : Mark) (s : State),
    let a := s.elapse m.elapsed
    let c := a.cc.get ch
    c.state.supervised = true → c.state.energised = true → c.mark = some mark →
    Timer.due c.mismatchTimer = true → c.tripCount ≤ (a.record ch).retryLimit + 1 →
      ∃ t, exec (.feedbackMismatch m ch) s = .next t ∧
        (t.cc.get ch).state =
          .tripped (match mark with | .output => .feedbackCloseFail | .feedback => .dropout) ∧
        t.coilDrive ch = false ∧ c.outputChanged (a.record ch).feedbackWindow (t.cc.get ch) ∧
        (s.speaks → t.noticed (.tripped ch
          (match mark with | .output => .feedbackCloseFail | .feedback => .dropout))) ∧
        (t.cc.get ch).tripCount =
          (if c.tripCount = (a.record ch).retryLimit + 1 then c.tripCount else c.tripCount + 1) ∧
        (t.cc.get ch).retryTimer = some (a.record ch).retryDelay ∧
        (t.cc.get ch).inrushTimer = none ∧
        (∀ o, c.origins.has o = true → (t.cc.get ch).origins.has o = true) ∧
        (t.it.get ch).status = .stopped ∧ (t.it.get ch).count = (a.it.get ch).count ∧
        (t.it.get ch).windowTimer = none ∧ (t.it.get ch).debounceTimer = none ∧
        ∀ x, s.claimTableSound → c.state = .starting .claimed → a.liveOf ch = some x →
          { x with timer := c.inrushTimer } ∈ t.bu.claims

/-- A mismatch of a de-energised channel locks it: the cause follows the mark, its wakes are dropped, the
trip count is kept, and LOCKED is noticed (R5, R7, R168). -/
def Obligations.DeenergisedMismatchLocks : Prop :=
  ∀ (m : Moment) (ch : Ch) (mark : Mark) (s : State),
    let a := s.elapse m.elapsed
    let c := a.cc.get ch
    c.state.supervised = true → c.state.energised = false → c.mark = some mark →
    Timer.due c.mismatchTimer = true →
      ∃ t, exec (.feedbackMismatch m ch) s = .next t ∧
        (s.speaks → t.noticed (.locked ch
          (match mark with | .output => .welded | .feedback => .forced))) ∧
        t.cc.get ch =
          { c with
            state := .locked (match mark with | .output => .welded | .feedback => .forced)
            origins := {}
            mark := none
            mismatchTimer := none
            runDownTimer := none
            retryTimer := none }

/-- At the retry expiry a channel within its retry limit is woken with origin RETRY, its other origins
kept; one past it locks, and LOCKED is noticed (R11, R168). -/
def Obligations.RetryExpiryWakesOrLocks : Prop :=
  ∀ (m : Moment) (ch : Ch) (cause : TripCause) (s : State),
    let a := s.elapse m.elapsed
    let c := a.cc.get ch
    c.state = .tripped cause → Timer.due c.retryTimer = true →
      ∃ t, exec (.retryTimerExpiry m ch) s = .next t ∧
        (t.cc.get ch).tripCount = c.tripCount ∧ (t.cc.get ch).retryTimer = none ∧
        (c.tripCount ≤ (a.record ch).retryLimit →
          (t.cc.get ch).state.isPending = true ∧ (t.cc.get ch).origins.has .retry = true ∧
          ∀ o, c.origins.has o = true → (t.cc.get ch).origins.has o = true) ∧
        ((a.record ch).retryLimit < c.tripCount →
          let lockCause : LockCause :=
            if 1 ≤ (a.record ch).retryLimit then .repeatedTrip
            else match cause with
              | .feedbackCloseFail => .feedbackCloseFail
              | .dropout => .dropout
          (t.cc.get ch).origins = {} ∧ (t.cc.get ch).state = .locked lockCause ∧
          (s.speaks → t.noticed (.locked ch lockCause)))

/-- At the end of its run-down a channel with a wake recorded enters PENDING; one with none enters REST,
where no other channel waits to follow it (R20). -/
def Obligations.RunDownEndsInRestOrPending : Prop :=
  ∀ (m : Moment) (ch : Ch) (s : State),
    let a := s.elapse m.elapsed
    let c := a.cc.get ch
    c.state = .coast → Timer.due c.runDownTimer = true →
      ∃ t, exec (.runDownExpiry m ch) s = .next t ∧ (t.cc.get ch).runDownTimer = none ∧
        (c.origins ≠ {} →
          (t.cc.get ch).state.isPending = true ∧
          ∀ o, c.origins.has o = true → (t.cc.get ch).origins.has o = true) ∧
        (c.origins = {} → s.settled → (∀ k, (s.cc.get k).state ≠ .waiting) →
          (t.cc.get ch).state = .rest ∧ (t.cc.get ch).origins = {})

/-- At the end of its inrush window a channel enters AWAKE with its wakes served, its tracker starts
afresh, and the LIVE claim of a CLAIMED start leaves the table, with RELEASE queued where the mode queues
it and the queue takes it (R26, R34, R89, R99, R157). -/
def Obligations.InrushExpiryReachesAwake : Prop :=
  ∀ (m : Moment) (ch : Ch) (kind : StartKind) (s : State),
    let a := s.elapse m.elapsed
    let c := a.cc.get ch
    c.state = .starting kind → Timer.due c.inrushTimer = true →
      ∃ t, exec (.inrushExpiry m ch) s = .next t ∧
        t.cc.get ch = { c with state := .awake, origins := {}, inrushTimer := none } ∧
        (t.it.get ch).count = 0 ∧ (t.it.get ch).history = [] ∧ (t.it.get ch).cadence = none ∧
        (t.it.get ch).active = false ∧
        (t.it.get ch).debounceTimer =
          (if a.pins.senseActive.get ch = true then some (a.record ch).debounce else none) ∧
        (if a.held ch = true then
          (t.it.get ch).status = .paused ∧ (t.it.get ch).windowTimer = none ∧
            (t.it.get ch).remaining = some (a.record ch).idleWindow
        else
          (t.it.get ch).status = .running ∧ (t.it.get ch).remaining = none ∧
            (t.it.get ch).windowTimer = some (a.record ch).idleWindow) ∧
        ∀ x, kind = .claimed → a.liveOf ch = some x → x ∉ t.bu.claims ∧ s.released x t

/-- At the end of its inrush hold an own LIVE claim leaves the table, with RELEASE queued where the mode
queues it and the queue takes it (R99, R157), and the expiry has no effect on its channel: in a settled
node every tracker and every channel is as it was, but for a channel that the budget evaluation moves
between BUDGET and CLAIMING; the holds and the phase are not concerned (R80, R90). -/
def Obligations.InrushHoldExpiryReleasesTheClaim : Prop :=
  ∀ (m : Moment) (ch : Ch) (x : Claim) (s : State),
    let a := s.elapse m.elapsed
    a.liveOf ch = some x → Timer.due x.timer = true →
      ∃ t, exec (.inrushHoldExpiry m ch) s = .next t ∧ x ∉ t.bu.claims ∧ s.released x t ∧
        (∀ k, (a.cc.get k).state.stays = true → (t.cc.get k).state = (a.cc.get k).state) ∧
        (s.settled → t.it = a.it ∧
          ∀ k, t.cc.get k = a.cc.get k ∨
            ((a.cc.get k).state = .pending .budget ∨ (a.cc.get k).state = .pending .claiming) ∧
            ((t.cc.get k).state = .pending .budget ∨ (t.cc.get k).state = .pending .claiming) ∧
            { t.cc.get k with state := (a.cc.get k).state } = a.cc.get k) ∧
        t.cu = a.cu ∧ t.pu = a.pu

/-! ## Idle trackers (02) -/

/-- At the end of its debounce the level follows the sense. An onset of a running load: the count falls to
0, the mark joins the history, the window and the time since the onset begin again, and a WAITING
channel is AWAKE; the rounding of the mark is a free value (log 5). An activity end begins a new window
and changes nothing else. Four marks whose three intervals each differ from their mean by an eighth of
it at most have the mean, in whole seconds, as cadence, where it is 1 s or more; any others have none
(R18, R35, R36, R37, R41, R42). -/
def Obligations.ActivityDebounceTakesTheLevel : Prop :=
  (∀ (m : Moment) (ch : Ch) (s : State),
    let a := s.elapse m.elapsed
    let u := a.it.get ch
    let newWindow := if u.status = .running then some (a.record ch).idleWindow else u.windowTimer
    let newRemaining := if u.status = .paused then some (a.record ch).idleWindow else u.remaining
    let history := (onsetMark a.now :: u.history).take 4
    u.status ≠ .stopped → Timer.due u.debounceTimer = true →
      (a.pins.senseActive.get ch = true → (a.cc.get ch).state.tracked = true →
        ∃ t, exec (.activityDebounceExpiry m ch) s = .next t ∧ (t.cc.get ch).state = .awake ∧
          t.it.get ch =
            { u with
              active := true
              debounceTimer := none
              count := 0
              history := history
              cadence := cadenceOf history
              sinceOnset := some 0
              windowTimer := newWindow
              remaining := newRemaining }) ∧
      (a.pins.senseActive.get ch = false → s.settled →
        exec (.activityDebounceExpiry m ch) s = .next
          { a with
            it := a.it.set ch
              { u with
                active := false
                debounceTimer := none
                windowTimer := newWindow
                remaining := newRemaining } })) ∧
  (∀ marks : List Nat, marks.length < 4 → cadenceOf marks = none) ∧
  ∀ p q r t : Nat, t ≤ r → r ≤ q → q ≤ p →
    let intervals : List ℚ := [p - q, q - r, r - t]
    let mean : ℚ := intervals.sum / 3
    let regular : Prop := ∀ i ∈ intervals, |i - mean| ≤ mean / 8
    (regular → 10 ≤ mean → cadenceOf [p, q, r, t] = some (min ⌊mean / 10⌋₊ 65535)) ∧
    (¬regular ∨ mean < 10 → cadenceOf [p, q, r, t] = none)

/-- An idle window of an AWAKE channel expires: the trip count returns to 0 and the next window begins;
the window confirms when the level is inactive, the guard is passed and the channel is not held; where
that makes the load idle-confirmed, and the phase and the mode permit, it opens its contactor if its
consumers rest, its feedback supervised against the new output, and waits for them if they do not (R4,
R10, R17, R19, R39, R43). -/
def Obligations.IdleWindowExpiryJudgesTheWindow : Prop :=
  ∀ (m : Moment) (ch : Ch) (s : State),
    let a := s.elapse m.elapsed
    let u := a.it.get ch
    let confirms : Prop := u.active = false ∧
      (∀ c since, u.cadence = some c → u.sinceOnset = some since → Config.sec (2 * c) < since) ∧
      a.held ch = false
    let rests : Prop := confirms ∧ u.count < (a.record ch).requiredCount ∧
      (a.record ch).requiredCount ≤ min (u.count + 1) 15 ∧
      a.pu.phase.permits (a.record ch).rank = true ∧ s.mc.mode = .operating
    s.settled → (a.cc.get ch).state = .awake → u.status = .running →
    Timer.due u.windowTimer = true →
      ∃ t, exec (.idleWindowExpiry m ch) s = .next t ∧ (t.cc.get ch).tripCount = 0 ∧
        (¬rests → (t.cc.get ch).state = .awake) ∧
        (rests → a.consumersVerdict ch = false → (t.cc.get ch).state = .waiting) ∧
        (rests → a.consumersVerdict ch = true → t.coilDrive ch = false ∧ (t.it.get ch).count = 0 ∧
          (a.cc.get ch).outputChanged (a.record ch).feedbackWindow (t.cc.get ch)) ∧
        ((¬rests ∨ a.consumersVerdict ch = false) →
          (t.it.get ch).windowTimer = some (a.record ch).idleWindow ∧
          (confirms → (t.it.get ch).count = min (u.count + 1) 15) ∧
          (¬confirms → (t.it.get ch).count = u.count))

/-! ## Keys, buttons and hold expiries (06) -/

/-- A change of the activity sense of a tracked load, and outside reset of a hold key or a wake button,
starts the debounce toward the new level, or stops it, and changes nothing else; a STOPPED tracker
takes no notice (R34, R35, R123, R130). -/
def Obligations.InputChangesDebounce : Prop :=
  ∀ (m : Moment) (ch : Ch) (now : Bool) (s : State),
    let a := s.elapse m.elapsed
    s.settled →
      (a.pins.senseActive.get ch ≠ now →
        exec (.activitySenseChange m ch now) s = .next
          { a with
            pins.senseActive := a.pins.senseActive.set ch now
            it := if (a.it.get ch).status = .stopped then a.it else a.it.set ch
              { a.it.get ch with
                debounceTimer :=
                  if now = (a.it.get ch).active then none else some (a.record ch).debounce } }) ∧
      (a.pins.keyOn.get ch ≠ now → s.mc.inReset = false →
        exec (.holdKeyChange m ch now) s = .next
          { a with
            pins.keyOn := a.pins.keyOn.set ch now
            cu.keyTimer := a.cu.keyTimer.set ch
              (if now = a.cu.keyFlag.get ch then none else some (Config.ms 50)) }) ∧
      (a.pins.buttonPressed.get ch ≠ now → s.mc.inReset = false →
        exec (.wakeButtonChange m ch now) s = .next
          { a with
            pins.buttonPressed := a.pins.buttonPressed.set ch now
            cu.buttonTimer := a.cu.buttonTimer.set ch
              (if now = a.cu.button.get ch then none else some (Config.ms 50)) })

/-- At the end of its debounce a hold-key flag takes the position of the key, and the channel's held
condition with it: an AWAKE or WAITING channel that becomes held is AWAKE with its window paused, and
one that ceases to be held resumes (R18, R44, R45, R123, R124, R125, R126). -/
def Obligations.HoldKeyDebounceSetsTheFlag : Prop :=
  ∀ (m : Moment) (ch : Ch) (s : State),
    let a := s.elapse m.elapsed
    Timer.due (a.cu.keyTimer.get ch) = true →
      ∃ t, exec (.holdKeyDebounceExpiry m ch) s = .next t ∧
        t.cu = { a.cu with
          keyFlag := a.cu.keyFlag.set ch (a.pins.keyOn.get ch)
          keyTimer := a.cu.keyTimer.set ch none } ∧
        (t.held ch = true ↔ a.configured ch = true ∧
          (a.pins.keyOn.get ch = true ∨ ∃ h ∈ a.cu.holds, h.target = .all ∨ h.target = .channel ch)) ∧
        (a.held ch = false → a.configured ch = true → a.pins.keyOn.get ch = true →
          (a.cc.get ch).state.tracked = true → (a.it.get ch).status = .running →
            (t.cc.get ch).state = .awake ∧ (t.it.get ch).status = .paused ∧
            (t.it.get ch).remaining = (a.it.get ch).windowTimer ∧
            (t.it.get ch).windowTimer = none ∧ (t.it.get ch).count = (a.it.get ch).count) ∧
        ∀ k, a.held k = true → t.held k = false → a.resumes t k

/-- A press of a wake button, taken while the channels are under plant control: a resting load is being
woken with origin LOCAL, a running one starts its idle judgement again, its count 0 and a new idle
window begun; a tracker whose channel is in any other state is not touched (R14, R16, R38, R46, R47,
R130). -/
def Obligations.WakeButtonPressWakes : Prop :=
  ∀ (m : Moment) (ch : Ch) (s : State),
    let a := s.elapse m.elapsed
    Timer.due (a.cu.buttonTimer.get ch) = true →
      ∃ t, exec (.wakeButtonDebounceExpiry m ch) s = .next t ∧
        t.cu = { a.cu with
          button := a.cu.button.set ch (a.pins.buttonPressed.get ch)
          buttonTimer := a.cu.buttonTimer.set ch none } ∧
        (a.pins.buttonPressed.get ch = true →
          (s.mc.mode = .operating ∨ s.mc.mode = .isolated ∨ s.mc.mode = .silent) →
          ((a.cc.get ch).state = .rest →
            (t.cc.get ch).state.isPending = true ∧ (t.cc.get ch).origins.has .loc = true) ∧
          ((a.cc.get ch).state.tracked = true → (t.cc.get ch).state = .awake ∧
            t.it.get ch = (a.it.get ch).woken (a.record ch).idleWindow) ∧
          ((a.cc.get ch).state.tracked = false → t.it.get ch = a.it.get ch))

/-- The Hold List entries whose expiry has come leave the list, HOLD_EXPIRED of each noticed, the others
keep their order, and a channel that ceases to be held by it resumes (R45, R122, R126, R168); an entry
that is not named, or not due, stays (log 2, log 22). -/
def Obligations.HoldEntryExpiryRemovesTheEntries : Prop :=
  ∀ (m : Moment) (keys : List HoldKey) (s : State),
    let a := s.elapse m.elapsed
    ∃ t, exec (.holdEntryExpiry m keys) s = .next t ∧
      t.cu = { a.cu with
        holds := a.cu.holds.filter fun h => !(Timer.due h.timer && keys.contains h.key) } ∧
      (s.speaks → ∀ h ∈ a.cu.holds, Timer.due h.timer = true → h.key ∈ keys →
        t.noticed (.holdExpired h.target h.tag)) ∧
      ∀ ch, a.held ch = true → t.held ch = false → a.resumes t ch

/-! ## Peers and calls (03) -/

/-- At the end of its call wait a CALLING channel goes on without the missing providers, its origins kept,
and CALL_UNANSWERED is noticed with the first of them in list order (R65, R168). -/
def Obligations.CallWaitExpiryEndsCalling : Prop :=
  ∀ (m : Moment) (ch : Ch) (s : State),
    let a := s.elapse m.elapsed
    (a.cc.get ch).state = .pending .calling → Timer.due (a.du.callWait.get ch) = true →
      ∃ t, exec (.callWaitExpiry m ch) s = .next t ∧
        ((t.cc.get ch).state = .pending .budget ∨ (t.cc.get ch).state = .pending .claiming) ∧
        (∀ r, (a.record ch).needs.find? (fun r => !a.available r) = some r → s.speaks →
          t.noticed (.callUnanswered ch r)) ∧
        ∀ o, (a.cc.get ch).origins.has o = true → (t.cc.get ch).origins.has o = true

/-- The entries of a station whose age timer expires become absent with the timer stopped, and
PEER_ABSENT of the station is noticed (R54, R168); every other entry is as it was, and so are the holds,
the phase and the field inputs; an entry that is not named, or not due, is one of those (log 2, log 22).
A load is judged by its state as the node knows it, a local one by its channel, a remote one by its
present entry; an absent or UNKNOWN one counts neither as at rest nor as available, and the two verdicts
are over the whole lists (R51, R56, R57). -/
def Obligations.AgeTimerExpiryMakesTheEntriesAbsent : Prop :=
  (∀ (m : Moment) (stations : List Nat) (s : State),
    let a := s.elapse m.elapsed
    ∃ t, exec (.ageTimerExpiry m stations) s = .next t ∧
      t.du.peers = a.du.peers.map (fun p =>
        if Timer.due p.ageTimer = true ∧ p.ref.station ∈ stations then
          { p with isPresent := false, ageTimer := none }
        else p) ∧
      (s.speaks → ∀ p ∈ a.du.peers, Timer.due p.ageTimer = true → p.ref.station ∈ stations →
        t.noticed (.peerAbsent p.ref.station)) ∧
      t.cu = a.cu ∧ t.pu = a.pu ∧ t.pins = a.pins) ∧
  ∀ s : State,
    (∀ (r : Ref) (k : Ch), r.station = s.mc.station → r.channel = k.toNat →
      let c := s.cc.get k
      (s.atRest r = true ↔ c.state = .offline ∨ c.state = .rest ∨
        (c.state.isLocked = true ∧ c.feedbackClosed = false)) ∧
      (s.available r = true ↔ c.state = .awake ∨ c.state = .waiting ∨ c.state = .bypass ∨
        (c.state.isLocked = true ∧ c.feedbackClosed = true))) ∧
    (∀ r : Ref, r.station ≠ s.mc.station →
      (∀ p st, s.du.peers.find? (fun p => p.ref == r) = some p → p.isPresent = true →
        p.state = some st →
        (s.atRest r = true ↔ st = .offline ∨ st = .rest ∨ (st = .locked ∧ p.feedbackClosed = false)) ∧
        (s.available r = true ↔ st = .awake ∨ st = .waiting ∨ st = .bypass ∨
          (st = .locked ∧ p.feedbackClosed = true))) ∧
      ((∀ p, s.du.peers.find? (fun p => p.ref == r) = some p →
          p.isPresent = false ∨ p.state = none) →
        s.atRest r = false ∧ s.available r = false)) ∧
    ∀ ch,
      (s.consumersVerdict ch = true ↔ ∀ r ∈ (s.record ch).serves, s.atRest r = true) ∧
      (s.providersVerdict ch = true ↔ ∀ r ∈ (s.record ch).needs, s.available r = true)

/-- A STATE frame updates every entry of its sender with its channel's report, and is adopted for the
phase exactly when it comes from an OPERATING node with a known phase and a greater epoch; a frame that
an ISOLATED node adopts returns it to OPERATING, with one outcome in every order of the moment. A report
of COAST or REST for a provider without a mark of a STARTING load, or of an AWAKE one with no adoption,
sets the mark, and PROVIDER_LOST is noticed (R53, R69, R105, R111, R147, R162, R168). R111 gives one
outcome to the two orders of return and adoption; that it is the outcome of every value of
`Moment.arrival`, the one with a stagger expiry between them included, is the model's choice (log 11). -/
def Obligations.StateFrameUpdatesPeersAndPhase : Prop :=
  ∀ (m : Moment) (env : Envelope) (p : StatePayload) (image : Image) (s : State),
    let a := s.elapse m.elapsed
    s.hears env kindState (statePayloadBytes p) → s.mc.image = some image →
      (s.mc.mode = .isolated → ∀ ph, Phase.ofNat? p.phase.toNat = some ph → p.mode.toNat = 3 →
        p.source.toNat ≤ 63 → a.pu.epoch < p.epoch →
        ∃ t, (∀ order, exec (.stateReceived { m with arrival := order } env p) s = .next t) ∧
          t.pu = ⟨ph, p.epoch, p.source.toNat⟩ ∧ t.mc.mode = .operating) ∧
      (s.onLine → ∃ t, exec (.stateReceived m env p) s = .next t ∧
        (t.du.peers.map PeerEntry.ref = a.du.peers.map PeerEntry.ref) ∧
        (∀ e ∈ a.du.peers, e.ref.station ≠ env.sender.toNat → e ∈ t.du.peers) ∧
        (∀ e ∈ t.du.peers, ∀ ch, e.ref.station = env.sender.toNat → e.ref.channel = ch.toNat →
          e.state = StateCode.ofNat? ((p.reports.get ch).toNat % 16) ∧
          e.feedbackClosed = (p.reports.get ch).getLsbD 4 ∧
          e.held = (p.reports.get ch).getLsbD 5 ∧ e.isPresent = true ∧
          e.ageTimer = some image.stalenessLimit) ∧
        (∀ ph, Phase.ofNat? p.phase.toNat = some ph → p.mode.toNat = 3 → p.source.toNat ≤ 63 →
          a.pu.epoch < p.epoch → t.pu = ⟨ph, p.epoch, p.source.toNat⟩) ∧
        (Phase.ofNat? p.phase.toNat = none ∨ p.mode.toNat ≠ 3 ∨ 63 < p.source.toNat ∨
          p.epoch ≤ a.pu.epoch → t.pu = a.pu) ∧
        ∀ ch k r, r ∈ (a.record ch).needs → r ∈ a.du.peers.map PeerEntry.ref →
          r.station = env.sender.toNat → r.channel = k.toNat → r ∉ a.du.marks.get ch →
          (∃ kind, (a.cc.get ch).state = .starting kind) ∨
            ((a.cc.get ch).state = .awake ∧ p.epoch ≤ a.pu.epoch) →
          (StateCode.ofNat? ((p.reports.get k).toNat % 16) = some .coast ∨
            StateCode.ofNat? ((p.reports.get k).toNat % 16) = some .rest) →
          r ∈ t.du.marks.get ch ∧ (s.mc.station ≠ 0 → t.noticed (.providerLost ch r)))

/-- A CALL that names a configured load of this station at rest wakes it with origin CALL while the node
is OPERATING; one in COAST, PENDING, STARTING or TRIPPED has the origin recorded; a load that is
running, locked or OFFLINE is not changed, one that waits for its consumers in a settled node (R67,
R68). -/
def Obligations.CallFrameWakesTheNamedLoad : Prop :=
  ∀ (m : Moment) (env : Envelope) (p : CallPayload) (r : Ref) (ch : Ch) (s : State),
    let a := s.elapse m.elapsed
    s.mc.mode = .operating → s.hears env kindCall (callPayloadBytes p) → r ∈ callTargets p →
    r.station = s.mc.station → r.channel = ch.toNat → a.configured ch = true →
      ∃ t, exec (.callReceived m env p) s = .next t ∧
        ((a.cc.get ch).state = .rest →
          (t.cc.get ch).state.isPending = true ∧ (t.cc.get ch).origins.has .call = true) ∧
        ((a.cc.get ch).state = .coast ∨ (a.cc.get ch).state.isPending = true ∨
            (∃ kind, (a.cc.get ch).state = .starting kind) ∨
            (∃ cause, (a.cc.get ch).state = .tripped cause) →
          (t.cc.get ch).origins.has .call = true) ∧
        ((a.cc.get ch).state = .awake ∨ (a.cc.get ch).state.isLocked = true ∨
            (a.cc.get ch).state = .offline → t.cc.get ch = a.cc.get ch) ∧
        (s.settled → (a.cc.get ch).state = .waiting → t.cc.get ch = a.cc.get ch)

/-! ## The start budget (04) -/

/-- When an entry outranks an own PROVISIONAL claim (R83). -/
def Obligations.OutrankingFollowsTheTable : Prop :=
  ∀ (station : Nat) (x e : Claim), x.status = .provisional →
    (e.status = .live → outranks station x e = true) ∧
    (∀ marks, e.status = .remote marks → marks.find? (fun k => k.1 == x.number) = some (x.number, .before) →
      outranks station x e = true) ∧
    (∀ marks, e.status = .remote marks → marks.find? (fun k => k.1 == x.number) = some (x.number, .during) →
      (outranks station x e = true ↔
        x.rank < e.rank ∨ (e.rank = x.rank ∧ e.station < station))) ∧
    (e.status = .provisional →
      (outranks station x e = true ↔
        x.rank < e.rank ∨ (e.rank = x.rank ∧ e.ch.toNat < x.ch.toNat))) ∧
    outranks station x x = false

/-- A claim that has settled becomes LIVE, and its channel starts CLAIMED with its inrush window, its
origins kept and its feedback supervised against the new output (R4, R24, R87). -/
def Obligations.SettledClaimStartsTheLoad : Prop :=
  ∀ (m : Moment) (ch : Ch) (x : Claim) (s : State),
    let a := s.elapse m.elapsed
    s.claimTableSound → (a.cc.get ch).state = .pending .claiming → a.provisionalOf ch = some x →
    Timer.due x.timer = true → s.mc.mode = .operating →
      ∃ t, exec (.settleExpiry m ch) s = .next t ∧ (t.cc.get ch).state = .starting .claimed ∧
        t.coilDrive ch = true ∧
        (a.cc.get ch).outputChanged (a.record ch).feedbackWindow (t.cc.get ch) ∧
        (t.cc.get ch).inrushTimer = some (a.record ch).inrushWindow ∧
        (∀ o, (a.cc.get ch).origins.has o = true → (t.cc.get ch).origins.has o = true) ∧
        { x with status := .live, timer := none } ∈ t.bu.claims

/-- A remote claim leaves the table at the end of its hold, and at the WITHDRAW or RELEASE of its station
(R93, R94). -/
def Obligations.RemoteClaimsEnd : Prop :=
  ∀ (m : Moment) (station number : Nat) (env : Envelope) (n : Byte) (s : State),
    let a := s.elapse m.elapsed
    (s.claimTableSound → a.bu.claims.any (Claim.expiresAs station number) = true →
      ∃ t, exec (.claimHoldTimerExpiry m station number) s = .next t ∧
        ∀ c ∈ t.bu.claims, c.isRemote station number = false) ∧
    (s.onLine ∨ s.mc.mode = .silent →
      (s.hears env kindWithdraw [n] → ∃ t, exec (.withdrawReceived m env n) s = .next t ∧
        ∀ c ∈ t.bu.claims, c.isRemote env.sender.toNat n.toNat = false) ∧
      (s.hears env kindRelease [n] → ∃ t, exec (.releaseReceived m env n) s = .next t ∧
        ∀ c ∈ t.bu.claims, c.isRemote env.sender.toNat n.toNat = false))

/-- The overflow state clears when its timer expires, and a retry gap ends when its timer does: where the
conditions for a claim hold then, the channel's claim is created, with the number of the counter, which
advances; it joins the end of the table, every remote entry is marked before, its settle timer runs and
its CLAIM is queued (R77, R78, R79, R80, R86, R96). -/
def Obligations.OverflowAndRetryGapEnd : Prop :=
  ∀ (m : Moment) (ch : Ch) (s : State),
    let a := s.elapse m.elapsed
    let n := a.bu.counter
    let r := a.record ch
    (Timer.due a.bu.overflowTimer = true →
      ∃ t, exec (.overflowTimerExpiry m) s = .next t ∧ t.bu.overflow = false ∧
        t.bu.overflowTimer = none) ∧
    (Timer.due (a.bu.retryGap.get ch) = true →
      ∃ t, exec (.retryGapExpiry m ch) s = .next t ∧ t.bu.retryGap.get ch = none ∧
        ∀ image, s.settled → s.mc.mode = .operating → s.mc.image = some image → s.mc.station ≠ 0 →
          (a.cc.get ch).state = .pending .budget →
          (∀ k, k ≠ ch → (a.cc.get k).state ≠ .pending .budget) → (1 ≤ r.rank ∧ r.rank ≤ 3) →
          s.bu.overflow = false → (∀ c ∈ a.bu.claims, c.isOwn = true → c.ch ≠ ch ∧ c.number ≠ n) →
          a.bu.claims.length < 24 → s.li.queue.length < 16 →
          (a.bu.claims.map Claim.weight).sum + r.weight ≤ image.plantBudget →
          (t.cc.get ch).state = .pending .claiming ∧
          t.bu.counter = (if n < 255 then n + 1 else 1) ∧
          t.bu.claims =
            a.bu.claims.map (fun c =>
              match c.status with
              | .remote marks => { c with status := .remote (marks ++ [(n, .before)]) }
              | _ => c) ++
            [⟨s.mc.station, n, ch, r.weight, r.rank, .provisional, some image.settleInterval⟩] ∧
          t.li.queue = s.li.queue ++ [⟨0, .claim n ch r.weight r.rank⟩])

/-- A CLAIM within its ranges is recorded with the claim hold limit running. An own PROVISIONAL claim is
checked against a new entry: where the weights that outrank it and its own pass the plant budget it is
withdrawn with WITHDRAW queued, its channel is in BUDGET again and its retry gap runs; else it stands. A
CLAIM that the full table cannot take sets the overflow state, at which CLAIM_OVERFLOW is noticed and
every own PROVISIONAL claim is withdrawn so (R82, R83, R84, R85, R86, R92, R95, R168). -/
def Obligations.ClaimFrameIsRecorded : Prop :=
  ∀ (m : Moment) (env : Envelope) (number channel weight rank : Byte) (ch : Ch) (image : Image)
    (s : State),
    let a := s.elapse m.elapsed
    let gap := some (image.retryGap + s.mc.station * Config.ms 100)
    s.claimTableSound → s.onLine → s.hears env kindClaim [number, channel, weight, rank] →
    s.mc.image = some image → channel.toNat = ch.toNat → number.toNat ≠ 0 →
    (1 ≤ weight.toNat ∧ weight.toNat ≤ 63) → (1 ≤ rank.toNat ∧ rank.toNat ≤ 3) →
      ∃ t, exec (.claimReceived m env number channel weight rank) s = .next t ∧
        (s.bu.claims.length < 24 ∨
            (∃ c ∈ s.bu.claims, c.station = env.sender.toNat ∧ (c.number = number.toNat ∨ c.ch = ch)) →
          ∃ c ∈ t.bu.claims, c.station = env.sender.toNat ∧ c.number = number.toNat ∧ c.ch = ch ∧
            c.weight = weight.toNat ∧ c.rank = rank.toNat ∧ c.isOwn = false ∧
            c.timer = some image.claimHoldLimit) ∧
        (s.bu.claims.length = 24 →
          (∀ c ∈ s.bu.claims, c.station = env.sender.toNat → c.number ≠ number.toNat ∧ c.ch ≠ ch) →
          t.bu.overflow = true ∧ t.bu.overflowTimer = some image.claimHoldLimit ∧
          (s.bu.overflow = false → s.mc.station ≠ 0 → t.noticed .claimOverflow) ∧
          (s.bu.overflow = false → s.provisionalClaiming →
            (∀ c ∈ s.bu.claims, c.isProvisional = true → 1 ≤ c.rank ∧ c.rank ≤ 3) →
            (∀ c ∈ t.bu.claims, c.isProvisional = false) ∧
            ∀ c ∈ s.bu.claims, c.isProvisional = true →
              (t.cc.get c.ch).state = .pending .budget ∧ t.bu.retryGap.get c.ch = gap ∧
              (s.settled → s.mc.station ≠ 0 → s.li.queue.length ≤ 9 →
                (⟨0, .withdraw c.number⟩ : Frame) ∈ t.li.queue))) ∧
        ∀ x ∈ a.bu.claims, x.isProvisional = true → (1 ≤ x.rank ∧ x.rank ≤ 3) →
          (∀ c ∈ a.bu.claims, c.isProvisional = true → c = x) →
          (a.cc.get x.ch).state = .pending .claiming → s.bu.claims.length < 24 →
          (∀ c ∈ s.bu.claims, c.station = env.sender.toNat → c.number ≠ number.toNat ∧ c.ch ≠ ch) →
            let outranked : Nat :=
              ((a.bu.claims.filter (outranks s.mc.station x)).map Claim.weight).sum +
              (if x.rank < rank.toNat ∨ (rank.toNat = x.rank ∧ env.sender.toNat < s.mc.station) then
                weight.toNat else 0)
            (outranked + x.weight ≤ image.plantBudget → x ∈ t.bu.claims) ∧
            (image.plantBudget < outranked + x.weight →
              (t.cc.get x.ch).state = .pending .budget ∧ t.bu.retryGap.get x.ch = gap ∧
              (∀ c ∈ t.bu.claims, c.isProvisional = true → c.ch ≠ x.ch) ∧
              (s.settled → s.mc.station ≠ 0 → s.li.queue.length < 16 →
                (⟨0, .withdraw x.number⟩ : Frame) ∈ t.li.queue))

/-! ## The plant phase (05) -/

/-- Which ranks a phase permits to rest (R102). -/
def Obligations.PhasePermission : Prop :=
  ∀ rank : Nat, (1 ≤ rank ∧ rank ≤ 3) →
    Phase.day.permits rank = false ∧ Phase.morning.permits rank = false ∧
    (Phase.evening.permits rank = true ↔ rank = 1) ∧ Phase.night.permits rank = true

/-- A PHASE frame to all or to this station, at level 0 or 1 and with a greater epoch, is adopted; one
that misses any of these is not. At an adoption that changes the phase, a WAITING channel whose rank the
new phase does not permit is AWAKE again; an AWAKE one that is idle-confirmed, of a permitted rank, not
held and in an OPERATING node leaves AWAKE, its contactor opening where its consumers rest, and any
other AWAKE one runs on; an entry to MORNING adds MORNING to the resting channels with the morning flag,
and wakes those at rest in an OPERATING node. A frame that an ISOLATED node adopts returns it to
OPERATING, with one outcome in every order of the moment (R17, R19, R104, R106, R108, R109, R110, R111,
R147). R111 gives one outcome to the two orders of return and adoption; that it is the outcome of every
value of `Moment.arrival`, the one with a stagger expiry between them included, is the model's choice
(log 11). -/
def Obligations.PhaseFrameIsAdopted : Prop :=
  ∀ (m : Moment) (env : Envelope) (code : Byte) (epoch : Word32) (level : Byte) (s : State),
    let a := s.elapse m.elapsed
    let good : Prop := (env.target = 0 ∨ env.target.toNat = s.mc.station) ∧ level.toNat ≤ 3 ∧
      s.effectiveLevel env.sender.toNat level.toNat ≤ 1 ∧ s.pu.epoch < epoch
    s.hears env kindPhase ([code] ++ bytes32 epoch ++ [level]) →
      (s.mc.mode = .isolated → ∀ ph, Phase.ofNat? code.toNat = some ph → good →
        ∃ t, (∀ order, exec (.phaseReceived { m with arrival := order } env code epoch level) s =
            .next t) ∧
          t.pu = ⟨ph, epoch, env.sender.toNat⟩ ∧ t.mc.mode = .operating) ∧
      (s.onLine → ∃ t, exec (.phaseReceived m env code epoch level) s = .next t ∧
        (∀ ph, Phase.ofNat? code.toNat = some ph → good →
          t.pu = ⟨ph, epoch, env.sender.toNat⟩ ∧
          ∀ ch, s.pu.phase ≠ ph →
            let rests : Prop := (a.record ch).requiredCount ≤ (a.it.get ch).count ∧
              ph.permits (a.record ch).rank = true ∧ a.held ch = false ∧ s.mc.mode = .operating
            ((a.cc.get ch).state = .waiting → ph.permits (a.record ch).rank = false →
              (t.cc.get ch).state = .awake) ∧
            ((a.cc.get ch).state = .awake →
              (rests → (t.cc.get ch).state ≠ .awake ∧
                (a.consumersVerdict ch = true → t.coilDrive ch = false)) ∧
              (¬rests → (t.cc.get ch).state = .awake ∧ t.it.get ch = a.it.get ch)) ∧
            (ph = .morning → a.configured ch = true → (a.record ch).morning = true →
              ((a.cc.get ch).state = .coast ∨ (a.cc.get ch).state = .rest ∨
                ∃ cause, (a.cc.get ch).state = .tripped cause) →
              (t.cc.get ch).origins.has .morning = true ∧
              ((a.cc.get ch).state = .rest → s.mc.mode = .operating →
                (t.cc.get ch).state.isPending = true))) ∧
        (Phase.ofNat? code.toNat = none ∨ ¬good → t.pu = a.pu))

/-- The epoch never decreases except at a reset, where it becomes 0 (R103). -/
def Obligations.EpochNeverDecreases : Prop :=
  ∀ s t : State, step s = .next t →
    ((∀ m cause rest, s.pending ≠ .reset m cause :: rest) → s.pu.epoch ≤ t.pu.epoch) ∧
    (∀ m cause rest, s.pending = .reset m cause :: rest → t.pu.epoch = 0)

/-! ## Commands of consoles (06) -/

/-- A WAKE in OPERATING wakes a resting load with origin CONSOLE, restarts the idle judgement of a running
one, its count 0 and a new idle window begun, and does not change a locked one; a tracker whose channel
is not AWAKE or WAITING is not touched. In COAST, PENDING, STARTING and TRIPPED the origin is recorded,
and a load that coasts and may restart flying is PENDING. The reply is ACCEPTED, for a coasting load
that may not restart flying and for a tripped one DEFERRED, for a locked one REFUSED_LOCKED (R8, R12,
R14, R15, R16, R38, R46, R47, R118, R129). -/
def Obligations.WakeActsByState : Prop :=
  ∀ (m : Moment) (env : Envelope) (channel level : Byte) (ch : Ch) (s : State),
    let a := s.elapse m.elapsed
    s.mc.mode = .operating → s.hears env kindWake [channel, level] →
    env.target.toNat = s.mc.station → env.target ≠ 0 → level.toNat ≤ 3 →
    channel.toNat = ch.toNat → a.configured ch = true →
    a.effectiveLevel env.sender.toNat level.toNat ≤ 3 →
      let kind := (a.record ch).kind
      let mayFly : Bool := decide (kind = .fan ∨ kind = .conveyor ∨ kind = .aux)
      ∃ t, exec (.wake m env channel level) s = .next t ∧
        ((a.cc.get ch).state = .rest →
          (t.cc.get ch).state.isPending = true ∧ (t.cc.get ch).origins.has .console = true) ∧
        ((a.cc.get ch).state.tracked = true →
          (t.cc.get ch).state = .awake ∧
          t.it.get ch = (a.it.get ch).woken (a.record ch).idleWindow) ∧
        ((a.cc.get ch).state.tracked = false → t.it.get ch = a.it.get ch) ∧
        ((a.cc.get ch).state.isLocked = true → t.cc.get ch = a.cc.get ch) ∧
        ((a.cc.get ch).state = .coast ∨ (a.cc.get ch).state.isPending = true ∨
            (∃ kind, (a.cc.get ch).state = .starting kind) ∨
            (∃ cause, (a.cc.get ch).state = .tripped cause) →
          (t.cc.get ch).origins.has .console = true) ∧
        ((a.cc.get ch).state = .coast →
          mayFly = true → (t.cc.get ch).state.isPending = true) ∧
        ((a.cc.get ch).state ≠ .offline → (a.cc.get ch).state ≠ .bypass →
          t.replied env kindWake channel 0
            (match (a.cc.get ch).state with
            | .tripped _ => .deferred
            | .locked _ => .refusedLocked
            | .coast => if mayFly then .accepted else .deferred
            | _ => .accepted))

/-- A SHED at level 2 or stronger. One of a held load is answered REFUSED_HELD, in OPERATING with nothing
changed in a settled node; one in LISTENING REFUSED_MODE, likewise. Of a load that is not held, in
OPERATING: the count of an AWAKE load rises to the required count, and where the phase permits the load
leaves AWAKE, ACCEPTED, opening its contactor if its consumers rest, with its feedback supervised against
the new output; else it stays, DEFERRED. A load in COAST loses its wakes; one in WAITING or REST is not
changed, ACCEPTED, nor one in LOCKED, REFUSED_LOCKED. One in PENDING, TRIPPED or STARTING is not changed
while a consumer does not rest, REFUSED_IN_USE, else it is in REST, or from STARTING in COAST, ACCEPTED,
where no local load needs it, its wakes dropped, its claim withdrawn or left with the inrush time as its
hold. A STOPPED tracker is not touched; that one which keeps a count, a history and a cadence from a trip
keeps them at a SHED from STARTING into COAST too, where R19 has the tracker stop cleared, is the model's
reading (log 30). In ISOLATED, where the command is taken before the return (the order of the moment, log 11), a
STARTING load is not changed and the reply is REFUSED_MODE, and the reply for an AWAKE load is DEFERRED
(R4, R13, R20, R26, R27, R29, R34, R46, R48, R90, R91, R117, R118, R131, R132, R146). -/
def Obligations.ShedRaisesTheCount : Prop :=
  ∀ (m : Moment) (env : Envelope) (channel level : Byte) (ch : Ch) (s : State),
    let a := s.elapse m.elapsed
    let c := a.cc.get ch
    s.hears env kindShed [channel, level] →
    env.target.toNat = s.mc.station → env.target ≠ 0 → level.toNat ≤ 3 →
    channel.toNat = ch.toNat → a.configured ch = true →
    a.effectiveLevel env.sender.toNat level.toNat ≤ 2 →
      let onlyAnswered (t : State) : Prop :=
        t = { a with mc.isolationTimer := t.mc.isolationTimer, li := t.li }
      (a.held ch = true → s.mc.mode = .operating ∨ s.mc.mode = .isolated →
        ∃ t, exec (.shed m env channel level) s = .next t ∧
          t.replied env kindShed channel 0 .refusedHeld ∧
          (s.mc.mode = .operating → s.settled → onlyAnswered t)) ∧
      (s.mc.mode = .listening →
        ∃ t, exec (.shed m env channel level) s = .next t ∧
          t.replied env kindShed channel 0 .refusedMode ∧ (s.settled → onlyAnswered t)) ∧
      (a.held ch = false → s.mc.mode = .operating →
        ∃ t, exec (.shed m env channel level) s = .next t ∧
          (c.state = .awake →
            (a.pu.phase.permits (a.record ch).rank = false →
              (t.cc.get ch).state = .awake ∧ t.replied env kindShed channel 0 .deferred ∧
              (t.it.get ch).count = max (a.it.get ch).count (a.record ch).requiredCount) ∧
            (a.pu.phase.permits (a.record ch).rank = true → (t.cc.get ch).state ≠ .awake ∧
              t.replied env kindShed channel 0 .accepted ∧
              (a.consumersVerdict ch = true → t.coilDrive ch = false ∧
                c.outputChanged (a.record ch).feedbackWindow (t.cc.get ch)))) ∧
          (c.state.tracked = false → (a.it.get ch).status = .stopped → t.it.get ch = a.it.get ch) ∧
          (s.settled → c.state = .coast → t.cc.get ch = { c with origins := {} }) ∧
          (c.state = .coast ∨ c.state = .waiting ∨ c.state = .rest →
            t.replied env kindShed channel 0 .accepted) ∧
          (c.state.isLocked = true → t.replied env kindShed channel 0 .refusedLocked) ∧
          (s.settled → c.state = .waiting ∨ c.state = .rest ∨ c.state.isLocked = true →
            t.cc = a.cc) ∧
          ((c.state.isPending = true ∨ (∃ k, c.state = .starting k) ∨
              ∃ cause, c.state = .tripped cause) →
            t.replied env kindShed channel 0
              (if a.consumersVerdict ch = true then .accepted else .refusedInUse) ∧
            (s.settled → a.consumersVerdict ch = false → t.cc = a.cc)) ∧
          (a.consumersVerdict ch = true → a.notNeeded ch →
            (c.state.isPending = true →
              (t.cc.get ch).state = .rest ∧ (t.cc.get ch).origins = {} ∧
              t.du.callWait.get ch = none ∧ t.bu.retryGap.get ch = none ∧
              (s.provisionalClaiming → ∀ x ∈ t.bu.claims, x.isProvisional = true → x.ch ≠ ch)) ∧
            (∀ cause, c.state = .tripped cause →
              (t.cc.get ch).state = .rest ∧ (t.cc.get ch).origins = {} ∧
              (t.cc.get ch).tripCount = c.tripCount ∧ (t.cc.get ch).retryTimer = none) ∧
            (∀ kind, c.state = .starting kind →
              (t.cc.get ch).origins = {} ∧ (t.cc.get ch).inrushTimer = none ∧
              t.coilDrive ch = false ∧
              c.outputChanged (a.record ch).feedbackWindow (t.cc.get ch) ∧
              (if (a.record ch).runDown = 0 then (t.cc.get ch).state = .rest
              else (t.cc.get ch).state = .coast ∧
                (t.cc.get ch).runDownTimer = some (a.record ch).runDown) ∧
              ∀ x, s.claimTableSound → kind = .claimed → a.liveOf ch = some x →
                { x with timer := c.inrushTimer } ∈ t.bu.claims))) ∧
      (a.held ch = false → s.mc.mode = .isolated → m.arrival ≠ .returnFirst →
        ∃ t, exec (.shed m env channel level) s = .next t ∧ t.mc.mode = .operating ∧
          let answered (code : ReplyCode) : Prop :=
            (⟨env.sender, .reply kindShed channel 0 code⟩ : Frame) ∈ t.li.queue
          let alone : Prop := s.settled ∧ s.li.queue.length ≤ 13 ∧ a.notNeeded ch ∧
            ∀ k, k ≠ ch → (a.cc.get k).state.stays = true ∧ (a.cc.get k).state ≠ .awake
          (∀ kind, c.state = .starting kind →
            { t.cc.get ch with origins := c.origins } = c ∧ (alone → answered .refusedMode) ∧
            t.replied env kindShed channel 0 .refusedMode) ∧
          (c.state = .awake → t.replied env kindShed channel 0 .deferred ∧
            (c.origins = {} → alone → answered .deferred)))

/-- A command that fails a check of R116 or meets UNCONFIGURED changes nothing but the isolation timer,
where it runs, and the receiver, and is answered where the queue has room: a SHED or UNLOCK whose
effective level is weaker than its gate REFUSED_LEVEL; one with a field out of its range, or that names
ALL where one channel is required, REFUSED_FORM; one that names no configured channel NO_SUCH; any in
UNCONFIGURED REFUSED_MODE (R115, R116, R117, R118, R144). That the frame's arrival clears what was kept
of a frame in progress is the model's choice (log 17). -/
def Obligations.WeakerLevelIsRefused : Prop :=
  ∀ (m : Moment) (env : Envelope) (channel tag level : Byte) (expiry : Word16) (ch : Ch)
    (image : Image) (s : State),
    let a := s.elapse m.elapsed
    let answered (kind tag : Byte) (code : ReplyCode) : State :=
      { a with
        mc.isolationTimer :=
          if s.mc.mode = .unconfigured then a.mc.isolationTimer else some image.isolationLimit
        li.inProgress := none
        li.queue := a.li.queue ++ [⟨env.sender, .reply kind channel tag code⟩] }
    let wakeAnswers (code : ReplyCode) : Prop := s.hears env kindWake [channel, level] →
      exec (.wake m env channel level) s = .next (answered kindWake 0 code)
    let shedAnswers (code : ReplyCode) : Prop := s.hears env kindShed [channel, level] →
      exec (.shed m env channel level) s = .next (answered kindShed 0 code)
    let unlockAnswers (code : ReplyCode) : Prop := s.hears env kindUnlock [channel, level] →
      exec (.unlock m env channel level) s = .next (answered kindUnlock 0 code)
    let holdAnswers (code : ReplyCode) : Prop :=
      s.hears env kindHold ([channel, tag, level] ++ bytes16 expiry) →
        exec (.hold m env channel tag level expiry) s = .next (answered kindHold tag code)
    let unholdAnswers (code : ReplyCode) : Prop := s.hears env kindUnhold [channel, tag, level] →
      exec (.unhold m env channel tag level) s = .next (answered kindUnhold tag code)
    s.settled → s.li.queue.length < 16 → env.target.toNat = s.mc.station → env.target ≠ 0 →
      (s.mc.mode = .operating → s.mc.image = some image →
        (level.toNat ≤ 3 → channel.toNat = ch.toNat → a.configured ch = true →
          (2 < a.effectiveLevel env.sender.toNat level.toNat → shedAnswers .refusedLevel) ∧
          (1 < a.effectiveLevel env.sender.toNat level.toNat → unlockAnswers .refusedLevel)) ∧
        (3 < level.toNat ∨ channel.toNat = 255 →
          wakeAnswers .refusedForm ∧ shedAnswers .refusedForm ∧ unlockAnswers .refusedForm) ∧
        (3 < level.toNat ∨ tag = 0 → holdAnswers .refusedForm ∧ unholdAnswers .refusedForm) ∧
        (1440 < expiry.toNat → holdAnswers .refusedForm) ∧
        (level.toNat ≤ 3 → channel.toNat ≠ 255 →
          (∀ k, channel.toNat = k.toNat → a.configured k = false) →
            wakeAnswers .noSuch ∧ shedAnswers .noSuch ∧ unlockAnswers .noSuch ∧
            (tag ≠ 0 → unholdAnswers .noSuch ∧ (expiry.toNat ≤ 1440 → holdAnswers .noSuch)))) ∧
      (s.mc.mode = .unconfigured →
        wakeAnswers .refusedMode ∧ shedAnswers .refusedMode ∧ unlockAnswers .refusedMode ∧
        holdAnswers .refusedMode ∧ unholdAnswers .refusedMode)

/-- A HOLD within its ranges refreshes its entry in place, or joins the end of the list, both ACCEPTED, or
finds the list full, LIST_FULL; one that a resting load becomes held by wakes it with origin HOLD (R118,
R120, R125, R127). -/
def Obligations.HoldJoinsTheHoldList : Prop :=
  ∀ (m : Moment) (env : Envelope) (target tag level : Byte) (expiry : Word16) (t₀ : Target)
    (s : State),
    let a := s.elapse m.elapsed
    let h : HoldEntry :=
      ⟨t₀, env.sender.toNat, tag.toNat, a.effectiveLevel env.sender.toNat level.toNat,
        if expiry = 0 then none else some expiry.toNat,
        if expiry = 0 then none else some (Config.minutes expiry.toNat)⟩
    s.onLine → s.hears env kindHold ([target, tag, level] ++ bytes16 expiry) →
    env.target.toNat = s.mc.station → env.target ≠ 0 → level.toNat ≤ 3 → tag ≠ 0 →
    expiry.toNat ≤ 1440 → a.commandTarget? target = some t₀ →
      ∃ t, exec (.hold m env target tag level expiry) s = .next t ∧
        ((∃ x ∈ a.cu.holds, x.key = h.key) →
          t.cu = { a.cu with holds := a.cu.holds.map fun x => if x.key = h.key then h else x } ∧
          t.replied env kindHold target tag .accepted) ∧
        ((∀ x ∈ a.cu.holds, x.key ≠ h.key) → a.cu.holds.length < 8 →
          t.cu = { a.cu with holds := a.cu.holds ++ [h] } ∧
          t.replied env kindHold target tag .accepted ∧
          ∀ ch, s.mc.mode = .operating → a.configured ch = true → a.held ch = false →
            (t₀ = .all ∨ t₀ = .channel ch) → (a.cc.get ch).state = .rest →
            (t.cc.get ch).state.isPending = true ∧ (t.cc.get ch).origins.has .hold = true) ∧
        ((∀ x ∈ a.cu.holds, x.key ≠ h.key) → 8 ≤ a.cu.holds.length →
          t.cu = a.cu ∧ t.replied env kindHold target tag .listFull)

/-- An UNHOLD removes every entry of its target and tag where its level is at least as strong as each of
theirs, ACCEPTED, and none otherwise, REFUSED_LEVEL; with no such entry it is answered NO_SUCH. A channel
that ceases to be held by it resumes (R45, R118, R121, R126). -/
def Obligations.UnholdRemovesMatchingEntries : Prop :=
  ∀ (m : Moment) (env : Envelope) (target tag level : Byte) (t₀ : Target) (s : State),
    let a := s.elapse m.elapsed
    let named (x : HoldEntry) : Prop := x.target = t₀ ∧ x.tag = tag.toNat
    s.onLine → s.hears env kindUnhold [target, tag, level] →
    env.target.toNat = s.mc.station → env.target ≠ 0 → level.toNat ≤ 3 → tag ≠ 0 →
    a.commandTarget? target = some t₀ →
      ∃ t, exec (.unhold m env target tag level) s = .next t ∧
        ((∀ x ∈ a.cu.holds, named x → a.effectiveLevel env.sender.toNat level.toNat ≤ x.level) →
          t.cu = { a.cu with
            holds := a.cu.holds.filter fun x => !(decide (x.target = t₀) && x.tag == tag.toNat) } ∧
          ((∃ x ∈ a.cu.holds, named x) → t.replied env kindUnhold target tag .accepted)) ∧
        ((∃ x ∈ a.cu.holds, named x ∧ x.level < a.effectiveLevel env.sender.toNat level.toNat) →
          t.cu = a.cu ∧ t.replied env kindUnhold target tag .refusedLevel) ∧
        ((∀ x ∈ a.cu.holds, ¬named x) →
          t.cu = a.cu ∧ t.replied env kindUnhold target tag .noSuch) ∧
        ∀ ch, a.held ch = true → t.held ch = false → a.resumes t ch

/-- An UNLOCK at level 0 or 1 completes in every state of its load. A LOCKED load with its contact open
is in REST with its trip count 0 and its origin set empty, in a settled node in which no running local
load needs it; one that is held has origin HOLD, and with it is in REST while LISTENING and in PENDING in
OPERATING. A LOCKED load with its contact closed, and a load in any other state, is not changed, and the
reply is REFUSED_STATE; else it is ACCEPTED (R9, R14, R118, R127, R133). -/
def Obligations.UnlockClearsTheLock : Prop :=
  ∀ (m : Moment) (env : Envelope) (channel level : Byte) (ch : Ch) (s : State),
    let a := s.elapse m.elapsed
    s.onLine → s.hears env kindUnlock [channel, level] →
    env.target.toNat = s.mc.station → env.target ≠ 0 → level.toNat ≤ 3 →
    channel.toNat = ch.toNat → a.configured ch = true →
    a.effectiveLevel env.sender.toNat level.toNat ≤ 1 →
      ∃ t, exec (.unlock m env channel level) s = .next t ∧
        ((a.cc.get ch).state.isLocked = true → (a.cc.get ch).feedbackClosed = false →
          ((t.cc.get ch).state = .rest ∨ (t.cc.get ch).state.isPending = true) ∧
          (t.cc.get ch).tripCount = 0 ∧ t.replied env kindUnlock channel 0 .accepted ∧
          (a.held ch = false → s.settled →
            (∀ k, (a.cc.get k).state.watching = true →
              ∀ r ∈ (a.record k).needs, a.localCh? r ≠ some ch) →
            (t.cc.get ch).state = .rest ∧ (t.cc.get ch).origins = {}) ∧
          (a.held ch = true →
            (t.cc.get ch).origins.has .hold = true ∧
            (s.mc.mode = .listening → (t.cc.get ch).state = .rest) ∧
            (s.mc.mode = .operating → (t.cc.get ch).state.isPending = true))) ∧
        ((a.cc.get ch).state.isLocked = true → (a.cc.get ch).feedbackClosed = true →
          t.cc.get ch = a.cc.get ch) ∧
        ((a.cc.get ch).state = .awake → t.cc.get ch = a.cc.get ch) ∧
        ((a.cc.get ch).state.isLocked = false ∨ (a.cc.get ch).feedbackClosed = true →
          t.replied env kindUnlock channel 0 .refusedState ∧ (s.settled → t.cc = a.cc))

/-! ## Modes (07) -/

/-- The end of the listen interval takes the node to OPERATING; a resting load that is to start, in a
phase that does not permit its rank to rest, is woken (R14, R143). -/
def Obligations.ListenExpiryMakesTheStartDecision : Prop :=
  ∀ (m : Moment) (s : State),
    let a := s.elapse m.elapsed
    s.mc.mode = .listening → Timer.due a.mc.listenTimer = true →
      ∃ t, exec (.listenExpiry m) s = .next t ∧ t.mc.mode = .operating ∧ t.mc.listenTimer = none ∧
        t.mc.isolationTimer = a.mc.isolationTimer ∧
        (∀ ch, (a.cc.get ch).state = .rest → (a.cc.get ch).origins.has .start = true →
          a.pu.phase.permits (a.record ch).rank = false →
          (t.cc.get ch).state.isPending = true ∧ (t.cc.get ch).origins.has .start = true) ∧
        ((∀ ch, (a.cc.get ch).state = .rest ∨ (a.cc.get ch).state.isLocked = true ∨
            (a.cc.get ch).state = .offline) →
          (∀ ch, (a.cc.get ch).state = .rest → a.configured ch = true ∧
            (a.cc.get ch).origins = { start := true } ∧
            a.pu.phase.permits (a.record ch).rank = true) →
          ∀ ch, (a.cc.get ch).state = .rest →
            (t.cc.get ch).state = .rest ∧ (t.cc.get ch).origins = {})

/-- Isolation: with no frame heard for the isolation limit the node is ISOLATED, its stagger runs from the
station number times 2 s, waiting loads are AWAKE, resting ones are being woken with origin ISOLATION,
it has no PROVISIONAL claim left, and ISOLATED is noticed (R32, R98, R144, R145, R146, R168). -/
def Obligations.IsolationExpiryIsolates : Prop :=
  ∀ (m : Moment) (s : State),
    let a := s.elapse m.elapsed
    s.onLine → Timer.due a.mc.isolationTimer = true → s.provisionalClaiming →
      ∃ t, exec (.isolationExpiry m) s = .next t ∧ t.mc.mode = .isolated ∧
        t.mc.isolationTimer = none ∧ t.mc.listenTimer = none ∧
        t.mc.staggerTimer = some (s.mc.station * Config.sec 2) ∧
        (s.mc.station ≠ 0 → t.noticed .isolated) ∧
        (∀ ch, (a.cc.get ch).state.tracked = true → (t.cc.get ch).state = .awake ∧
          t.it.get ch = a.it.get ch) ∧
        (∀ ch, (a.cc.get ch).state = .rest → (t.cc.get ch).state.isPending = true ∧
          (t.cc.get ch).origins.has .isolation = true) ∧
        ((∀ c ∈ a.bu.claims, c.isProvisional = true → 1 ≤ c.rank ∧ c.rank ≤ 3) →
          ∀ c ∈ t.bu.claims, c.isProvisional = false)

/-- At its expiry the isolation stagger starts the PENDING channel of highest rank, then lowest number,
UNCLAIMED, its feedback supervised against the new output, and runs on for its inrush window (R4, R25,
R146). -/
def Obligations.StaggerStartsOneLoad : Prop :=
  ∀ (m : Moment) (ch : Ch) (s : State),
    let a := s.elapse m.elapsed
    s.mc.mode = .isolated ∨ s.mc.mode = .silent → Timer.due a.mc.staggerTimer = true →
    (a.cc.get ch).state.isPending = true → (∀ k, 1 ≤ (a.record k).rank ∧ (a.record k).rank ≤ 3) →
    (∀ k, (a.cc.get k).state.isPending = true → k ≠ ch →
      (a.record k).rank < (a.record ch).rank ∨
        ((a.record k).rank = (a.record ch).rank ∧ ch.toNat < k.toNat)) →
      ∃ t, exec (.isolationStaggerExpiry m) s = .next t ∧
        (t.cc.get ch).state = .starting .unclaimed ∧
        (a.cc.get ch).outputChanged (a.record ch).feedbackWindow (t.cc.get ch) ∧
        (t.cc.get ch).inrushTimer = some (a.record ch).inrushWindow ∧
        t.mc.staggerTimer = some (a.record ch).inrushWindow ∧
        ∀ k, k ≠ ch → (a.cc.get k).state.isPending = true → (t.cc.get k).state.isPending = true

/-- The first frame heard from another station, of whatever kind and with whatever content, returns an
ISOLATED node to OPERATING, its isolation timer running and its stagger stopped, and REJOINED is noticed;
a LOCKED channel stays as it is but for an UNLOCK (R8, R147, R161, R168). -/
def Obligations.FirstFrameHeardRejoins : Prop :=
  ∀ (c : Instr) (env : Envelope) (kind : Byte) (payload : List Byte) (image : Image) (s : State),
    s.mc.mode = .isolated → s.mc.image = some image → c.wellFormed = true →
    commandBytes c = some (lineBytes env.sender kind env.target payload) →
    s.hears env kind payload →
      ∃ t, exec c s = .next t ∧
        t.mc.mode = .operating ∧ t.mc.isolationTimer = some image.isolationLimit ∧
        t.mc.staggerTimer = none ∧ (s.mc.station ≠ 0 → t.noticed .rejoined) ∧
        ∀ ch, (∀ m e x l, c ≠ .unlock m e x l) → (s.cc.get ch).state.isLocked = true →
          (t.cc.get ch).state = (s.cc.get ch).state

/-- The node's own number on the line, in a valid frame of whatever kind that it is not sending, makes it
SILENT: queue and sender are empty, it does not drive the line, and the attention line is asserted (R148,
R150, R161, R163, R167). -/
def Obligations.OwnNumberHeardSilences : Prop :=
  ∀ (c : Instr) (sender kind target : Byte) (payload : List Byte) (s : State),
    s.mc.mode ≠ .loading → s.mc.mode ≠ .silent → s.li.awaitingGap = false → c.wellFormed = true →
    commandBytes c = some (lineBytes sender kind target payload) →
    sender.toNat = s.mc.station → s.isSending (lineBytes sender kind target payload) = false →
      ∃ t, exec c s = .next t ∧ t.mc.mode = .silent ∧
        t.li.queue = [] ∧ t.li.sender = none ∧ t.li.driving = false ∧ t.attention = true

/-- At its bypass time a channel enters BYPASS with its coil driven; the other channels are not
concerned where they are OFFLINE or in BYPASS (R31). -/
def Obligations.BypassTimerEnergises : Prop :=
  ∀ (m : Moment) (ch : Ch) (s : State),
    let a := s.elapse m.elapsed
    Timer.due (a.mc.bypassTimer.get ch) = true → s.mc.mode ≠ .loading →
      ∃ t, exec (.bypassTimerExpiry m ch) s = .next t ∧ (t.cc.get ch).state = .bypass ∧
        t.coilDrive ch = true ∧ t.mc.bypassTimer = a.mc.bypassTimer.set ch none ∧
        ∀ k, k ≠ ch → ((a.cc.get k).state = .offline ∨ (a.cc.get k).state = .bypass) →
          t.cc.get k = a.cc.get k

/-! ## The line and the lamps (08, 09) -/

/-- At its expiry the heartbeat timer starts again at the period of the image, or 2 s without one, and
in every mode that queues frames a STATE frame that reports the node as it stands is in the queue,
unless the queue is full of frames that make no room for it (R157). A CALLING channel repeats its call
to its unavailable providers, and a channel with watch marks its standing calls: a local provider at
rest is woken with origin CALL, the remote ones are named in one CALL frame, those under a mark that are
reported held left out. In a settled node without CALLING channels or watch marks no channel is
concerned (R62, R64, R70, R72, R158, R159). -/
def Obligations.HeartbeatRestarts : Prop :=
  ∀ (m : Moment) (s : State),
    let a := s.elapse m.elapsed
    Timer.due a.li.heartbeatTimer = true →
      ∃ t, exec (.heartbeatExpiry m) s = .next t ∧
        t.li.heartbeatTimer = some (match s.mc.image with
          | some image => image.heartbeatPeriod
          | none => Config.sec 2) ∧
        (s.mc.station ≠ 0 → s.mc.mode ≠ .loading → s.mc.mode ≠ .silent →
          (⟨0, .state t.report⟩ : Frame) ∈ t.li.queue ∨
          16 ≤ t.li.queue.length ∧ ∀ f ∈ t.li.queue, f.isState = false ∧ f.isReport = false) ∧
        (s.settled → (∀ ch, (s.cc.get ch).state ≠ .pending .calling ∧ s.du.marks.get ch = []) →
          t.cc = a.cc ∧
          (s.mc.station ≠ 0 → s.onLine → s.li.queue.length < 16 →
            (⟨0, .state a.report⟩ : Frame) ∈ t.li.queue)) ∧
        (s.settled → s.mc.mode = .operating ∨ s.mc.mode = .isolated ∨ s.mc.mode = .silent →
          ∀ k ch r, a.localCh? r = some ch → (a.cc.get ch).state = .rest →
            ((a.cc.get k).state = .pending .calling ∧ r ∈ (a.record k).needs ∧ a.available r = false ∨
              r ∈ a.du.marks.get k) →
            (t.cc.get ch).state.isPending = true ∧ (t.cc.get ch).origins.has .call = true) ∧
        ∀ k, s.settled → s.mc.station ≠ 0 → (s.onLine ∨ s.mc.mode = .isolated) →
          s.li.queue.length < 15 →
          (∀ j, j ≠ k → (s.cc.get j).state ≠ .pending .calling ∧ s.du.marks.get j = []) →
          (∀ r ∈ (a.record k).needs, r.station ≠ s.mc.station) →
          ((a.cc.get k).state = .pending .calling → a.du.marks.get k = [] →
            (⟨0, .call k ((a.record k).needs.filter fun r => !a.available r)⟩ : Frame) ∈ t.li.queue) ∧
          (a.du.marks.get k ≠ [] →
            let named := (a.du.marks.get k).filter fun r =>
              !((a.du.peers.find? fun p => p.ref == r).any fun p => p.held)
            named ≠ [] → (⟨0, .call k named⟩ : Frame) ∈ t.li.queue)

/-- A lamp's step advances by one each 125 ms, from 15 to 0, and nothing else changes (R164). -/
def Obligations.LampStepAdvances : Prop :=
  ∀ (m : Moment) (s : State),
    let a := s.elapse m.elapsed
    s.settled →
      (∀ ch, Timer.due (a.iu.channels.get ch).timer = true →
        exec (.lampStep m (.channel ch)) s = .next
          { a with
            iu.channels := a.iu.channels.set ch
              ⟨((a.iu.channels.get ch).step + 1) % 16, some (Config.ms 125)⟩ }) ∧
      (Timer.due a.iu.node.timer = true →
        exec (.lampStep m .node) s = .next
          { a with iu.node := ⟨(a.iu.node.step + 1) % 16, some (Config.ms 125)⟩ })

/-- The steps in which each lamp is lit: a channel's by its state and its held condition, the node's by
its mode, each at the lamp's own step; and when the attention line is asserted: in UNCONFIGURED and
SILENT always, in LOADING never, else while a condition that the mask enables holds (R164, R165, R166,
R167). -/
def Obligations.LampPatternsFollowTheTables : Prop :=
  (∀ (st : ChState) (held : Bool) (n : Nat), n < 16 →
    (channelPattern st held n = true ↔
      match st with
      | .awake => held = true → n ≠ 15
      | .bypass => True
      | .waiting => n ≤ 7
      | .coast => n ∈ [0, 1, 4, 5, 8, 9, 12, 13]
      | .rest => n = 0
      | .pending _ => n = 0 ∨ n = 2
      | .starting _ => n ∈ [0, 2, 4, 6, 8, 10, 12, 14]
      | .tripped _ => n ∈ [0, 1, 2, 3, 8, 9, 10, 11]
      | .locked _ => n = 0 ∨ n = 2 ∨ n = 4
      | .offline => False)) ∧
  (∀ (mode : Mode) (n : Nat), n < 16 →
    (nodePattern mode n = true ↔
      match mode with
      | .loading => True
      | .listening => n ≤ 7
      | .operating => n = 0
      | .isolated => n ∈ [0, 1, 2, 3, 8, 9, 10, 11]
      | .unconfigured => n ∈ [0, 1, 4, 5, 8, 9, 12, 13]
      | .silent => n = 0 ∨ n = 2 ∨ n = 4)) ∧
  ∀ s : State,
    (∀ ch, s.channelLampLit ch =
      channelPattern (s.cc.get ch).state (s.held ch) (s.iu.channels.get ch).step) ∧
    s.nodeLampLit = nodePattern s.mc.mode s.iu.node.step ∧
    (s.attention = true ↔
      s.mc.mode = .unconfigured ∨ s.mc.mode = .silent ∨
      ((s.mc.mode = .listening ∨ s.mc.mode = .operating ∨ s.mc.mode = .isolated) ∧
        ∃ image, s.mc.image = some image ∧
          (image.mask.locked = true ∧ (∃ ch cause, (s.cc.get ch).state = .locked cause) ∨
          image.mask.tripped = true ∧ (∃ ch cause, (s.cc.get ch).state = .tripped cause) ∨
          image.mask.isolated = true ∧ s.mc.mode = .isolated ∨
          image.mask.overflow = true ∧ s.bu.overflow = true ∨
          image.mask.peerAbsent = true ∧
            ∃ p ∈ s.du.peers, p.isPresent = false ∧ p.ageTimer = none)))

/-- After an access gap the node drives the line with the frame in its sender, or with the head of its
queue, whose attempt count is 0 and whose check sequence is computed; with neither it stays off the line
(R150, R153, R170). That the gap clears what was kept of a frame in progress (log 17), and that the
command is itself the gap, whatever time has passed, and begins a frame queued on a quiet line (log 35),
are the model's choices. -/
def Obligations.AccessGapBeginsSending : Prop :=
  ∀ (m : Moment) (s : State),
    let a := s.elapse m.elapsed
    let free : State := { a with li.awaitingGap := false, li.inProgress := none }
    s.settled → s.mc.inReset = false → s.li.driving = false →
      (∀ x, s.li.sender = some x →
        exec (.lineAccessGap m) s = .next { free with li.driving := true }) ∧
      (∀ f rest, s.li.sender = none → s.li.queue = f :: rest → s.bu.fullAtEval = false →
        exec (.lineAccessGap m) s = .next
          { free with
            li.queue := rest
            li.sender := some ⟨f, lineBytes (byte s.mc.station) f.body.kind f.target f.body.payload⟩
            li.attempts := 0
            li.driving := true }) ∧
      (s.li.sender = none → s.li.queue = [] → exec (.lineAccessGap m) s = .next free)

/-- The three ends of a sending: a contention lost to a lower station number keeps the frame and its
count, a completed frame leaves the sender, and a send fault raises the count and drops the frame at 8;
nothing else changes (R154, R155). That the receiver keeps the winner's number as the frame in progress
(log 17), and that the count stays as it is after a frame has left the sender (log 21), are the model's
choices. -/
def Obligations.SendingEnds : Prop :=
  ∀ (m : Moment) (winner : Byte) (s : State),
    let a := s.elapse m.elapsed
    s.settled → s.li.driving = true →
      (1 ≤ winner.toNat → winner.toNat ≤ 63 → winner.toNat < s.mc.station →
        exec (.contentionLost m winner) s = .next
          { a with li.driving := false, li.inProgress := some winner }) ∧
      exec (.frameSent m) s = .next { a with li.driving := false, li.sender := none } ∧
      exec (.sendFault m) s = .next
        { a with
          li.driving := false
          li.attempts := s.li.attempts + 1
          li.sender := if s.li.attempts + 1 < 8 then s.li.sender else none }

/-- A frame that is not valid has no effect but to end its reception; one of unknown kind, a REPLY and a
NOTICE from another station restart the isolation timer and have no other effect. Before the line has
been quiet for an access gap since a reset, no valid frame of any kind has any effect (R144, R150, R160,
R161, R162). That each of them clears what was kept of a frame in progress is the model's choice (log
17). -/
def Obligations.FramesWithoutContentAreOnlyHeard : Prop :=
  ∀ (m : Moment) (env : Envelope) (kind : Byte) (payload bytes : List Byte) (b₁ b₂ b₃ b₄ : Byte)
    (image : Image) (s : State),
    let a := s.elapse m.elapsed
    let heard : State :=
      { a with
        mc.isolationTimer := some image.isolationLimit
        li.inProgress := none }
    s.settled →
      (∀ c : Instr, s.li.awaitingGap = true → c.wellFormed = true → (commandBytes c).isSome = true →
        exec c s = .next (s.elapse c.moment.elapsed)) ∧
      exec (.invalidFrame m bytes) s = .next { a with li.inProgress := none } ∧
      (s.onLine → s.mc.image = some image →
        (payloadLength? kind.toNat = none → payload.length ≤ 40 → s.hears env kind payload →
          exec (.unknownKindFrame m env kind payload) s = .next heard) ∧
        (s.hears env kindReply [b₁, b₂, b₃, b₄] →
          exec (.replyReceived m env b₁ b₂ b₃ b₄) s = .next heard) ∧
        (s.hears env kindNotice [b₁, b₂, b₃, b₄] →
          exec (.noticeReceived m env b₁ b₂ b₃ b₄) s = .next heard))

/-- What a queue of 16 frames does with a further one, by its kind; a CLAIM does not come to one, for a
claim is created only where the queue has a free place (R157). -/
def Obligations.FullQueueRule : Prop :=
  ∀ (f : Frame) (q : List Frame), q.length = 16 →
    (f.isState = true → (∃ g ∈ q, g.isState = true) →
      joinQueue f q = q.map fun g => if g.isState = true then f else g) ∧
    ((f.isState = true ∧ (∀ g ∈ q, g.isState = false)) ∨ (∃ n, f.body = .withdraw n) ∨
        (∃ n, f.body = .release n) →
      (∀ before g behind, q = before ++ g :: behind → g.isReport = true →
        (∀ k ∈ before, k.isReport = false) → joinQueue f q = before ++ behind ++ [f]) ∧
      ((∀ g ∈ q, g.isReport = false) → joinQueue f q = q)) ∧
    ((∃ ch targets, f.body = .call ch targets) ∨ f.isReport = true → joinQueue f q = q) ∧
    ∀ (s : State) (ch : Ch), s.li.queue = q → s.claimable ch = false

/-- A frame's bytes on the line spell the command of its arrival, every field at every value (R160, R170,
R171). -/
def Obligations.FrameBytesSpellTheirCommand : Prop :=
  ∀ (c : Instr) (bytes : List Byte), c.wellFormed = true → commandBytes c = some bytes →
    frameCommand c.moment bytes = c

/-! ## What a command leaves unchanged -/

/-- The commands of one channel's own timers leave, whatever follows from them in the event, the holds,
the keys, the phase, the field inputs, the image, the mode and its timers, the peers' reports, the
sender and the other commands as they are, but that an IDLE stagger of an ISOLATED or SILENT node may be
started by an entry to PENDING (R146), and of another channel its feedback flag, its trip count and its
inrush timer; another channel in a state that the verdicts and calls do not move keeps all but its
origin set, and its tracker. -/
def Obligations.ChannelTimerCommandsFrame : Prop :=
  ∀ (m : Moment) (ch k : Ch) (s : State) (c : Instr),
    let a := s.elapse m.elapsed
    c ∈ [Instr.feedbackMismatch m ch, .retryTimerExpiry m ch, .runDownExpiry m ch,
      .inrushExpiry m ch, .inrushHoldExpiry m ch, .activityDebounceExpiry m ch,
      .idleWindowExpiry m ch, .callWaitExpiry m ch, .settleExpiry m ch, .retryGapExpiry m ch] →
    k ≠ ch →
      ∃ t, exec c s = .next t ∧ t.cu = a.cu ∧ t.pu = a.pu ∧ t.pins = a.pins ∧ t.now = a.now ∧
        t.pending = a.pending ∧ t.du.peers = a.du.peers ∧ t.iu.node = a.iu.node ∧
        (t.mc = a.mc ∨
          a.mc.staggerTimer = none ∧ (s.mc.mode = .isolated ∨ s.mc.mode = .silent) ∧
          t.mc = { a.mc with staggerTimer := some (s.mc.station * Config.sec 2) }) ∧
        (∃ q, t.li = { a.li with queue := q }) ∧
        t.bu.overflow = a.bu.overflow ∧ t.bu.overflowTimer = a.bu.overflowTimer ∧
        (t.cc.get k).feedbackClosed = (a.cc.get k).feedbackClosed ∧
        (t.cc.get k).tripCount = (a.cc.get k).tripCount ∧
        (t.cc.get k).inrushTimer = (a.cc.get k).inrushTimer ∧
        ((a.cc.get k).state.stays = true →
          { t.cc.get k with origins := (a.cc.get k).origins } = a.cc.get k ∧
          t.it.get k = a.it.get k)

/-! ## What every step keeps -/

/-- The model's start is a node held in a POWER reset, which a further POWER reset changes in the time
alone; the bounds and agreements of Safety hold in it. The levels of the field inputs and the start
cause in it are the model's choice (log 6). -/
def Obligations.ResetStateIsSound : Prop :=
  (∀ m : Moment, exec (.reset m .power) State.reset = .next { State.reset with now := m.elapsed }) ∧
  State.reset.queueBounded ∧ State.reset.senderSound ∧ State.reset.silentIsQuiet ∧
  State.reset.holdListSound ∧ State.reset.claimTableSound ∧ State.reset.countsBounded ∧
  State.reset.channelsSound ∧ State.reset.claimsStand ∧ State.reset.stoppedTrackersRest ∧
  State.reset.originsServed ∧ State.reset.settled ∧
  State.reset.ownWithinBudget

/-- Every step keeps the transmit queue within 16 frames and one STATE frame, the sender sound, a SILENT
node off the line, and the Hold List within 8 entries of distinct names (R119, R148, R150, R155,
R156). -/
def Obligations.EveryStepKeepsLineAndHoldsSound : Prop :=
  ∀ s t : State, step s = .next t →
    (s.queueBounded → t.queueBounded) ∧
    (s.senderSound → s.silentIsQuiet → t.senderSound ∧ t.silentIsQuiet) ∧
    (s.holdListSound → t.holdListSound)

/-- Every step keeps the Claim Table within 24 entries of distinct keys, and the node's own claims within
the plant budget (R75, R78). -/
def Obligations.EveryStepKeepsOwnClaimsWithinBudget : Prop :=
  ∀ s t : State, s.claimTableSound → s.ownWithinBudget → step s = .next t →
    t.claimTableSound ∧ t.ownWithinBudget

/-- Every step keeps the trackers running exactly in AWAKE and WAITING, PROVISIONAL claims for CLAIMING
channels alone, and channels OFFLINE or in BYPASS before an image is accepted. It keeps STOPPED trackers
without timers, and running loads without origins. With a sound Claim Table it also keeps a PROVISIONAL
claim for every CLAIMING channel, a LIVE one for every CLAIMED start, and at most one own claim for a
channel (R13, R26, R30, R31, R33, R34, R76). -/
def Obligations.EveryStepKeepsTheChannelsSound : Prop :=
  ∀ s t : State, s.channelsSound → step s = .next t →
    t.channelsSound ∧ (s.stoppedTrackersRest → t.stoppedTrackersRest) ∧
    (s.originsServed → t.originsServed) ∧ (s.claimTableSound → s.claimsStand → t.claimsStand)

/-- Every step leaves the node settled: no verdict waits to be acted on, and the watch marks agree with
the lost conditions (R57, R58, R59, R69). -/
def Obligations.EveryStepSettles : Prop :=
  ∀ s t : State, s.settled → step s = .next t → t.settled

/-- In OPERATING a contactor closes only for a CLAIMED start under a LIVE claim in the table (R24, R76,
R78). -/
def Obligations.NoStartWithoutALiveClaim : Prop :=
  ∀ (s t : State) (ch : Ch), s.channelsSound → s.claimTableSound → s.mc.mode = .operating →
    step s = .next t → s.coilDrive ch = false → t.coilDrive ch = true →
      (t.cc.get ch).state = .starting .claimed ∧
      ∃ c ∈ t.bu.claims, c.isLive = true ∧ c.ch = ch

/-- A LOCKED channel leaves LOCKED only by an UNLOCK or a reset (R8). -/
def Obligations.LockedUntilUnlockOrReset : Prop :=
  ∀ (s t : State) (ch : Ch) (cause : LockCause) (c : Instr) (rest : List Instr),
    s.channelsSound → (s.cc.get ch).state = .locked cause → s.pending = c :: rest →
    (∀ m k, c ≠ .reset m k) → (∀ m env x l, c ≠ .unlock m env x l) → step s = .next t →
      (t.cc.get ch).state = .locked cause
end

