-- ==== Sys2Proof/Laws/PerChannel.lean ====
section
/-! SUPPORT. Reading one of the six things after an update. -/

namespace Sys2Proof.PerChannel

variable {α β : Type}

@[simp] theorem get_all (a : α) (ch : Ch) : (PerChannel.all a).get ch = a := by cases ch <;> rfl

@[simp] theorem get_set_same (p : PerChannel α) (ch : Ch) (a : α) : (p.set ch a).get ch = a := by
  cases ch <;> rfl

theorem get_set_other (p : PerChannel α) {ch k : Ch} (h : k ≠ ch) (a : α) :
    (p.set ch a).get k = p.get k := by
  cases ch <;> cases k <;> first | rfl | exact absurd rfl h

theorem get_set (p : PerChannel α) (ch k : Ch) (a : α) :
    (p.set ch a).get k = if k = ch then a else p.get k := by
  by_cases h : k = ch
  · subst h; simp
  · simp [get_set_other p h, h]

@[simp] theorem get_map (f : α → β) (p : PerChannel α) (ch : Ch) : (p.map f).get ch = f (p.get ch) := by
  cases ch <;> rfl

@[simp] theorem get_tabulate (f : Ch → α) (ch : Ch) : (PerChannel.tabulate f).get ch = f ch := by
  cases ch <;> rfl

@[simp] theorem set_get (p : PerChannel α) (ch : Ch) : p.set ch (p.get ch) = p := by
  cases ch <;> rfl

theorem ext_get {p q : PerChannel α} (h : ∀ ch, p.get ch = q.get ch) : p = q := by
  cases p; cases q
  simp only [PerChannel.mk.injEq]
  exact ⟨h .c0, h .c1, h .c2, h .c3, h .c4, h .c5⟩

end Sys2Proof.PerChannel

namespace Sys2Proof

theorem Ch.mem_all (ch : Ch) : ch ∈ Ch.all := by cases ch <;> decide

end Sys2Proof
end

