-- ==== Sys2Proof/Laws/State.lean ====
section
/-! SUPPORT. Every field of an event after each shared update: one lemma per field per update; and what an
entry to COAST does to a tracker. -/

namespace Sys2Proof.Machine.Event

variable (e : Event)

/-! ## modCc -/

@[simp] theorem modCc_cc (ch : Ch) (f : Controller → Controller) :
    (e.modCc ch f).cc = e.cc.set ch (f (e.cc.get ch)) := rfl
@[simp] theorem modCc_it (ch : Ch) (f : Controller → Controller) : (e.modCc ch f).it = e.it := rfl
@[simp] theorem modCc_du (ch : Ch) (f : Controller → Controller) : (e.modCc ch f).du = e.du := rfl
@[simp] theorem modCc_bu (ch : Ch) (f : Controller → Controller) : (e.modCc ch f).bu = e.bu := rfl
@[simp] theorem modCc_cu (ch : Ch) (f : Controller → Controller) : (e.modCc ch f).cu = e.cu := rfl
@[simp] theorem modCc_pu (ch : Ch) (f : Controller → Controller) : (e.modCc ch f).pu = e.pu := rfl
@[simp] theorem modCc_mc (ch : Ch) (f : Controller → Controller) : (e.modCc ch f).mc = e.mc := rfl
@[simp] theorem modCc_li (ch : Ch) (f : Controller → Controller) : (e.modCc ch f).li = e.li := rfl
@[simp] theorem modCc_iu (ch : Ch) (f : Controller → Controller) : (e.modCc ch f).iu = e.iu := rfl
@[simp] theorem modCc_pins (ch : Ch) (f : Controller → Controller) :
    (e.modCc ch f).pins = e.pins := rfl
@[simp] theorem modCc_now (ch : Ch) (f : Controller → Controller) :
    (e.modCc ch f).now = e.now := rfl
@[simp] theorem modCc_pending (ch : Ch) (f : Controller → Controller) :
    (e.modCc ch f).pending = e.pending := rfl
@[simp] theorem modCc_out (ch : Ch) (f : Controller → Controller) :
    (e.modCc ch f).out = e.out := rfl

/-! ## modIt -/

@[simp] theorem modIt_cc (ch : Ch) (f : Tracker → Tracker) : (e.modIt ch f).cc = e.cc := rfl
@[simp] theorem modIt_it (ch : Ch) (f : Tracker → Tracker) :
    (e.modIt ch f).it = e.it.set ch (f (e.it.get ch)) := rfl
@[simp] theorem modIt_du (ch : Ch) (f : Tracker → Tracker) : (e.modIt ch f).du = e.du := rfl
@[simp] theorem modIt_bu (ch : Ch) (f : Tracker → Tracker) : (e.modIt ch f).bu = e.bu := rfl
@[simp] theorem modIt_cu (ch : Ch) (f : Tracker → Tracker) : (e.modIt ch f).cu = e.cu := rfl
@[simp] theorem modIt_pu (ch : Ch) (f : Tracker → Tracker) : (e.modIt ch f).pu = e.pu := rfl
@[simp] theorem modIt_mc (ch : Ch) (f : Tracker → Tracker) : (e.modIt ch f).mc = e.mc := rfl
@[simp] theorem modIt_li (ch : Ch) (f : Tracker → Tracker) : (e.modIt ch f).li = e.li := rfl
@[simp] theorem modIt_iu (ch : Ch) (f : Tracker → Tracker) : (e.modIt ch f).iu = e.iu := rfl
@[simp] theorem modIt_pins (ch : Ch) (f : Tracker → Tracker) : (e.modIt ch f).pins = e.pins := rfl
@[simp] theorem modIt_now (ch : Ch) (f : Tracker → Tracker) : (e.modIt ch f).now = e.now := rfl
@[simp] theorem modIt_pending (ch : Ch) (f : Tracker → Tracker) :
    (e.modIt ch f).pending = e.pending := rfl
@[simp] theorem modIt_out (ch : Ch) (f : Tracker → Tracker) : (e.modIt ch f).out = e.out := rfl

/-! ## setCallWait -/

@[simp] theorem setCallWait_cc (ch : Ch) (t : Timer) : (e.setCallWait ch t).cc = e.cc := rfl
@[simp] theorem setCallWait_it (ch : Ch) (t : Timer) : (e.setCallWait ch t).it = e.it := rfl
@[simp] theorem setCallWait_du (ch : Ch) (t : Timer) :
    (e.setCallWait ch t).du = { e.du with callWait := e.du.callWait.set ch t } := rfl
@[simp] theorem setCallWait_bu (ch : Ch) (t : Timer) : (e.setCallWait ch t).bu = e.bu := rfl
@[simp] theorem setCallWait_cu (ch : Ch) (t : Timer) : (e.setCallWait ch t).cu = e.cu := rfl
@[simp] theorem setCallWait_pu (ch : Ch) (t : Timer) : (e.setCallWait ch t).pu = e.pu := rfl
@[simp] theorem setCallWait_mc (ch : Ch) (t : Timer) : (e.setCallWait ch t).mc = e.mc := rfl
@[simp] theorem setCallWait_li (ch : Ch) (t : Timer) : (e.setCallWait ch t).li = e.li := rfl
@[simp] theorem setCallWait_iu (ch : Ch) (t : Timer) : (e.setCallWait ch t).iu = e.iu := rfl
@[simp] theorem setCallWait_pins (ch : Ch) (t : Timer) : (e.setCallWait ch t).pins = e.pins := rfl
@[simp] theorem setCallWait_now (ch : Ch) (t : Timer) : (e.setCallWait ch t).now = e.now := rfl
@[simp] theorem setCallWait_pending (ch : Ch) (t : Timer) :
    (e.setCallWait ch t).pending = e.pending := rfl
@[simp] theorem setCallWait_out (ch : Ch) (t : Timer) : (e.setCallWait ch t).out = e.out := rfl

/-! ## setRetryGap -/

@[simp] theorem setRetryGap_cc (ch : Ch) (t : Timer) : (e.setRetryGap ch t).cc = e.cc := rfl
@[simp] theorem setRetryGap_it (ch : Ch) (t : Timer) : (e.setRetryGap ch t).it = e.it := rfl
@[simp] theorem setRetryGap_du (ch : Ch) (t : Timer) : (e.setRetryGap ch t).du = e.du := rfl
@[simp] theorem setRetryGap_bu (ch : Ch) (t : Timer) :
    (e.setRetryGap ch t).bu = { e.bu with retryGap := e.bu.retryGap.set ch t } := rfl
@[simp] theorem setRetryGap_cu (ch : Ch) (t : Timer) : (e.setRetryGap ch t).cu = e.cu := rfl
@[simp] theorem setRetryGap_pu (ch : Ch) (t : Timer) : (e.setRetryGap ch t).pu = e.pu := rfl
@[simp] theorem setRetryGap_mc (ch : Ch) (t : Timer) : (e.setRetryGap ch t).mc = e.mc := rfl
@[simp] theorem setRetryGap_li (ch : Ch) (t : Timer) : (e.setRetryGap ch t).li = e.li := rfl
@[simp] theorem setRetryGap_iu (ch : Ch) (t : Timer) : (e.setRetryGap ch t).iu = e.iu := rfl
@[simp] theorem setRetryGap_pins (ch : Ch) (t : Timer) : (e.setRetryGap ch t).pins = e.pins := rfl
@[simp] theorem setRetryGap_now (ch : Ch) (t : Timer) : (e.setRetryGap ch t).now = e.now := rfl
@[simp] theorem setRetryGap_pending (ch : Ch) (t : Timer) :
    (e.setRetryGap ch t).pending = e.pending := rfl
@[simp] theorem setRetryGap_out (ch : Ch) (t : Timer) : (e.setRetryGap ch t).out = e.out := rfl

/-! ## oweState -/

@[simp] theorem oweState_cc : (e.oweState).cc = e.cc := rfl
@[simp] theorem oweState_it : (e.oweState).it = e.it := rfl
@[simp] theorem oweState_du : (e.oweState).du = e.du := rfl
@[simp] theorem oweState_bu : (e.oweState).bu = e.bu := rfl
@[simp] theorem oweState_cu : (e.oweState).cu = e.cu := rfl
@[simp] theorem oweState_pu : (e.oweState).pu = e.pu := rfl
@[simp] theorem oweState_mc : (e.oweState).mc = e.mc := rfl
@[simp] theorem oweState_li : (e.oweState).li = e.li := rfl
@[simp] theorem oweState_iu : (e.oweState).iu = e.iu := rfl
@[simp] theorem oweState_pins : (e.oweState).pins = e.pins := rfl
@[simp] theorem oweState_now : (e.oweState).now = e.now := rfl
@[simp] theorem oweState_pending : (e.oweState).pending = e.pending := rfl
@[simp] theorem oweState_out : (e.oweState).out = { e.out with stateDue := true } := rfl

/-! ## oweEval -/

@[simp] theorem oweEval_cc : (e.oweEval).cc = e.cc := rfl
@[simp] theorem oweEval_it : (e.oweEval).it = e.it := rfl
@[simp] theorem oweEval_du : (e.oweEval).du = e.du := rfl
@[simp] theorem oweEval_bu : (e.oweEval).bu = e.bu := rfl
@[simp] theorem oweEval_cu : (e.oweEval).cu = e.cu := rfl
@[simp] theorem oweEval_pu : (e.oweEval).pu = e.pu := rfl
@[simp] theorem oweEval_mc : (e.oweEval).mc = e.mc := rfl
@[simp] theorem oweEval_li : (e.oweEval).li = e.li := rfl
@[simp] theorem oweEval_iu : (e.oweEval).iu = e.iu := rfl
@[simp] theorem oweEval_pins : (e.oweEval).pins = e.pins := rfl
@[simp] theorem oweEval_now : (e.oweEval).now = e.now := rfl
@[simp] theorem oweEval_pending : (e.oweEval).pending = e.pending := rfl
@[simp] theorem oweEval_out : (e.oweEval).out = { e.out with evalDue := true } := rfl

/-! ## noticeNode -/

@[simp] theorem noticeNode_cc (n : Notice) : (e.noticeNode n).cc = e.cc := rfl
@[simp] theorem noticeNode_it (n : Notice) : (e.noticeNode n).it = e.it := rfl
@[simp] theorem noticeNode_du (n : Notice) : (e.noticeNode n).du = e.du := rfl
@[simp] theorem noticeNode_bu (n : Notice) : (e.noticeNode n).bu = e.bu := rfl
@[simp] theorem noticeNode_cu (n : Notice) : (e.noticeNode n).cu = e.cu := rfl
@[simp] theorem noticeNode_pu (n : Notice) : (e.noticeNode n).pu = e.pu := rfl
@[simp] theorem noticeNode_mc (n : Notice) : (e.noticeNode n).mc = e.mc := rfl
@[simp] theorem noticeNode_li (n : Notice) : (e.noticeNode n).li = e.li := rfl
@[simp] theorem noticeNode_iu (n : Notice) : (e.noticeNode n).iu = e.iu := rfl
@[simp] theorem noticeNode_pins (n : Notice) : (e.noticeNode n).pins = e.pins := rfl
@[simp] theorem noticeNode_now (n : Notice) : (e.noticeNode n).now = e.now := rfl
@[simp] theorem noticeNode_pending (n : Notice) : (e.noticeNode n).pending = e.pending := rfl
@[simp] theorem noticeNode_out (n : Notice) :
    (e.noticeNode n).out = { e.out with nodeNotices := e.out.nodeNotices ++ [⟨0, .notice n⟩] } := rfl

/-! ## noticeHold -/

@[simp] theorem noticeHold_cc (target : Target) (tag : Nat) :
    (e.noticeHold target tag).cc = e.cc := rfl
@[simp] theorem noticeHold_it (target : Target) (tag : Nat) :
    (e.noticeHold target tag).it = e.it := rfl
@[simp] theorem noticeHold_du (target : Target) (tag : Nat) :
    (e.noticeHold target tag).du = e.du := rfl
@[simp] theorem noticeHold_bu (target : Target) (tag : Nat) :
    (e.noticeHold target tag).bu = e.bu := rfl
@[simp] theorem noticeHold_cu (target : Target) (tag : Nat) :
    (e.noticeHold target tag).cu = e.cu := rfl
@[simp] theorem noticeHold_pu (target : Target) (tag : Nat) :
    (e.noticeHold target tag).pu = e.pu := rfl
@[simp] theorem noticeHold_mc (target : Target) (tag : Nat) :
    (e.noticeHold target tag).mc = e.mc := rfl
@[simp] theorem noticeHold_li (target : Target) (tag : Nat) :
    (e.noticeHold target tag).li = e.li := rfl
@[simp] theorem noticeHold_iu (target : Target) (tag : Nat) :
    (e.noticeHold target tag).iu = e.iu := rfl
@[simp] theorem noticeHold_pins (target : Target) (tag : Nat) :
    (e.noticeHold target tag).pins = e.pins := rfl
@[simp] theorem noticeHold_now (target : Target) (tag : Nat) :
    (e.noticeHold target tag).now = e.now := rfl
@[simp] theorem noticeHold_pending (target : Target) (tag : Nat) :
    (e.noticeHold target tag).pending = e.pending := rfl
@[simp] theorem noticeHold_out (target : Target) (tag : Nat) :
    (e.noticeHold target tag).out = { e.out with
      expiredHolds := e.out.expiredHolds ++ [(target, tag)] } := rfl

/-! ## noticeCh -/

@[simp] theorem noticeCh_cc (ch : Ch) (n : Notice) : (e.noticeCh ch n).cc = e.cc := rfl
@[simp] theorem noticeCh_it (ch : Ch) (n : Notice) : (e.noticeCh ch n).it = e.it := rfl
@[simp] theorem noticeCh_du (ch : Ch) (n : Notice) : (e.noticeCh ch n).du = e.du := rfl
@[simp] theorem noticeCh_bu (ch : Ch) (n : Notice) : (e.noticeCh ch n).bu = e.bu := rfl
@[simp] theorem noticeCh_cu (ch : Ch) (n : Notice) : (e.noticeCh ch n).cu = e.cu := rfl
@[simp] theorem noticeCh_pu (ch : Ch) (n : Notice) : (e.noticeCh ch n).pu = e.pu := rfl
@[simp] theorem noticeCh_mc (ch : Ch) (n : Notice) : (e.noticeCh ch n).mc = e.mc := rfl
@[simp] theorem noticeCh_li (ch : Ch) (n : Notice) : (e.noticeCh ch n).li = e.li := rfl
@[simp] theorem noticeCh_iu (ch : Ch) (n : Notice) : (e.noticeCh ch n).iu = e.iu := rfl
@[simp] theorem noticeCh_pins (ch : Ch) (n : Notice) : (e.noticeCh ch n).pins = e.pins := rfl
@[simp] theorem noticeCh_now (ch : Ch) (n : Notice) : (e.noticeCh ch n).now = e.now := rfl
@[simp] theorem noticeCh_pending (ch : Ch) (n : Notice) :
    (e.noticeCh ch n).pending = e.pending := rfl
@[simp] theorem noticeCh_out (ch : Ch) (n : Notice) :
    (e.noticeCh ch n).out = { e.out with
      notices := e.out.notices.set ch (e.out.notices.get ch ++ [⟨0, .notice n⟩]) } := rfl

/-! ## queueCall -/

@[simp] theorem queueCall_cc (ch : Ch) (targets : List Ref) :
    (e.queueCall ch targets).cc = e.cc := rfl
@[simp] theorem queueCall_it (ch : Ch) (targets : List Ref) :
    (e.queueCall ch targets).it = e.it := rfl
@[simp] theorem queueCall_du (ch : Ch) (targets : List Ref) :
    (e.queueCall ch targets).du = e.du := rfl
@[simp] theorem queueCall_bu (ch : Ch) (targets : List Ref) :
    (e.queueCall ch targets).bu = e.bu := rfl
@[simp] theorem queueCall_cu (ch : Ch) (targets : List Ref) :
    (e.queueCall ch targets).cu = e.cu := rfl
@[simp] theorem queueCall_pu (ch : Ch) (targets : List Ref) :
    (e.queueCall ch targets).pu = e.pu := rfl
@[simp] theorem queueCall_mc (ch : Ch) (targets : List Ref) :
    (e.queueCall ch targets).mc = e.mc := rfl
@[simp] theorem queueCall_li (ch : Ch) (targets : List Ref) :
    (e.queueCall ch targets).li = e.li := rfl
@[simp] theorem queueCall_iu (ch : Ch) (targets : List Ref) :
    (e.queueCall ch targets).iu = e.iu := rfl
@[simp] theorem queueCall_pins (ch : Ch) (targets : List Ref) :
    (e.queueCall ch targets).pins = e.pins := rfl
@[simp] theorem queueCall_now (ch : Ch) (targets : List Ref) :
    (e.queueCall ch targets).now = e.now := rfl
@[simp] theorem queueCall_pending (ch : Ch) (targets : List Ref) :
    (e.queueCall ch targets).pending = e.pending := rfl
@[simp] theorem queueCall_out (ch : Ch) (targets : List Ref) :
    (e.queueCall ch targets).out = { e.out with
      calls := e.out.calls.set ch (e.out.calls.get ch ++ [⟨0, .call ch targets⟩]) } := rfl

/-! ## oweStanding -/

@[simp] theorem oweStanding_cc (ch : Ch) (refs : List Ref) :
    (e.oweStanding ch refs).cc = e.cc := rfl
@[simp] theorem oweStanding_it (ch : Ch) (refs : List Ref) :
    (e.oweStanding ch refs).it = e.it := rfl
@[simp] theorem oweStanding_du (ch : Ch) (refs : List Ref) :
    (e.oweStanding ch refs).du = e.du := rfl
@[simp] theorem oweStanding_bu (ch : Ch) (refs : List Ref) :
    (e.oweStanding ch refs).bu = e.bu := rfl
@[simp] theorem oweStanding_cu (ch : Ch) (refs : List Ref) :
    (e.oweStanding ch refs).cu = e.cu := rfl
@[simp] theorem oweStanding_pu (ch : Ch) (refs : List Ref) :
    (e.oweStanding ch refs).pu = e.pu := rfl
@[simp] theorem oweStanding_mc (ch : Ch) (refs : List Ref) :
    (e.oweStanding ch refs).mc = e.mc := rfl
@[simp] theorem oweStanding_li (ch : Ch) (refs : List Ref) :
    (e.oweStanding ch refs).li = e.li := rfl
@[simp] theorem oweStanding_iu (ch : Ch) (refs : List Ref) :
    (e.oweStanding ch refs).iu = e.iu := rfl
@[simp] theorem oweStanding_pins (ch : Ch) (refs : List Ref) :
    (e.oweStanding ch refs).pins = e.pins := rfl
@[simp] theorem oweStanding_now (ch : Ch) (refs : List Ref) :
    (e.oweStanding ch refs).now = e.now := rfl
@[simp] theorem oweStanding_pending (ch : Ch) (refs : List Ref) :
    (e.oweStanding ch refs).pending = e.pending := rfl
@[simp] theorem oweStanding_out (ch : Ch) (refs : List Ref) :
    (e.oweStanding ch refs).out = { e.out with
      standingDue := e.out.standingDue.set ch (e.out.standingDue.get ch ++ refs) } := rfl

/-! ## queueBudget -/

@[simp] theorem queueBudget_cc (b : Body) : (e.queueBudget b).cc = e.cc := rfl
@[simp] theorem queueBudget_it (b : Body) : (e.queueBudget b).it = e.it := rfl
@[simp] theorem queueBudget_du (b : Body) : (e.queueBudget b).du = e.du := rfl
@[simp] theorem queueBudget_bu (b : Body) : (e.queueBudget b).bu = e.bu := rfl
@[simp] theorem queueBudget_cu (b : Body) : (e.queueBudget b).cu = e.cu := rfl
@[simp] theorem queueBudget_pu (b : Body) : (e.queueBudget b).pu = e.pu := rfl
@[simp] theorem queueBudget_mc (b : Body) : (e.queueBudget b).mc = e.mc := rfl
@[simp] theorem queueBudget_li (b : Body) : (e.queueBudget b).li = e.li := rfl
@[simp] theorem queueBudget_iu (b : Body) : (e.queueBudget b).iu = e.iu := rfl
@[simp] theorem queueBudget_pins (b : Body) : (e.queueBudget b).pins = e.pins := rfl
@[simp] theorem queueBudget_now (b : Body) : (e.queueBudget b).now = e.now := rfl
@[simp] theorem queueBudget_pending (b : Body) : (e.queueBudget b).pending = e.pending := rfl
@[simp] theorem queueBudget_out (b : Body) :
    (e.queueBudget b).out = { e.out with budget := e.out.budget ++ [⟨0, b⟩] } := rfl

/-! ## queueReply -/

@[simp] theorem queueReply_cc (target kind channel tag : Byte) (code : ReplyCode) :
    (e.queueReply target kind channel tag code).cc = e.cc := rfl
@[simp] theorem queueReply_it (target kind channel tag : Byte) (code : ReplyCode) :
    (e.queueReply target kind channel tag code).it = e.it := rfl
@[simp] theorem queueReply_du (target kind channel tag : Byte) (code : ReplyCode) :
    (e.queueReply target kind channel tag code).du = e.du := rfl
@[simp] theorem queueReply_bu (target kind channel tag : Byte) (code : ReplyCode) :
    (e.queueReply target kind channel tag code).bu = e.bu := rfl
@[simp] theorem queueReply_cu (target kind channel tag : Byte) (code : ReplyCode) :
    (e.queueReply target kind channel tag code).cu = e.cu := rfl
@[simp] theorem queueReply_pu (target kind channel tag : Byte) (code : ReplyCode) :
    (e.queueReply target kind channel tag code).pu = e.pu := rfl
@[simp] theorem queueReply_mc (target kind channel tag : Byte) (code : ReplyCode) :
    (e.queueReply target kind channel tag code).mc = e.mc := rfl
@[simp] theorem queueReply_li (target kind channel tag : Byte) (code : ReplyCode) :
    (e.queueReply target kind channel tag code).li = e.li := rfl
@[simp] theorem queueReply_iu (target kind channel tag : Byte) (code : ReplyCode) :
    (e.queueReply target kind channel tag code).iu = e.iu := rfl
@[simp] theorem queueReply_pins (target kind channel tag : Byte) (code : ReplyCode) :
    (e.queueReply target kind channel tag code).pins = e.pins := rfl
@[simp] theorem queueReply_now (target kind channel tag : Byte) (code : ReplyCode) :
    (e.queueReply target kind channel tag code).now = e.now := rfl
@[simp] theorem queueReply_pending (target kind channel tag : Byte) (code : ReplyCode) :
    (e.queueReply target kind channel tag code).pending = e.pending := rfl
@[simp] theorem queueReply_out (target kind channel tag : Byte) (code : ReplyCode) :
    (e.queueReply target kind channel tag code).out = { e.out with
      replies := e.out.replies ++ [⟨target, .reply kind channel tag code⟩] } := rfl

end Sys2Proof.Machine.Event

namespace Sys2Proof.Machine

/-- An entry to COAST does not touch a STOPPED tracker (R46). -/
@[simp] theorem Tracker.stopClear_of_stopped (t : Tracker) (h : t.status = .stopped) :
    t.stopClear = t := by simp [Tracker.stopClear, h]

/-- An entry to COAST clears a tracker that runs (R34). -/
theorem Tracker.stopClear_of_tracks (t : Tracker) (h : t.status ≠ .stopped) :
    t.stopClear = t.clear := by
  cases hs : t.status <;> simp_all [Tracker.stopClear]

end Sys2Proof.Machine
end

