-- ==== Sys2Proof/Laws/Follows.lean ====
section
/-! SUPPORT. What follows from an event inside it (`settle`): everything it can change, and everything
it leaves, said once. -/

namespace Sys2Proof.Machine

/-! ## One channel -/

/-- The states in which an added origin is recorded (R13). -/
def ChState.records : ChState → Bool
  | .coast => true
  | .rest => true
  | .pending _ => true
  | .starting _ => true
  | .tripped _ => true
  | .offline => false
  | .awake => false
  | .waiting => false
  | .locked _ => false
  | .bypass => false

/-- Where the verdicts and calls can take a channel from a state. -/
def ChState.follows : ChState → ChState → Bool
  | .waiting, b =>
    match b with
    | .waiting => true
    | .coast => true
    | .rest => true
    | .pending .calling => true
    | .pending .budget => true
    | _ => false
  | .coast, b => b == .coast || b == .pending .calling || b == .pending .budget
  | .rest, b => b == .rest || b == .pending .calling || b == .pending .budget
  | .pending .calling, b => b == .pending .calling || b == .pending .budget
  | a, b => a == b

theorem ChState.follows_refl (a : ChState) : a.follows a = true := by
  cases a with
  | pending s => cases s <;> rfl
  | starting k => cases k <;> rfl
  | tripped c => cases c <;> rfl
  | locked c => cases c <;> rfl
  | _ => rfl

theorem ChState.follows_of_stays {a b : ChState} (h : a.stays = true) (f : a.follows b = true) :
    b = a := by
  cases a <;> simp_all [ChState.stays, ChState.follows]

theorem ChState.follows_trans {a b c : ChState} (h : a.follows b = true) (k : b.follows c = true) :
    a.follows c = true := by
  cases a with
  | pending s =>
    cases s with
    | calling =>
      simp only [ChState.follows, Bool.or_eq_true, beq_iff_eq] at h
      rcases h with rfl | rfl
      · exact k
      · simp only [ChState.follows, beq_iff_eq] at k; subst k; rfl
    | budget => simp only [ChState.follows, beq_iff_eq] at h; subst h; exact k
    | claiming => simp only [ChState.follows, beq_iff_eq] at h; subst h; exact k
  | rest =>
    simp only [ChState.follows, Bool.or_eq_true, beq_iff_eq] at h
    rcases h with (rfl | rfl) | rfl
    · exact k
    · simp only [ChState.follows, Bool.or_eq_true, beq_iff_eq] at k
      rcases k with rfl | rfl <;> rfl
    · simp only [ChState.follows, beq_iff_eq] at k; subst k; rfl
  | coast =>
    simp only [ChState.follows, Bool.or_eq_true, beq_iff_eq] at h
    rcases h with (rfl | rfl) | rfl
    · exact k
    · simp only [ChState.follows, Bool.or_eq_true, beq_iff_eq] at k
      rcases k with rfl | rfl <;> rfl
    · simp only [ChState.follows, beq_iff_eq] at k; subst k; rfl
  | waiting =>
    cases b with
    | waiting => exact k
    | coast =>
      simp only [ChState.follows, Bool.or_eq_true, beq_iff_eq] at k
      rcases k with (rfl | rfl) | rfl <;> rfl
    | rest =>
      simp only [ChState.follows, Bool.or_eq_true, beq_iff_eq] at k
      rcases k with (rfl | rfl) | rfl <;> rfl
    | pending s =>
      cases s with
      | calling =>
        simp only [ChState.follows, Bool.or_eq_true, beq_iff_eq] at k
        rcases k with rfl | rfl <;> rfl
      | budget => simp only [ChState.follows, beq_iff_eq] at k; subst k; rfl
      | claiming => exact absurd h (by decide)
    | offline => exact absurd h (by decide)
    | awake => exact absurd h (by decide)
    | starting x => exact absurd h (by cases x <;> decide)
    | tripped x => exact absurd h (by cases x <;> decide)
    | locked x => exact absurd h (by cases x <;> decide)
    | bypass => exact absurd h (by decide)
  | offline => exact ChState.follows_of_stays rfl h ▸ k
  | awake => exact ChState.follows_of_stays rfl h ▸ k
  | starting => exact ChState.follows_of_stays rfl h ▸ k
  | tripped => exact ChState.follows_of_stays rfl h ▸ k
  | locked => exact ChState.follows_of_stays rfl h ▸ k
  | bypass => exact ChState.follows_of_stays rfl h ▸ k

/-- A path of moves that ends in the code it began with has that code all along. -/
theorem ChState.follows_code {a b c : ChState} (h : a.follows b = true) (k : b.follows c = true)
    (e : c.code = a.code) : b.code = a.code := by
  cases a with
  | waiting =>
    cases b with
    | waiting => rfl
    | coast =>
      simp only [ChState.follows, Bool.or_eq_true, beq_iff_eq] at k
      rcases k with (rfl | rfl) | rfl <;> exact absurd e (by decide)
    | rest =>
      simp only [ChState.follows, Bool.or_eq_true, beq_iff_eq] at k
      rcases k with (rfl | rfl) | rfl <;> exact absurd e (by decide)
    | pending s =>
      cases s with
      | calling =>
        simp only [ChState.follows, Bool.or_eq_true, beq_iff_eq] at k
        rcases k with rfl | rfl <;> exact absurd e (by decide)
      | budget => simp only [ChState.follows, beq_iff_eq] at k; subst k; exact absurd e (by decide)
      | claiming => exact absurd h (by decide)
    | offline => exact absurd h (by decide)
    | awake => exact absurd h (by decide)
    | starting x => exact absurd h (by cases x <;> decide)
    | tripped x => exact absurd h (by cases x <;> decide)
    | locked x => exact absurd h (by cases x <;> decide)
    | bypass => exact absurd h (by decide)
  | coast =>
    simp only [ChState.follows, Bool.or_eq_true, beq_iff_eq] at h
    rcases h with (rfl | rfl) | rfl
    · rfl
    · simp only [ChState.follows, Bool.or_eq_true, beq_iff_eq] at k
      rcases k with rfl | rfl <;> exact absurd e (by decide)
    · simp only [ChState.follows, beq_iff_eq] at k; subst k; exact absurd e (by decide)
  | rest =>
    simp only [ChState.follows, Bool.or_eq_true, beq_iff_eq] at h
    rcases h with (rfl | rfl) | rfl
    · rfl
    · simp only [ChState.follows, Bool.or_eq_true, beq_iff_eq] at k
      rcases k with rfl | rfl <;> exact absurd e (by decide)
    · simp only [ChState.follows, beq_iff_eq] at k; subst k; exact absurd e (by decide)
  | pending s =>
    cases s with
    | calling =>
      simp only [ChState.follows, Bool.or_eq_true, beq_iff_eq] at h
      rcases h with rfl | rfl <;> rfl
    | budget => simp only [ChState.follows, beq_iff_eq] at h; subst h; rfl
    | claiming => simp only [ChState.follows, beq_iff_eq] at h; subst h; rfl
  | offline => exact ChState.follows_of_stays rfl h ▸ rfl
  | awake => exact ChState.follows_of_stays rfl h ▸ rfl
  | starting => exact ChState.follows_of_stays rfl h ▸ rfl
  | tripped => exact ChState.follows_of_stays rfl h ▸ rfl
  | locked => exact ChState.follows_of_stays rfl h ▸ rfl
  | bypass => exact ChState.follows_of_stays rfl h ▸ rfl

/-- What the verdicts and calls can do to a channel, its tracker and its lamp. -/
structure ChannelFollows (c c' : Controller) (t t' : Tracker) (l l' : LampState) : Prop where
  state : c.state.follows c'.state = true
  closed : c'.feedbackClosed = c.feedbackClosed
  trips : c'.tripCount = c.tripCount
  inrush : c'.inrushTimer = c.inrushTimer
  retry : c.retryTimer = none → c'.retryTimer = none
  runDown : c.state ≠ .waiting → c.runDownTimer = none → c'.runDownTimer = none
  origins : ∀ o, c.origins.has o = true → c'.origins.has o = true
  stays : c.state.stays = true → { c' with origins := c.origins } = c
  ignores : c.state.records = false → c.state ≠ .waiting → c' = c
  tracker : c.state ≠ .waiting → t' = t
  lamp : c'.state.code = c.state.code → l' = l

theorem ChannelFollows.refl (c : Controller) (t : Tracker) (l : LampState) :
    ChannelFollows c c t t l l where
  state := ChState.follows_refl _
  closed := rfl
  trips := rfl
  inrush := rfl
  retry := id
  runDown := fun _ h => h
  origins := fun _ h => h
  stays := fun _ => rfl
  ignores := fun _ _ => rfl
  tracker := fun _ => rfl
  lamp := fun _ => rfl

theorem ChState.follows_waiting {a b : ChState} (h : a.follows b = true) (n : a ≠ .waiting) :
    b ≠ .waiting := by
  intro e; subst e
  cases a with
  | pending s => cases s <;> simp_all [ChState.follows]
  | _ => simp_all [ChState.follows]

theorem ChannelFollows.trans {c₁ c₂ c₃ : Controller} {t₁ t₂ t₃ : Tracker} {l₁ l₂ l₃ : LampState}
    (h : ChannelFollows c₁ c₂ t₁ t₂ l₁ l₂) (k : ChannelFollows c₂ c₃ t₂ t₃ l₂ l₃) :
    ChannelFollows c₁ c₃ t₁ t₃ l₁ l₃ where
  state := ChState.follows_trans h.state k.state
  closed := k.closed.trans h.closed
  trips := k.trips.trans h.trips
  inrush := k.inrush.trans h.inrush
  retry := fun p => k.retry (h.retry p)
  runDown := fun n p => k.runDown (ChState.follows_waiting h.state n) (h.runDown n p)
  origins := fun o p => k.origins o (h.origins o p)
  stays := fun p => by
    have e : c₂.state = c₁.state := ChState.follows_of_stays p h.state
    have h1 := h.stays p
    have k1 := k.stays (by rw [e]; exact p)
    have e3 : c₃.state = c₂.state := by have := congrArg Controller.state k1; exact this
    cases c₁; cases c₂; cases c₃
    simp_all
  ignores := fun p q => by
    have e := h.ignores p q
    subst e
    exact k.ignores p q
  tracker := fun p => (k.tracker (ChState.follows_waiting h.state p)).trans (h.tracker p)
  lamp := fun p => by
    have e := ChState.follows_code h.state k.state p
    exact (k.lamp (p.trans e.symm)).trans (h.lamp e)

/-! ## The node -/

/-- What an operation at the channels leaves as it is. -/
structure NodeKept (e e' : Event) : Prop where
  bu : e'.bu = e.bu
  cu : e'.cu = e.cu
  pu : e'.pu = e.pu
  li : e'.li = e.li
  pins : e'.pins = e.pins
  now : e'.now = e.now
  pending : e'.pending = e.pending
  node : e'.iu.node = e.iu.node
  peers : e'.du.peers = e.du.peers
  mc : ∃ t, e'.mc = { e.mc with staggerTimer := t }
  budget : e'.out.budget = e.out.budget
  replies : e'.out.replies = e.out.replies
  nodeNotices : e'.out.nodeNotices = e.out.nodeNotices
  expiredHolds : e'.out.expiredHolds = e.out.expiredHolds

theorem NodeKept.refl (e : Event) : NodeKept e e := by
  constructor <;> first | rfl | exact ⟨_, rfl⟩

theorem NodeKept.trans {a b c : Event} (h : NodeKept a b) (k : NodeKept b c) : NodeKept a c where
  bu := k.bu.trans h.bu
  cu := k.cu.trans h.cu
  pu := k.pu.trans h.pu
  li := k.li.trans h.li
  pins := k.pins.trans h.pins
  now := k.now.trans h.now
  pending := k.pending.trans h.pending
  node := k.node.trans h.node
  peers := k.peers.trans h.peers
  mc := by
    obtain ⟨t, ht⟩ := h.mc
    obtain ⟨u, hu⟩ := k.mc
    exact ⟨u, by rw [hu, ht]⟩
  budget := k.budget.trans h.budget
  replies := k.replies.trans h.replies
  nodeNotices := k.nodeNotices.trans h.nodeNotices
  expiredHolds := k.expiredHolds.trans h.expiredHolds

theorem NodeKept.mode {e e' : Event} (h : NodeKept e e') : e'.mc.mode = e.mc.mode := by
  obtain ⟨t, ht⟩ := h.mc; rw [ht]

theorem NodeKept.image {e e' : Event} (h : NodeKept e e') : e'.mc.image = e.mc.image := by
  obtain ⟨t, ht⟩ := h.mc; rw [ht]

theorem NodeKept.record {e e' : Event} (h : NodeKept e e') (ch : Ch) : e'.record ch = e.record ch := by
  unfold State.record; rw [h.image]

theorem NodeKept.held {e e' : Event} (h : NodeKept e e') (ch : Ch) : e'.held ch = e.held ch := by
  unfold State.held State.configured; rw [h.record, h.cu]

/-- What follows from an event may change channels as `ChannelFollows` says, and nothing else but the
call wait timers, the watch marks and the stagger timer. -/
structure Follows (e e' : Event) : Prop where
  kept : NodeKept e e'
  channels : ∀ ch, ChannelFollows (e.cc.get ch) (e'.cc.get ch) (e.it.get ch) (e'.it.get ch)
    (e.iu.channels.get ch) (e'.iu.channels.get ch)

theorem Follows.refl (e : Event) : Follows e e := ⟨NodeKept.refl e, fun _ => ChannelFollows.refl _ _ _⟩

theorem Follows.trans {a b c : Event} (h : Follows a b) (k : Follows b c) : Follows a c :=
  ⟨h.kept.trans k.kept, fun ch => (h.channels ch).trans (k.channels ch)⟩

/-- An operation that touches no channel, tracker or lamp. -/
theorem Follows.of_kept {e e' : Event} (h : NodeKept e e') (hc : e'.cc = e.cc) (ht : e'.it = e.it)
    (hl : e'.iu = e.iu) : Follows e e' :=
  ⟨h, fun ch => by rw [hc, ht, hl]; exact ChannelFollows.refl _ _ _⟩

/-- An operation at one channel. -/
theorem Follows.of_channel {e e' : Event} (ch : Ch) (h : NodeKept e e')
    (other : ∀ k, k ≠ ch → e'.cc.get k = e.cc.get k ∧ e'.it.get k = e.it.get k ∧
      e'.iu.channels.get k = e.iu.channels.get k)
    (here : ChannelFollows (e.cc.get ch) (e'.cc.get ch) (e.it.get ch) (e'.it.get ch)
      (e.iu.channels.get ch) (e'.iu.channels.get ch)) : Follows e e' :=
  ⟨h, fun k => by
    by_cases hk : k = ch
    · subst hk; exact here
    · obtain ⟨h1, h2, h3⟩ := other k hk
      rw [h1, h2, h3]; exact ChannelFollows.refl _ _ _⟩

theorem Event.forChannels_follows {f : Ch → Event → Event} (h : ∀ ch e, Follows e (f ch e))
    (e : Event) : Follows e (e.forChannels f) := by
  unfold Event.forChannels
  generalize Ch.all = l
  induction l generalizing e with
  | nil => exact Follows.refl e
  | cons ch rest ih => exact (h ch e).trans (ih _)

theorem Event.foldl_follows {α : Type} {f : Event → α → Event} (h : ∀ e a, Follows e (f e a))
    (l : List α) (e : Event) : Follows e (l.foldl f e) := by
  induction l generalizing e with
  | nil => exact Follows.refl e
  | cons a rest ih => exact (h e a).trans (ih _)

/-! ## The operations -/

theorem Controller.enter_state (w : Micros) (st : ChState) (c : Controller) :
    (c.enter w st).state = st := by
  unfold Controller.enter; repeat' split
  all_goals rfl

theorem Controller.enter_rest (w : Micros) (st : ChState) (c : Controller) :
    (c.enter w st).feedbackClosed = c.feedbackClosed ∧ (c.enter w st).tripCount = c.tripCount ∧
    (c.enter w st).inrushTimer = c.inrushTimer ∧ (c.enter w st).origins = c.origins ∧
    (c.enter w st).runDownTimer = c.runDownTimer ∧ (c.enter w st).retryTimer = c.retryTimer := by
  unfold Controller.enter; repeat' split
  all_goals exact ⟨rfl, rfl, rfl, rfl, rfl, rfl⟩

theorem Event.setState_kept (ch : Ch) (st : ChState) (e : Event) : NodeKept e (e.setState ch st) := by
  unfold Event.setState
  split
  all_goals constructor <;> first | rfl | exact ⟨_, rfl⟩

theorem Event.setState_cc (ch : Ch) (st : ChState) (e : Event) :
    (e.setState ch st).cc =
      e.cc.set ch (Controller.enter (e.record ch).feedbackWindow st (e.cc.get ch)) := by
  unfold Event.setState; split <;> rfl

theorem Event.setState_it (ch : Ch) (st : ChState) (e : Event) : (e.setState ch st).it = e.it := by
  unfold Event.setState; split <;> rfl

theorem Event.setState_du (ch : Ch) (st : ChState) (e : Event) : (e.setState ch st).du = e.du := by
  unfold Event.setState; split <;> rfl

theorem Event.setState_lamp (ch : Ch) (st : ChState) (e : Event) :
    (e.setState ch st).iu.channels =
      if (e.cc.get ch).state.code = st.code then e.iu.channels
      else e.iu.channels.set ch .restarted := by
  unfold Event.setState
  split <;> rfl

theorem Event.setState_mc (ch : Ch) (st : ChState) (e : Event) : (e.setState ch st).mc = e.mc := by
  unfold Event.setState; split <;> rfl

theorem Event.wakeStagger_kept (e : Event) : NodeKept e e.wakeStagger := by
  unfold Event.wakeStagger
  split
  all_goals constructor <;> first | rfl | exact ⟨_, rfl⟩

theorem Event.wakeStagger_rest (e : Event) :
    e.wakeStagger.cc = e.cc ∧ e.wakeStagger.it = e.it ∧ e.wakeStagger.iu = e.iu ∧
      e.wakeStagger.du = e.du ∧ e.wakeStagger.out = e.out := by
  unfold Event.wakeStagger
  split <;> exact ⟨rfl, rfl, rfl, rfl, rfl⟩

theorem Event.oweEval_kept (e : Event) : NodeKept e e.oweEval := by
  constructor <;> first | rfl | exact ⟨_, rfl⟩

/-- A controller as it stands when it is about to enter PENDING (R21). -/
def Controller.forPending (c : Controller) : Controller := { c with runDownTimer := none, retryTimer := none }

theorem Event.enterPending_spec (ch : Ch) (e : Event) :
    ∃ sub, (sub = .calling ∨ sub = .budget) ∧
      (e.enterPending ch).cc = e.cc.set ch
        (Controller.enter (e.record ch).feedbackWindow (.pending sub) (e.cc.get ch).forPending) ∧
      (e.enterPending ch).it = e.it ∧
      (e.enterPending ch).iu.channels =
        (if (e.cc.get ch).state.code = .pending then e.iu.channels
          else e.iu.channels.set ch .restarted) ∧
      NodeKept e (e.enterPending ch) := by
  unfold Event.enterPending
  have hk : NodeKept e (e.modCc ch Controller.forPending) := by
    constructor <;> first | rfl | exact ⟨_, rfl⟩
  have hs : ∀ st, (Event.setState ch st (e.modCc ch Controller.forPending)).cc =
      e.cc.set ch (Controller.enter (e.record ch).feedbackWindow st (e.cc.get ch).forPending) := by
    intro st
    rw [Event.setState_cc, hk.record]
    simp only [Event.modCc_cc, PerChannel.get_set_same]
    apply PerChannel.ext_get; intro k
    simp only [PerChannel.get_set]; split <;> rfl
  have hl : ∀ sub, (Event.setState ch (.pending sub) (e.modCc ch Controller.forPending)).iu.channels =
      (if (e.cc.get ch).state.code = .pending then e.iu.channels
        else e.iu.channels.set ch .restarted) := by
    intro sub
    rw [Event.setState_lamp]
    simp only [Event.modCc_cc, PerChannel.get_set_same, Event.modCc_iu]
    rfl
  simp only
  split
  · refine ⟨.budget, Or.inr rfl, ?_, ?_, ?_, ?_⟩
    · rw [(Event.wakeStagger_rest _).1]; exact hs _
    · rw [(Event.wakeStagger_rest _).2.1, Event.oweEval_it, Event.setState_it]; rfl
    · rw [(Event.wakeStagger_rest _).2.2.1]; exact hl .budget
    · exact ((hk.trans (Event.setState_kept _ _ _)).trans (Event.oweEval_kept _)).trans
        (Event.wakeStagger_kept _)
  · refine ⟨.calling, Or.inl rfl, ?_, ?_, ?_, ?_⟩
    · rw [(Event.wakeStagger_rest _).1]; exact hs _
    · rw [(Event.wakeStagger_rest _).2.1]
      exact Event.setState_it _ _ _
    · rw [(Event.wakeStagger_rest _).2.2.1]; exact hl .calling
    · refine NodeKept.trans (NodeKept.trans (hk.trans (Event.setState_kept ch (.pending .calling) _)) ?_)
        (Event.wakeStagger_kept _)
      constructor <;> first | rfl | exact ⟨_, rfl⟩

theorem Event.enterPending_follows (ch : Ch) (e : Event)
    (h : (e.cc.get ch).state = .coast ∨ (e.cc.get ch).state = .rest) :
    Follows e (e.enterPending ch) := by
  obtain ⟨sub, hsub, hc, ht, hl, hk⟩ := Event.enterPending_spec ch e
  refine Follows.of_channel ch hk ?_ ?_
  · intro k hne
    rw [hc, ht, hl]
    refine ⟨PerChannel.get_set_other _ hne _, rfl, ?_⟩
    split
    · rfl
    · exact PerChannel.get_set_other _ hne _
  · rw [hc, ht, hl]
    simp only [PerChannel.get_set_same]
    have hr := Controller.enter_rest (e.record ch).feedbackWindow (.pending sub) (e.cc.get ch).forPending
    have hs := Controller.enter_state (e.record ch).feedbackWindow (.pending sub) (e.cc.get ch).forPending
    constructor
    · rw [hs]; rcases h with h | h <;> rw [h] <;> rcases hsub with rfl | rfl <;> rfl
    · exact hr.1
    · exact hr.2.1
    · exact hr.2.2.1
    · intro _; exact hr.2.2.2.2.2
    · intro _ _; exact hr.2.2.2.2.1
    · intro o ho; rw [hr.2.2.2.1]; exact ho
    · intro hst; rcases h with h | h <;> rw [h] at hst <;> exact absurd hst (by decide)
    · intro hst; rcases h with h | h <;> rw [h] at hst <;> exact absurd hst (by decide)
    · intro _; rfl
    · intro he
      rw [hs] at he
      rcases h with h | h <;> rw [h] at he <;> exact absurd he (by simp [ChState.code])

theorem OriginSet.has_add (o p : Origin) (s : OriginSet) (h : s.has p = true) :
    (s.add o).has p = true := by
  cases o <;> cases p <;> simp_all [OriginSet.add, OriginSet.has]

theorem OriginSet.has_add_self (o : Origin) (s : OriginSet) : (s.add o).has o = true := by
  cases o <;> rfl

theorem Event.recordOrigin_follows (o : Origin) (ch : Ch) (e : Event)
    (h : (e.cc.get ch).state.records = true) : Follows e (e.recordOrigin o ch) := by
  refine Follows.of_channel ch ?_ ?_ ?_
  · constructor <;> first | rfl | exact ⟨_, rfl⟩
  · intro k hne
    exact ⟨PerChannel.get_set_other _ hne _, rfl, rfl⟩
  · simp only [Event.recordOrigin, Event.modCc_cc, PerChannel.get_set_same, Event.modCc_it,
      Event.modCc_iu]
    constructor
    · exact ChState.follows_refl _
    · rfl
    · rfl
    · rfl
    · exact id
    · exact fun _ h => h
    · intro p hp; exact OriginSet.has_add o p _ hp
    · intro _; rfl
    · intro hr; rw [hr] at h; exact absurd h (by decide)
    · intro _; rfl
    · intro _; rfl

theorem Event.recordOrigin_state (o : Origin) (ch : Ch) (e : Event) :
    ((e.recordOrigin o ch).cc.get ch).state = (e.cc.get ch).state := by
  simp [Event.recordOrigin]

theorem Event.addOrigin_follows (o : Origin) (ch : Ch) (e : Event) : Follows e (e.addOrigin o ch) := by
  have hrec : (e.cc.get ch).state.records = true → Follows e (e.recordOrigin o ch) :=
    Event.recordOrigin_follows o ch e
  have hpend : (e.cc.get ch).state = .coast ∨ (e.cc.get ch).state = .rest →
      Follows e ((e.recordOrigin o ch).enterPending ch) := by
    intro h
    refine (hrec ?_).trans (Event.enterPending_follows ch _ ?_)
    · rcases h with h | h <;> rw [h] <;> rfl
    · rw [Event.recordOrigin_state]; exact h
  unfold Event.addOrigin
  split <;> rename_i hst
  · split
    · exact hpend (Or.inl hst)
    · exact hrec (by rw [hst]; rfl)
  · split
    · exact hpend (Or.inr hst)
    · exact hrec (by rw [hst]; rfl)
  all_goals first | exact Follows.refl e | exact hrec (by rw [hst]; rfl)

theorem Event.localCall_follows (r : Ref) (e : Event) : Follows e (e.localCall r) := by
  unfold Event.localCall
  split
  · exact Event.addOrigin_follows _ _ _
  · exact Follows.refl e

theorem Event.localCalls_follows (refs : List Ref) (e : Event) : Follows e (e.localCalls refs) :=
  Event.foldl_follows (fun e r => Event.localCall_follows r e) refs e

theorem Event.callFrame_follows (ch : Ch) (targets : List Ref) (e : Event) :
    Follows e (e.callFrame ch targets) := by
  unfold Event.callFrame
  split
  · exact Follows.refl e
  · exact Follows.of_kept (by constructor <;> first | rfl | exact ⟨_, rfl⟩) rfl rfl rfl

theorem Event.makeCall_follows (ch : Ch) (e : Event) : Follows e (e.makeCall ch) :=
  (Event.callFrame_follows ch _ e).trans (Event.localCalls_follows _ _)

theorem Event.standingFrame_follows (ch : Ch) (e : Event) : Follows e (e.standingFrame ch) :=
  Event.callFrame_follows ch _ e

theorem Event.oweStanding_follows (ch : Ch) (refs : List Ref) (e : Event) :
    Follows e (e.oweStanding ch refs) :=
  Follows.of_kept (by constructor <;> first | rfl | exact ⟨_, rfl⟩) rfl rfl rfl

theorem Event.noticeCh_follows (ch : Ch) (n : Notice) (e : Event) : Follows e (e.noticeCh ch n) :=
  Follows.of_kept (by constructor <;> first | rfl | exact ⟨_, rfl⟩) rfl rfl rfl

theorem Event.watch_follows (ch : Ch) (e : Event) : Follows e (e.watch ch) := by
  have marked : Follows e { e with du.marks := e.du.marks.set ch (e.lostProviders ch) } :=
    Follows.of_kept (by constructor <;> first | rfl | exact ⟨_, rfl⟩) rfl rfl rfl
  have framed : ∀ (b : Bool) (e : Event), Follows e (if b then e.standingFrame ch else e) := by
    intro b e; cases b
    · exact Follows.refl e
    · exact Event.standingFrame_follows ch e
  exact ((marked.trans (Event.foldl_follows (fun e r => Event.noticeCh_follows ch _ e) _ _)).trans
    (framed _ _)).trans (Event.oweStanding_follows ch _ _)

theorem Event.payCall_follows (ch : Ch) (e : Event) : Follows e (e.payCall ch) := by
  unfold Event.payCall
  split
  · have h : Follows e { e with out.callDue := e.out.callDue.set ch false } :=
      Follows.of_kept (by constructor <;> first | rfl | exact ⟨_, rfl⟩) rfl rfl rfl
    simp only
    split
    · exact h.trans (Event.makeCall_follows _ _)
    · exact h
  · exact Follows.refl e

theorem Event.payStanding_follows (ch : Ch) (e : Event) : Follows e (e.payStanding ch) := by
  unfold Event.payStanding
  refine Follows.trans ?_ (Event.localCalls_follows _ _)
  exact Follows.of_kept (by constructor <;> first | rfl | exact ⟨_, rfl⟩) rfl rfl rfl

theorem Event.payCalls_follows (ch : Ch) (e : Event) : Follows e (e.payCalls ch) :=
  (Event.payCall_follows ch e).trans (Event.payStanding_follows ch _)

/-- A WAITING channel that has entered `st` with its run-down timer at `t`. -/
theorem Event.leaveWaiting_follows (ch : Ch) (st : ChState) (c : Controller) (e e' : Event)
    (hw : (e.cc.get ch).state = .waiting) (hst : st = .coast ∨ st = .rest) (hk : NodeKept e e')
    (hcc : e'.cc = e.cc.set ch c) (hit : ∃ t, e'.it = e.it.set ch t)
    (hiu : ∃ l, e'.iu.channels = e.iu.channels.set ch l) (hs : c.state = st)
    (hf : c.feedbackClosed = (e.cc.get ch).feedbackClosed)
    (ht : c.tripCount = (e.cc.get ch).tripCount) (hi : c.inrushTimer = (e.cc.get ch).inrushTimer)
    (hr : (e.cc.get ch).retryTimer = none → c.retryTimer = none)
    (ho : c.origins = (e.cc.get ch).origins) : Follows e e' := by
  obtain ⟨t, hit⟩ := hit
  obtain ⟨l, hiu⟩ := hiu
  refine Follows.of_channel ch hk ?_ ?_
  · intro k hne
    rw [hcc, hit, hiu]
    exact ⟨PerChannel.get_set_other _ hne _, PerChannel.get_set_other _ hne _,
      PerChannel.get_set_other _ hne _⟩
  · rw [hcc, hit, hiu]
    simp only [PerChannel.get_set_same]
    constructor
    · rw [hs, hw]; rcases hst with rfl | rfl <;> rfl
    · exact hf
    · exact ht
    · exact hi
    · exact hr
    · intro h; exact absurd hw h
    · intro o h; rw [ho]; exact h
    · intro h; rw [hw] at h; exact absurd h (by decide)
    · intro _ h; exact absurd hw h
    · intro h; exact absurd hw h
    · intro h; rw [hs, hw] at h; rcases hst with rfl | rfl <;> exact absurd h (by decide)

theorem PerChannel.set_set {α : Type} (p : PerChannel α) (ch : Ch) (a b : α) :
    (p.set ch a).set ch b = p.set ch b := by cases ch <;> rfl

theorem Event.modCc_kept (ch : Ch) (f : Controller → Controller) (e : Event) :
    NodeKept e (e.modCc ch f) := by constructor <;> first | rfl | exact ⟨_, rfl⟩

theorem Event.modIt_kept (ch : Ch) (f : Tracker → Tracker) (e : Event) :
    NodeKept e (e.modIt ch f) := by constructor <;> first | rfl | exact ⟨_, rfl⟩

theorem Event.setState_spec (ch : Ch) (st : ChState) (e : Event) (hne : (e.cc.get ch).state.code ≠ st.code) :
    (e.setState ch st).iu.channels = e.iu.channels.set ch .restarted := by
  rw [Event.setState_lamp, if_neg hne]

theorem Event.enterCoast_follows (ch : Ch) (e : Event) (hw : (e.cc.get ch).state = .waiting) :
    Follows e (e.enterCoast ch) := by
  have hr := Controller.enter_rest (e.record ch).feedbackWindow .coast (e.cc.get ch)
  have hs := Controller.enter_state (e.record ch).feedbackWindow .coast (e.cc.get ch)
  -- the channel in COAST, its run-down timer running
  generalize hd : (((e.setState ch .coast).modIt ch Tracker.stopClear)) = e1
  have hk1 : NodeKept e e1 := by
    rw [← hd]; exact (Event.setState_kept ch .coast e).trans (Event.modIt_kept _ _ _)
  have hcc1 : e1.cc = e.cc.set ch (Controller.enter (e.record ch).feedbackWindow .coast (e.cc.get ch)) := by
    rw [← hd, Event.modIt_cc, Event.setState_cc]
  have hit1 : ∃ t, e1.it = e.it.set ch t := by
    rw [← hd, Event.modIt_it, Event.setState_it]; exact ⟨_, rfl⟩
  have hiu1 : e1.iu.channels = e.iu.channels.set ch .restarted := by
    rw [← hd, Event.modIt_iu, Event.setState_spec]; rw [hw]; decide
  generalize hd2 : (e1.modCc ch fun c => { c with runDownTimer := some (e1.record ch).runDown }) = e2
  have hcc2 : e2.cc = e.cc.set ch
      { Controller.enter (e.record ch).feedbackWindow .coast (e.cc.get ch) with
        runDownTimer := some (e1.record ch).runDown } := by
    rw [← hd2, Event.modCc_cc, hcc1, PerChannel.get_set_same, PerChannel.set_set]
  have hit2 : ∃ t, e2.it = e.it.set ch t := by rw [← hd2]; exact hit1
  have hiu2 : e2.iu.channels = e.iu.channels.set ch .restarted := by rw [← hd2]; exact hiu1
  have hk2 : NodeKept e e2 := by rw [← hd2]; exact hk1.trans (Event.modCc_kept _ _ _)
  have hbase : ∀ e3 : Event, (∃ t, e3.cc = e.cc.set ch
      { Controller.enter (e.record ch).feedbackWindow .coast (e.cc.get ch) with runDownTimer := t }) →
      (∃ t, e3.it = e.it.set ch t) → e3.iu.channels = e.iu.channels.set ch .restarted →
      NodeKept e e3 → Follows e e3 := by
    intro e3 hc ht hl hk
    obtain ⟨t, hc⟩ := hc
    exact Event.leaveWaiting_follows ch .coast _ e e3 hw (Or.inl rfl) hk hc ht ⟨_, hl⟩ hs hr.1 hr.2.1
      hr.2.2.1 (fun h => hr.2.2.2.2.2.trans h) hr.2.2.2.1
  have hunf : e.enterCoast ch = if (e2.record ch).runDown = 0 then e2.runDownEnds ch else e2 := by
    rw [← hd2, ← hd]; rfl
  rw [hunf]
  split
  · unfold Event.runDownEnds
    generalize hd3 : (e2.modCc ch fun c => { c with runDownTimer := none }) = e3
    have hcc3 : e3.cc = e.cc.set ch
        { Controller.enter (e.record ch).feedbackWindow .coast (e.cc.get ch) with
          runDownTimer := none } := by
      rw [← hd3, Event.modCc_cc, hcc2, PerChannel.get_set_same, PerChannel.set_set]
    have hit3 : ∃ t, e3.it = e.it.set ch t := by rw [← hd3]; exact hit2
    have hiu3 : e3.iu.channels = e.iu.channels.set ch .restarted := by rw [← hd3]; exact hiu2
    have hk3 : NodeKept e e3 := by rw [← hd3]; exact hk2.trans (Event.modCc_kept _ _ _)
    have hst3 : (e3.cc.get ch).state = .coast := by
      rw [hcc3, PerChannel.get_set_same]; exact hs
    simp only
    split
    · have hr' := Controller.enter_rest (e3.record ch).feedbackWindow .rest (e3.cc.get ch)
      have hs' := Controller.enter_state (e3.record ch).feedbackWindow .rest (e3.cc.get ch)
      have hg : e3.cc.get ch = { Controller.enter (e.record ch).feedbackWindow .coast (e.cc.get ch) with
          runDownTimer := none } := by rw [hcc3, PerChannel.get_set_same]
      refine Event.leaveWaiting_follows ch .rest _ e _ hw (Or.inr rfl)
        (hk3.trans (Event.setState_kept _ _ _))
        (by rw [Event.setState_cc, hcc3, PerChannel.set_set]) ?_ ?_ hs' ?_ ?_ ?_ ?_ ?_
      · rw [Event.setState_it]; exact hit3
      · rw [Event.setState_spec _ _ _ (by rw [hst3]; decide), hiu3, PerChannel.set_set]; exact ⟨_, rfl⟩
      · rw [hr'.1, hg]; exact hr.1
      · rw [hr'.2.1, hg]; exact hr.2.1
      · rw [hr'.2.2.1, hg]; exact hr.2.2.1
      · intro h; rw [hr'.2.2.2.2.2, hg]; exact hr.2.2.2.2.2.trans h
      · rw [hr'.2.2.2.1, hg]; exact hr.2.2.2.1
    · exact (hbase e3 ⟨_, hcc3⟩ hit3 hiu3 hk3).trans (Event.enterPending_follows ch e3 (Or.inl hst3))
  · exact hbase e2 ⟨_, hcc2⟩ hit2 hiu2 hk2

theorem Event.reportVerdict_follows (due : PerChannel Bool) (ch : Ch) (e : Event) :
    Follows e (e.reportVerdict due ch) := by
  unfold Event.reportVerdict
  split
  · split <;> rename_i hst
    · refine Follows.trans (b := e.setState ch (.pending .budget)) ?_ ?_
      · have hr := Controller.enter_rest (e.record ch).feedbackWindow (.pending .budget) (e.cc.get ch)
        have hs := Controller.enter_state (e.record ch).feedbackWindow (.pending .budget) (e.cc.get ch)
        have hl : (e.setState ch (.pending .budget)).iu.channels = e.iu.channels := by
          rw [Event.setState_lamp, if_pos (by rw [hst]; rfl)]
        refine Follows.of_channel ch (Event.setState_kept _ _ _) ?_ ?_
        · intro k hne
          rw [Event.setState_cc, Event.setState_it, hl]
          exact ⟨PerChannel.get_set_other _ hne _, rfl, rfl⟩
        · rw [Event.setState_cc, Event.setState_it, hl, PerChannel.get_set_same]
          constructor
          · rw [hs, hst]; rfl
          · exact hr.1
          · exact hr.2.1
          · exact hr.2.2.1
          · exact fun h => hr.2.2.2.2.2.trans h
          · exact fun _ h => hr.2.2.2.2.1.trans h
          · intro o ho; rw [hr.2.2.2.1]; exact ho
          · intro h; rw [hst] at h; exact absurd h (by decide)
          · intro h; rw [hst] at h; exact absurd h (by decide)
          · intro _; rfl
          · intro _; rfl
      · exact Follows.of_kept (by constructor <;> first | rfl | exact ⟨_, rfl⟩) rfl rfl rfl
    · exact Event.enterCoast_follows ch e hst
    · exact Follows.refl e
  · exact Follows.refl e

theorem Event.takeReports_follows (e : Event) : Follows e e.takeReports :=
  Event.forChannels_follows (Event.reportVerdict_follows _) e

theorem Event.settle_follows (n : Nat) (e : Event) : Follows e (e.settle n) := by
  induction n generalizing e with
  | zero => exact Follows.refl e
  | succ n ih =>
    unfold Event.settle
    split
    · exact ((Event.takeReports_follows e).trans
        (Event.forChannels_follows Event.watch_follows _)).trans (ih _)
    · split
      · exact (Event.forChannels_follows Event.payCalls_follows e).trans (ih _)
      · exact Follows.refl e

/-- Everything that can follow from an event inside it. -/
theorem Event.settled_follows (e : Event) : Follows e e.settled := Event.settle_follows _ e

end Sys2Proof.Machine
end

