-- ==== Sys2Proof/Laws/Flush.lean ====
section
/-! SUPPORT. What the joining of an event's frames (`flush`), with the budget evaluation in it, can
change, and what it leaves, said once. -/

namespace Sys2Proof.Machine

/-- Where the budget evaluation can take a channel: between BUDGET and CLAIMING. -/
def ChState.flushes : ChState → ChState → Bool
  | .pending .budget, b => b == .pending .budget || b == .pending .claiming
  | .pending .claiming, b => b == .pending .budget || b == .pending .claiming
  | a, b => a == b

theorem ChState.flushes_refl (a : ChState) : a.flushes a = true := by
  cases a with
  | pending s => cases s <;> rfl
  | starting k => cases k <;> rfl
  | tripped c => cases c <;> rfl
  | locked c => cases c <;> rfl
  | _ => rfl

theorem ChState.flushes_of_ne {a b : ChState} (h : a ≠ .pending .budget) (k : a ≠ .pending .claiming)
    (f : a.flushes b = true) : b = a := by
  cases a with
  | pending s => cases s <;> simp_all [ChState.flushes]
  | _ => simp_all [ChState.flushes]

theorem ChState.flushes_trans {a b c : ChState} (h : a.flushes b = true) (k : b.flushes c = true) :
    a.flushes c = true := by
  by_cases h1 : a = .pending .budget
  · subst h1
    simp only [ChState.flushes, Bool.or_eq_true, beq_iff_eq] at h
    rcases h with rfl | rfl <;> exact k
  · by_cases h2 : a = .pending .claiming
    · subst h2
      simp only [ChState.flushes, Bool.or_eq_true, beq_iff_eq] at h
      rcases h with rfl | rfl <;> exact k
    · have := ChState.flushes_of_ne h1 h2 h
      subst this; exact k

theorem ChState.flushes_code {a b : ChState} (h : a.flushes b = true) : b.code = a.code := by
  by_cases h1 : a = .pending .budget
  · subst h1
    simp only [ChState.flushes, Bool.or_eq_true, beq_iff_eq] at h
    rcases h with rfl | rfl <;> rfl
  · by_cases h2 : a = .pending .claiming
    · subst h2
      simp only [ChState.flushes, Bool.or_eq_true, beq_iff_eq] at h
      rcases h with rfl | rfl <;> rfl
    · rw [ChState.flushes_of_ne h1 h2 h]

/-- What the joining of frames changes: the queue, the Claim Table and its counter, the retry gaps, and
channels between BUDGET and CLAIMING. -/
structure Flushes (e e' : Event) : Prop where
  it : e'.it = e.it
  du : e'.du = e.du
  cu : e'.cu = e.cu
  pu : e'.pu = e.pu
  mc : e'.mc = e.mc
  iu : e'.iu = e.iu
  pins : e'.pins = e.pins
  now : e'.now = e.now
  pending : e'.pending = e.pending
  li : ∃ q, e'.li = { e.li with queue := q }
  overflow : e'.bu.overflow = e.bu.overflow
  overflowTimer : e'.bu.overflowTimer = e.bu.overflowTimer
  state : ∀ ch, (e.cc.get ch).state.flushes (e'.cc.get ch).state = true
  rest : ∀ ch, { e'.cc.get ch with state := (e.cc.get ch).state } = e.cc.get ch

theorem Flushes.refl (e : Event) : Flushes e e := by
  constructor <;> first | rfl | exact ⟨_, rfl⟩ | (intro ch; exact ChState.flushes_refl _) | (intro ch; rfl)

theorem Flushes.trans {a b c : Event} (h : Flushes a b) (k : Flushes b c) : Flushes a c where
  it := k.it.trans h.it
  du := k.du.trans h.du
  cu := k.cu.trans h.cu
  pu := k.pu.trans h.pu
  mc := k.mc.trans h.mc
  iu := k.iu.trans h.iu
  pins := k.pins.trans h.pins
  now := k.now.trans h.now
  pending := k.pending.trans h.pending
  li := by
    obtain ⟨q, hq⟩ := h.li
    obtain ⟨r, hr⟩ := k.li
    exact ⟨r, by rw [hr, hq]⟩
  overflow := k.overflow.trans h.overflow
  overflowTimer := k.overflowTimer.trans h.overflowTimer
  state := fun ch => ChState.flushes_trans (h.state ch) (k.state ch)
  rest := fun ch => by
    have h1 := h.rest ch
    have k1 := k.rest ch
    rw [← h1, ← k1]

/-- An operation on the queue, the Claim Table and what the event owes. -/
theorem Flushes.of_queue {e e' : Event} (q : List Frame) (bu : BudgetUnit) (out : Outbox)
    (h : e' = { e with li.queue := q, bu := bu, out := out }) (ho : bu.overflow = e.bu.overflow)
    (ht : bu.overflowTimer = e.bu.overflowTimer) : Flushes e e' := by
  subst h
  constructor <;> first
    | rfl | exact ⟨_, rfl⟩ | exact ho | exact ht | (intro ch; exact ChState.flushes_refl _) | (intro ch; rfl)

theorem Event.foldl_flushes {α : Type} {f : Event → α → Event} (h : ∀ e a, Flushes e (f e a))
    (l : List α) (e : Event) : Flushes e (l.foldl f e) := by
  induction l generalizing e with
  | nil => exact Flushes.refl e
  | cons a rest ih => exact (h e a).trans (ih _)

theorem Event.enqueue_flushes (f : Frame) (e : Event) : Flushes e (e.enqueue f) := by
  unfold Event.enqueue
  split
  · exact Flushes.of_queue _ e.bu e.out rfl rfl rfl
  · exact Flushes.refl e

theorem Event.enqueueAll_flushes (fs : List Frame) (e : Event) : Flushes e (e.enqueueAll fs) :=
  Event.foldl_flushes (fun e f => Event.enqueue_flushes f e) fs e

theorem Controller.enter_pending (w : Micros) (s t : SubPhase) (c : Controller)
    (h : c.state = .pending s) : c.enter w (.pending t) = { c with state := .pending t } := by
  unfold Controller.enter
  rw [h]; rfl

/-- A change between BUDGET and CLAIMING. -/
theorem Event.setState_flushes (ch : Ch) (s t : SubPhase) (e : Event)
    (h : (e.cc.get ch).state = .pending s) (hs : s = .budget ∨ s = .claiming)
    (ht : t = .budget ∨ t = .claiming) : Flushes e (e.setState ch (.pending t)) := by
  have hd : e.setState ch (.pending t) =
      { e with cc := e.cc.set ch { e.cc.get ch with state := .pending t } } := by
    unfold Event.setState
    simp only
    rw [if_pos (by rw [h]; rfl)]
    unfold Event.modCc
    rw [Controller.enter_pending _ s t _ h]
  rw [hd]
  constructor <;> first | rfl | exact ⟨_, rfl⟩ | skip
  · intro k
    simp only [PerChannel.get_set]
    split
    · rename_i hk; subst hk
      rw [h]
      rcases hs with rfl | rfl <;> rcases ht with rfl | rfl <;> rfl
    · exact ChState.flushes_refl _
  · intro k
    simp only [PerChannel.get_set]
    split
    · rename_i hk; subst hk; rfl
    · rfl

theorem Event.removeProvisional_flushes (x : Claim) (e : Event) : Flushes e (e.removeProvisional x) :=
  Flushes.of_queue e.li.queue _ _ rfl rfl rfl

theorem Event.withdraw_flushes (x : Claim) (e : Event) : Flushes e (e.withdraw x) := by
  have h : Flushes e ((e.removeProvisional x).setRetryGap x.ch (some e.retryGapTime)) :=
    Flushes.of_queue e.li.queue _ _ rfl rfl rfl
  unfold Event.withdraw
  simp only
  split
  · rename_i hst
    exact h.trans (Event.setState_flushes _ _ _ _ hst (Or.inr rfl) (Or.inl rfl))
  · exact h

theorem Event.forProvisional_flushes {f : Claim → Event → Event} (h : ∀ x e, Flushes e (f x e))
    (e : Event) : Flushes e (e.forProvisional f) := by
  refine Event.foldl_flushes (fun e p => ?_) _ e
  split
  · split
    · exact h _ e
    · exact Flushes.refl e
  · exact Flushes.refl e

theorem Event.withdrawAll_flushes (e : Event) : Flushes e e.withdrawAll :=
  Event.forProvisional_flushes Event.withdraw_flushes e

theorem Event.conflictCheck_flushes (e : Event) : Flushes e e.conflictCheck :=
  Event.forProvisional_flushes
    (fun x e => by
      split
      · exact Event.withdraw_flushes x e
      · exact Flushes.refl e) e

theorem Event.createClaim_flushes (ch : Ch) (e : Event) (h : (e.cc.get ch).state = .pending .budget) :
    Flushes e (e.createClaim ch) := by
  unfold Event.createClaim
  simp only
  generalize hd : ({ e with
    bu.counter := nextNumber (e.newClaim ch).number
    bu.claims := e.bu.claims.map (Claim.addMark (e.newClaim ch).number .before) ++
      [e.newClaim ch] } : Event) = e1
  have h1 : Flushes e e1 := by rw [← hd]; exact Flushes.of_queue e.li.queue _ e.out rfl rfl rfl
  have h2 := Event.enqueue_flushes
    ⟨0, .claim (e.newClaim ch).number ch (e.newClaim ch).weight (e.newClaim ch).rank⟩ e1
  have hcc : e1.cc = e.cc := by rw [← hd]
  refine ((h1.trans h2).trans (Event.setState_flushes ch .budget .claiming _ ?_ (Or.inl rfl)
    (Or.inr rfl))).trans (Event.conflictCheck_flushes _)
  have : ∀ f : Frame, (e1.enqueue f).cc = e1.cc := by
    intro f; unfold Event.enqueue; split <;> rfl
  rw [this, hcc]; exact h

theorem Event.evaluateBudget_flushes (e : Event) : Flushes e e.evaluateBudget := by
  have hloop : ∀ (l : List (Nat × Ch)) (e : Event), Flushes e (l.foldl
      (fun e p => if (e.record p.2).rank = p.1 ∧ e.claimable p.2 then e.createClaim p.2 else e) e) := by
    intro l e
    refine Event.foldl_flushes (fun e p => ?_) l e
    split
    · rename_i h
      refine Event.createClaim_flushes _ e ?_
      have hc := h.2
      unfold State.claimable at hc
      simp only [Bool.and_eq_true, decide_eq_true_eq] at hc
      exact hc.1.1.1.1.1.1.1
    · exact Flushes.refl e
  have h1 : Flushes e { e with out.evalDue := false } := Flushes.of_queue e.li.queue e.bu _ rfl rfl rfl
  have h2 := h1.trans (hloop byPrecedence _)
  unfold Event.evaluateBudget
  simp only
  generalize byPrecedence.foldl _ _ = e1 at h2 ⊢
  exact h2.trans (Flushes.of_queue e1.li.queue _ e1.out rfl rfl rfl)

theorem Event.payBudget_flushes (e : Event) : Flushes e e.payBudget := by
  unfold Event.payBudget
  split
  · refine Flushes.trans ?_ (Event.enqueue_flushes _ _)
    exact Flushes.of_queue e.li.queue e.bu _ rfl rfl rfl
  · split
    · exact Event.evaluateBudget_flushes e
    · exact Flushes.refl e

theorem Event.payState_flushes (e : Event) : Flushes e e.payState := by
  unfold Event.payState
  split
  · refine Flushes.trans ?_ (Event.enqueue_flushes _ _)
    exact Flushes.of_queue e.li.queue e.bu _ rfl rfl rfl
  · exact Flushes.refl e

theorem Event.drainBudget_flushes (n : Nat) (e : Event) : Flushes e (e.drainBudget n) := by
  induction n generalizing e with
  | zero => exact Flushes.refl e
  | succ n ih =>
    unfold Event.drainBudget
    split
    · exact Flushes.refl e
    · have h : Flushes e (Event.enqueueAll e.out.budget { e with out.budget := [] }) :=
        Flushes.trans (Flushes.of_queue e.li.queue e.bu _ rfl rfl rfl) (Event.enqueueAll_flushes _ _)
      simp only
      refine Flushes.trans ?_ (ih _)
      split
      · exact h.trans (Event.evaluateBudget_flushes _)
      · exact h

theorem Ending.next_flushes (d : Ending) (b : Block) : Flushes d.ev (d.next b).ev := by
  cases b <;> unfold Ending.next <;> simp only
  · split <;> first | exact Event.enqueue_flushes _ _ | exact Flushes.refl _
  · split <;> first | exact Event.enqueue_flushes _ _ | exact Flushes.refl _
  · exact Event.payBudget_flushes _
  · split <;> first | exact Event.enqueue_flushes _ _ | exact Flushes.refl _
  · exact Event.payState_flushes _

theorem Ending.fold_flushes (order : List Block) (d : Ending) :
    Flushes d.ev (order.foldl Ending.next d).ev := by
  induction order generalizing d with
  | nil => exact Flushes.refl _
  | cons b rest ih => exact (Ending.next_flushes d b).trans (ih _)

/-- Everything that the joining of an event's frames can do. -/
theorem Event.flush_flushes (order : List Block) (e : Event) : Flushes e (e.flush order) :=
  ((((Ending.fold_flushes order ⟨e, e.out.allNotices, e.out.allCalls, e.out.replies⟩).trans
    (Event.enqueueAll_flushes _ _)).trans (Event.enqueueAll_flushes _ _)).trans
    ((Event.drainBudget_flushes _ _).trans (Event.enqueueAll_flushes _ _))).trans
    (Event.payState_flushes _)

end Sys2Proof.Machine
end

