-- ==== Sys2Proof/Laws/Queue.lean ====
section
/-! SUPPORT. What a frame's joining does to the transmit queue. -/

namespace Sys2Proof.Machine

theorem dropOldestReport_length (q : List Frame) :
    ∀ r, dropOldestReport q = some r → r.length + 1 = q.length := by
  induction q with
  | nil => intro r h; exact absurd h (by simp [dropOldestReport])
  | cons f rest ih =>
    intro r h
    unfold dropOldestReport at h
    split at h
    · injection h with h; subst h; rfl
    · cases hd : dropOldestReport rest with
      | none => rw [hd] at h; exact absurd h (by simp)
      | some r' =>
        rw [hd] at h
        simp only [Option.map_some, Option.some.injEq] at h
        subst h
        simp only [List.length_cons, ih r' hd]

theorem dropOldestReport_states (q : List Frame) :
    ∀ r, dropOldestReport q = some r → r.filter Frame.isState = q.filter Frame.isState := by
  induction q with
  | nil => intro r h; exact absurd h (by simp [dropOldestReport])
  | cons f rest ih =>
    intro r h
    unfold dropOldestReport at h
    split at h
    · rename_i hf
      injection h with h; subst h
      have : f.isState = false := by
        unfold Frame.isReport at hf
        unfold Frame.isState
        cases hb : f.body <;> rw [hb] at hf <;> first | rfl | exact absurd hf (by simp)
      simp [this]
    · cases hd : dropOldestReport rest with
      | none => rw [hd] at h; exact absurd h (by simp)
      | some r' =>
        rw [hd] at h
        simp only [Option.map_some, Option.some.injEq] at h
        subst h
        simp only [List.filter_cons, ih r' hd]

/-- A full queue stays within its capacity (R156, R157). -/
theorem joinQueue_length (f : Frame) (q : List Frame) (h : q.length ≤ Config.queueCapacity) :
    (joinQueue f q).length ≤ Config.queueCapacity := by
  unfold joinQueue
  split
  · simpa [replaceState] using h
  · split
    · simp only [List.length_append, List.length_singleton]; omega
    · split
      · split
        · rename_i hd
          have := dropOldestReport_length q _ hd
          simp only [List.length_append, List.length_singleton]; omega
        · exact h
      · exact h

theorem replaceState_states (f : Frame) (hf : f.isState = true) (q : List Frame) :
    ((replaceState f q).filter Frame.isState).length = (q.filter Frame.isState).length := by
  induction q with
  | nil => rfl
  | cons g rest ih =>
    unfold replaceState at ih ⊢
    cases hg : g.isState <;> simp_all

/-- The queue keeps at most one STATE frame (R156). -/
theorem joinQueue_states (f : Frame) (q : List Frame) (h : (q.filter Frame.isState).length ≤ 1) :
    ((joinQueue f q).filter Frame.isState).length ≤ 1 := by
  have happ : ∀ r : List Frame, r.filter Frame.isState = q.filter Frame.isState →
      ¬(f.isState && q.any Frame.isState) = true → ((r ++ [f]).filter Frame.isState).length ≤ 1 := by
    intro r hr hn
    rw [List.filter_append, List.length_append, hr]
    cases hf : f.isState
    · simp [hf, h]
    · have : q.filter Frame.isState = [] := by
        rw [List.filter_eq_nil_iff]
        intro g hg hs
        exact hn (by rw [hf, Bool.true_and, List.any_eq_true]; exact ⟨g, hg, hs⟩)
      simp [this, hf]
  unfold joinQueue
  split
  · rename_i hf
    rw [Bool.and_eq_true] at hf
    rw [replaceState_states f hf.1]; exact h
  · rename_i hn
    split
    · exact happ q rfl hn
    · split
      · split
        · rename_i hd
          exact happ _ (dropOldestReport_states q _ hd) hn
        · exact h
      · exact h

end Sys2Proof.Machine
end

