-- ==== Sys2Proof/Laws/Take.lean ====
section
/-! SUPPORT. What a command leaves of its own effect: what follows from the effect and the joining of its
frames, put together. Every meaning is a `take`, so a fact about a command is a fact about its effect
carried over by `Took`. -/

namespace Sys2Proof.Machine

/-- How the state `t` in which a command ends relates to the event `e` in which its own effect left the
node. -/
structure Took (e : Event) (t : State) : Prop where
  cu : t.cu = e.cu
  pu : t.pu = e.pu
  pins : t.pins = e.pins
  now : t.now = e.now
  pending : t.pending = e.pending
  node : t.iu.node = e.iu.node
  peers : t.du.peers = e.du.peers
  li : ∃ q, t.li = { e.li with queue := q }
  mc : ∃ u, t.mc = { e.mc with staggerTimer := u }
  overflow : t.bu.overflow = e.bu.overflow
  overflowTimer : t.bu.overflowTimer = e.bu.overflowTimer
  state : ∀ ch, ∃ st, (e.cc.get ch).state.follows st = true ∧ st.flushes (t.cc.get ch).state = true
  closed : ∀ ch, (t.cc.get ch).feedbackClosed = (e.cc.get ch).feedbackClosed
  trips : ∀ ch, (t.cc.get ch).tripCount = (e.cc.get ch).tripCount
  inrush : ∀ ch, (t.cc.get ch).inrushTimer = (e.cc.get ch).inrushTimer
  retry : ∀ ch, (e.cc.get ch).retryTimer = none → (t.cc.get ch).retryTimer = none
  runDown : ∀ ch, (e.cc.get ch).state ≠ .waiting → (e.cc.get ch).runDownTimer = none →
    (t.cc.get ch).runDownTimer = none
  origins : ∀ ch o, (e.cc.get ch).origins.has o = true → (t.cc.get ch).origins.has o = true
  stays : ∀ ch, (e.cc.get ch).state.stays = true →
    { t.cc.get ch with origins := (e.cc.get ch).origins } = e.cc.get ch
  ignores : ∀ ch, (e.cc.get ch).state.records = false → (e.cc.get ch).state ≠ .waiting →
    t.cc.get ch = e.cc.get ch
  tracker : ∀ ch, (e.cc.get ch).state ≠ .waiting → t.it.get ch = e.it.get ch
  lamp : ∀ ch, (t.cc.get ch).state.code = (e.cc.get ch).state.code →
    t.iu.channels.get ch = e.iu.channels.get ch

theorem Controller.withState (c d : Controller) (h : { c with state := d.state } = d) :
    c.feedbackClosed = d.feedbackClosed ∧ c.tripCount = d.tripCount ∧
      c.inrushTimer = d.inrushTimer ∧ c.origins = d.origins ∧ c.retryTimer = d.retryTimer ∧
      c.runDownTimer = d.runDownTimer ∧ (c.state = d.state → c = d) := by
  rw [← h]
  refine ⟨rfl, rfl, rfl, rfl, rfl, rfl, fun hs => ?_⟩
  cases c; simp only at hs ⊢; rw [hs]

theorem ChState.stays_flushes {a b : ChState} (h : a.stays = true) (f : a.flushes b = true) : b = a :=
  ChState.flushes_of_ne (by intro e; subst e; exact absurd h (by decide))
    (by intro e; subst e; exact absurd h (by decide)) f

theorem Event.took (order : List Block) (e : Event) : Took e (e.settled.flush order).toState := by
  have h := Event.settled_follows e
  have k := Event.flush_flushes order e.settled
  generalize e.settled = e1 at h k
  generalize e1.flush order = e2 at k
  have hrest := fun ch => Controller.withState _ _ (k.rest ch)
  constructor
  · exact k.cu.trans h.kept.cu
  · exact k.pu.trans h.kept.pu
  · exact k.pins.trans h.kept.pins
  · exact k.now.trans h.kept.now
  · exact k.pending.trans h.kept.pending
  · rw [k.iu]; exact h.kept.node
  · rw [k.du]; exact h.kept.peers
  · rw [← h.kept.li]; exact k.li
  · rw [k.mc]; exact h.kept.mc
  · rw [k.overflow, h.kept.bu]
  · rw [k.overflowTimer, h.kept.bu]
  · exact fun ch => ⟨_, (h.channels ch).state, k.state ch⟩
  · exact fun ch => (hrest ch).1.trans (h.channels ch).closed
  · exact fun ch => (hrest ch).2.1.trans (h.channels ch).trips
  · exact fun ch => (hrest ch).2.2.1.trans (h.channels ch).inrush
  · intro ch p; rw [(hrest ch).2.2.2.2.1]; exact (h.channels ch).retry p
  · intro ch n p; rw [(hrest ch).2.2.2.2.2.1]; exact (h.channels ch).runDown n p
  · intro ch o ho; rw [(hrest ch).2.2.2.1]; exact (h.channels ch).origins o ho
  · intro ch hs
    have h1 := (h.channels ch).stays hs
    have hst : (e1.cc.get ch).state = (e.cc.get ch).state := by
      have := congrArg Controller.state h1; exact this
    rw [(hrest ch).2.2.2.2.2.2 (ChState.stays_flushes (by rw [hst]; exact hs) (k.state ch))]
    exact h1
  · intro ch hr hw
    have h1 := (h.channels ch).ignores hr hw
    have hf := k.state ch
    rw [h1] at hf
    rw [(hrest ch).2.2.2.2.2.2 (by
      rw [h1]
      refine ChState.flushes_of_ne ?_ ?_ hf <;> intro hst <;> rw [hst] at hr <;> exact absurd hr (by decide)), h1]
  · intro ch hw; rw [k.it]; exact (h.channels ch).tracker hw
  · intro ch hc
    rw [k.iu]
    refine (h.channels ch).lamp ?_
    rw [← hc]; exact (ChState.flushes_code (k.state ch)).symm

/-- Everything a command can do beyond its own effect. -/
theorem take_took (m : Moment) (effect : Event → Event) (s : State) :
    ∃ t, take m effect s = .next t ∧ Took (effect (s.begin m)) t :=
  ⟨_, rfl, Event.took _ _⟩

theorem Took.code_kept {e : Event} {t : State} (h : Took e t) (ch : Ch)
    (hs : (e.cc.get ch).state.stays = true) : (t.cc.get ch).state = (e.cc.get ch).state := by
  have := congrArg Controller.state (h.stays ch hs); exact this

/-- A step takes the command in front of the queue. -/
theorem step_cons (s : State) (c : Instr) (rest : List Instr) (h : s.pending = c :: rest) :
    step s = exec c { s with pending := rest } := by
  unfold step; rw [h]

/-- A valid frame of another station, in a mode that takes frames and at a line seen quiet, is heard. -/
theorem Event.hear_of_hears (order : RejoinOrder) (env : Envelope) (kind : Byte)
    (payload : List Byte) (dispatch : Event → Event) (e : Event)
    (h : e.toState.hears env kind payload) :
    e.hear order env kind payload dispatch =
      Event.heard order dispatch { e with li.inProgress := none } := by
  obtain ⟨hm, hg, hs, hn, hq⟩ := h
  simp [Event.hear, hm, hg, hs, hn, hq]

/-- A valid frame with the node's own number that it is not sending makes it SILENT. -/
theorem Event.hear_of_own (order : RejoinOrder) (env : Envelope) (kind : Byte)
    (payload : List Byte) (dispatch : Event → Event) (e : Event) (hm : e.mc.mode ≠ .loading)
    (hg : e.li.awaitingGap = false) (hs : isStation env.sender = true)
    (ho : env.sender.toNat = e.mc.station)
    (hq : e.toState.isSending (lineBytes env.sender kind env.target payload) = false) :
    e.hear order env kind payload dispatch =
      Event.enterSilent { e with li.inProgress := none } := by
  simp [Event.hear, hm, hg, hs, ho, hq]

/-- Before the first access gap after a reset a frame has no effect. -/
theorem Event.hear_of_awaiting (order : RejoinOrder) (env : Envelope) (kind : Byte)
    (payload : List Byte) (dispatch : Event → Event) (e : Event) (h : e.li.awaitingGap = true) :
    e.hear order env kind payload dispatch = e := by
  simp [Event.hear, h]

/-- A frame that brings an adoption is taken as one with the return (R111). -/
@[simp] theorem rejoinOrderOf_some (u : PhaseUnit) (arrival : ArrivalOrder) :
    rejoinOrderOf (some u) arrival = .asOne := rfl

/-- Any other frame is taken in the order of its moment. -/
@[simp] theorem rejoinOrderOf_none (arrival : ArrivalOrder) :
    rejoinOrderOf none arrival = .inTurn arrival := rfl

/-- A frame heard in LISTENING or OPERATING restarts the isolation timer and is dispatched. -/
theorem Event.heard_onLine (order : RejoinOrder) (dispatch : Event → Event) (e : Event)
    (h : e.toState.onLine) :
    e.heard order dispatch =
      dispatch { e with mc.isolationTimer := some (e.plantTime Image.isolationLimit) } := by
  rcases h with h | h <;> simp [Event.heard, h]

/-- The removal of an older entry, with the evaluation at it, changes what the joining of frames can. -/
theorem Event.dropOlder_flushes (c : Claim) (e : Event) : Flushes e (e.dropOlder c) := by
  have h : Flushes e ({ e with
      bu.claims := e.bu.claims.filter fun x => !x.isRemoteFor c.station c.ch } : Event).oweEval :=
    Flushes.of_queue e.li.queue _ _ rfl rfl rfl
  unfold Event.dropOlder
  simp only
  split
  · split
    · exact h.trans (Event.drainBudget_flushes _ _)
    · exact h
  · exact Flushes.refl e

/-- An older entry leaves room for the claim that replaces it (R95). -/
theorem Event.dropOlder_room (c : Claim) (e : Event)
    (h : e.bu.claims.any (Claim.isRemoteFor c.station c.ch) = true)
    (hl : e.bu.claims.length ≤ Config.claimCapacity) :
    (e.dropOlder c).bu.claims.length < Config.claimCapacity := by
  unfold Event.dropOlder
  rw [if_pos h]
  simp only
  split
  · assumption
  · obtain ⟨x, hx, hr⟩ := List.any_eq_true.1 h
    refine lt_of_lt_of_le ?_ hl
    refine List.length_filter_lt_length_iff_exists.2 ⟨x, hx, ?_⟩
    simp [hr]

/-- Without expired holds the notices of channels stand in channel order. -/
theorem mergeNotices_nil (notices : PerChannel (List Frame)) (chs : List Ch) :
    mergeNotices notices chs [] = (chs.map notices.get).flatten := by
  induction chs with
  | nil => rfl
  | cons ch rest ih => simp [mergeNotices, ih]

end Sys2Proof.Machine
end

