-- ==== Sys2Proof/Laws/Queued.lean ====
section
/-! SUPPORT. Where the frames of an event stand when it has ended: a frame that is no STATE frame, once
queued, stands in the queue, unless the queue is full at the end (`State.queued`). What the statements say
of NOTICE and REPLY frames goes through `Event.flush_queued`. -/

namespace Sys2Proof.Machine

/-! ## One frame joins -/

/-- A queue never becomes shorter by a frame that joins. -/
theorem joinQueue_grows (g : Frame) (q : List Frame) : q.length ≤ (joinQueue g q).length := by
  unfold joinQueue
  split
  · simp [replaceState]
  · split
    · simp
    · split
      · split
        · rename_i hd
          have := dropOldestReport_length q _ hd
          simp only [List.length_append, List.length_singleton]; omega
        · exact le_refl _
      · exact le_refl _

/-- A frame that is no STATE frame stands in the queue after another has joined, unless the queue is full. -/
theorem joinQueue_keeps {f : Frame} (hf : f.isState = false) (g : Frame) (q : List Frame)
    (h : f ∈ q ∨ 16 ≤ q.length) : f ∈ joinQueue g q ∨ 16 ≤ (joinQueue g q).length := by
  by_cases hl : 16 ≤ q.length
  · exact Or.inr (hl.trans (joinQueue_grows g q))
  · have hm : f ∈ q := h.resolve_right hl
    left
    unfold joinQueue
    split
    · exact List.mem_map.2 ⟨f, hm, by simp [hf]⟩
    · split
      · exact List.mem_append_left _ hm
      · rename_i hn
        exact absurd (show q.length < Config.queueCapacity from Nat.lt_of_not_le hl) hn

/-- A frame that is no STATE frame and joins stands in the queue, unless the queue is full. -/
theorem joinQueue_joins {f : Frame} (hf : f.isState = false) (q : List Frame) :
    f ∈ joinQueue f q ∨ 16 ≤ (joinQueue f q).length := by
  by_cases hl : 16 ≤ q.length
  · exact Or.inr (hl.trans (joinQueue_grows f q))
  · left
    have hn : ¬((f.isState && q.any Frame.isState) = true) := by rw [hf]; exact Bool.noConfusion
    unfold joinQueue
    rw [if_neg hn, if_pos (show q.length < Config.queueCapacity from Nat.lt_of_not_le hl)]
    exact List.mem_append_right _ (List.mem_singleton.2 rfl)

/-! ## The frames of an event join -/

/-- Frames that are no STATE frames stay queued, and the mode and the station are kept. -/
structure Keeps (e e' : Event) : Prop where
  mc : e'.mc = e.mc
  queued : ∀ f : Frame, f.isState = false → e.toState.queued f → e'.toState.queued f

theorem Keeps.refl (e : Event) : Keeps e e := ⟨rfl, fun _ _ h => h⟩

theorem Keeps.trans {a b c : Event} (h : Keeps a b) (k : Keeps b c) : Keeps a c :=
  ⟨k.mc.trans h.mc, fun f hf q => k.queued f hf (h.queued f hf q)⟩

theorem Keeps.of_li {e e' : Event} (hm : e'.mc = e.mc) (hl : e'.li = e.li) : Keeps e e' :=
  ⟨hm, fun f _ h => by unfold State.queued at h ⊢; rw [hl]; exact h⟩

theorem Event.foldl_keeps {α : Type} {f : Event → α → Event} (h : ∀ e a, Keeps e (f e a)) (l : List α)
    (e : Event) : Keeps e (l.foldl f e) := by
  induction l generalizing e with
  | nil => exact Keeps.refl e
  | cons a rest ih => exact (h e a).trans (ih _)

theorem Event.enqueue_keeps (g : Frame) (e : Event) : Keeps e (e.enqueue g) := by
  unfold Event.enqueue
  split
  · exact ⟨rfl, fun f hf h => joinQueue_keeps hf g _ h⟩
  · exact Keeps.refl e

/-- A frame that the mode takes is queued. -/
theorem Event.enqueue_queued {f : Frame} (hf : f.isState = false) (e : Event)
    (ht : e.queueTakes f.body = true) : (e.enqueue f).toState.queued f := by
  unfold Event.enqueue
  rw [if_pos ht]
  exact joinQueue_joins hf _

theorem State.queueTakes_of_mc {a b : State} (h : b.mc = a.mc) (x : Body) :
    b.queueTakes x = a.queueTakes x := by
  unfold State.queueTakes; rw [h]

theorem Event.enqueueAll_keeps (fs : List Frame) (e : Event) : Keeps e (e.enqueueAll fs) :=
  Event.foldl_keeps (fun e f => Event.enqueue_keeps f e) fs e

theorem Event.enqueueAll_queued {f : Frame} (hf : f.isState = false) (fs : List Frame) (e : Event)
    (ht : e.queueTakes f.body = true) (hm : f ∈ fs) : (e.enqueueAll fs).toState.queued f := by
  induction fs generalizing e with
  | nil => exact absurd hm (by simp)
  | cons g rest ih =>
    have hk := Event.enqueue_keeps g e
    rcases List.mem_cons.1 hm with rfl | hm
    · exact (Event.enqueueAll_keeps rest _).queued f hf (Event.enqueue_queued hf e ht)
    · exact ih (e.enqueue g) ((State.queueTakes_of_mc hk.mc _).trans ht) hm

theorem Event.withdraw_li (x : Claim) (e : Event) : (e.withdraw x).li = e.li := by
  unfold Event.withdraw
  simp only
  split
  · exact (Event.setState_kept _ _ _).li
  · rfl

theorem Event.conflictCheck_li (e : Event) : e.conflictCheck.li = e.li := by
  have h : ∀ (l : List (Nat × Ch)) (e : Event), (l.foldl
      (fun e p =>
        match e.provisionalOf p.2 with
        | some x =>
          if x.rank = p.1 then (if e.plantBudget < e.conflictWeight x then e.withdraw x else e) else e
        | none => e) e).li = e.li := by
    intro l
    induction l with
    | nil => exact fun _ => rfl
    | cons p rest ih =>
      intro e
      rw [List.foldl_cons, ih]
      split
      · split
        · split
          · exact Event.withdraw_li _ _
          · rfl
        · rfl
      · rfl
  unfold Event.conflictCheck Event.forProvisional
  generalize byPrecedence = l
  exact h l e

theorem Event.createClaim_keeps (ch : Ch) (e : Event) (h : (e.cc.get ch).state = .pending .budget) :
    Keeps e (e.createClaim ch) := by
  have hmc := (Event.createClaim_flushes ch e h).mc
  refine ⟨hmc, fun f hf hq => ?_⟩
  unfold Event.createClaim State.queued
  simp only
  rw [Event.conflictCheck_li, (Event.setState_kept _ _ _).li]
  exact (Event.enqueue_keeps _ _).queued f hf hq

theorem Event.evaluateBudget_keeps (e : Event) : Keeps e e.evaluateBudget := by
  have hloop : ∀ (l : List (Nat × Ch)) (e : Event), Keeps e (l.foldl
      (fun e p => if (e.record p.2).rank = p.1 ∧ e.claimable p.2 then e.createClaim p.2 else e) e) := by
    intro l e
    refine Event.foldl_keeps (fun e p => ?_) l e
    split
    · rename_i h
      refine Event.createClaim_keeps _ e ?_
      have hc := h.2
      unfold State.claimable at hc
      simp only [Bool.and_eq_true, decide_eq_true_eq] at hc
      exact hc.1.1.1.1.1.1.1
    · exact Keeps.refl e
  have h1 : Keeps e { e with out.evalDue := false } := Keeps.of_li rfl rfl
  have h2 := h1.trans (hloop byPrecedence _)
  unfold Event.evaluateBudget
  simp only
  generalize byPrecedence.foldl _ _ = e1 at h2 ⊢
  exact h2.trans (Keeps.of_li rfl rfl)

theorem Event.payBudget_keeps (e : Event) : Keeps e e.payBudget := by
  unfold Event.payBudget
  split
  · refine Keeps.trans ?_ (Event.enqueue_keeps _ _)
    exact Keeps.of_li rfl rfl
  · split
    · exact Event.evaluateBudget_keeps e
    · exact Keeps.refl e

theorem Event.payState_keeps (e : Event) : Keeps e e.payState := by
  unfold Event.payState
  split
  · refine Keeps.trans ?_ (Event.enqueue_keeps _ _)
    exact Keeps.of_li rfl rfl
  · exact Keeps.refl e

theorem Event.drainBudget_keeps (n : Nat) (e : Event) : Keeps e (e.drainBudget n) := by
  induction n generalizing e with
  | zero => exact Keeps.refl e
  | succ n ih =>
    unfold Event.drainBudget
    split
    · exact Keeps.refl e
    · have h : Keeps e (Event.enqueueAll e.out.budget { e with out.budget := [] }) := by
        refine Keeps.trans ?_ (Event.enqueueAll_keeps _ _)
        exact Keeps.of_li rfl rfl
      simp only
      refine Keeps.trans ?_ (ih _)
      split
      · exact h.trans (Event.evaluateBudget_keeps _)
      · exact h

/-- A frame has joined, or is among those that have yet to. -/
def Ending.holds (d : Ending) (f : Frame) : Prop :=
  d.ev.toState.queued f ∨ f ∈ d.notices ∨ f ∈ d.calls ∨ f ∈ d.replies

theorem Ending.next_keeps (d : Ending) (b : Block) : Keeps d.ev (d.next b).ev := by
  cases b <;> unfold Ending.next <;> simp only
  · split <;> first | exact Event.enqueue_keeps _ _ | exact Keeps.refl _
  · split <;> first | exact Event.enqueue_keeps _ _ | exact Keeps.refl _
  · exact Event.payBudget_keeps _
  · split <;> first | exact Event.enqueue_keeps _ _ | exact Keeps.refl _
  · exact Event.payState_keeps _

theorem Ending.next_holds {f : Frame} (hf : f.isState = false) (d : Ending) (b : Block)
    (ht : d.ev.queueTakes f.body = true) (h : d.holds f) : (d.next b).holds f := by
  have hk := fun q => (Ending.next_keeps d b).queued f hf q
  rcases h with h | h
  · exact Or.inl (hk h)
  · cases b
    · cases hn : d.notices with
      | nil => simpa [Ending.holds, Ending.next, hn] using Or.inr h
      | cons g rest =>
        rw [hn] at h
        have hd : d.next .iu = { d with ev := d.ev.enqueue g, notices := rest } := by
          unfold Ending.next; simp only [hn]
        rw [hd]
        rcases h with h | h
        · rcases List.mem_cons.1 h with rfl | h
          · exact Or.inl (Event.enqueue_queued hf _ ht)
          · exact Or.inr (Or.inl h)
        · exact Or.inr (Or.inr h)
    · cases hn : d.calls with
      | nil => simpa [Ending.holds, Ending.next, hn] using Or.inr h
      | cons g rest =>
        rw [hn] at h
        have hd : d.next .du = { d with ev := d.ev.enqueue g, calls := rest } := by
          unfold Ending.next; simp only [hn]
        rw [hd]
        rcases h with h | h | h
        · exact Or.inr (Or.inl h)
        · rcases List.mem_cons.1 h with rfl | h
          · exact Or.inl (Event.enqueue_queued hf _ ht)
          · exact Or.inr (Or.inr (Or.inl h))
        · exact Or.inr (Or.inr (Or.inr h))
    · exact Or.inr h
    · cases hn : d.replies with
      | nil => simpa [Ending.holds, Ending.next, hn] using Or.inr h
      | cons g rest =>
        rw [hn] at h
        have hd : d.next .cu = { d with ev := d.ev.enqueue g, replies := rest } := by
          unfold Ending.next; simp only [hn]
        rw [hd]
        rcases h with h | h | h
        · exact Or.inr (Or.inl h)
        · exact Or.inr (Or.inr (Or.inl h))
        · rcases List.mem_cons.1 h with rfl | h
          · exact Or.inl (Event.enqueue_queued hf _ ht)
          · exact Or.inr (Or.inr (Or.inr h))
    · exact Or.inr h

theorem Ending.fold_holds {f : Frame} (hf : f.isState = false) (order : List Block) (d : Ending)
    (ht : d.ev.queueTakes f.body = true) (h : d.holds f) :
    (order.foldl Ending.next d).holds f ∧ (order.foldl Ending.next d).ev.mc = d.ev.mc := by
  induction order generalizing d with
  | nil => exact ⟨h, rfl⟩
  | cons b rest ih =>
    have hm := (Ending.next_keeps d b).mc
    obtain ⟨h1, h2⟩ := ih (d.next b) ((State.queueTakes_of_mc hm _).trans ht)
      (Ending.next_holds hf d b ht h)
    exact ⟨h1, h2.trans hm⟩

/-- Every NOTICE, CALL and REPLY of an event stands in the queue when its frames have joined, unless the
queue is full; and so does every frame that stood there before. -/
theorem Event.flush_queued {f : Frame} (hf : f.isState = false) (order : List Block) (e : Event)
    (ht : e.queueTakes f.body = true)
    (h : e.toState.queued f ∨ f ∈ e.out.allNotices ∨ f ∈ e.out.allCalls ∨ f ∈ e.out.replies) :
    (e.flush order).toState.queued f := by
  obtain ⟨hh, hm⟩ := Ending.fold_holds hf order ⟨e, e.out.allNotices, e.out.allCalls, e.out.replies⟩ ht h
  unfold Event.flush
  simp only
  generalize order.foldl Ending.next _ = d at hh hm
  have t0 : d.ev.queueTakes f.body = true := (State.queueTakes_of_mc hm _).trans ht
  have k1 := Event.enqueueAll_keeps d.notices d.ev
  have t1 := (State.queueTakes_of_mc k1.mc f.body).trans t0
  have k2 := Event.enqueueAll_keeps d.calls (d.ev.enqueueAll d.notices)
  have k3 := Event.drainBudget_keeps budgetRounds ((d.ev.enqueueAll d.notices).enqueueAll d.calls)
  have t3 := (State.queueTakes_of_mc (k2.trans k3).mc f.body).trans t1
  refine (Event.payState_keeps _).queued f hf ?_
  rcases hh with hh | hh | hh | hh
  · exact (k1.trans (k2.trans (k3.trans (Event.enqueueAll_keeps _ _)))).queued f hf hh
  · exact (k2.trans (k3.trans (Event.enqueueAll_keeps _ _))).queued f hf
      (Event.enqueueAll_queued hf _ _ t0 hh)
  · exact (k3.trans (Event.enqueueAll_keeps _ _)).queued f hf (Event.enqueueAll_queued hf _ _ t1 hh)
  · exact Event.enqueueAll_queued hf _ _ t3 hh

end Sys2Proof.Machine
end

