-- ==== Sys2Proof/Laws/Quiet.lean ====
section
/-! SUPPORT. Commands from which nothing follows: in a settled state, a command that queues nothing and
touches nothing the verdicts read leaves exactly its own effect. -/

namespace Sys2Proof.Machine

/-! ## Time leaves the verdicts as they are -/

theorem State.record_elapse (d : Micros) (s : State) (ch : Ch) : (s.elapse d).record ch = s.record ch := rfl

theorem State.peer?_elapse (d : Micros) (s : State) (r : Ref) :
    (s.elapse d).peer? r = (s.peer? r).map (PeerEntry.elapse d) := by
  unfold State.peer? State.elapse DependencyUnit.elapse
  simp only
  induction s.du.peers with
  | nil => rfl
  | cons p rest ih =>
    simp only [List.map_cons, List.find?_cons]
    have : (PeerEntry.elapse d p).ref = p.ref := rfl
    rw [this]
    cases p.ref == r
    · exact ih
    · rfl

theorem State.known_elapse (d : Micros) (s : State) (r : Ref) : (s.elapse d).known r = s.known r := by
  have hl : (s.elapse d).localCh? r = s.localCh? r := rfl
  unfold State.known
  rw [hl, State.peer?_elapse]
  cases s.localCh? r with
  | some ch => simp only [State.elapse, PerChannel.get_map]; rfl
  | none => cases s.peer? r <;> rfl

theorem State.atRest_elapse (d : Micros) (s : State) : (s.elapse d).atRest = s.atRest := by
  funext r; unfold State.atRest; rw [State.known_elapse]

theorem State.available_elapse (d : Micros) (s : State) : (s.elapse d).available = s.available := by
  funext r; unfold State.available; rw [State.known_elapse]

theorem State.restsBeneath_elapse (d : Micros) (s : State) :
    (s.elapse d).restsBeneath = s.restsBeneath := by
  funext r; unfold State.restsBeneath; rw [State.known_elapse]

theorem State.held_elapse (d : Micros) (s : State) (ch : Ch) : (s.elapse d).held ch = s.held ch := by
  unfold State.held State.configured
  rw [State.record_elapse]
  simp only [State.elapse, CommandUnit.elapse, List.any_map]
  rfl

theorem State.state_elapse (d : Micros) (s : State) (ch : Ch) :
    ((s.elapse d).cc.get ch).state = (s.cc.get ch).state := by
  simp only [State.elapse, PerChannel.get_map]; rfl

theorem State.providersVerdict_elapse (d : Micros) (s : State) (ch : Ch) :
    (s.elapse d).providersVerdict ch = s.providersVerdict ch := by
  unfold State.providersVerdict; rw [State.record_elapse, State.available_elapse]

theorem State.consumersVerdict_elapse (d : Micros) (s : State) (ch : Ch) :
    (s.elapse d).consumersVerdict ch = s.consumersVerdict ch := by
  unfold State.consumersVerdict; rw [State.record_elapse, State.atRest_elapse]

theorem State.lostProviders_elapse (d : Micros) (s : State) (ch : Ch) :
    (s.elapse d).lostProviders ch = s.lostProviders ch := by
  unfold State.lostProviders
  rw [State.state_elapse, State.record_elapse, State.restsBeneath_elapse]

theorem State.mayCoast_elapse (d : Micros) (s : State) (ch : Ch) :
    (s.elapse d).mayCoast ch = s.mayCoast ch := by
  unfold State.mayCoast
  rw [State.state_elapse, State.held_elapse, State.consumersVerdict_elapse]; rfl

/-- A settled node is settled when time has passed. -/
theorem State.settled_elapse (d : Micros) (s : State) (h : s.settled) : (s.elapse d).settled := by
  intro ch
  rw [State.state_elapse, State.providersVerdict_elapse, State.mayCoast_elapse,
    State.lostProviders_elapse]
  exact h ch

/-! ## Nothing follows -/

theorem Event.settled_of_quiet (e : Event) (hc : e.out.callDue = .all false)
    (hd : e.out.standingDue = .all []) (hs : e.toState.settled) : e.settled = e := by
  have hr : ∀ ch, e.reportDue ch = false := fun ch => by
    obtain ⟨h1, h2, _⟩ := hs ch
    unfold State.reportDue
    rw [h2, Bool.or_false, Bool.and_eq_false_imp, decide_eq_true_eq]
    exact fun h => Bool.eq_false_iff.2 fun k => h1 ⟨h, k⟩
  have hw : ∀ ch, e.watchStale ch = false := fun ch => decide_eq_false fun hne => hne (hs ch).2.2
  have ho : ∀ ch, e.owesCall ch = false := fun ch => by
    unfold Event.owesCall; rw [hc, hd, PerChannel.get_all, PerChannel.get_all]; rfl
  unfold Event.settled settleRounds Event.settle
  simp only [hr, hw, ho, List.any_eq_true, Bool.or_eq_true, Bool.false_eq_true, and_false, exists_false,
    or_self, if_false]

theorem Event.flush_of_quiet (order : List Block) (e : Event) (ho : e.out = {}) : e.flush order = e := by
  have hb : e.payBudget = e := by unfold Event.payBudget; rw [ho]; rfl
  have hp : e.payState = e := by unfold Event.payState; rw [ho]; rfl
  have hn : e.out.allNotices = [] := by rw [ho]; rfl
  have hc : e.out.allCalls = [] := by rw [ho]; rfl
  have hr : e.out.replies = [] := by rw [ho]
  have hd : e.drainBudget budgetRounds = e := by
    unfold budgetRounds Event.drainBudget; rw [ho]; rfl
  have hf : order.foldl Ending.next ⟨e, [], [], []⟩ = ⟨e, [], [], []⟩ := by
    induction order with
    | nil => rfl
    | cons b rest ih =>
      have : Ending.next ⟨e, [], [], []⟩ b = ⟨e, [], [], []⟩ := by
        cases b <;> unfold Ending.next <;> simp only [hb, hp]
      rw [List.foldl_cons, this]; exact ih
  unfold Event.flush
  rw [hn, hc, hr, hf]
  simp only [Event.enqueueAll, List.foldl_nil, hd, hp]

/-- A command from which nothing follows leaves its own effect and nothing else. -/
theorem take_quiet (m : Moment) (effect : Event → Event) (s : State)
    (ho : (effect (s.begin m)).out = {}) (hs : (effect (s.begin m)).toState.settled) :
    take m effect s = .next (effect (s.begin m)).toState := by
  unfold take
  rw [Event.settled_of_quiet _ (by rw [ho]) (by rw [ho]) hs, Event.flush_of_quiet _ _ ho]

/-- The needs watch, the verdicts and the calls read these parts of the node and nothing else. -/
theorem State.settled_of_same {a b : State} (h : a.settled) (hc : ∀ ch, (b.cc.get ch).state = (a.cc.get ch).state)
    (hf : ∀ ch, (b.cc.get ch).feedbackClosed = (a.cc.get ch).feedbackClosed)
    (hp : b.du.peers = a.du.peers) (hm : b.du.marks = a.du.marks) (hi : b.mc.image = a.mc.image)
    (hst : b.mc.station = a.mc.station) (hmode : b.mc.mode = a.mc.mode)
    (hh : ∀ ch, b.held ch = a.held ch) : b.settled := by
  have hrec : ∀ ch, b.record ch = a.record ch := by intro ch; unfold State.record; rw [hi]
  have hk : b.known = a.known := by
    funext r
    have hl : b.localCh? r = a.localCh? r := by
      unfold State.localCh? State.isLocal; rw [hst]
    have hpe : b.peer? r = a.peer? r := by unfold State.peer?; rw [hp]
    unfold State.known
    rw [hl, hpe]
    cases a.localCh? r with
    | some ch => simp only [hc, hf]
    | none => rfl
  have h1 : b.available = a.available := by funext r; unfold State.available; rw [hk]
  have h2 : b.atRest = a.atRest := by funext r; unfold State.atRest; rw [hk]
  have h3 : b.restsBeneath = a.restsBeneath := by funext r; unfold State.restsBeneath; rw [hk]
  intro ch
  obtain ⟨p, q, r⟩ := h ch
  refine ⟨?_, ?_, ?_⟩
  · unfold State.providersVerdict; rw [hc, hrec, h1]; exact p
  · unfold State.mayCoast State.consumersVerdict; rw [hc, hh, hmode, hrec, h2]; exact q
  · unfold State.lostProviders; rw [hm, hc, hrec, h3]; exact r

theorem State.held_of_same {a b : State} (hcu : b.cu = a.cu) (hi : b.mc.image = a.mc.image) (ch : Ch) :
    b.held ch = a.held ch := by
  unfold State.held State.configured State.record; rw [hcu, hi]

/-- In a settled node, a command whose own effect queues nothing and leaves what the verdicts read
answers exactly that effect. -/
theorem take_settled (m : Moment) (effect : Event → Event) (s t : State) (hs : s.settled)
    (he : effect (s.begin m) = { toState := t })
    (hc : ∀ ch, (t.cc.get ch).state = ((s.elapse m.elapsed).cc.get ch).state)
    (hf : ∀ ch, (t.cc.get ch).feedbackClosed = ((s.elapse m.elapsed).cc.get ch).feedbackClosed)
    (hp : t.du.peers = (s.elapse m.elapsed).du.peers)
    (hm : t.du.marks = (s.elapse m.elapsed).du.marks)
    (hi : t.mc.image = (s.elapse m.elapsed).mc.image)
    (hst : t.mc.station = (s.elapse m.elapsed).mc.station)
    (hmode : t.mc.mode = (s.elapse m.elapsed).mc.mode)
    (hh : ∀ ch, t.held ch = (s.elapse m.elapsed).held ch) : take m effect s = .next t := by
  rw [take_quiet] <;> rw [he]
  exact State.settled_of_same (State.settled_elapse m.elapsed s hs) hc hf hp hm hi hst hmode hh

end Sys2Proof.Machine
end

