-- ==== Sys2Proof/Tests/Slice0.lean ====
section
/-! SUPPORT. Small tests: what well-formedness refuses, frame bytes written out from the formats, one step
of each command on a small node, and for every statement with hypotheses a node that meets them. -/

namespace Sys2Proof.Tests

set_option Elab.async false

open Sys2Proof.Machine

/-! ## A small node -/

/-- A command that happens at once. -/
def z : Moment := ⟨0, [], .returnFirst⟩

/-- The same, a frame that ends an isolation acting before the return. -/
def frameFirst : Moment := { z with arrival := .frameFirst }

/-- The same, an expiry of the isolation stagger coming between the two. -/
def thenStagger : Moment := { z with arrival := .frameThenStagger }

/-- The record of a press with no references. -/
def press : ChannelRecord where
  kind := .press
  rank := 1
  weight := 4
  idleWindow := Config.minutes 15
  requiredCount := 2
  debounce := Config.sec 2
  runDown := Config.sec 240
  inrushWindow := Config.sec 20
  feedbackWindow := Config.ms 500
  retryDelay := Config.sec 60
  retryLimit := 1
  callWaitLimit := Config.sec 120
  morning := true
  needs := []
  serves := []

/-- The record of a fan that needs load 0 of station 4. -/
def fan : ChannelRecord :=
  { press with kind := .fan, rank := 2, weight := 2, runDown := 0, needs := [⟨4, 0⟩] }

/-- The record of a hydraulic unit that serves load 1 of station 4. -/
def pump : ChannelRecord := { press with kind := .hydraulic, weight := 3, serves := [⟨4, 1⟩] }

/-- An image with a press on Ch0, a fan on Ch1 and a hydraulic unit on Ch2; station 2 has level 0 and
station 3 level 2. -/
def small : Image where
  plantBudget := 10
  heartbeatPeriod := Config.sec 2
  stalenessLimit := Config.sec 8
  isolationLimit := Config.sec 20
  listenInterval := Config.sec 10
  settleInterval := Config.ms 500
  claimHoldLimit := Config.sec 60
  retryGap := Config.sec 3
  mask := ⟨true, true, true, true, true⟩
  channels := ⟨press, fan, pump, .unused, .unused, .unused⟩
  consoles := [⟨2, 0⟩, ⟨3, 2⟩]

/-- A Peer Table entry of station 4 that was just reported. -/
def peer (channel : Nat) (state : StateCode) : PeerEntry :=
  ⟨⟨4, channel⟩, some state, true, false, true, some (Config.sec 8)⟩

/-- A controller in a state, its contact where the output puts it. -/
def at_ (st : ChState) : Controller := { Controller.reset st.energised with state := st }

/-- A tracker that runs with a full window. -/
def running : Tracker := Tracker.start (Config.minutes 15) (Config.sec 2) false false

/-- Station 11 while OPERATING: the press rests, the fan and the hydraulic unit run; the provider of the
fan runs, and so does the consumer of the hydraulic unit. -/
def node : State :=
  { State.reset with
    cc := ⟨at_ .rest, at_ .awake, at_ .awake, at_ .offline, at_ .offline, at_ .offline⟩
    it := ⟨Tracker.reset, running, running, Tracker.reset, Tracker.reset, Tracker.reset⟩
    du := { DependencyUnit.reset with peers := [peer 0 .awake, peer 1 .awake] }
    mc := { ModeControl.reset .power with
      mode := .operating
      inReset := false
      station := 11
      image := some small
      isolationTimer := some (Config.sec 20) }
    li := { LineInterface.reset with heartbeatTimer := some (Config.sec 2), awaitingGap := false } }

/-- The node in another mode. -/
def node.inMode (mode : Mode) : State := { node with mc.mode := mode }

/-- The node with a controller of its own on one channel. -/
def node.having (ch : Ch) (c : Controller) : State := { node with cc := node.cc.set ch c }

/-- The node with a tracker of its own on one channel. -/
def node.tracking (ch : Ch) (t : Tracker) : State := { node with it := node.it.set ch t }

/-- The node with these entries in its Claim Table. -/
def node.claiming (claims : List Claim) : State := { node with bu.claims := claims }

/-- The node with another phase. -/
def node.during (phase : Phase) : State := { node with pu.phase := phase }

/-- The node with a frame in its sender, driving the line. -/
def node.sending (f : Frame) : State :=
  { node with li := { node.li with sender := some ⟨f, f.wire 11⟩, driving := true } }

/-- An own claim of the press, with number 1. -/
def ownClaim (status : ClaimStatus) (timer : Timer) : Claim := ⟨11, 1, .c0, 4, 1, status, timer⟩

/-- A claim of station 4. -/
def farClaim (number : Nat) (timer : Timer) : Claim := ⟨4, number, .c0, 6, 3, .remote [], timer⟩

/-- A full Claim Table: 24 claims of station 4. -/
def fullTable : List Claim := (List.range 24).map fun n => farClaim (n + 1) (some 5)

/-- A NOTICE frame. -/
def report : Frame := ⟨0, .notice .rejoined⟩

/-- The press waits for its claim to settle, with no time left. -/
def node.settling : State :=
  { node.having .c0 { at_ (.pending .claiming) with origins := { call := true } } with
    bu.claims := [ownClaim .provisional (some 0)] }

/-- The state after a command. -/
def after (c : Instr) (s : State) : State :=
  match exec c s with
  | .next t => t
  | _ => s

/-- A statement of every channel is a statement of six channels. -/
theorem of_all_channels {p : Ch → Prop} (h : ∀ ch ∈ Ch.all, p ch) (ch : Ch) : p ch := by
  cases ch <;> exact h _ (by decide)

/-- A node is settled when each of its six channels is. -/
theorem settled_of_all {s : State}
    (h : ∀ ch ∈ Ch.all, ¬((s.cc.get ch).state = .pending .calling ∧ s.providersVerdict ch = true) ∧
      s.mayCoast ch = false ∧ s.du.marks.get ch = s.lostProviders ch) : s.settled :=
  of_all_channels h

theorem node_settled : node.settled := settled_of_all (by decide +kernel)

/-- A Claim Table without two claims of one key is sound on a node of station 11. -/
theorem sound_of_claims (s : State)
    (h : s.bu.claims.length ≤ Config.claimCapacity ∧ (s.bu.claims.map Claim.key).Nodup ∧
      (∀ c ∈ s.bu.claims, c.isOwn = true → c.station = s.mc.station) ∧
      (∀ c ∈ s.bu.claims, c.isOwn = false → c.station ≠ s.mc.station) ∧
      (s.mc.inReset = true → s.mc.mode = .loading ∧ s.bu.claims = [])) : s.claimTableSound := h

/-! ## Well-formedness -/

/-- An image read whose header is not answered. -/
def noHeader : ImageRead := ⟨none, .all none, none⟩

theorem test_wellFormed_accepts :
    (Instr.imageReadComplete z noHeader).wellFormed = true ∧
    (Instr.ageTimerExpiry z [1, 63]).wellFormed = true ∧
    (Instr.claimHoldTimerExpiry z 63 255).wellFormed = true ∧
    (Instr.holdEntryExpiry z [⟨1, .all, 1⟩]).wellFormed = true ∧
    (Instr.contentionLost z 63).wellFormed = true ∧
    (Instr.invalidFrame z [1, 2, 3]).wellFormed = true ∧
    (Instr.unknownKindFrame z ⟨63, 0⟩ 0 []).wellFormed = true ∧
    (Instr.wake z ⟨1, 11⟩ 0xFF 0xFF).wellFormed = true := by decide

theorem test_wellFormed_refuses_short_header :
    (Instr.imageReadComplete z { noHeader with header := some [1] }).wellFormed = false := by decide

theorem test_wellFormed_refuses_short_channel_record :
    (Instr.imageReadComplete z { noHeader with channels := .all (some [1]) }).wellFormed = false := by
  decide

theorem test_wellFormed_refuses_short_console_record :
    (Instr.imageReadComplete z { noHeader with console := some [] }).wellFormed = false := by decide

theorem test_wellFormed_refuses_stations :
    (Instr.ageTimerExpiry z [4, 0]).wellFormed = false ∧
    (Instr.ageTimerExpiry z [64]).wellFormed = false := by decide

theorem test_wellFormed_refuses_claim_keys :
    (Instr.claimHoldTimerExpiry z 0 1).wellFormed = false ∧
    (Instr.claimHoldTimerExpiry z 64 1).wellFormed = false ∧
    (Instr.claimHoldTimerExpiry z 4 0).wellFormed = false ∧
    (Instr.claimHoldTimerExpiry z 4 256).wellFormed = false := by decide

theorem test_wellFormed_refuses_hold_keys :
    (Instr.holdEntryExpiry z [⟨0, .all, 1⟩]).wellFormed = false ∧
    (Instr.holdEntryExpiry z [⟨1, .all, 0⟩]).wellFormed = false := by decide

theorem test_wellFormed_refuses_winners :
    (Instr.contentionLost z 0).wellFormed = false ∧
    (Instr.contentionLost z 64).wellFormed = false := by decide

theorem test_wellFormed_refuses_a_valid_frame_as_invalid :
    (Instr.invalidFrame z (lineBytes 4 kindRelease 0 [7])).wellFormed = false := by decide +kernel

theorem test_wellFormed_refuses_listed_kinds_as_unknown :
    (Instr.unknownKindFrame z ⟨4, 0⟩ 1 []).wellFormed = false ∧
    (Instr.unknownKindFrame z ⟨4, 0⟩ 13 []).wellFormed = false ∧
    (Instr.unknownKindFrame z ⟨4, 0⟩ 14 (List.replicate 41 0)).wellFormed = false ∧
    (Instr.unknownKindFrame z ⟨64, 0⟩ 14 []).wellFormed = false := by decide +kernel

theorem test_wellFormed_refuses_senders :
    (Instr.stateReceived z ⟨0, 0⟩ ⟨3, 1, 2, 42, 60, .all 0⟩).wellFormed = false ∧
    (Instr.phaseReceived z ⟨64, 0⟩ 2 42 1).wellFormed = false ∧
    (Instr.claimReceived z ⟨0, 0⟩ 1 0 4 1).wellFormed = false ∧
    (Instr.withdrawReceived z ⟨64, 0⟩ 1).wellFormed = false ∧
    (Instr.releaseReceived z ⟨0, 0⟩ 1).wellFormed = false ∧
    (Instr.callReceived z ⟨255, 0⟩ ⟨0, 1, ⟨11, 0⟩, ⟨0, 0⟩, ⟨0, 0⟩, ⟨0, 0⟩⟩).wellFormed = false ∧
    (Instr.wake z ⟨0, 11⟩ 0 1).wellFormed = false ∧
    (Instr.shed z ⟨64, 11⟩ 0 1).wellFormed = false ∧
    (Instr.hold z ⟨0, 11⟩ 0 1 1 0).wellFormed = false ∧
    (Instr.unhold z ⟨64, 11⟩ 0 1 1).wellFormed = false ∧
    (Instr.unlock z ⟨0, 11⟩ 0 1).wellFormed = false ∧
    (Instr.replyReceived z ⟨64, 11⟩ 7 0 0 0).wellFormed = false ∧
    (Instr.noticeReceived z ⟨0, 0⟩ 0 3 1 0).wellFormed = false := by decide

/-! ## Bytes on the line (10) -/

/-- The STATE frame of 10.5, from station 17, its fields as the table of 10.5 stores them; the check
sequence was worked out by hand from R170. -/
def stateFrame17 : List Byte :=
  [0x11, 0x01, 0x00, 0x0E, 3, 1, 2, 0, 0, 0, 0x2A, 0x3C, 0x31, 0, 0, 0, 0, 0, 0xE3, 0x5D]

theorem test_frame_state :
    frameCommand z stateFrame17 =
      .stateReceived z ⟨17, 0⟩ ⟨3, 1, 2, 42, 60, ⟨0x31, 0, 0, 0, 0, 0⟩⟩ := by decide +kernel

/-- What station 17 sends in the example of 10.5 has the bytes of its table. -/
theorem test_frame_state_sent :
    (⟨0, .state ⟨.operating, .power, .night, 42, 60,
      ⟨⟨.awake, true, true⟩, ⟨.offline, false, false⟩, ⟨.offline, false, false⟩,
        ⟨.offline, false, false⟩, ⟨.offline, false, false⟩, ⟨.offline, false, false⟩⟩⟩⟩ : Frame).wire
      17 = stateFrame17 := by decide +kernel

theorem test_report_byte :
    reportState 0x31 = some .awake ∧ reportClosed 0x31 = true ∧ reportHeld 0x31 = true ∧
    reportState 0x0F = none ∧ reportClosed 0x20 = false ∧ reportHeld 0x10 = false := by decide

theorem test_frame_broken : frameCommand z (stateFrame17.set 12 0x30) =
    .invalidFrame z (stateFrame17.set 12 0x30) := by decide +kernel

/-- A frame whose check sequence is right but whose length is not that of its kind is not valid. -/
theorem test_frame_length : receive (lineBytes 4 kindClaim 0 [1, 0, 6]) = none := by decide +kernel

theorem test_frame_payloads :
    (Notice.holdExpired .all 5).payload = [0xFF, 8, 0xFF, 5] ∧
    (Notice.imageRejected 2 .weight).payload = [0xFF, 2, 2, 6] ∧
    (Notice.providerLost .c1 ⟨4, 0⟩).payload = [1, 5, 4, 0] ∧
    (Body.call .c1 [⟨4, 0⟩]).payload = [1, 1, 4, 0, 0, 0, 0, 0, 0, 0] ∧
    (Body.claim 7 .c2 3 2).payload = [7, 2, 3, 2] := by decide

theorem test_call_targets :
    callTargets ⟨0, 0, ⟨4, 0⟩, ⟨4, 1⟩, ⟨4, 2⟩, ⟨4, 3⟩⟩ = [] ∧
    callTargets ⟨0, 4, ⟨4, 0⟩, ⟨4, 1⟩, ⟨4, 2⟩, ⟨4, 3⟩⟩ = [⟨4, 0⟩, ⟨4, 1⟩, ⟨4, 2⟩, ⟨4, 3⟩] ∧
    callTargets ⟨0, 5, ⟨4, 0⟩, ⟨4, 1⟩, ⟨4, 2⟩, ⟨4, 3⟩⟩ = [] := by decide

theorem test_no_table_word : decodeTableWord 8 0 = none ∧ State.reset.withFetchWord 8 0 = State.reset :=
  ⟨rfl, rfl⟩

/-! ## An image in the memory's bytes (10.4) -/

/-- A record with its check byte. -/
def checked (bytes : List Byte) : List Byte := bytes ++ [0 - bytes.foldl (· + ·) 0]

/-- The header of the small image. -/
def headerBytes : List Byte :=
  checked [1, 1, 36, 10, 2, 8, 0, 20, 10, 0, 50, 0, 60, 3, 31]

/-- A channel record up to its lists, which are empty. -/
def channelBytes (kind rank weight : Byte) : List Byte :=
  checked ([kind, rank, weight, 15, 2, 20, 0, 240, 20, 50, 0, 60, 1, 0, 120, 1] ++
    List.replicate 26 0)

/-- What the memory answers: a press on Ch0, a conveyor on Ch1, nothing on the rest, one console. -/
def answers : ImageRead where
  header := some headerBytes
  channels := (PerChannel.all (some (channelBytes 0 1 1))).set .c0 (some (channelBytes 1 1 4)) |>.set
    .c1 (some (channelBytes 5 1 10))
  console := some (checked ([1, 2, 0] ++ List.replicate 14 0))

theorem test_image_accepted : judgeImage 11 answers = .accepted (imageOf answers) := by decide +kernel

theorem test_image_fields :
    (imageOf answers).channels.get .c0 = press ∧ (imageOf answers).plantBudget = 10 ∧
    (imageOf answers).settleInterval = Config.ms 500 ∧
    (imageOf answers).isolationLimit = Config.sec 20 ∧ (imageOf answers).consoles = [⟨2, 0⟩] := by
  decide +kernel

theorem test_image_rejected :
    judgeImage 11 noHeader = .rejected .noImage 0 ∧ judgeImage 0 answers = .rejected .address 0 ∧
    judgeImage 11 { answers with console := none } = .rejected .noImage 7 ∧
    judgeImage 11 { answers with channels := answers.channels.set .c2 (some (channelBytes 6 3 11)) } =
      .rejected .weight 3 ∧
    judgeImage 11 { answers with header := some (headerBytes.set 4 3) } = .rejected .check 0 := by
  decide +kernel

/-! ## One step of each command -/

theorem test_reset : (after (.reset z .dip) node).mc = ModeControl.reset .dip ∧
    (after (.reset z .line) (after (.reset z .dip) node)).mc.startCause = .dip := by decide +kernel

theorem test_resetRelease : (after (.resetRelease z 11) State.reset).mc.station = 11 ∧
    (after (.resetRelease z 11) State.reset).mc.inReset = false := by decide +kernel

/-- Station 11, its reset released. -/
def loading : State := { State.reset with mc.inReset := false, mc.station := 11 }

theorem test_imageReadComplete :
    (after (.imageReadComplete z answers) loading).mc.mode = .listening ∧
    (after (.imageReadComplete z answers) loading).cc.get .c0 =
      { at_ .rest with origins := { start := true } } := by decide +kernel

theorem test_imageReadComplete_rejected :
    (after (.imageReadComplete z noHeader) loading).mc.mode = .unconfigured ∧
    (after (.imageReadComplete z noHeader) loading).mc.bypassTimer.get .c3 = some (Config.sec 28) := by
  decide +kernel

theorem test_feedbackChange :
    (after (.feedbackChange z .c1 false) node).cc.get .c1 =
      { at_ .awake with
        feedbackClosed := false
        mark := some .feedback
        mismatchTimer := some (Config.ms 500) } := by decide +kernel

/-- The fan, its contact open for the whole feedback window. -/
def dropped : Controller :=
  { at_ .awake with feedbackClosed := false, mark := some .feedback, mismatchTimer := some 0 }

theorem test_feedbackMismatch_trips :
    ((after (.feedbackMismatch z .c1) (node.having .c1 dropped)).cc.get .c1).state =
      .tripped .dropout := by decide +kernel

/-- The press, its contact closed for the whole feedback window while it rests. -/
def welded : Controller :=
  { at_ .rest with feedbackClosed := true, mark := some .output, mismatchTimer := some 0 }

theorem test_feedbackMismatch_locks :
    ((after (.feedbackMismatch z .c0) (node.having .c0 welded)).cc.get .c0).state =
      .locked .welded := by decide +kernel

/-- The press, tripped so many times, its retry delay run. -/
def tripped (count : Nat) : Controller :=
  { at_ (.tripped .dropout) with tripCount := count, retryTimer := some 0 }

theorem test_retryTimerExpiry_wakes :
    ((after (.retryTimerExpiry z .c0) (node.having .c0 (tripped 1))).cc.get .c0).state =
      .pending .claiming := by decide +kernel

theorem test_retryTimerExpiry_locks :
    ((after (.retryTimerExpiry z .c0) (node.having .c0 (tripped 2))).cc.get .c0).state =
      .locked .repeatedTrip := by decide +kernel

/-- The press, its run-down run. -/
def coasted (origins : OriginSet) : Controller :=
  { at_ .coast with runDownTimer := some 0, origins := origins }

theorem test_runDownExpiry :
    ((after (.runDownExpiry z .c0) (node.having .c0 (coasted {}))).cc.get .c0).state = .rest ∧
    ((after (.runDownExpiry z .c0) (node.having .c0 (coasted { call := true }))).cc.get .c0).state =
      .pending .claiming := by decide +kernel

/-- The press, starting under its LIVE claim, its inrush window run. -/
def node.starting (kind : StartKind) : State :=
  { node.having .c0 { at_ (.starting kind) with inrushTimer := some 0, origins := { call := true } } with
    bu.claims := [ownClaim .live none] }

theorem test_inrushExpiry :
    (after (.inrushExpiry z .c0) (node.starting .claimed)).cc.get .c0 = at_ .awake ∧
    (after (.inrushExpiry z .c0) (node.starting .claimed)).bu.claims = [] := by decide +kernel

/-- The press, starting under its LIVE claim, its contact open for the whole feedback window with 5 s of
the inrush window left. -/
def node.failing : State :=
  { node.starting .claimed with
    cc := node.cc.set .c0
      { at_ (.starting .claimed) with
        feedbackClosed := false
        mark := some .output
        mismatchTimer := some 0
        inrushTimer := some (Config.sec 5) } }

/-- The inrush time left of a start that trips is the hold of its claim (R27, R90). -/
theorem test_feedbackMismatch_hands_over :
    (after (.feedbackMismatch z .c0) node.failing).bu.claims =
      [ownClaim .live (some (Config.sec 5))] := by decide +kernel

/-- The RELEASE of the claim is queued (R89). -/
theorem test_inrushExpiry_releases :
    (⟨0, .release 1⟩ : Frame) ∈ (after (.inrushExpiry z .c0) (node.starting .claimed)).li.queue := by
  decide +kernel

theorem test_inrushHoldExpiry :
    (after (.inrushHoldExpiry z .c0) (node.claiming [ownClaim .live (some 0)])).bu.claims = [] := by
  decide +kernel

theorem test_activitySenseChange :
    ((after (.activitySenseChange z .c1 true) node).it.get .c1).debounceTimer =
      some (Config.sec 2) := by decide +kernel

/-- A tracker of a load that has become active, two windows confirmed. -/
def onset : Tracker := { running with debounceTimer := some 0, count := 2 }

/-- The node with that tracker on the fan. -/
def node.active : State :=
  { node.tracking .c1 onset with pins.senseActive := node.pins.senseActive.set .c1 true }

theorem test_activityDebounceExpiry :
    ((after (.activityDebounceExpiry z .c1) node.active).it.get .c1).count = 0 ∧
    ((after (.activityDebounceExpiry z .c1) node.active).it.get .c1).active = true := by
  decide +kernel

/-- A tracker whose window has run, with a count. -/
def window (count : Nat) : Tracker := { running with windowTimer := some 0, count := count }

theorem test_idleWindowExpiry :
    ((after (.idleWindowExpiry z .c1) (node.tracking .c1 (window 0))).it.get .c1).count = 1 := by
  decide +kernel

/-- At the second confirmed window, in NIGHT, the fan coasts and rests at once: its run-down is 0 s. -/
theorem test_idleWindowExpiry_rests :
    ((after (.idleWindowExpiry z .c1)
      { node.tracking .c1 (window 1) with pu.phase := .night }).cc.get .c1).state = .rest := by
  decide +kernel

theorem test_holdKeyChange :
    (after (.holdKeyChange z .c1 true) node).cu.keyTimer.get .c1 = some (Config.ms 50) := by
  decide +kernel

/-- The hold key of a channel, turned on for the debounce. -/
def node.keyed (ch : Ch) : State :=
  { node with
    pins.keyOn := node.pins.keyOn.set ch true
    cu.keyTimer := node.cu.keyTimer.set ch (some 0) }

theorem test_holdKeyDebounceExpiry :
    ((after (.holdKeyDebounceExpiry z .c1) (node.keyed .c1)).it.get .c1).status = .paused ∧
    ((after (.holdKeyDebounceExpiry z .c0) (node.keyed .c0)).cc.get .c0).origins.hold = true := by
  decide +kernel

/-- In UNCONFIGURED a change of a key flag is reported (log 12). -/
theorem test_holdKeyDebounceExpiry_unconfigured :
    ((after (.holdKeyDebounceExpiry z .c1)
      { loading with
        mc.mode := .unconfigured
        pins.keyOn := loading.pins.keyOn.set .c1 true
        cu.keyTimer := loading.cu.keyTimer.set .c1 (some 0) }).li.queue.map Frame.isState) = [true] := by
  decide +kernel

theorem test_wakeButtonChange :
    (after (.wakeButtonChange z .c1 true) node).cu.buttonTimer.get .c1 = some (Config.ms 50) := by
  decide +kernel

/-- The wake button of a channel, pressed for the debounce. -/
def node.pressed (ch : Ch) : State :=
  { node with
    pins.buttonPressed := node.pins.buttonPressed.set ch true
    cu.buttonTimer := node.cu.buttonTimer.set ch (some 0) }

theorem test_wakeButtonDebounceExpiry :
    ((after (.wakeButtonDebounceExpiry z .c0) (node.pressed .c0)).cc.get .c0).state =
      .pending .claiming := by decide +kernel

/-- The fan calls its provider, which rests. -/
def node.calling : State :=
  { node.having .c1 { at_ (.pending .calling) with origins := { call := true } } with
    it := node.it.set .c1 Tracker.reset
    du := { node.du with
      peers := [peer 0 .rest, peer 1 .awake]
      callWait := node.du.callWait.set .c1 (some 0) } }

theorem test_callWaitExpiry :
    ((after (.callWaitExpiry z .c1) node.calling).cc.get .c1).state = .pending .claiming := by
  decide +kernel

/-- The node, not having heard station 4 for the staleness limit. -/
def node.stale : State :=
  { node with du.peers := [{ peer 0 .awake with ageTimer := some 0 }, peer 1 .awake] }

theorem test_ageTimerExpiry :
    ((after (.ageTimerExpiry z [4]) node.stale).du.peers.map PeerEntry.isPresent) = [false, true] := by
  decide +kernel

theorem test_settleExpiry :
    ((after (.settleExpiry z .c0) node.settling).cc.get .c0).state = .starting .claimed := by
  decide +kernel

theorem test_claimHoldTimerExpiry :
    (after (.claimHoldTimerExpiry z 4 7) (node.claiming [farClaim 7 (some 0)])).bu.claims = [] := by
  decide +kernel

/-- The node in overflow, its timer run. -/
def node.overflowing : State :=
  { node with bu.overflow := true, bu.overflowTimer := some 0 }

theorem test_overflowTimerExpiry :
    (after (.overflowTimerExpiry z) node.overflowing).bu.overflow = false := by decide +kernel

/-- The press in BUDGET, its retry gap run. -/
def node.gapped : State :=
  { node.having .c0 (at_ (.pending .budget)) with bu.retryGap := node.bu.retryGap.set .c0 (some 0) }

theorem test_retryGapExpiry :
    ((after (.retryGapExpiry z .c0) node.gapped).cc.get .c0).state = .pending .claiming := by
  decide +kernel

/-- A hold of the fan by station 2. -/
def held1 : HoldEntry := ⟨.channel .c1, 2, 5, 1, some 10, some 0⟩

theorem test_holdEntryExpiry :
    (after (.holdEntryExpiry z [⟨2, .channel .c1, 5⟩]) { node with cu.holds := [held1] }).cu.holds =
      [] := by decide +kernel

/-- The node at the end of its listen interval, the press to start. -/
def node.listened : State :=
  { node.having .c0 { at_ .rest with origins := { start := true } } with
    mc.mode := .listening
    mc.listenTimer := some 0 }

theorem test_listenExpiry :
    (after (.listenExpiry z) node.listened).mc.mode = .operating ∧
    ((after (.listenExpiry z) node.listened).cc.get .c0).state = .pending .claiming := by
  decide +kernel

/-- The node, not having heard a frame for the isolation limit. -/
def node.alone : State := { node with mc.isolationTimer := some 0 }

theorem test_isolationExpiry :
    (after (.isolationExpiry z) node.alone).mc.mode = .isolated ∧
    (after (.isolationExpiry z) node.alone).mc.staggerTimer = some (Config.sec 22) := by
  decide +kernel

/-- The press waits for the stagger, whose time has come. -/
def node.staggered : State :=
  { node.having .c0 (at_ (.pending .budget)) with mc.mode := .isolated, mc.staggerTimer := some 0 }

theorem test_isolationStaggerExpiry :
    ((after (.isolationStaggerExpiry z) node.staggered).cc.get .c0).state = .starting .unclaimed ∧
    (after (.isolationStaggerExpiry z) node.staggered).mc.staggerTimer = some (Config.sec 20) := by
  decide +kernel

/-- Station 11 without an image, the bypass time of Ch0 run. -/
def unconfigured : State :=
  { loading with
    mc.mode := .unconfigured
    mc.bypassTimer := (PerChannel.all none).set .c0 (some 0)
    li.heartbeatTimer := some 0 }

theorem test_bypassTimerExpiry :
    ((after (.bypassTimerExpiry z .c0) unconfigured).cc.get .c0).state = .bypass := by decide +kernel

theorem test_heartbeatExpiry :
    (after (.heartbeatExpiry z) { node with li.heartbeatTimer := some 0 }).li.queue =
      [⟨0, .state node.report⟩] := by decide +kernel

/-- The node, all of whose lamps are at their last step. -/
def node.blinking : State :=
  { node with iu := ⟨.all ⟨15, some 0⟩, ⟨15, some 0⟩⟩ }

theorem test_lampStep :
    (after (.lampStep z .node) node.blinking).iu.node = ⟨0, some (Config.ms 125)⟩ ∧
    (after (.lampStep z (.channel .c5)) node.blinking).iu.channels.get .c5 =
      ⟨0, some (Config.ms 125)⟩ := by decide +kernel

theorem test_lineAccessGap :
    (after (.lineAccessGap z) { node with li.queue := [report] }).li.sender =
      some ⟨report, report.wire 11⟩ := by decide +kernel

theorem test_contentionLost :
    (after (.contentionLost z 4) (node.sending report)).li =
      { (node.sending report).li with driving := false, inProgress := some 4 } := by decide +kernel

theorem test_frameSent : (after (.frameSent z) (node.sending report)).li.sender = none := by
  decide +kernel

theorem test_sendFault :
    (after (.sendFault z) (node.sending report)).li.attempts = 1 ∧
    (after (.sendFault z) { node.sending report with li.attempts := 7 }).li.sender = none := by
  decide +kernel

theorem test_invalidFrame :
    (after (.invalidFrame z [4]) { node with li.inProgress := some 4 }).li.inProgress = none := by
  decide +kernel

theorem test_unknownKindFrame :
    (after (.unknownKindFrame z ⟨4, 0⟩ 14 []) node.alone).mc.isolationTimer =
      some (Config.sec 20) := by decide +kernel

theorem test_stateReceived :
    (after (.stateReceived z ⟨4, 0⟩ ⟨3, 1, 2, 42, 60, ⟨0x04, 0x14, 0, 0, 0, 0⟩⟩) node).pu =
      ⟨.night, 42, 60⟩ := by decide +kernel

/-- The fan's provider is reported at rest: PROVIDER_LOST is noticed and a standing call is made. -/
theorem test_stateReceived_watch :
    (after (.stateReceived z ⟨4, 0⟩ ⟨3, 1, 0, 0, 0, ⟨0x04, 0x11, 0, 0, 0, 0⟩⟩) node).li.queue =
      [⟨0, .notice (.providerLost .c1 ⟨4, 0⟩)⟩, ⟨0, .call .c1 [⟨4, 0⟩]⟩] := by decide +kernel

theorem test_phaseReceived :
    (after (.phaseReceived z ⟨2, 0⟩ 1 41 1) node).pu = ⟨.evening, 41, 2⟩ ∧
    (after (.phaseReceived z ⟨3, 0⟩ 1 41 1) node).pu = node.pu := by decide +kernel

theorem test_claimReceived :
    (after (.claimReceived z ⟨4, 0⟩ 7 0 6 3) node).bu.claims = [farClaim 7 (some (Config.sec 60))] := by
  decide +kernel

theorem test_withdrawReceived :
    (after (.withdrawReceived z ⟨4, 0⟩ 7) (node.claiming [farClaim 7 (some 5)])).bu.claims = [] := by
  decide +kernel

theorem test_releaseReceived :
    (after (.releaseReceived z ⟨4, 0⟩ 7) (node.claiming [farClaim 7 (some 5)])).bu.claims = [] := by
  decide +kernel

/-- A CALL for the press. -/
def callPress : CallPayload := ⟨0, 1, ⟨11, 0⟩, ⟨0, 0⟩, ⟨0, 0⟩, ⟨0, 0⟩⟩

theorem test_callReceived :
    ((after (.callReceived z ⟨4, 0⟩ callPress) node).cc.get .c0).origins = { call := true } := by
  decide +kernel

theorem test_wake :
    ((after (.wake z ⟨2, 11⟩ 0 1) node).cc.get .c0).origins = { console := true } ∧
    (⟨2, .reply kindWake 0 0 .accepted⟩ : Frame) ∈ (after (.wake z ⟨2, 11⟩ 0 1) node).li.queue := by
  decide +kernel

theorem test_shed :
    (after (.shed z ⟨2, 11⟩ 1 1) node).li.queue = [⟨2, .reply kindShed 1 0 .deferred⟩] ∧
    ((after (.shed z ⟨2, 11⟩ 1 1) (node.during .night)).cc.get .c1).state = .rest := by
  decide +kernel

/-- A SHED that ends an isolation is judged in ISOLATED where it is taken before the return (R117). -/
theorem test_shed_before_the_return :
    (⟨2, .reply kindShed 1 0 .deferred⟩ : Frame) ∈
      (after (.shed frameFirst ⟨2, 11⟩ 1 1) { node.during .night with mc.mode := .isolated }).li.queue ∧
    (⟨2, .reply kindShed 1 0 .accepted⟩ : Frame) ∈
      (after (.shed z ⟨2, 11⟩ 1 1) { node.during .night with mc.mode := .isolated }).li.queue := by
  decide +kernel

/-- Two loads that need load 2 of their own station run, and a load that serves it waits for it to rest;
load 2 itself is being woken. -/
def node.shared : State :=
  { node with
    cc := ⟨at_ .awake, at_ .waiting, at_ (.pending .budget), at_ .awake, at_ .offline, at_ .offline⟩
    it := ⟨running, running, Tracker.reset, running, Tracker.reset, Tracker.reset⟩
    mc.image := some { small with
      channels := ⟨{ press with needs := [⟨11, 2⟩] }, { press with serves := [⟨11, 2⟩] }, press,
        { press with needs := [⟨11, 2⟩] }, .unused, .unused⟩ } }

/-- Load 2 is shed: the waiting load has its report, both running loads lose their provider, and load 2 is
called again (R57, R62, R69, log 9). -/
theorem test_shed_of_a_shared_provider :
    let t := after (.shed z ⟨2, 11⟩ 2 1) node.shared
    (t.cc.get .c1).state = .coast ∧ t.du.marks.get .c0 = [] ∧
    (t.cc.get .c2).state = .pending .claiming ∧ (t.cc.get .c2).origins = { call := true } ∧
    ([⟨0, .notice (.providerLost .c0 ⟨11, 2⟩)⟩, ⟨0, .notice (.providerLost .c3 ⟨11, 2⟩)⟩] :
      List Frame).isSublist t.li.queue = true := by decide +kernel

theorem test_hold :
    (after (.hold z ⟨2, 11⟩ 0xFF 5 1 600) node).cu.holds =
      [⟨.all, 2, 5, 1, some 600, some (Config.minutes 600)⟩] ∧
    (after (.hold z ⟨2, 11⟩ 0xFF 5 1 0) node).cu.holds = [⟨.all, 2, 5, 1, none, none⟩] := by
  decide +kernel

theorem test_unhold :
    (after (.unhold z ⟨2, 11⟩ 1 5 1) { node with cu.holds := [held1] }).cu.holds = [] ∧
    (after (.unhold z ⟨3, 11⟩ 1 5 1) { node with cu.holds := [held1] }).cu.holds = [held1] := by
  decide +kernel

/-- The press, locked with its contact open or closed. -/
def locked (closed : Bool) : Controller :=
  { Controller.reset closed with state := .locked .forced, tripCount := 1 }

theorem test_unlock :
    (after (.unlock z ⟨2, 11⟩ 0 1) (node.having .c0 (locked false))).cc.get .c0 = at_ .rest ∧
    (after (.unlock z ⟨2, 11⟩ 0 1) (node.having .c0 (locked true))).cc.get .c0 = locked true := by
  decide +kernel

/-- The fan, locked and held by its key in ISOLATED, its provider at rest, when the stagger is due. -/
def node.unlockable : State :=
  { node.having .c1 (locked false) with
    it := node.it.set .c1 Tracker.reset
    du := { node.du with peers := [peer 0 .rest, peer 1 .awake] }
    cu.keyFlag := node.cu.keyFlag.set .c1 true
    mc := { node.mc with mode := .isolated, staggerTimer := some 0 } }

/-- A channel that an UNLOCK takes to CALLING makes its first call before the stagger starts it (R61,
R146). -/
theorem test_unlock_then_stagger :
    let t := after (.unlock thenStagger ⟨2, 11⟩ 1 1) node.unlockable
    (⟨0, .call .c1 [⟨4, 0⟩]⟩ : Frame) ∈ t.li.queue ∧
    (t.cc.get .c1).state = .starting .unclaimed := by decide +kernel

/-- The hydraulic unit, idle-confirmed in ISOLATED. -/
def node.isolatedIdle : State :=
  { node.tracking .c2 (window 2) with mc.mode := .isolated }

/-- A STATE frame that brings NIGHT and moves the unit's consumer from rest to AWAKE: the unit coasts by
the consumer as it was known at the phase entry, whatever order the moment names (R111, R162). -/
theorem test_adoption_in_isolation :
    let s : State :=
      { node.isolatedIdle with
        du := { node.du with peers := [peer 0 .awake, { peer 1 .rest with feedbackClosed := false }] } }
    let c (m : Moment) : Instr :=
      .stateReceived m ⟨4, 0⟩ ⟨3, 1, 2, 42, 60, ⟨0x11, 0x11, 0, 0, 0, 0⟩⟩
    ((after (c z) s).cc.get .c2).state = .coast ∧ after (c frameFirst) s = after (c z) s ∧
    after (c thenStagger) s = after (c z) s := by decide +kernel

/-- The return admits the unit to WAITING, and it coasts there, its consumer at rest: a WAKE that comes with
the return finds it coasting after the return, and running before it (R19, R117, R129). -/
theorem test_return_then_wake :
    let s : State :=
      { node.isolatedIdle with
        du := { node.du with peers := [peer 0 .awake, { peer 1 .rest with feedbackClosed := false }] }
        pu.phase := .night }
    let t := after (.wake z ⟨2, 11⟩ 2 1) s
    let u := after (.wake frameFirst ⟨2, 11⟩ 2 1) s
    ((t.cc.get .c2).state = .coast ∧ (t.cc.get .c2).origins = { console := true } ∧
      (⟨2, .reply kindWake 2 0 .deferred⟩ : Frame) ∈ t.li.queue) ∧
    ((u.cc.get .c2).state = .awake ∧ (u.it.get .c2).count = 0 ∧
      (⟨2, .reply kindWake 2 0 .accepted⟩ : Frame) ∈ u.li.queue) := by decide +kernel

/-- The press waits for room beside these claims. -/
def node.budgeting (claims : List Claim) : State :=
  { node.having .c0 (at_ (.pending .budget)) with bu.claims := claims }

/-- A claim of station 17 for its Ch0, of rank 1. -/
def claim17 (number : Nat) (status : ClaimStatus) (timer : Timer) : Claim :=
  ⟨17, number, .c0, 6, 1, status, timer⟩

/-- A newer claim of a station for one channel: the older leaves the table, at which the press is claimed
for, and the newer is recorded during that claim (R80, R92). -/
theorem test_claimReceived_older :
    let s := node.budgeting [claim17 7 (.remote []) (some 5), { farClaim 1 (some 5) with weight := 3 }]
    let t := after (.claimReceived z ⟨17, 0⟩ 8 0 6 1) s
    (t.cc.get .c0).state = .pending .claiming ∧
    t.bu.claims =
      [{ farClaim 1 (some 5) with weight := 3, status := .remote [(1, .before)] },
        ownClaim .provisional (some (Config.ms 500)),
        claim17 8 (.remote [(1, .during)]) (some (Config.sec 60))] := by decide +kernel

/-- In a full table the newer claim takes the older one's place (R95, log 8). -/
theorem test_claimReceived_older_full :
    let others := (List.range 23).map fun n => { farClaim (n + 1) (some 5) with weight := 0 }
    let t := after (.claimReceived z ⟨17, 0⟩ 8 0 6 1)
      (node.budgeting (claim17 7 (.remote []) (some 5) :: others))
    t.bu.overflow = false ∧ (t.cc.get .c0).state = .pending .budget ∧
    t.bu.claims = others ++ [claim17 8 (.remote []) (some (Config.sec 60))] := by decide +kernel

/-- A trip and a lock are noticed, and a start with the contact open opens a disagreement (R4, R168). -/
theorem test_notices_and_marks :
    (⟨0, .notice (.tripped .c1 .dropout)⟩ : Frame) ∈
      (after (.feedbackMismatch z .c1) (node.having .c1 dropped)).li.queue ∧
    (⟨0, .notice (.locked .c0 .welded)⟩ : Frame) ∈
      (after (.feedbackMismatch z .c0) (node.having .c0 welded)).li.queue ∧
    ((after (.settleExpiry z .c0) node.settling).cc.get .c0).mark = some .output ∧
    ((after (.settleExpiry z .c0) node.settling).cc.get .c0).mismatchTimer =
      some (Config.ms 500) := by decide +kernel

/-- What a disturbed line lets the node read back in the opening field, where it is no lower station's
number, has no effect (log 34). -/
theorem test_contentionLost_higher :
    after (.contentionLost z 12) (node.sending report) = node.sending report := by decide +kernel

theorem test_replyReceived :
    (after (.replyReceived z ⟨4, 11⟩ 7 0 0 0) (node.inMode .isolated)).mc.mode = .operating := by
  decide +kernel

theorem test_noticeReceived :
    (after (.noticeReceived z ⟨11, 0⟩ 0 3 1 0) node).mc.mode = .silent := by decide +kernel

/-- Before the first access gap after a reset no frame is taken (R150). -/
theorem test_frame_before_the_first_gap :
    after (.noticeReceived z ⟨11, 0⟩ 0 3 1 0) { node with li.awaitingGap := true } =
      { node with li.awaitingGap := true } ∧
    (after (.lineAccessGap z) { node with li.awaitingGap := true }).li.awaitingGap = false := by
  decide +kernel

/-- A notice of Ch0 joins before the HOLD_EXPIRED of a hold of Ch3, and after that of ALL (R169, log 15). -/
theorem test_notice_order :
    ({ expiredHolds := [(.all, 1), (.channel .c3, 5)],
       notices := (PerChannel.all []).set .c0 [report] } : Outbox).allNotices =
      [expiryNotice (.all, 1), report, expiryNotice (.channel .c3, 5)] := by decide +kernel

theorem test_step_idles : step node = .next node := rfl

/-! ## Nodes that meet the hypotheses of the statements

Each theorem is named after its statement, and shows its hypotheses together at states and operands of
this file; where a statement has several clauses, each clause has its line. -/

theorem witness_ResetPutsEveryBlockAtItsResetValues :
    node.mc.inReset = false ∧ State.reset.mc.inReset = true := by decide +kernel

theorem witness_ResetReleaseReadsTheAddress :
    State.reset.mc.inReset = true ∧ State.reset.mc.image = none ∧ State.reset.settled :=
  ⟨rfl, rfl, settled_of_all (by decide +kernel)⟩

/-- Station 11 in LOADING, the contact of its Ch1 closed. -/
def loadingClosed : State :=
  { loading with cc := loading.cc.set .c1 (Controller.reset true) }

theorem witness_AcceptedImageStartsListening :
    loadingClosed.mc.mode = .loading ∧ loadingClosed.mc.inReset = false ∧ loadingClosed.settled ∧
    (∀ ch, (loadingClosed.cc.get ch).state = .offline) ∧
    judgeImage loadingClosed.mc.station answers = .accepted (imageOf answers) ∧
    ((imageOf answers).channels.get .c2).kind = .none ∧
    (((imageOf answers).channels.get .c1).kind ≠ .none ∧
      (loadingClosed.cc.get .c1).feedbackClosed = true) ∧
    (((imageOf answers).channels.get .c0).kind ≠ .none ∧
      (loadingClosed.cc.get .c0).feedbackClosed = false) :=
  ⟨rfl, rfl, settled_of_all (by decide +kernel), of_all_channels (by decide +kernel), by decide +kernel,
    by decide +kernel, by decide +kernel, by decide +kernel⟩

theorem witness_RejectedImageStartsTheBypassTimers :
    loading.mc.mode = .loading ∧ loading.mc.inReset = false ∧
    (∀ ch, (loading.cc.get ch).state = .offline) ∧
    judgeImage loading.mc.station noHeader = .rejected .noImage 0 :=
  ⟨rfl, rfl, of_all_channels (by decide +kernel), by decide +kernel⟩

/-- The answers with a provider of Ch0 on the line, and Ch2 to Ch5 unused. -/
def answersWithNeeds : ImageRead :=
  { answers with channels := answers.channels.set .c0 (some (checked
      ([1, 1, 4, 15, 2, 20, 0, 240, 20, 50, 0, 60, 1, 0, 120, 1, 1, 4, 0] ++ List.replicate 23 0))) }

theorem witness_AcceptedImageIsInBounds :
    judgeImage 11 answersWithNeeds = .accepted (imageOf answersWithNeeds) ∧
    ((imageOf answersWithNeeds).channels.get .c0).kind ≠ .none ∧
    (⟨4, 0⟩ : Ref) ∈ ((imageOf answersWithNeeds).channels.get .c0).needs ∧
    ((imageOf answersWithNeeds).channels.get .c2).kind = .none ∧
    (imageOf answersWithNeeds).consoles = [⟨2, 0⟩] := by decide +kernel

theorem witness_FeedbackChangeMovesTheFlag :
    (node.cc.get .c1).feedbackClosed ≠ false ∧ node.mc.mode ≠ .loading ∧
    (node.cc.get .c1).state.stays = true ∧ (node.cc.get .c1).state.supervised = true ∧
    (node.cc.get .c1).state.energised ≠ false ∧
    ((node.having .c1 dropped).cc.get .c1).feedbackClosed ≠ true ∧
    ((node.having .c1 dropped).cc.get .c1).state.energised = true := by decide +kernel

/-- The press rests, wakes or coasts, and the hydraulic unit waits, in a settled node. -/
theorem witness_FeedbackChangeMovesTheFlag_settled :
    let good (ch : Ch) (st : ChState) : Prop :=
      (node.having ch (at_ st)).settled ∧ st.supervised = true ∧ (at_ st).feedbackClosed = st.energised
    good .c0 .rest ∧ good .c0 (.pending .budget) ∧ good .c0 .coast ∧ good .c2 .waiting :=
  ⟨⟨settled_of_all (by decide +kernel), rfl, rfl⟩, ⟨settled_of_all (by decide +kernel), rfl, rfl⟩,
    ⟨settled_of_all (by decide +kernel), rfl, rfl⟩, ⟨settled_of_all (by decide +kernel), rfl, rfl⟩⟩

theorem witness_EnergisedMismatchTrips :
    dropped.state.supervised = true ∧ dropped.state.energised = true ∧ dropped.mark = some .feedback ∧
    Timer.due dropped.mismatchTimer = true ∧
    dropped.tripCount ≤ ((node.having .c1 dropped).record .c1).retryLimit + 1 ∧
    (node.having .c1 dropped).elapse 0 = node.having .c1 dropped ∧
    (node.failing.claimTableSound ∧ node.failing.elapse 0 = node.failing ∧
      (node.failing.cc.get .c0).state = .starting .claimed ∧
      (node.failing.cc.get .c0).mark = some .output ∧
      node.failing.liveOf .c0 = some (ownClaim .live none)) :=
  ⟨by decide +kernel, by decide +kernel, by decide +kernel, by decide +kernel, by decide +kernel,
    by decide +kernel, sound_of_claims _ (by decide +kernel), by decide +kernel⟩

theorem witness_DeenergisedMismatchLocks :
    let a := (node.having .c0 welded).elapse 0
    (a.cc.get .c0).state.supervised = true ∧ (a.cc.get .c0).state.energised = false ∧
    (a.cc.get .c0).mark = some .output ∧ Timer.due (a.cc.get .c0).mismatchTimer = true := by
  decide +kernel

/-- At the limit the channel is woken; one trip past it, locked. -/
theorem witness_RetryExpiryWakesOrLocks :
    (tripped 1).state = .tripped .dropout ∧ Timer.due (tripped 1).retryTimer = true ∧
    (tripped 1).tripCount ≤ (node.record .c0).retryLimit ∧
    (tripped 2).state = .tripped .dropout ∧ Timer.due (tripped 2).retryTimer = true ∧
    (node.record .c0).retryLimit < (tripped 2).tripCount ∧
    (node.having .c0 (tripped 1)).elapse 0 = node.having .c0 (tripped 1) ∧
    (node.having .c0 (tripped 2)).elapse 0 = node.having .c0 (tripped 2) := by decide +kernel

theorem witness_RunDownEndsInRestOrPending :
    let a := (node.having .c0 (coasted {})).elapse 0
    (a.cc.get .c0).state = .coast ∧ Timer.due (a.cc.get .c0).runDownTimer = true ∧
    (a.cc.get .c0).origins = {} ∧ (node.having .c0 (coasted {})).settled ∧
    (∀ k, ((node.having .c0 (coasted {})).cc.get k).state ≠ .waiting) ∧
    (coasted { call := true }).state = .coast ∧
    Timer.due (coasted { call := true }).runDownTimer = true ∧
    (coasted { call := true }).origins ≠ {} :=
  ⟨by decide +kernel, by decide +kernel, by decide +kernel, settled_of_all (by decide +kernel),
    of_all_channels (by decide +kernel), by decide, by decide, by decide⟩

theorem witness_InrushExpiryReachesAwake :
    let a := (node.starting .claimed).elapse 0
    (a.cc.get .c0).state = .starting .claimed ∧ Timer.due (a.cc.get .c0).inrushTimer = true ∧
    a.liveOf .c0 = some (ownClaim .live none) ∧ a.mc.station ≠ 0 ∧ a.mc.mode = .operating := by
  decide +kernel

theorem witness_InrushHoldExpiryReleasesTheClaim :
    let a := (node.claiming [ownClaim .live (some 0)]).elapse 0
    a.liveOf .c0 = some (ownClaim .live (some 0)) ∧
    Timer.due (ownClaim .live (some 0)).timer = true ∧ (a.cc.get .c1).state.stays = true ∧
    (node.claiming [ownClaim .live (some 0)]).settled ∧ (a.cc.get .c0).state = .rest :=
  ⟨by decide +kernel, by decide +kernel, by decide +kernel, settled_of_all (by decide +kernel),
    by decide +kernel⟩

/-- The node, the fan's activity having ended. -/
def node.quiet : State := node.tracking .c1 { onset with active := true }

theorem witness_ActivityDebounceTakesTheLevel :
    (node.active.elapse 0).it.get .c1 = onset ∧ onset.status ≠ .stopped ∧
    Timer.due onset.debounceTimer = true ∧ node.active.pins.senseActive.get .c1 = true ∧
    (node.active.cc.get .c1).state.tracked = true ∧
    (node.quiet.elapse 0).it.get .c1 = { onset with active := true } ∧
    node.quiet.pins.senseActive.get .c1 = false ∧ node.quiet.settled :=
  ⟨by decide +kernel, by decide, by decide, by decide, by decide, by decide +kernel, by decide +kernel,
    settled_of_all (by decide +kernel)⟩

/-- Four marks whose intervals differ from their mean of 8 s by exactly an eighth of it have a cadence;
one step further off they have none, and neither have intervals of 0.9 s. -/
theorem test_cadence :
    cadenceOf [240, 150, 80, 0] = some 8 ∧ cadenceOf [240, 149, 80, 0] = none ∧
    cadenceOf [27, 18, 9, 0] = none ∧ cadenceOf [30, 20, 10, 0] = some 1 ∧
    cadenceOf [20, 10, 0] = none := by decide +kernel

/-- The node in NIGHT, a window of a load run. -/
def node.judging (ch : Ch) (count : Nat) : State :=
  { node.tracking ch (window count) with pu.phase := .night }

/-- The window of the fan that makes it idle-confirmed, its consumers at rest; the same of the hydraulic
unit, whose consumer runs; and one window short of it. -/
theorem witness_IdleWindowExpiryJudgesTheWindow :
    ((node.judging .c1 1).settled ∧ ((node.judging .c1 1).cc.get .c1).state = .awake ∧
      (window 1).status = .running ∧ Timer.due (window 1).windowTimer = true ∧
      (window 1).active = false ∧ (window 1).cadence = none ∧
      (node.judging .c1 1).held .c1 = false ∧
      (window 1).count < ((node.judging .c1 1).record .c1).requiredCount ∧
      ((node.judging .c1 1).record .c1).requiredCount ≤ min ((window 1).count + 1) 15 ∧
      (node.judging .c1 1).pu.phase.permits ((node.judging .c1 1).record .c1).rank = true ∧
      (node.judging .c1 1).mc.mode = .operating ∧
      (node.judging .c1 1).consumersVerdict .c1 = true) ∧
    ((node.judging .c2 1).settled ∧ ((node.judging .c2 1).cc.get .c2).state = .awake ∧
      (node.judging .c2 1).consumersVerdict .c2 = false) ∧
    ((node.judging .c1 0).settled ∧
      ¬((node.judging .c1 0).record .c1).requiredCount ≤ min ((window 0).count + 1) 15) :=
  ⟨⟨settled_of_all (by decide +kernel), by decide +kernel⟩,
    ⟨settled_of_all (by decide +kernel), by decide +kernel⟩,
    settled_of_all (by decide +kernel), by decide +kernel⟩

theorem witness_InputChangesDebounce :
    node.settled ∧ node.pins.senseActive.get .c1 ≠ true ∧ node.pins.keyOn.get .c1 ≠ true ∧
    node.pins.buttonPressed.get .c1 ≠ true ∧ node.mc.inReset = false :=
  ⟨node_settled, by decide +kernel⟩

theorem witness_HoldKeyDebounceSetsTheFlag :
    let a := (node.keyed .c1).elapse 0
    Timer.due (a.cu.keyTimer.get .c1) = true ∧ a.held .c1 = false ∧ a.configured .c1 = true ∧
    a.pins.keyOn.get .c1 = true ∧ (a.cc.get .c1).state.tracked = true ∧
    (a.it.get .c1).status = .running := by decide +kernel

/-- The fan runs, held, its tracker paused with 5 s left and a count; nothing else holds it once its
cause has gone. -/
def node.pausing (count : Nat) : State :=
  { node.tracking .c1
      { running with
        status := .paused
        windowTimer := none
        remaining := some (Config.sec 5)
        count := count } with
    pu.phase := .night }

/-- The same, held by its key, which is off again for the debounce. -/
def node.keyedOff (count : Nat) : State :=
  { node.pausing count with
    cu.keyFlag := node.cu.keyFlag.set .c1 true
    cu.keyTimer := node.cu.keyTimer.set .c1 (some 0) }

/-- A channel that ceases to be held with its count at the required count, and one below it. -/
theorem witness_HoldKeyDebounceSetsTheFlag_resumes :
    let a := (node.keyedOff 2).elapse 0
    let b := (node.keyedOff 0).elapse 0
    Timer.due (a.cu.keyTimer.get .c1) = true ∧ a.held .c1 = true ∧
    (after (.holdKeyDebounceExpiry z .c1) (node.keyedOff 2)).held .c1 = false ∧
    (a.cc.get .c1).state = .awake ∧ (a.it.get .c1).status = .paused ∧
    (a.it.get .c1).remaining ≠ some 0 ∧ (a.record .c1).requiredCount ≤ (a.it.get .c1).count ∧
    a.pu.phase.permits (a.record .c1).rank = true ∧ a.mc.mode = .operating ∧
    a.consumersVerdict .c1 = true ∧ b.held .c1 = true ∧
    (after (.holdKeyDebounceExpiry z .c1) (node.keyedOff 0)).held .c1 = false ∧
    ¬(b.record .c1).requiredCount ≤ (b.it.get .c1).count := by decide +kernel

/-- The press, locked, held by its key, which is off again for the debounce. -/
def node.lockedOff : State :=
  { node.having .c0 (locked false) with
    cu.keyFlag := node.cu.keyFlag.set .c0 true
    cu.keyTimer := node.cu.keyTimer.set .c0 (some 0) }

/-- A channel whose tracker is STOPPED, without a timer, ceases to be held. -/
theorem witness_HoldKeyDebounceSetsTheFlag_stopped :
    let a := node.lockedOff.elapse 0
    Timer.due (a.cu.keyTimer.get .c0) = true ∧ a.held .c0 = true ∧
    (after (.holdKeyDebounceExpiry z .c0) node.lockedOff).held .c0 = false ∧
    (a.cc.get .c0).state.stays = true ∧ (a.cc.get .c0).state ≠ .awake ∧
    (a.it.get .c0).status = .stopped ∧ (a.it.get .c0).windowTimer = none := by decide +kernel

/-- The hold of the fan is its one cause; its expiry, and an UNHOLD, end it. -/
theorem witness_HoldEntryExpiryRemovesTheEntries :
    let s : State := { node.pausing 2 with cu.holds := [held1] }
    (s.elapse 0).held .c1 = true ∧
    (after (.holdEntryExpiry z [⟨2, .channel .c1, 5⟩]) s).held .c1 = false ∧
    (s.speaks ∧ Timer.due held1.timer = true ∧ held1.key = ⟨2, .channel .c1, 5⟩) ∧
    s.onLine ∧ s.hears ⟨2, 11⟩ kindUnhold [1, 5, 1] ∧ s.commandTarget? 1 = some (.channel .c1) ∧
    (after (.unhold z ⟨2, 11⟩ 1 5 1) s).held .c1 = false := by
  unfold State.onLine State.hears State.speaks; decide +kernel

theorem witness_WakeButtonPressWakes :
    let a := (node.pressed .c0).elapse 0
    let b := (node.pressed .c1).elapse 0
    Timer.due (a.cu.buttonTimer.get .c0) = true ∧ a.pins.buttonPressed.get .c0 = true ∧
    a.mc.mode = .operating ∧ (a.cc.get .c0).state = .rest ∧ (a.cc.get .c0).state.tracked = false ∧
    Timer.due (b.cu.buttonTimer.get .c1) = true ∧ b.pins.buttonPressed.get .c1 = true ∧
    (b.cc.get .c1).state.tracked = true := by decide +kernel

theorem witness_CallWaitExpiryEndsCalling :
    let a := node.calling.elapse 0
    (a.cc.get .c1).state = .pending .calling ∧ Timer.due (a.du.callWait.get .c1) = true ∧
    (a.record .c1).needs.find? (fun r => !a.available r) = some ⟨4, 0⟩ ∧ node.calling.speaks := by
  unfold State.speaks; decide +kernel

/-- A local reference, a remote one with a present entry, and a remote one without an entry. -/
theorem witness_AgeTimerExpiryMakesTheEntriesAbsent :
    (⟨11, 2⟩ : Ref).station = node.mc.station ∧ (⟨11, 2⟩ : Ref).channel = Ch.c2.toNat ∧
    (⟨4, 0⟩ : Ref).station ≠ node.mc.station ∧
    node.du.peers.find? (fun p => p.ref == ⟨4, 0⟩) = some (peer 0 .awake) ∧
    (peer 0 .awake).isPresent = true ∧ (peer 0 .awake).state = some .awake ∧
    node.du.peers.find? (fun p => p.ref == ⟨5, 0⟩) = none := by decide +kernel

/-- The entries of station 4 are due, and named. -/
theorem witness_AgeTimerExpiryMakesTheEntriesAbsent_notice :
    node.stale.speaks ∧ ∃ p ∈ (node.stale.elapse 0).du.peers,
      Timer.due p.ageTimer = true ∧ p.ref.station ∈ [4] := by
  unfold State.speaks; decide +kernel

/-- The provider of the fan, which runs or starts, is reported in REST; no mark is set. -/
theorem witness_StateFrameUpdatesPeersAndPhase_lost :
    let p : StatePayload := ⟨3, 1, 0, 0, 0, ⟨0x04, 0x11, 0, 0, 0, 0⟩⟩
    node.hears ⟨4, 0⟩ kindState (statePayloadBytes p) ∧ (⟨4, 0⟩ : Ref) ∈ (node.record .c1).needs ∧
    (⟨4, 0⟩ : Ref) ∈ node.du.peers.map PeerEntry.ref ∧ (⟨4, 0⟩ : Ref) ∉ node.du.marks.get .c1 ∧
    (node.cc.get .c1).state = .awake ∧ p.epoch ≤ node.pu.epoch ∧
    ((node.having .c1 (at_ (.starting .claimed))).cc.get .c1).state = .starting .claimed ∧
    StateCode.ofNat? ((p.reports.get .c0).toNat % 16) = some .rest := by
  unfold State.hears; decide +kernel

/-- The report of station 4 in NIGHT at epoch 42, in the mode with a code. -/
def nightReport (mode : Byte) : StatePayload := ⟨mode, 1, 2, 42, 60, ⟨0x01, 0x11, 0, 0, 0, 0⟩⟩

theorem witness_StateFrameUpdatesPeersAndPhase :
    node.onLine ∧ node.hears ⟨4, 0⟩ kindState (statePayloadBytes (nightReport 3)) ∧
    node.mc.image = some small ∧ Phase.ofNat? (nightReport 3).phase.toNat = some .night ∧
    (nightReport 3).mode.toNat = 3 ∧ (nightReport 3).source.toNat ≤ 63 ∧
    node.pu.epoch < (nightReport 3).epoch ∧
    node.hears ⟨4, 0⟩ kindState (statePayloadBytes (nightReport 4)) ∧
    (nightReport 4).mode.toNat ≠ 3 := by
  unfold State.onLine State.hears; decide +kernel

theorem witness_CallFrameWakesTheNamedLoad :
    node.mc.mode = .operating ∧ node.hears ⟨4, 0⟩ kindCall (callPayloadBytes callPress) ∧
    (⟨11, 0⟩ : Ref) ∈ callTargets callPress ∧ node.mc.station = 11 ∧ node.configured .c0 = true ∧
    (node.cc.get .c0).state = .rest ∧
    (node.having .c0 (locked false)).hears ⟨4, 0⟩ kindCall (callPayloadBytes callPress) ∧
    ((node.having .c0 (locked false)).cc.get .c0).state.isLocked = true := by
  unfold State.hears; decide +kernel

/-- A CALL for the hydraulic unit. -/
def callPump : CallPayload := ⟨0, 1, ⟨11, 2⟩, ⟨0, 0⟩, ⟨0, 0⟩, ⟨0, 0⟩⟩

/-- The unit in the other states: each node is settled. -/
theorem witness_CallFrameWakesTheNamedLoad_states :
    let named (st : ChState) : Prop :=
      (node.having .c2 (at_ st)).hears ⟨4, 0⟩ kindCall (callPayloadBytes callPump) ∧
        (node.having .c2 (at_ st)).configured .c2 = true ∧ (node.having .c2 (at_ st)).settled
    (⟨11, 2⟩ : Ref) ∈ callTargets callPump ∧ named .coast ∧ named (.pending .budget) ∧
    named (.starting .claimed) ∧ named (.tripped .dropout) ∧ named .waiting :=
  ⟨by decide,
    ⟨by unfold State.hears; decide +kernel, by decide +kernel, settled_of_all (by decide +kernel)⟩,
    ⟨by unfold State.hears; decide +kernel, by decide +kernel, settled_of_all (by decide +kernel)⟩,
    ⟨by unfold State.hears; decide +kernel, by decide +kernel, settled_of_all (by decide +kernel)⟩,
    ⟨by unfold State.hears; decide +kernel, by decide +kernel, settled_of_all (by decide +kernel)⟩,
    ⟨by unfold State.hears; decide +kernel, by decide +kernel, settled_of_all (by decide +kernel)⟩⟩

theorem witness_OutrankingFollowsTheTable :
    (ownClaim .provisional none).status = .provisional ∧
    (ownClaim .live none).status = .live ∧
    [(1, Arrival.before)].find? (fun k => k.1 == (ownClaim .provisional none).number) =
      some ((ownClaim .provisional none).number, .before) ∧
    [(1, Arrival.during)].find? (fun k => k.1 == (ownClaim .provisional none).number) =
      some ((ownClaim .provisional none).number, .during) := by decide

theorem witness_SettledClaimStartsTheLoad :
    node.settling.claimTableSound ∧
    ((node.settling.elapse 0).cc.get .c0).state = .pending .claiming ∧
    (node.settling.elapse 0).provisionalOf .c0 = some (ownClaim .provisional (some 0)) ∧
    Timer.due (ownClaim .provisional (some 0)).timer = true ∧ node.settling.mc.mode = .operating :=
  ⟨sound_of_claims _ (by decide +kernel), by decide +kernel⟩

theorem witness_RemoteClaimsEnd :
    (node.claiming [farClaim 7 (some 0)]).claimTableSound ∧
    ((node.claiming [farClaim 7 (some 0)]).elapse 0).bu.claims.any (Claim.expiresAs 4 7) = true ∧
    (node.claiming [farClaim 7 (some 0)]).onLine ∧
    (node.claiming [farClaim 7 (some 0)]).hears ⟨4, 0⟩ kindWithdraw [7] ∧
    (node.claiming [farClaim 7 (some 0)]).hears ⟨4, 0⟩ kindRelease [7] ∧
    (node.inMode .silent).mc.mode = .silent ∧ (node.inMode .silent).hears ⟨4, 0⟩ kindRelease [7] :=
  ⟨sound_of_claims _ (by decide +kernel), by unfold State.onLine State.hears; decide +kernel⟩

/-- A claim of the press is created with the last number, beside a remote claim that leaves just its weight
free. -/
def node.gappedAt255 : State :=
  { node.gapped with
    bu.counter := 255
    bu.claims := [farClaim 7 (some 5)] }

theorem witness_OverflowAndRetryGapEnd :
    Timer.due (node.overflowing.elapse 0).bu.overflowTimer = true ∧
    Timer.due ((node.gappedAt255.elapse 0).bu.retryGap.get .c0) = true ∧
    node.gappedAt255.settled ∧ node.gappedAt255.mc.mode = .operating ∧
    node.gappedAt255.mc.image = some small ∧ node.gappedAt255.mc.station ≠ 0 ∧
    (node.gappedAt255.cc.get .c0).state = .pending .budget ∧
    (∀ k, k ≠ .c0 → (node.gappedAt255.cc.get k).state ≠ .pending .budget) ∧
    (1 ≤ (node.gappedAt255.record .c0).rank ∧ (node.gappedAt255.record .c0).rank ≤ 3) ∧
    node.gappedAt255.bu.overflow = false ∧
    (∀ c ∈ node.gappedAt255.bu.claims, c.isOwn = true → c.ch ≠ .c0 ∧ c.number ≠ 255) ∧
    node.gappedAt255.bu.claims.length < 24 ∧ node.gappedAt255.li.queue.length < 16 ∧
    (node.gappedAt255.bu.claims.map Claim.weight).sum + (node.gappedAt255.record .c0).weight =
      small.plantBudget :=
  ⟨by decide +kernel, by decide +kernel, settled_of_all (by decide +kernel), by decide +kernel,
    by decide +kernel, by decide +kernel, by decide +kernel, of_all_channels (by decide +kernel),
    by decide +kernel⟩

/-- The created claim, in the state after. -/
theorem test_retryGapExpiry_creates :
    let t := after (.retryGapExpiry z .c0) node.gappedAt255
    t.bu.counter = 1 ∧
    t.bu.claims = [⟨4, 7, .c0, 6, 3, .remote [(255, .before)], some 5⟩,
      ⟨11, 255, .c0, 4, 1, .provisional, some (Config.ms 500)⟩] ∧
    t.li.queue = [⟨0, .claim 255 .c0 4 1⟩] := by decide +kernel

/-- A CLAIM at the bounds of its ranges, at a table with room; and at a full table, of a station with a
claim of that key in it, and of one with none. -/
theorem witness_ClaimFrameIsRecorded :
    node.claimTableSound ∧ node.onLine ∧ node.hears ⟨4, 0⟩ kindClaim [255, 5, 63, 3] ∧
    node.mc.image = some small ∧ node.bu.claims.length < 24 ∧
    (node.claiming fullTable).claimTableSound ∧ (node.claiming fullTable).bu.claims.length = 24 ∧
    (∃ c ∈ fullTable, c.station = 4 ∧ (c.number = 1 ∨ c.ch = .c5)) ∧
    (∀ c ∈ fullTable, c.station = 5 → c.number ≠ 1 ∧ c.ch ≠ .c0) ∧
    (node.claiming fullTable).hears ⟨5, 0⟩ kindClaim [1, 0, 1, 1] :=
  ⟨sound_of_claims _ (by decide +kernel), by unfold State.onLine; decide +kernel,
    by unfold State.hears; decide +kernel, by decide +kernel, by decide +kernel,
    sound_of_claims _ (by decide +kernel), by decide +kernel, by decide +kernel, by decide +kernel,
    by unfold State.hears; decide +kernel⟩

/-- The press claims; the table is full of claims of station 4 beside its own. -/
def node.fullyClaiming : State :=
  { node.settling with bu.claims := ownClaim .provisional (some 5) :: fullTable.take 23 }

/-- At the full table a PROVISIONAL claim is withdrawn; at one with room a CLAIM of higher rank is checked
against it: with weight 6 the two fit the budget of 10, with weight 7 they do not. -/
theorem witness_ClaimFrameIsRecorded_conflict :
    (node.fullyClaiming.claimTableSound ∧ node.fullyClaiming.bu.claims.length = 24 ∧
      (∀ c ∈ node.fullyClaiming.bu.claims, c.station = 5 → c.number ≠ 1 ∧ c.ch ≠ .c0) ∧
      node.fullyClaiming.bu.overflow = false ∧ node.fullyClaiming.provisionalClaiming ∧
      (∀ c ∈ node.fullyClaiming.bu.claims, c.isProvisional = true → 1 ≤ c.rank ∧ c.rank ≤ 3) ∧
      node.fullyClaiming.settled ∧ node.fullyClaiming.li.queue.length ≤ 9) ∧
    (node.settling.claimTableSound ∧ node.settling.settled ∧
      node.settling.hears ⟨4, 0⟩ kindClaim [7, 0, 6, 3] ∧
      node.settling.hears ⟨4, 0⟩ kindClaim [7, 0, 7, 3] ∧
      ownClaim .provisional (some 0) ∈ (node.settling.elapse 0).bu.claims ∧
      (∀ c ∈ (node.settling.elapse 0).bu.claims, c.isProvisional = true →
        c = ownClaim .provisional (some 0)) ∧
      (node.settling.cc.get .c0).state = .pending .claiming ∧ 6 + 4 ≤ small.plantBudget ∧
      small.plantBudget < 7 + 4 ∧ node.settling.li.queue.length < 16) :=
  ⟨⟨sound_of_claims _ (by decide +kernel), by decide +kernel, by decide +kernel, by decide +kernel,
      by unfold State.provisionalClaiming; decide +kernel, by decide +kernel,
      settled_of_all (by decide +kernel), by decide +kernel⟩,
    sound_of_claims _ (by decide +kernel), settled_of_all (by decide +kernel),
    by unfold State.hears; decide +kernel⟩

/-- The weight decides, and the withdrawn claim's channel waits for its gap. -/
theorem test_claimReceived_conflict :
    let t := after (.claimReceived z ⟨4, 0⟩ 7 0 7 3) node.settling
    ownClaim .provisional (some 0) ∈ (after (.claimReceived z ⟨4, 0⟩ 7 0 6 3) node.settling).bu.claims ∧
    (t.cc.get .c0).state = .pending .budget ∧ t.bu.retryGap.get .c0 = some (Config.ms 4100) ∧
    t.li.queue = [⟨0, .withdraw 1⟩] := by decide +kernel

theorem witness_PhasePermission : 1 ≤ 1 ∧ 3 ≤ 3 := by decide

/-- The hydraulic unit waits in NIGHT; DAY follows. -/
def node.night : State := { node.having .c2 (at_ .waiting) with pu := ⟨.night, 41, 2⟩ }

theorem witness_PhaseFrameIsAdopted :
    node.night.onLine ∧ node.night.hears ⟨2, 0⟩ kindPhase ([0] ++ bytes32 42 ++ [1]) ∧
    Phase.ofNat? 0 = some .day ∧ node.night.effectiveLevel 2 1 ≤ 1 ∧ node.night.pu.epoch < 42 ∧
    ((node.night.elapse 0).cc.get .c2).state = .waiting ∧ node.night.pu.phase ≠ .day ∧
    Phase.day.permits (node.night.record .c2).rank = false ∧
    node.night.hears ⟨2, 0⟩ kindPhase ([4] ++ bytes32 42 ++ [1]) ∧ Phase.ofNat? 4 = none ∧
    node.night.hears ⟨2, 0⟩ kindPhase ([0] ++ bytes32 41 ++ [1]) ∧ ¬node.night.pu.epoch < 41 := by
  unfold State.onLine State.hears; decide +kernel

/-- The fan, idle-confirmed in DAY, is to rest at an entry to NIGHT; not idle-confirmed, it is not; the
press at rest is woken at an entry to MORNING. -/
theorem witness_PhaseFrameIsAdopted_entries :
    let s := node.tracking .c1 (window 2)
    s.onLine ∧ s.hears ⟨2, 0⟩ kindPhase ([2] ++ bytes32 42 ++ [1]) ∧
    Phase.ofNat? 2 = some .night ∧ s.pu.phase ≠ .night ∧ s.pu.epoch < 42 ∧
    ((s.elapse 0).cc.get .c1).state = .awake ∧
    ((s.elapse 0).record .c1).requiredCount ≤ ((s.elapse 0).it.get .c1).count ∧
    Phase.night.permits (s.record .c1).rank = true ∧ s.held .c1 = false ∧ s.mc.mode = .operating ∧
    (s.elapse 0).consumersVerdict .c1 = true ∧
    ¬((node.elapse 0).record .c1).requiredCount ≤ ((node.elapse 0).it.get .c1).count ∧
    node.hears ⟨2, 0⟩ kindPhase ([3] ++ bytes32 42 ++ [1]) ∧ Phase.ofNat? 3 = some .morning ∧
    node.pu.phase ≠ .morning ∧ node.configured .c0 = true ∧ (node.record .c0).morning = true ∧
    (node.cc.get .c0).state = .rest := by
  unfold State.onLine State.hears; decide +kernel

/-- An ISOLATED node that adopts NIGHT from a PHASE frame, and from a STATE frame. -/
theorem witness_PhaseFrameIsAdopted_isolated :
    let s := node.inMode .isolated
    s.mc.mode = .isolated ∧ s.hears ⟨2, 0⟩ kindPhase ([2] ++ bytes32 42 ++ [1]) ∧
    Phase.ofNat? 2 = some .night ∧ s.effectiveLevel 2 1 ≤ 1 ∧ s.pu.epoch < 42 ∧
    s.hears ⟨4, 0⟩ kindState (statePayloadBytes (nightReport 3)) ∧ s.mc.image = some small ∧
    (nightReport 3).source.toNat ≤ 63 ∧ s.pu.epoch < (nightReport 3).epoch := by
  unfold State.hears; decide +kernel

/-- The node with one command waiting. -/
def node.facing (c : Instr) : State := { node with pending := [c] }

theorem witness_EpochNeverDecreases :
    step (node.facing (.frameSent z)) = .next (after (.frameSent z) node) ∧
    (∀ m cause rest, (node.facing (.frameSent z)).pending ≠ .reset m cause :: rest) ∧
    step (node.facing (.reset z .dip)) = .next (after (.reset z .dip) node) :=
  ⟨rfl, fun _ _ _ h => by simp [node.facing] at h, rfl⟩

theorem witness_WakeActsByState :
    node.mc.mode = .operating ∧ node.hears ⟨2, 11⟩ kindWake [0, 3] ∧
    node.hears ⟨2, 11⟩ kindWake [1, 3] ∧ node.mc.station = 11 ∧ node.configured .c0 = true ∧
    node.configured .c1 = true ∧ (node.elapse 0).effectiveLevel 2 3 ≤ 3 ∧
    ((node.elapse 0).cc.get .c0).state = .rest ∧
    ((node.elapse 0).cc.get .c0).state.tracked = false ∧
    ((node.elapse 0).cc.get .c1).state.tracked = true ∧
    (node.having .c0 (locked true)).hears ⟨2, 11⟩ kindWake [0, 3] ∧
    ((node.having .c0 (locked true)).cc.get .c0).state.isLocked = true := by
  unfold State.hears; decide +kernel

/-- The press coasts and may not restart flying, the fan coasts and may; one of them is being woken, starts or
has tripped. -/
theorem witness_WakeActsByState_replies :
    let good (ch : Ch) (channel : Byte) (st : ChState) : Prop :=
      (node.having ch (at_ st)).hears ⟨2, 11⟩ kindWake [channel, 1] ∧
        (node.having ch (at_ st)).configured ch = true
    (node.record .c0).kind = .press ∧ (node.record .c1).kind = .fan ∧ good .c0 0 .coast ∧
    good .c1 1 .coast ∧ good .c0 0 (.pending .budget) ∧ good .c0 0 (.starting .claimed) ∧
    good .c0 0 (.tripped .dropout) := by
  unfold State.hears; decide +kernel

/-- The press is held by its key, in OPERATING and in ISOLATED; a SHED reaches the node in LISTENING. -/
theorem witness_ShedRaisesTheCount_held :
    let s : State := { node with cu.keyFlag := node.cu.keyFlag.set .c0 true }
    s.hears ⟨2, 11⟩ kindShed [0, 2] ∧ (s.elapse 0).held .c0 = true ∧ s.mc.mode = .operating ∧
    s.settled ∧ State.hears { s with mc.mode := .isolated } ⟨2, 11⟩ kindShed [0, 2] ∧
    (node.inMode .listening).hears ⟨2, 11⟩ kindShed [0, 2] ∧ (node.inMode .listening).settled :=
  ⟨by unfold State.hears; decide +kernel, by decide +kernel, rfl, settled_of_all (by decide +kernel),
    by unfold State.hears; decide +kernel, by unfold State.hears; decide +kernel,
    settled_of_all (by decide +kernel)⟩

/-- The press in a state of its own, its LIVE claim in the table, shed by station 2. -/
theorem witness_ShedRaisesTheCount_press :
    let s := node.starting .claimed
    let wanted (c : Controller) : Prop :=
      (node.having .c0 c).hears ⟨2, 11⟩ kindShed [0, 2] ∧ (node.having .c0 c).settled
    (s.hears ⟨2, 11⟩ kindShed [0, 2] ∧ s.configured .c0 = true ∧ s.held .c0 = false ∧
      (s.elapse 0).effectiveLevel 2 2 ≤ 2 ∧ (s.cc.get .c0).state = .starting .claimed ∧
      (s.elapse 0).consumersVerdict .c0 = true ∧ s.claimTableSound ∧
      (s.elapse 0).liveOf .c0 = some (ownClaim .live none)) ∧
    (∀ k, ∀ r ∈ ((s.elapse 0).record k).needs, (s.elapse 0).localCh? r ≠ some .c0) ∧
    wanted (coasted { call := true }) ∧ wanted (at_ .rest) ∧ wanted (locked true) ∧
    wanted (at_ (.pending .budget)) ∧ wanted (tripped 1) ∧ node.settling.provisionalClaiming :=
  ⟨⟨by unfold State.hears; decide +kernel, by decide +kernel, by decide +kernel, by decide +kernel,
      by decide +kernel, by decide +kernel, sound_of_claims _ (by decide +kernel), by decide +kernel⟩,
    of_all_channels (by decide +kernel),
    ⟨by unfold State.hears; decide +kernel, settled_of_all (by decide +kernel)⟩,
    ⟨by unfold State.hears; decide +kernel, settled_of_all (by decide +kernel)⟩,
    ⟨by unfold State.hears; decide +kernel, settled_of_all (by decide +kernel)⟩,
    ⟨by unfold State.hears; decide +kernel, settled_of_all (by decide +kernel)⟩,
    ⟨by unfold State.hears; decide +kernel, settled_of_all (by decide +kernel)⟩,
    by unfold State.provisionalClaiming; decide +kernel⟩

/-- The hydraulic unit waits, and in other states is in use by its consumer, which runs. -/
theorem witness_ShedRaisesTheCount_in_use :
    let kept (c : Controller) : Prop :=
      (node.having .c2 c).settled ∧ (node.having .c2 c).hears ⟨2, 11⟩ kindShed [2, 2] ∧
        ((node.having .c2 c).elapse 0).consumersVerdict .c2 = false
    kept (at_ .waiting) ∧ kept (at_ (.pending .budget)) ∧ kept (at_ (.starting .claimed)) ∧
    kept (at_ (.tripped .dropout)) :=
  ⟨⟨settled_of_all (by decide +kernel), by unfold State.hears; decide +kernel, by decide +kernel⟩,
    ⟨settled_of_all (by decide +kernel), by unfold State.hears; decide +kernel, by decide +kernel⟩,
    ⟨settled_of_all (by decide +kernel), by unfold State.hears; decide +kernel, by decide +kernel⟩,
    ⟨settled_of_all (by decide +kernel), by unfold State.hears; decide +kernel, by decide +kernel⟩⟩

/-- The node in ISOLATED, the press alone configured to be shed: it starts, or runs. -/
def node.islanded (st : ChState) : State :=
  { node with
    cc := ⟨at_ st, locked false, at_ .offline, at_ .offline, at_ .offline, at_ .offline⟩
    it := (PerChannel.all Tracker.reset).set .c0 (if st.tracked then running else Tracker.reset)
    mc.mode := .isolated }

/-- The press starts again after a trip, its STOPPED tracker still holding what it held at the trip. -/
def node.restarting : State :=
  { node.starting .claimed with
    it := node.it.set .c0
      { Tracker.reset with count := 2, history := [3, 2, 2, 5], cadence := some 2400, sinceOnset := some 7 } }

/-- Neither a SHED into COAST, nor a WAKE, touches it (R46). -/
theorem test_shed_starting_leaves_the_tracker :
    let t := after (.shed z ⟨2, 11⟩ 0 2) node.restarting
    (t.cc.get .c0).state = .coast ∧ t.it = node.restarting.it ∧
    (after (.wake z ⟨2, 11⟩ 0 1) node.restarting).it = node.restarting.it := by decide +kernel

theorem witness_ShedRaisesTheCount_tracker :
    node.restarting.hears ⟨2, 11⟩ kindShed [0, 2] ∧ node.restarting.configured .c0 = true ∧
    (node.restarting.elapse 0).held .c0 = false ∧ node.restarting.mc.mode = .operating ∧
    (node.restarting.elapse 0).effectiveLevel 2 2 ≤ 2 ∧
    ((node.restarting.elapse 0).cc.get .c0).state.tracked = false ∧
    ((node.restarting.elapse 0).it.get .c0).status = .stopped := by
  unfold State.hears; decide +kernel

theorem witness_ShedRaisesTheCount_isolated :
    let good (s : State) : Prop :=
      s.mc.mode = .isolated ∧ s.hears ⟨2, 11⟩ kindShed [0, 2] ∧ s.settled ∧ s.li.queue.length ≤ 13 ∧
      (∀ k, ∀ r ∈ ((s.elapse 0).record k).needs, (s.elapse 0).localCh? r ≠ some .c0) ∧
      ∀ k, k ≠ .c0 → (s.cc.get k).state.stays = true ∧ (s.cc.get k).state ≠ .awake
    frameFirst.arrival ≠ .returnFirst ∧ ((node.islanded .awake).cc.get .c0).origins = {} ∧
    good (node.islanded (.starting .unclaimed)) ∧ good (node.islanded .awake) :=
  ⟨by decide, by decide +kernel,
    ⟨by decide +kernel, by unfold State.hears; decide +kernel, settled_of_all (by decide +kernel),
      by decide +kernel, of_all_channels (by decide +kernel), of_all_channels (by decide +kernel)⟩,
    ⟨by decide +kernel, by unfold State.hears; decide +kernel, settled_of_all (by decide +kernel),
      by decide +kernel, of_all_channels (by decide +kernel), of_all_channels (by decide +kernel)⟩⟩

/-- A SHED of a STARTING load taken before the return is refused, and one after it accepted (R132, R146). -/
theorem test_shed_starting_isolated :
    let t := after (.shed frameFirst ⟨2, 11⟩ 0 1) (node.islanded (.starting .unclaimed))
    let u := after (.shed z ⟨2, 11⟩ 0 1) (node.islanded (.starting .unclaimed))
    (t.cc.get .c0).state = .starting .unclaimed ∧
    (⟨2, .reply kindShed 0 0 .refusedMode⟩ : Frame) ∈ t.li.queue ∧ (u.cc.get .c0).state = .coast ∧
    (⟨2, .reply kindShed 0 0 .accepted⟩ : Frame) ∈ u.li.queue := by decide +kernel

theorem witness_ShedRaisesTheCount :
    node.mc.mode = .operating ∧ node.hears ⟨3, 11⟩ kindShed [1, 2] ∧ node.configured .c1 = true ∧
    node.held .c1 = false ∧ (node.elapse 0).effectiveLevel 3 2 ≤ 2 ∧
    ((node.elapse 0).cc.get .c1).state = .awake ∧
    (node.elapse 0).pu.phase.permits ((node.elapse 0).record .c1).rank = false ∧
    (node.during .night).hears ⟨3, 11⟩ kindShed [1, 2] ∧
    (node.during .night).pu.phase.permits ((node.during .night).record .c1).rank = true ∧
    (node.during .night).consumersVerdict .c1 = true ∧ (node.during .night).settled := by
  refine ⟨?_, ?_, ?_, ?_, ?_, ?_, ?_, ?_, ?_, ?_, settled_of_all (by decide +kernel)⟩ <;>
    first
      | decide +kernel
      | (unfold State.hears; decide +kernel)

theorem witness_WeakerLevelIsRefused :
    node.mc.mode = .operating ∧ node.mc.image = some small ∧ node.settled ∧
    node.li.queue.length < 16 ∧ node.mc.station = 11 ∧ node.configured .c1 = true ∧
    node.hears ⟨2, 11⟩ kindShed [1, 3] ∧ 2 < (node.elapse 0).effectiveLevel 2 3 ∧
    node.hears ⟨3, 11⟩ kindUnlock [1, 0] ∧ 1 < (node.elapse 0).effectiveLevel 3 0 := by
  refine ⟨?_, ?_, node_settled, ?_⟩
  · decide +kernel
  · decide +kernel
  · unfold State.hears; decide +kernel

/-- Commands with a level of 4, for ALL, with tag 0, with an expiry past 1440 minutes, for a channel that is
not configured; and any in UNCONFIGURED. -/
theorem witness_WeakerLevelIsRefused_forms :
    let u : State := { unconfigured with li.awaitingGap := false }
    node.hears ⟨2, 11⟩ kindWake [0, 4] ∧ node.hears ⟨2, 11⟩ kindShed [255, 0] ∧
    node.hears ⟨2, 11⟩ kindUnhold [0, 0, 0] ∧
    node.hears ⟨2, 11⟩ kindHold ([0, 1, 0] ++ bytes16 1441) ∧ 1440 < (1441 : Word16).toNat ∧
    node.hears ⟨2, 11⟩ kindWake [5, 0] ∧ node.configured .c5 = false ∧
    u.mc.mode = .unconfigured ∧ u.mc.station = 11 ∧ u.settled ∧
    u.li.queue.length < 16 ∧ u.hears ⟨2, 11⟩ kindWake [0, 0] := by
  intro u
  refine ⟨?_, ?_, ?_, ?_, ?_, ?_, ?_, ?_, ?_, settled_of_all (by decide +kernel), ?_, ?_⟩ <;>
    first
      | decide +kernel
      | (unfold State.hears; decide +kernel)

/-- A refused command changes nothing but the line and the isolation timer (R116, R118). -/
theorem test_refusals :
    (after (.wake z ⟨2, 11⟩ 255 0) node).li.queue = [⟨2, .reply kindWake 255 0 .refusedForm⟩] ∧
    (after (.unlock z ⟨2, 11⟩ 5 0) node).li.queue = [⟨2, .reply kindUnlock 5 0 .noSuch⟩] ∧
    (after (.unlock z ⟨2, 11⟩ 0 0) node).li.queue = [⟨2, .reply kindUnlock 0 0 .refusedState⟩] ∧
    (after (.unhold z ⟨2, 11⟩ 0 5 0) node).li.queue = [⟨2, .reply kindUnhold 0 5 .noSuch⟩] := by
  decide +kernel

/-- A hold of ALL by station 2 with a tag. -/
def holdAll (tag : Nat) : HoldEntry := ⟨.all, 2, tag, 1, none, none⟩

/-- A Hold List of 8 entries, their tags 1 to 8. -/
def node.fullyHeld : State := { node with cu.holds := (List.range 8).map fun n => holdAll (n + 1) }

/-- At the longest expiry: a new entry, one that is refreshed, one that finds the list full. -/
theorem witness_HoldJoinsTheHoldList :
    node.onLine ∧ node.hears ⟨2, 11⟩ kindHold ([0xFF, 255, 3] ++ bytes16 1440) ∧
    node.mc.station = 11 ∧ (1440 : Word16).toNat ≤ 1440 ∧
    (node.elapse 0).commandTarget? 0xFF = some .all ∧ (node.elapse 0).cu.holds.length < 8 ∧
    (node.elapse 0).configured .c0 = true ∧ (node.elapse 0).held .c0 = false ∧
    ((node.elapse 0).cc.get .c0).state = .rest ∧
    node.fullyHeld.hears ⟨2, 11⟩ kindHold ([0xFF, 8, 3] ++ bytes16 0) ∧
    (∃ x ∈ (node.fullyHeld.elapse 0).cu.holds, x.key = ⟨2, .all, 8⟩) ∧
    node.fullyHeld.hears ⟨2, 11⟩ kindHold ([0xFF, 9, 3] ++ bytes16 0) ∧
    (∀ x ∈ (node.fullyHeld.elapse 0).cu.holds, x.key ≠ ⟨2, .all, 9⟩) ∧
    8 ≤ (node.fullyHeld.elapse 0).cu.holds.length := by
  unfold State.onLine State.hears; decide +kernel

/-- An UNHOLD as strong as the entry, and one weaker. -/
theorem witness_UnholdRemovesMatchingEntries :
    node.fullyHeld.onLine ∧ node.fullyHeld.hears ⟨2, 11⟩ kindUnhold [0xFF, 8, 1] ∧
    node.fullyHeld.mc.station = 11 ∧
    (node.fullyHeld.elapse 0).commandTarget? 0xFF = some .all ∧
    (∀ x ∈ (node.fullyHeld.elapse 0).cu.holds, (x.target = .all ∧ x.tag = 8) →
      (node.fullyHeld.elapse 0).effectiveLevel 2 1 ≤ x.level) ∧
    node.fullyHeld.hears ⟨2, 11⟩ kindUnhold [0xFF, 8, 2] ∧
    (∃ x ∈ (node.fullyHeld.elapse 0).cu.holds, (x.target = .all ∧ x.tag = 8) ∧
      x.level < (node.fullyHeld.elapse 0).effectiveLevel 2 2) ∧
    (node.hears ⟨2, 11⟩ kindUnhold [0xFF, 8, 1] ∧
      ∀ x ∈ (node.elapse 0).cu.holds, ¬(x.target = .all ∧ x.tag = 8)) := by
  unfold State.onLine State.hears; decide +kernel

theorem witness_UnlockClearsTheLock :
    (node.having .c0 (locked false)).onLine ∧
    (node.having .c0 (locked false)).hears ⟨2, 11⟩ kindUnlock [0, 1] ∧
    (node.having .c0 (locked false)).configured .c0 = true ∧
    ((node.having .c0 (locked false)).elapse 0).effectiveLevel 2 1 ≤ 1 ∧
    (locked false).state.isLocked = true ∧ (locked false).feedbackClosed = false ∧
    (node.having .c0 (locked true)).hears ⟨2, 11⟩ kindUnlock [0, 1] ∧
    (locked true).state.isLocked = true ∧ (locked true).feedbackClosed = true ∧
    node.hears ⟨2, 11⟩ kindUnlock [1, 1] ∧ (node.cc.get .c1).state = .awake := by
  unfold State.onLine State.hears; decide +kernel

/-- The lock of an unheld load that no running one needs, and of one held by its key, in OPERATING and in
LISTENING. -/
theorem witness_UnlockClearsTheLock_rests :
    let s := node.having .c0 (locked false)
    let h : State := { s with cu.keyFlag := node.cu.keyFlag.set .c0 true }
    (s.settled ∧ (s.elapse 0).held .c0 = false ∧
      ∀ k, ((s.elapse 0).cc.get k).state.watching = true →
        ∀ r ∈ ((s.elapse 0).record k).needs, (s.elapse 0).localCh? r ≠ some .c0) ∧
    (h.mc.mode = .operating ∧ h.hears ⟨2, 11⟩ kindUnlock [0, 1] ∧ (h.elapse 0).held .c0 = true) ∧
    (State.onLine { h with mc.mode := .listening } ∧
      State.hears { h with mc.mode := .listening } ⟨2, 11⟩ kindUnlock [0, 1]) ∧
    node.settled ∧ (node.cc.get .c0).state.isLocked = false :=
  ⟨⟨settled_of_all (by decide +kernel), by decide +kernel, of_all_channels (by decide +kernel)⟩,
    by unfold State.hears; decide +kernel,
    by unfold State.onLine State.hears; decide +kernel, node_settled, by decide +kernel⟩

/-- A held load that is unlocked is woken in OPERATING and rests with HOLD in LISTENING (R9, R14). -/
theorem test_unlock_held :
    let h : State :=
      { node.having .c0 (locked false) with cu.keyFlag := node.cu.keyFlag.set .c0 true }
    ((after (.unlock z ⟨2, 11⟩ 0 1) h).cc.get .c0).state = .pending .claiming ∧
    (after (.unlock z ⟨2, 11⟩ 0 1) { h with mc.mode := .listening }).cc.get .c0 =
      { at_ .rest with origins := { hold := true } } := by decide +kernel

/-- The node at the end of its listen interval in NIGHT, with the press alone configured to rest. -/
def node.listenedAtNight : State :=
  { node.listened with
    cc := ⟨{ at_ .rest with origins := { start := true } }, locked true, at_ .offline, at_ .offline,
      at_ .offline, at_ .offline⟩
    it := .all Tracker.reset
    pu.phase := .night }

theorem witness_ListenExpiryMakesTheStartDecision :
    node.listened.mc.mode = .listening ∧ Timer.due (node.listened.elapse 0).mc.listenTimer = true ∧
    ((node.listened.elapse 0).cc.get .c0).state = .rest ∧
    ((node.listened.elapse 0).cc.get .c0).origins.has .start = true ∧
    (node.listened.elapse 0).pu.phase.permits ((node.listened.elapse 0).record .c0).rank = false ∧
    node.listenedAtNight.mc.mode = .listening ∧
    (∀ ch, (node.listenedAtNight.cc.get ch).state = .rest ∨
      (node.listenedAtNight.cc.get ch).state.isLocked = true ∨
      (node.listenedAtNight.cc.get ch).state = .offline) ∧
    (∀ ch, (node.listenedAtNight.cc.get ch).state = .rest →
      node.listenedAtNight.configured ch = true ∧
      (node.listenedAtNight.cc.get ch).origins = { start := true } ∧
      node.listenedAtNight.pu.phase.permits (node.listenedAtNight.record ch).rank = true) ∧
    (node.listenedAtNight.cc.get .c0).state = .rest :=
  ⟨by decide +kernel, by decide +kernel, by decide +kernel, by decide +kernel, by decide +kernel,
    by decide +kernel, of_all_channels (by decide +kernel), of_all_channels (by decide +kernel),
    by decide +kernel⟩

/-- The press claims, its claim not settled, when the isolation limit has run. -/
def node.aloneClaiming : State := { node.settling with mc.isolationTimer := some 0 }

theorem witness_IsolationExpiryIsolates :
    node.aloneClaiming.onLine ∧ Timer.due (node.aloneClaiming.elapse 0).mc.isolationTimer = true ∧
    node.aloneClaiming.provisionalClaiming ∧
    ((node.aloneClaiming.elapse 0).cc.get .c1).state.tracked = true ∧
    ((node.alone.elapse 0).cc.get .c0).state = .rest ∧
    (∀ c ∈ (node.aloneClaiming.elapse 0).bu.claims, c.isProvisional = true →
      1 ≤ c.rank ∧ c.rank ≤ 3) := by
  unfold State.onLine State.provisionalClaiming; decide +kernel

/-- The press and the hydraulic unit wait for the stagger: at the same rank the lower number is first. -/
def node.staggered2 : State :=
  { node.staggered with cc := node.staggered.cc.set .c2 (at_ (.pending .budget)) }

/-- The node, every channel of which has a rank. -/
theorem witness_StaggerStartsOneLoad :
    node.staggered2.mc.mode = .isolated ∧
    Timer.due (node.staggered2.elapse 0).mc.staggerTimer = true ∧
    ((node.staggered2.elapse 0).cc.get .c0).state.isPending = true ∧
    (∀ k, 1 ≤ (node.staggered2.record k).rank ∧ (node.staggered2.record k).rank ≤ 3) ∧
    (∀ k, ((node.staggered2.elapse 0).cc.get k).state.isPending = true → k ≠ .c0 →
      (node.staggered2.record k).rank < (node.staggered2.record .c0).rank ∨
        ((node.staggered2.record k).rank = (node.staggered2.record .c0).rank ∧
          Ch.c0.toNat < k.toNat)) ∧
    ((node.staggered2.elapse 0).cc.get .c2).state.isPending = true :=
  ⟨by decide +kernel, by decide +kernel, by decide +kernel, of_all_channels (by decide +kernel),
    of_all_channels (by decide +kernel), by decide +kernel⟩

/-- A REPLY, and a WAKE for a node whose press is locked. -/
theorem witness_FirstFrameHeardRejoins :
    let s : State := { node.having .c0 (locked true) with mc.mode := .isolated }
    s.mc.mode = .isolated ∧ s.mc.image = some small ∧
    (Instr.replyReceived z ⟨4, 11⟩ 7 0 0 0).wellFormed = true ∧
    commandBytes (.replyReceived z ⟨4, 11⟩ 7 0 0 0) = some (lineBytes 4 kindReply 11 [7, 0, 0, 0]) ∧
    s.hears ⟨4, 11⟩ kindReply [7, 0, 0, 0] ∧
    commandBytes (.wake z ⟨2, 11⟩ 0 1) = some (lineBytes 2 kindWake 11 [0, 1]) ∧
    s.hears ⟨2, 11⟩ kindWake [0, 1] ∧ (s.cc.get .c0).state.isLocked = true := by
  unfold State.hears; decide +kernel

theorem witness_OwnNumberHeardSilences :
    node.mc.mode ≠ .loading ∧ node.mc.mode ≠ .silent ∧ node.li.awaitingGap = false ∧
    (Instr.noticeReceived z ⟨11, 0⟩ 0 3 1 0).wellFormed = true ∧
    commandBytes (.noticeReceived z ⟨11, 0⟩ 0 3 1 0) = some (lineBytes 11 kindNotice 0 [0, 3, 1, 0]) ∧
    node.mc.station = 11 ∧
    node.isSending (lineBytes 11 kindNotice 0 [0, 3, 1, 0]) = false ∧
    (node.sending report).isSending (lineBytes 11 kindNotice 0 [0, 3, 1, 0]) = false := by
  decide +kernel

theorem witness_BypassTimerEnergises :
    Timer.due ((unconfigured.elapse 0).mc.bypassTimer.get .c0) = true ∧
    unconfigured.mc.mode ≠ .loading ∧ ((unconfigured.elapse 0).cc.get .c1).state = .offline := by
  decide +kernel

theorem witness_HeartbeatRestarts :
    Timer.due ({ node with li.heartbeatTimer := some 0 }.elapse 0).li.heartbeatTimer = true ∧
    { node with li.heartbeatTimer := some 0 }.settled ∧
    (∀ ch, (node.cc.get ch).state ≠ .pending .calling ∧ node.du.marks.get ch = []) ∧
    node.mc.station ≠ 0 ∧ node.mc.mode ≠ .loading ∧ node.mc.mode ≠ .silent ∧ node.onLine ∧
    node.li.queue.length < 16 ∧ Timer.due (unconfigured.elapse 0).li.heartbeatTimer = true :=
  ⟨by decide +kernel, settled_of_all (by decide +kernel), of_all_channels (by decide +kernel),
    by decide +kernel, by decide +kernel, by decide +kernel, by unfold State.onLine; decide +kernel,
    by decide +kernel, by decide +kernel⟩

/-- A queue full of frames that make no room takes no STATE frame at the heartbeat; with a report in it, it
does (R157). -/
theorem test_heartbeatExpiry_full :
    let full (f : Frame) : State :=
      { node with
        li := { node.li with
          heartbeatTimer := some 0
          queue := f :: List.replicate 15 ⟨0, .release 1⟩ } }
    (after (.heartbeatExpiry z) (full ⟨0, .release 1⟩)).li.queue =
      List.replicate 16 ⟨0, .release 1⟩ ∧
    (after (.heartbeatExpiry z) (full report)).li.queue =
      List.replicate 15 ⟨0, .release 1⟩ ++ [⟨0, .state node.report⟩] := by decide +kernel

/-- The fan calls its remote provider, which rests, when the heartbeat is due. -/
def node.recalling : State :=
  { node.calling with li.heartbeatTimer := some 0 }

/-- The fan runs above its provider, which rests. -/
def node.watching : State :=
  { node with
    du := { node.du with
      peers := [peer 0 .rest, peer 1 .awake]
      marks := node.du.marks.set .c1 [⟨4, 0⟩] }
    li.heartbeatTimer := some 0 }

/-- The fan needs the press of its own station, which rests; it calls it, or runs above it. -/
def node.needingPress (st : ChState) (marks : List Ref) : State :=
  { node.having .c1 (at_ st) with
    du := { node.du with marks := node.du.marks.set .c1 marks }
    mc.image := some { small with channels := small.channels.set .c1 { fan with needs := [⟨11, 0⟩] } }
    li.heartbeatTimer := some 0 }

theorem witness_HeartbeatRestarts_calls :
    let calls (s : State) : Prop :=
      s.settled ∧ s.mc.mode = .operating ∧ (s.elapse 0).localCh? ⟨11, 0⟩ = some .c0 ∧
        ((s.elapse 0).cc.get .c0).state = .rest
    let frames (s : State) : Prop :=
      s.settled ∧ s.onLine ∧ s.mc.station ≠ 0 ∧ s.li.queue.length < 15 ∧
      (∀ j, j ≠ .c1 → (s.cc.get j).state ≠ .pending .calling ∧ s.du.marks.get j = []) ∧
      ∀ r ∈ ((s.elapse 0).record .c1).needs, r.station ≠ s.mc.station
    (calls (node.needingPress (.pending .calling) []) ∧
      ((node.needingPress (.pending .calling) []).elapse 0).available ⟨11, 0⟩ = false) ∧
    (calls (node.needingPress .awake [⟨11, 0⟩])) ∧
    (frames node.recalling ∧ (node.recalling.cc.get .c1).state = .pending .calling ∧
      node.recalling.du.marks.get .c1 = []) ∧
    (frames node.watching ∧ node.watching.du.marks.get .c1 = [⟨4, 0⟩] ∧
      ((node.watching.elapse 0).du.peers.find? fun p => p.ref == ⟨4, 0⟩) = some (peer 0 .rest) ∧
      (peer 0 .rest).held = false) :=
  ⟨⟨⟨settled_of_all (by decide +kernel), by decide +kernel⟩, by decide +kernel⟩,
    ⟨settled_of_all (by decide +kernel), by decide +kernel⟩,
    ⟨⟨settled_of_all (by decide +kernel), by unfold State.onLine; decide +kernel, by decide +kernel,
      by decide +kernel, of_all_channels (by decide +kernel), by decide +kernel⟩, by decide +kernel⟩,
    ⟨settled_of_all (by decide +kernel), by unfold State.onLine; decide +kernel, by decide +kernel,
      by decide +kernel, of_all_channels (by decide +kernel), by decide +kernel⟩, by decide +kernel⟩

/-- A repeated call, and a standing one (R64, R70). -/
theorem test_heartbeatExpiry_calls :
    (⟨0, .call .c1 [⟨4, 0⟩]⟩ : Frame) ∈ (after (.heartbeatExpiry z) node.recalling).li.queue ∧
    (⟨0, .call .c1 [⟨4, 0⟩]⟩ : Frame) ∈ (after (.heartbeatExpiry z) node.watching).li.queue ∧
    ((after (.heartbeatExpiry z) (node.needingPress .awake [⟨11, 0⟩])).cc.get .c0).origins =
      { call := true } := by decide +kernel

theorem witness_LampStepAdvances :
    node.blinking.settled ∧
    Timer.due ((node.blinking.elapse 0).iu.channels.get .c5).timer = true ∧
    Timer.due (node.blinking.elapse 0).iu.node.timer = true :=
  ⟨settled_of_all (by decide +kernel), by decide +kernel⟩

theorem witness_AccessGapBeginsSending :
    node.settled ∧ node.mc.inReset = false ∧ node.li.driving = false ∧ node.li.sender = none ∧
    node.li.queue = [] ∧
    ({ node with li.queue := [report] }.settled ∧
      { node with li.queue := [report] }.li.queue = report :: [] ∧ node.bu.fullAtEval = false) ∧
    ({ node with li.sender := some ⟨report, report.wire 11⟩ }.settled ∧
      { node with li.sender := some ⟨report, report.wire 11⟩ }.li.driving = false) :=
  ⟨node_settled, by decide +kernel, by decide +kernel, by decide +kernel, by decide +kernel,
    ⟨settled_of_all (by decide +kernel), by decide +kernel⟩,
    settled_of_all (by decide +kernel), by decide +kernel⟩

theorem witness_SendingEnds :
    (node.sending report).settled ∧ (node.sending report).li.driving = true ∧
    1 ≤ (10 : Byte).toNat ∧ (10 : Byte).toNat ≤ 63 ∧
    (10 : Byte).toNat < (node.sending report).mc.station :=
  ⟨settled_of_all (by decide +kernel), by decide +kernel⟩

theorem witness_FramesWithoutContentAreOnlyHeard :
    node.settled ∧ node.onLine ∧ node.mc.image = some small ∧
    payloadLength? (0 : Byte).toNat = none ∧ (List.replicate 40 (0 : Byte)).length ≤ 40 ∧
    node.hears ⟨63, 0⟩ 0 (List.replicate 40 0) ∧ node.hears ⟨4, 0⟩ kindReply [7, 0, 0, 0] ∧
    node.hears ⟨4, 0⟩ kindNotice [0, 3, 1, 0] ∧
    (State.settled { node with li.awaitingGap := true } ∧
      (Instr.noticeReceived z ⟨11, 0⟩ 0 3 1 0).wellFormed = true ∧
      (commandBytes (.noticeReceived z ⟨11, 0⟩ 0 3 1 0)).isSome = true) :=
  ⟨node_settled, by unfold State.onLine; decide +kernel, by decide +kernel, by decide +kernel,
    by decide +kernel, by unfold State.hears; decide +kernel, by unfold State.hears; decide +kernel,
    by unfold State.hears; decide +kernel, settled_of_all (by decide +kernel), by decide +kernel⟩

/-- A frame that the full-queue rule never removes. -/
def release1 : Frame := ⟨0, .release 1⟩

/-- A STATE frame. -/
def stateFrame : Frame := ⟨0, .state node.report⟩

theorem witness_FullQueueRule :
    (List.replicate 15 release1 ++ [stateFrame]).length = 16 ∧ stateFrame.isState = true ∧
    (∃ g ∈ List.replicate 15 release1 ++ [stateFrame], g.isState = true) ∧
    (List.replicate 15 release1 ++ [report]).length = 16 ∧
    (∀ g ∈ List.replicate 15 release1 ++ [report], g.isState = false) ∧
    release1.body = .release 1 ∧ report.isReport = true ∧
    (∀ k ∈ List.replicate 15 release1, k.isReport = false) ∧
    (List.replicate 16 release1).length = 16 := by decide +kernel

theorem witness_FrameBytesSpellTheirCommand :
    (Instr.hold z ⟨63, 63⟩ 0xFF 255 255 0xFFFF).wellFormed = true ∧
    (commandBytes (.hold z ⟨63, 63⟩ 0xFF 255 255 0xFFFF)).isSome = true ∧
    (Instr.unknownKindFrame z ⟨1, 255⟩ 14 (List.replicate 40 255)).wellFormed = true ∧
    (commandBytes (.unknownKindFrame z ⟨1, 255⟩ 14 (List.replicate 40 255))).isSome = true := by
  decide +kernel

theorem witness_ChannelTimerCommandsFrame :
    Instr.idleWindowExpiry z .c0 ∈ [Instr.feedbackMismatch z .c0, .retryTimerExpiry z .c0,
      .runDownExpiry z .c0, .inrushExpiry z .c0, .inrushHoldExpiry z .c0,
      .activityDebounceExpiry z .c0, .idleWindowExpiry z .c0, .callWaitExpiry z .c0,
      .settleExpiry z .c0, .retryGapExpiry z .c0] ∧
    (node.cc.get .c1).state.stays = true := by decide +kernel

theorem witness_EveryStepKeepsLineAndHoldsSound :
    step (node.facing (.frameSent z)) = .next (after (.frameSent z) node) ∧
    (node.facing (.frameSent z)).queueBounded ∧ (node.facing (.frameSent z)).senderSound ∧
    (node.facing (.frameSent z)).silentIsQuiet ∧ (node.facing (.frameSent z)).holdListSound := by
  refine ⟨rfl, ?_⟩
  unfold State.queueBounded State.senderSound State.silentIsQuiet State.holdListSound
  decide +kernel

theorem witness_EveryStepKeepsOwnClaimsWithinBudget :
    node.settling.claimTableSound ∧ node.settling.ownWithinBudget ∧
    step { node.settling with pending := [.settleExpiry z .c0] } =
      .next (after (.settleExpiry z .c0) node.settling) :=
  ⟨sound_of_claims _ (by decide +kernel), by unfold State.ownWithinBudget; decide +kernel, rfl⟩

/-- A node of which every channel's tracker agrees with its state, whose PROVISIONAL claims are of
CLAIMING channels, in OPERATING without bypass timers. -/
theorem channelsSound_of_all {s : State}
    (h : ∀ ch ∈ Ch.all, ((s.it.get ch).status ≠ .stopped ↔ (s.cc.get ch).state.tracked = true) ∧
      s.mc.bypassTimer.get ch = none)
    (hp : s.provisionalClaiming) (hm : s.mc.mode = .operating) : s.channelsSound :=
  ⟨fun ch => (of_all_channels h ch).1, hp, fun hl => absurd (hm.symm.trans hl) (by decide),
    fun hu => absurd (hm.symm.trans hu) (by decide),
    fun ch hb => absurd (of_all_channels h ch).2 hb⟩

theorem settling_channelsSound :
    State.channelsSound { node.settling with pending := [.settleExpiry z .c0] } :=
  channelsSound_of_all (by decide +kernel)
    (by unfold State.provisionalClaiming; decide +kernel) rfl

theorem witness_EveryStepKeepsTheChannelsSound :
    State.channelsSound { node.settling with pending := [.settleExpiry z .c0] } ∧
    State.claimTableSound { node.settling with pending := [.settleExpiry z .c0] } ∧
    State.claimsStand { node.settling with pending := [.settleExpiry z .c0] } ∧
    State.stoppedTrackersRest { node.settling with pending := [.settleExpiry z .c0] } ∧
    State.originsServed { node.settling with pending := [.settleExpiry z .c0] } ∧
    step { node.settling with pending := [.settleExpiry z .c0] } =
      .next (after (.settleExpiry z .c0) node.settling) :=
  ⟨settling_channelsSound, sound_of_claims _ (by decide +kernel),
    ⟨of_all_channels (by decide +kernel), of_all_channels (by decide +kernel), by decide +kernel⟩,
    of_all_channels (by decide +kernel), of_all_channels (by decide +kernel), rfl⟩

theorem witness_EveryStepSettles :
    (node.facing (.frameSent z)).settled ∧
    step (node.facing (.frameSent z)) = .next (after (.frameSent z) node) :=
  ⟨settled_of_all (by decide +kernel), rfl⟩

/-- The press waits with a settled claim; the step starts it. -/
theorem witness_NoStartWithoutALiveClaim :
    State.channelsSound { node.settling with pending := [.settleExpiry z .c0] } ∧
    State.claimTableSound { node.settling with pending := [.settleExpiry z .c0] } ∧
    node.settling.mc.mode = .operating ∧
    step { node.settling with pending := [.settleExpiry z .c0] } =
      .next (after (.settleExpiry z .c0) node.settling) ∧
    node.settling.coilDrive .c0 = false ∧
    (after (.settleExpiry z .c0) node.settling).coilDrive .c0 = true :=
  ⟨settling_channelsSound, sound_of_claims _ (by decide +kernel), rfl, rfl, by decide +kernel,
    by decide +kernel⟩

/-- The press is locked; its retry timer's expiry is reported all the same. -/
theorem witness_LockedUntilUnlockOrReset :
    (node.having .c0 (locked false)).channelsSound ∧
    ((node.having .c0 (locked false)).cc.get .c0).state = .locked .forced ∧
    step { node.having .c0 (locked false) with pending := [.wake z ⟨2, 11⟩ 0 1] } =
      .next (after (.wake z ⟨2, 11⟩ 0 1) (node.having .c0 (locked false))) :=
  ⟨channelsSound_of_all (by decide +kernel) (by unfold State.provisionalClaiming; decide +kernel) rfl,
    by decide +kernel, rfl⟩

end Sys2Proof.Tests
end

