-- ==== Sys2Proof/Proofs/Moves.lean ====
section
/-! SUPPORT. What an operation inside an event may do to a channel (`Passes`), to the Claim Table
(`State.ClaimInv`) and to the node (`Calm`): a preorder on events that every operation but the changes of
mode and the closing of a contactor is in. What every step keeps (R8, R24, R30 to R34, R76) follows. -/

namespace Sys2Proof.Machine

/-! ## One channel -/

/-- OFFLINE or BYPASS: the states before an image is accepted (R30, R31). -/
def ChState.outside : ChState → Bool
  | .offline => true
  | .bypass => true
  | _ => false

/-- The tracker runs exactly while its channel is AWAKE or WAITING (R34). -/
def Tracker.followsState (t : Tracker) (st : ChState) : Prop := t.status ≠ .stopped ↔ st.tracked = true

/-- A STOPPED tracker has no timer running and no remaining time (R33, R34). -/
def Tracker.restful (t : Tracker) : Prop :=
  t.status = .stopped → t.windowTimer = none ∧ t.remaining = none ∧ t.debounceTimer = none

/-- A running load has no origin recorded (R13, R26). -/
def Controller.served (c : Controller) : Prop := c.state.tracked = true → c.origins = {}

/-- What an operation may do to a channel and its tracker: it takes no channel out of OFFLINE or BYPASS,
closes no contactor unless `x`, and unlocks no channel unless `u`. -/
structure Passes (x u : Prop) (c c' : Controller) (t t' : Tracker) : Prop where
  inside : c'.state = c.state ∨ c.state.outside = false
  closes : ¬x → c'.state.energised = true → c.state.energised = true
  locked : ¬u → c.state.isLocked = true → c'.state = c.state
  tracker : t.followsState c.state → t'.followsState c'.state
  restful : t.followsState c.state → t.restful → t'.restful
  served : c.served → c'.served

section
variable {x u : Prop} {c c' c'' : Controller} {t t' t'' : Tracker}

theorem Passes.refl (x u : Prop) (c : Controller) (t : Tracker) : Passes x u c c t t :=
  ⟨.inl rfl, fun _ h => h, fun _ _ => rfl, id, fun _ h => h, id⟩

theorem Passes.trans (h : Passes x u c c' t t') (k : Passes x u c' c'' t' t'') :
    Passes x u c c'' t t'' where
  inside := by
    rcases h.inside with e | e
    · rw [← e]; exact k.inside
    · exact .inr e
  closes hx hc := h.closes hx (k.closes hx hc)
  locked hu hl := by
    have e := h.locked hu hl
    rw [← e] at hl
    exact (k.locked hu hl).trans e
  tracker hf := k.tracker (h.tracker hf)
  restful hf hr := k.restful (h.tracker hf) (h.restful hf hr)
  served hs := k.served (h.served hs)

/-- A change of a controller that is no change of state. -/
theorem Passes.of_state (hs : c'.state = c.state) (ho : c.served → c'.served) :
    Passes x u c c' t t :=
  ⟨.inl hs, fun _ h => hs ▸ h, fun _ _ => hs, fun h => by rw [hs]; exact h, fun _ h => h, ho⟩

/-- A change of a tracker that neither starts nor stops it. -/
theorem Passes.of_tracker (hs : t'.status = .stopped ↔ t.status = .stopped)
    (hr : t.restful → t'.restful) : Passes x u c c t t' :=
  ⟨.inl rfl, fun _ h => h, fun _ _ => rfl,
    fun h => by unfold Tracker.followsState at h ⊢; rw [← h, ne_eq, ne_eq, hs], fun _ => hr, id⟩

/-- A change of state, none of OFFLINE, BYPASS and LOCKED being left, with what the tracker and the
origins must be at its end. -/
theorem Passes.of_move (ho : c.state.outside = false) (hl : c.state.isLocked = false)
    (hc : ¬x → c'.state.energised = true → c.state.energised = true)
    (ht : t.followsState c.state → t'.followsState c'.state)
    (hr : t.followsState c.state → t.restful → t'.restful) (hs : c.served → c'.served) :
    Passes x u c c' t t' :=
  ⟨.inr ho, hc, fun _ h => absurd h (by simp [hl]), ht, hr, hs⟩

end

/-! ## The Claim Table -/

/-- Own claims carry the node's station and remote ones another, no two own claims one key, and a node
held in reset is in LOADING with an empty table (R74, R75, R136). -/
def State.ownKeysSound (s : State) : Prop :=
  (∀ c ∈ s.bu.claims, c.isOwn = true → c.station = s.mc.station) ∧
  (∀ c ∈ s.bu.claims, c.isOwn = false → c.station ≠ s.mc.station) ∧
  (∀ c ∈ s.bu.claims, ∀ d ∈ s.bu.claims, c.isOwn = true → d.isOwn = true → c.key = d.key → c = d) ∧
  (s.mc.inReset = true → s.mc.mode = .loading ∧ s.bu.claims = [])

/-- Where PROVISIONAL claims stand; and, where `C` is asked for, which channels have claims. -/
structure State.ClaimInv (C : Prop) (s : State) : Prop where
  provisional : s.provisionalClaiming
  keys : C → s.ownKeysSound
  stand : C → s.claimsStand

theorem Claim.own_of_provisional {c : Claim} (h : c.isProvisional = true) : c.isOwn = true := by
  unfold Claim.isProvisional at h; unfold Claim.isOwn; split at h <;> simp_all

theorem Claim.own_of_live {c : Claim} (h : c.isLive = true) : c.isOwn = true := by
  unfold Claim.isLive at h; unfold Claim.isOwn; split at h <;> simp_all

theorem Claim.not_live_of_provisional {c : Claim} (h : c.isProvisional = true) : c.isLive = false := by
  unfold Claim.isProvisional at h; unfold Claim.isLive; split at h <;> simp_all

theorem Claim.hasKey_iff (c x : Claim) : c.hasKey x.station x.number = true ↔ c.key = x.key := by
  simp [Claim.hasKey, Claim.key]

theorem State.ownKeysSound_of_claimTableSound {s : State} (h : s.claimTableSound) :
    s.ownKeysSound := by
  obtain ⟨-, hn, ho, hr, hz⟩ := h
  exact ⟨ho, hr, fun c hc d hd _ _ hk => List.inj_on_of_nodup_map hn hc hd hk, hz⟩

/-- A channel stays in its state, or moves between states that no own claim belongs to. -/
def ChState.unclaimedMove (a b : ChState) : Prop :=
  b = a ∨ a ≠ .pending .claiming ∧ b ≠ .pending .claiming ∧ b ≠ .starting .claimed

section
variable {C : Prop} {s s' : State}

/-- An operation that leaves the own claims alone and moves channels that have none. -/
theorem State.ClaimInv.of_own (hst : s'.mc.station = s.mc.station) (hre : s'.mc.inReset = s.mc.inReset)
    (hmo : s'.mc.mode = s.mc.mode)
    (own : ∀ c, c.isOwn = true → (c ∈ s'.bu.claims ↔ c ∈ s.bu.claims))
    (remote : ∀ c ∈ s'.bu.claims, c.isOwn = false →
      c.station ≠ s.mc.station ∨ ∃ d ∈ s.bu.claims, d.isOwn = false ∧ d.station = c.station)
    (empty : s.mc.mode = .loading → s.bu.claims = [] → s'.bu.claims = [])
    (moves : ∀ k, (s.cc.get k).state.unclaimedMove (s'.cc.get k).state)
    (h : s.ClaimInv C) : s'.ClaimInv C where
  provisional := by
    obtain ⟨h1, h2⟩ := h.provisional
    refine ⟨fun c hc hp => ?_, fun c hc d hd hp hq => ?_⟩
    · have hcl := h1 c ((own c (Claim.own_of_provisional hp)).1 hc) hp
      rcases moves c.ch with e | e
      · rw [e]; exact hcl
      · exact absurd hcl e.1
    · exact h2 c ((own c (Claim.own_of_provisional hp)).1 hc) d
        ((own d (Claim.own_of_provisional hq)).1 hd) hp hq
  keys hC := by
    obtain ⟨h1, h2, h3, h4⟩ := h.keys hC
    refine ⟨fun c hc ho => ?_, fun c hc hr => ?_, fun c hc d hd ho hp => ?_, fun hz => ?_⟩
    · rw [hst]; exact h1 c ((own c ho).1 hc) ho
    · rw [hst]
      rcases remote c hc hr with e | ⟨d, hd, hdr, hds⟩
      · exact e
      · rw [← hds]; exact h2 d hd hdr
    · exact h3 c ((own c ho).1 hc) d ((own d hp).1 hd) ho hp
    · obtain ⟨hm, hn⟩ := h4 (hre ▸ hz)
      exact ⟨hmo.trans hm, empty hm hn⟩
  stand hC := by
    obtain ⟨h1, h2, h3⟩ := h.stand hC
    refine ⟨fun k hk => ?_, fun k hk => ?_, fun c hc d hd ho hp => ?_⟩
    · rcases moves k with e | e
      · obtain ⟨c, hc, hp, hch⟩ := h1 k (e ▸ hk)
        exact ⟨c, (own c (Claim.own_of_provisional hp)).2 hc, hp, hch⟩
      · exact absurd hk e.2.1
    · rcases moves k with e | e
      · obtain ⟨c, hc, hp, hch⟩ := h2 k (e ▸ hk)
        exact ⟨c, (own c (Claim.own_of_live hp)).2 hc, hp, hch⟩
      · exact absurd hk e.2.2
    · exact h3 c ((own c ho).1 hc) d ((own d hp).1 hd) ho hp

/-- An operation that leaves the table alone and moves channels that have no own claim. -/
theorem State.ClaimInv.of_same (hst : s'.mc.station = s.mc.station)
    (hre : s'.mc.inReset = s.mc.inReset) (hmo : s'.mc.mode = s.mc.mode)
    (hcl : s'.bu.claims = s.bu.claims)
    (moves : ∀ k, (s.cc.get k).state.unclaimedMove (s'.cc.get k).state)
    (h : s.ClaimInv C) : s'.ClaimInv C :=
  h.of_own hst hre hmo (fun c _ => by rw [hcl])
    (fun c hc hr => .inr ⟨c, hcl ▸ hc, hr, rfl⟩) (fun _ hn => hcl.trans hn) moves

/-- The own claims that are `gone` leave the table, and `ch`, whose they are, is in a state that asks for
no claim. Where `ch` moves, no PROVISIONAL claim of it stays. -/
theorem State.ClaimInv.of_removal (ch : Ch) (gone : Claim → Prop)
    (hst : s'.mc.station = s.mc.station) (hre : s'.mc.inReset = s.mc.inReset)
    (hmo : s'.mc.mode = s.mc.mode)
    (own : ∀ c, c.isOwn = true → (c ∈ s'.bu.claims ↔ c ∈ s.bu.claims ∧ ¬gone c))
    (remote : ∀ c ∈ s'.bu.claims, c.isOwn = false →
      ∃ d ∈ s.bu.claims, d.isOwn = false ∧ d.station = c.station)
    (empty : s.bu.claims = [] → s'.bu.claims = [])
    (here : ∀ c ∈ s.bu.claims, C → c.isOwn = true → gone c → c.ch = ch)
    (moved : (s'.cc.get ch).state = (s.cc.get ch).state ∨
      ∀ c ∈ s.bu.claims, c.isProvisional = true → c.ch = ch → gone c)
    (clear : C → (s'.cc.get ch).state ≠ .pending .claiming ∧
      (s'.cc.get ch).state ≠ .starting .claimed)
    (moves : ∀ k, k ≠ ch → (s'.cc.get k).state = (s.cc.get k).state)
    (h : s.ClaimInv C) : s'.ClaimInv C where
  provisional := by
    obtain ⟨h1, h2⟩ := h.provisional
    refine ⟨fun c hc hp => ?_, fun c hc d hd hp hq => ?_⟩
    · obtain ⟨hm, hk⟩ := (own c (Claim.own_of_provisional hp)).1 hc
      by_cases e : c.ch = ch
      · rcases moved with g | g
        · rw [e, g, ← e]; exact h1 c hm hp
        · exact absurd (g c hm hp e) hk
      · rw [moves _ e]; exact h1 c hm hp
    · exact h2 c ((own c (Claim.own_of_provisional hp)).1 hc).1 d
        ((own d (Claim.own_of_provisional hq)).1 hd).1 hp hq
  keys hC := by
    obtain ⟨h1, h2, h3, h4⟩ := h.keys hC
    refine ⟨fun c hc ho => ?_, fun c hc hr => ?_, fun c hc d hd ho hp => ?_, fun hz => ?_⟩
    · rw [hst]; exact h1 c ((own c ho).1 hc).1 ho
    · obtain ⟨d, hd, hdr, hds⟩ := remote c hc hr
      rw [hst, ← hds]; exact h2 d hd hdr
    · exact h3 c ((own c ho).1 hc).1 d ((own d hp).1 hd).1 ho hp
    · obtain ⟨hm, hn⟩ := h4 (hre ▸ hz)
      exact ⟨hmo.trans hm, empty hn⟩
  stand hC := by
    obtain ⟨h1, h2, h3⟩ := h.stand hC
    have kept : ∀ c ∈ s.bu.claims, c.isOwn = true → c.ch ≠ ch → c ∈ s'.bu.claims := fun c hc ho hne =>
      (own c ho).2 ⟨hc, fun hk => hne (here c hc hC ho hk)⟩
    refine ⟨fun k hk => ?_, fun k hk => ?_, fun c hc d hd ho hp => ?_⟩
    · have hne : k ≠ ch := fun e => (clear hC).1 (e ▸ hk)
      obtain ⟨c, hc, hp, hch⟩ := h1 k (moves k hne ▸ hk)
      exact ⟨c, kept c hc (Claim.own_of_provisional hp) (hch ▸ hne), hp, hch⟩
    · have hne : k ≠ ch := fun e => (clear hC).2 (e ▸ hk)
      obtain ⟨c, hc, hp, hch⟩ := h2 k (moves k hne ▸ hk)
      exact ⟨c, kept c hc (Claim.own_of_live hp) (hch.1 ▸ hne), hp, hch⟩
    · exact h3 c ((own c ho).1 hc).1 d ((own d hp).1 hd).1 ho hp

/-- Every entry is changed into one of the same name, channel and status; an own LIVE one of a CLAIMED
start stays without a hold. -/
theorem State.ClaimInv.of_map (f : Claim → Claim) (hst : s'.mc.station = s.mc.station)
    (hre : s'.mc.inReset = s.mc.inReset) (hmo : s'.mc.mode = s.mc.mode)
    (hcl : s'.bu.claims = s.bu.claims.map f)
    (name : ∀ c, (f c).key = c.key ∧ (f c).ch = c.ch ∧ (f c).status = c.status)
    (timer : ∀ c, c.timer = none → (s'.cc.get c.ch).state = .starting .claimed → (f c).timer = none)
    (moves : ∀ k, (s.cc.get k).state.unclaimedMove (s'.cc.get k).state)
    (h : s.ClaimInv C) : s'.ClaimInv C := by
  have hkey : ∀ c, (f c).key = c.key := fun c => (name c).1
  have hch : ∀ c, (f c).ch = c.ch := fun c => (name c).2.1
  have hstatus : ∀ c, (f c).status = c.status := fun c => (name c).2.2
  have hown : ∀ c, (f c).isOwn = c.isOwn := fun c => by unfold Claim.isOwn; rw [hstatus]
  have hprov : ∀ c, (f c).isProvisional = c.isProvisional := fun c => by
    unfold Claim.isProvisional; rw [hstatus]
  have hlive : ∀ c, (f c).isLive = c.isLive := fun c => by unfold Claim.isLive; rw [hstatus]
  have hstation : ∀ c, (f c).station = c.station := fun c => congrArg Prod.fst (hkey c)
  have hmem : ∀ c, c ∈ s'.bu.claims ↔ ∃ d ∈ s.bu.claims, f d = c := fun c => by
    rw [hcl, List.mem_map]
  constructor
  · obtain ⟨h1, h2⟩ := h.provisional
    refine ⟨fun c hc hp => ?_, fun c hc d hd hp hq he => ?_⟩
    · obtain ⟨c, hm, rfl⟩ := (hmem c).1 hc
      have hcl := h1 c hm (hprov c ▸ hp)
      rw [hch]
      rcases moves c.ch with e | e
      · rw [e]; exact hcl
      · exact absurd hcl e.1
    · obtain ⟨c, hm, rfl⟩ := (hmem c).1 hc
      obtain ⟨d, hn, rfl⟩ := (hmem d).1 hd
      rw [hch, hch] at he
      rw [hkey, hkey]; exact h2 c hm d hn (hprov c ▸ hp) (hprov d ▸ hq) he
  · intro hC
    obtain ⟨h1, h2, h3, h4⟩ := h.keys hC
    refine ⟨fun c hc ho => ?_, fun c hc hr => ?_, fun c hc d hd ho hp he => ?_, fun hz => ?_⟩
    · obtain ⟨c, hm, rfl⟩ := (hmem c).1 hc
      rw [hst, hstation]; exact h1 c hm (hown c ▸ ho)
    · obtain ⟨c, hm, rfl⟩ := (hmem c).1 hc
      rw [hst, hstation]; exact h2 c hm (hown c ▸ hr)
    · obtain ⟨c, hm, rfl⟩ := (hmem c).1 hc
      obtain ⟨d, hn, rfl⟩ := (hmem d).1 hd
      rw [hkey, hkey] at he
      rw [h3 c hm d hn (hown c ▸ ho) (hown d ▸ hp) he]
    · obtain ⟨hm, hn⟩ := h4 (hre ▸ hz)
      exact ⟨hmo.trans hm, by rw [hcl, hn]; rfl⟩
  · intro hC
    obtain ⟨h1, h2, h3⟩ := h.stand hC
    refine ⟨fun k hk => ?_, fun k hk => ?_, fun c hc d hd ho hp he => ?_⟩
    · rcases moves k with e | e
      · obtain ⟨c, hc, hp, hk⟩ := h1 k (e ▸ hk)
        exact ⟨f c, (hmem _).2 ⟨c, hc, rfl⟩, (hprov c).trans hp, (hch c).trans hk⟩
      · exact absurd hk e.2.1
    · rcases moves k with e | e
      · obtain ⟨c, hc, hl, rfl, ht⟩ := h2 k (e ▸ hk)
        exact ⟨f c, (hmem _).2 ⟨c, hc, rfl⟩, (hlive c).trans hl, hch c, timer c ht hk⟩
      · exact absurd hk e.2.2
    · obtain ⟨c, hm, rfl⟩ := (hmem c).1 hc
      obtain ⟨d, hn, rfl⟩ := (hmem d).1 hd
      rw [hch, hch] at he
      rw [hkey, hkey]; exact h3 c hm d hn (hown c ▸ ho) (hown d ▸ hp) he

end

/-! ## The event -/

/-- What an operation inside an event may do: no change of mode, and at each channel what `Passes` says.
The stagger may start in ISOLATED and SILENT (R146). -/
structure Calm (x u : Prop) (e e' : Event) : Prop where
  channels : ∀ ch, Passes x u (e.cc.get ch) (e'.cc.get ch) (e.it.get ch) (e'.it.get ch)
  mc : e'.mc = e.mc ∨ e.mc.staggerTimer = none ∧ (e.mc.mode = .isolated ∨ e.mc.mode = .silent) ∧
    e'.mc = { e.mc with staggerTimer := some e.staggerStart }
  notices : ∀ f ∈ e.out.nodeNotices, f ∈ e'.out.nodeNotices
  claims : ∀ C : Prop, e.toState.ClaimInv C → e'.toState.ClaimInv C

section
variable {x u : Prop} {e e' e'' : Event}

theorem Calm.refl (x u : Prop) (e : Event) : Calm x u e e :=
  ⟨fun _ => Passes.refl x u _ _, .inl rfl, fun _ h => h, fun _ h => h⟩

theorem Calm.trans (h : Calm x u e e') (k : Calm x u e' e'') : Calm x u e e'' where
  channels ch := (h.channels ch).trans (k.channels ch)
  mc := by
    rcases h.mc with hm | ⟨hn, hmode, hm⟩
    · have hs : e'.staggerStart = e.staggerStart := by unfold State.staggerStart; rw [hm]
      rw [← hm, ← hs]; exact k.mc
    · rcases k.mc with km | ⟨kn, -, -⟩
      · exact .inr ⟨hn, hmode, km.trans hm⟩
      · rw [hm] at kn; exact absurd kn (by simp)
  notices f hf := k.notices f (h.notices f hf)
  claims C hC := k.claims C (h.claims C hC)

theorem Calm.mode (h : Calm x u e e') : e'.mc.mode = e.mc.mode := by
  rcases h.mc with hm | ⟨-, -, hm⟩ <;> rw [hm]

theorem Calm.station (h : Calm x u e e') : e'.mc.station = e.mc.station := by
  rcases h.mc with hm | ⟨-, -, hm⟩ <;> rw [hm]

theorem Calm.bypassTimer (h : Calm x u e e') : e'.mc.bypassTimer = e.mc.bypassTimer := by
  rcases h.mc with hm | ⟨-, -, hm⟩ <;> rw [hm]

/-- An operation that leaves channels, trackers and claims as they are. -/
theorem Calm.of_same (hcc : e'.cc = e.cc) (hit : e'.it = e.it) (hcl : e'.bu.claims = e.bu.claims)
    (hmc : e'.mc = e.mc) (hn : ∀ f ∈ e.out.nodeNotices, f ∈ e'.out.nodeNotices) : Calm x u e e' :=
  ⟨fun ch => by rw [hcc, hit]; exact Passes.refl x u _ _, .inl hmc, hn,
    fun _ h => h.of_same (by rw [hmc]) (by rw [hmc]) (by rw [hmc]) hcl
      (fun k => .inl (by rw [hcc]))⟩

/-- An operation at one channel that leaves the Claim Table as it is. -/
theorem Calm.of_channel (ch : Ch) (hmc : e'.mc = e.mc) (hcl : e'.bu.claims = e.bu.claims)
    (hn : e'.out.nodeNotices = e.out.nodeNotices)
    (other : ∀ k, k ≠ ch → e'.cc.get k = e.cc.get k ∧ e'.it.get k = e.it.get k)
    (here : Passes x u (e.cc.get ch) (e'.cc.get ch) (e.it.get ch) (e'.it.get ch))
    (move : (e.cc.get ch).state.unclaimedMove (e'.cc.get ch).state) : Calm x u e e' where
  channels k := by
    by_cases hk : k = ch
    · subst hk; exact here
    · obtain ⟨h1, h2⟩ := other k hk
      rw [h1, h2]; exact Passes.refl x u _ _
  mc := .inl hmc
  notices f hf := by rw [hn]; exact hf
  claims C h := h.of_same (by rw [hmc]) (by rw [hmc]) (by rw [hmc]) hcl fun k => by
    by_cases hk : k = ch
    · subst hk; exact move
    · rw [(other k hk).1]; exact .inl rfl

/-- An operation on the own claims of channels that stay as they are. -/
theorem Calm.of_claims (hcc : e'.cc = e.cc) (hit : e'.it = e.it) (hmc : e'.mc = e.mc)
    (hn : ∀ f ∈ e.out.nodeNotices, f ∈ e'.out.nodeNotices)
    (claims : ∀ C : Prop, e.toState.ClaimInv C → e'.toState.ClaimInv C) : Calm x u e e' :=
  ⟨fun ch => by rw [hcc, hit]; exact Passes.refl x u _ _, .inl hmc, hn, claims⟩

/-- An operation on remote claims alone. -/
theorem Calm.of_remote (hcc : e'.cc = e.cc) (hit : e'.it = e.it) (hmc : e'.mc = e.mc)
    (hn : ∀ f ∈ e.out.nodeNotices, f ∈ e'.out.nodeNotices)
    (own : ∀ c, c.isOwn = true → (c ∈ e'.bu.claims ↔ c ∈ e.bu.claims))
    (remote : ∀ c ∈ e'.bu.claims, c.isOwn = false →
      c.station ≠ e.mc.station ∨ ∃ d ∈ e.bu.claims, d.isOwn = false ∧ d.station = c.station)
    (empty : e.mc.mode = .loading → e.bu.claims = [] → e'.bu.claims = []) : Calm x u e e' :=
  Calm.of_claims hcc hit hmc hn fun _ h =>
    h.of_own (by rw [hmc]) (by rw [hmc]) (by rw [hmc]) own remote empty fun k => .inl (by rw [hcc])

end

theorem Event.foldl_calm {x u : Prop} {α : Type} {f : Event → α → Event}
    (h : ∀ e a, Calm x u e (f e a)) (l : List α) (e : Event) : Calm x u e (l.foldl f e) := by
  induction l generalizing e with
  | nil => exact Calm.refl x u e
  | cons a rest ih => exact (h e a).trans (ih _)

theorem Event.forChannels_calm {x u : Prop} {f : Ch → Event → Event}
    (h : ∀ ch e, Calm x u e (f ch e)) (e : Event) : Calm x u e (e.forChannels f) :=
  Event.foldl_calm (fun e ch => h ch e) _ e

end Sys2Proof.Machine
end

