-- ==== Sys2Proof/Proofs/Ops.lean ====
section
/-! SUPPORT. The shared operations of an event (Ops) are `Calm`: waking, resting, claims, locks, trips,
holds, calls and the needs watch, the budget evaluation and the end of the event. -/

namespace Sys2Proof.Machine

/-! ## The record of a channel is that of the image -/

theorem State.record_of_mc {a b : State} (h : b.mc = a.mc) (ch : Ch) : b.record ch = a.record ch := by
  unfold State.record; rw [h]

@[simp] theorem Event.modCc_record (ch : Ch) (f : Controller → Controller) (e : Event) (k : Ch) :
    (e.modCc ch f).record k = e.record k := rfl

@[simp] theorem Event.modIt_record (ch : Ch) (f : Tracker → Tracker) (e : Event) (k : Ch) :
    (e.modIt ch f).record k = e.record k := rfl

@[simp] theorem Event.setState_record (ch : Ch) (st : ChState) (e : Event) (k : Ch) :
    (e.setState ch st).record k = e.record k := State.record_of_mc (Event.setState_mc ch st e) k

@[simp] theorem Event.clearOrigins_record (ch : Ch) (e : Event) (k : Ch) :
    (e.clearOrigins ch).record k = e.record k := rfl

section
variable {x u : Prop}

/-! ## Channel states -/

theorem Passes.enter {w : Micros} {st : ChState} {c : Controller} {t : Tracker}
    (ho : c.state.outside = false) (hl : c.state.isLocked = false)
    (hc : st.energised = true → c.state.energised = true) (ht : st.tracked = c.state.tracked) :
    Passes x u c (c.enter w st) t t := by
  have hs := Controller.enter_state w st c
  have ho' := (Controller.enter_rest w st c).2.2.2.1
  refine Passes.of_move ho hl (fun _ => by rw [hs]; exact hc) ?_ (fun _ h => h) ?_
  · unfold Tracker.followsState; rw [hs, ht]; exact id
  · unfold Controller.served; rw [hs, ht, ho']; exact id

/-- A channel enters a state in which its tracker is as it was. -/
theorem Event.setState_calm (ch : Ch) (st : ChState) (e : Event)
    (ho : (e.cc.get ch).state.outside = false) (hl : (e.cc.get ch).state.isLocked = false)
    (hc : st.energised = true → (e.cc.get ch).state.energised = true)
    (ht : st.tracked = (e.cc.get ch).state.tracked)
    (hm : (e.cc.get ch).state.unclaimedMove st) : Calm x u e (e.setState ch st) := by
  have hk := Event.setState_kept ch st e
  refine Calm.of_channel ch (Event.setState_mc ch st e) (by rw [hk.bu]) hk.nodeNotices ?_ ?_ ?_
  · intro k hne
    rw [Event.setState_cc, Event.setState_it]
    exact ⟨PerChannel.get_set_other _ hne _, rfl⟩
  · rw [Event.setState_cc, Event.setState_it, PerChannel.get_set_same]
    exact Passes.enter ho hl hc ht
  · rw [Event.setState_cc, PerChannel.get_set_same, Controller.enter_state]; exact hm

/-- A controller is changed, but for its state. -/
theorem Event.modCc_calm (ch : Ch) (f : Controller → Controller) (e : Event)
    (hs : (f (e.cc.get ch)).state = (e.cc.get ch).state)
    (ho : (e.cc.get ch).served → (f (e.cc.get ch)).served) : Calm x u e (e.modCc ch f) := by
  refine Calm.of_channel ch rfl rfl rfl ?_ ?_ ?_
  · intro k hne; exact ⟨PerChannel.get_set_other _ hne _, rfl⟩
  · simp only [Event.modCc_cc, Event.modCc_it, PerChannel.get_set_same]
    exact Passes.of_state hs ho
  · simp only [Event.modCc_cc, PerChannel.get_set_same]; exact .inl hs

/-- A tracker is changed, neither started nor stopped. -/
theorem Event.modIt_calm (ch : Ch) (f : Tracker → Tracker) (e : Event)
    (hs : (f (e.it.get ch)).status = .stopped ↔ (e.it.get ch).status = .stopped)
    (hr : (e.it.get ch).restful → (f (e.it.get ch)).restful) : Calm x u e (e.modIt ch f) := by
  refine Calm.of_channel ch rfl rfl rfl ?_ ?_ (.inl rfl)
  · intro k hne; exact ⟨rfl, PerChannel.get_set_other _ hne _⟩
  · simp only [Event.modIt_cc, Event.modIt_it, PerChannel.get_set_same]
    exact Passes.of_tracker hs hr

theorem Event.noticeCh_calm (ch : Ch) (n : Notice) (e : Event) : Calm x u e (e.noticeCh ch n) :=
  Calm.of_same rfl rfl rfl rfl fun _ h => h

theorem Event.noticeNode_calm (n : Notice) (e : Event) : Calm x u e (e.noticeNode n) :=
  Calm.of_same rfl rfl rfl rfl fun _ h => List.mem_append_left _ h

theorem Event.oweEval_calm (e : Event) : Calm x u e e.oweEval :=
  Calm.of_same rfl rfl rfl rfl fun _ h => h

theorem Event.oweState_calm (e : Event) : Calm x u e e.oweState :=
  Calm.of_same rfl rfl rfl rfl fun _ h => h

theorem Event.setCallWait_calm (ch : Ch) (t : Timer) (e : Event) : Calm x u e (e.setCallWait ch t) :=
  Calm.of_same rfl rfl rfl rfl fun _ h => h

theorem Event.setRetryGap_calm (ch : Ch) (t : Timer) (e : Event) : Calm x u e (e.setRetryGap ch t) :=
  Calm.of_same rfl rfl rfl rfl fun _ h => h

/-! ## Waking -/

theorem Event.wakeStagger_mc (e : Event) : e.wakeStagger.mc = e.mc ∨
    e.mc.staggerTimer = none ∧ (e.mc.mode = .isolated ∨ e.mc.mode = .silent) ∧
      e.wakeStagger.mc = { e.mc with staggerTimer := some e.staggerStart } := by
  unfold Event.wakeStagger
  split
  · rename_i hm ht; exact .inr ⟨ht, .inl hm, rfl⟩
  · rename_i hm ht; exact .inr ⟨ht, .inr hm, rfl⟩
  · exact .inl rfl

theorem Event.wakeStagger_calm (e : Event) : Calm x u e e.wakeStagger := by
  have hr := Event.wakeStagger_rest e
  have hk := Event.wakeStagger_kept e
  refine ⟨fun ch => by rw [hr.1, hr.2.1]; exact Passes.refl x u _ _, Event.wakeStagger_mc e,
    fun f hf => by rw [hk.nodeNotices]; exact hf, fun C h => ?_⟩
  obtain ⟨t, ht⟩ := hk.mc
  exact h.of_same (by rw [ht]) (by rw [ht]) (by rw [ht]) (by rw [hk.bu])
    fun k => .inl (by rw [hr.1])

/-- A resting channel enters PENDING. -/
theorem Event.enterPending_calm (ch : Ch) (e : Event) (h : (e.cc.get ch).state.resting = true) :
    Calm x u e (e.enterPending ch) := by
  have h1 : Calm x u e (e.modCc ch Controller.forPending) := Event.modCc_calm _ _ _ rfl id
  have hst : ((e.modCc ch Controller.forPending).cc.get ch).state = (e.cc.get ch).state := by
    rw [Event.modCc_cc, PerChannel.get_set_same]; rfl
  have enter : ∀ sub, sub ≠ .claiming →
      Calm x u e ((e.modCc ch Controller.forPending).setState ch (.pending sub)) := by
    intro sub hsub
    refine h1.trans (Event.setState_calm _ _ _ ?_ ?_ ?_ ?_ ?_)
    all_goals rw [hst]
    · cases hc : (e.cc.get ch).state <;> simp_all [ChState.resting, ChState.outside]
    · cases hc : (e.cc.get ch).state <;> simp_all [ChState.resting, ChState.isLocked]
    · exact fun h => absurd h Bool.noConfusion
    · cases hc : (e.cc.get ch).state <;> simp_all [ChState.resting, ChState.tracked]
    · refine .inr ⟨fun hc => ?_, fun hc => hsub (by injection hc), ChState.noConfusion⟩
      rw [hc] at h; exact absurd h (by decide)
  unfold Event.enterPending
  simp only
  refine Calm.trans ?_ (Event.wakeStagger_calm _)
  split
  · exact (enter .budget (by decide)).trans (Event.oweEval_calm _)
  · exact ((enter .calling (by decide)).trans (Event.setCallWait_calm _ _ _)).trans
      (Calm.of_same rfl rfl rfl rfl fun _ h => h)

/-- An origin is recorded in a channel that does not run. -/
theorem Event.recordOrigin_calm (o : Origin) (ch : Ch) (e : Event)
    (h : (e.cc.get ch).state.tracked = false) : Calm x u e (e.recordOrigin o ch) :=
  Event.modCc_calm _ _ _ rfl fun _ ht => absurd (h.symm.trans ht) (by decide)

theorem Event.clearOrigins_calm (ch : Ch) (e : Event) : Calm x u e (e.clearOrigins ch) :=
  Event.modCc_calm _ _ _ rfl fun _ _ => rfl

theorem Event.addOrigin_calm (o : Origin) (ch : Ch) (e : Event) : Calm x u e (e.addOrigin o ch) := by
  have hrec : (e.cc.get ch).state.tracked = false → Calm x u e (e.recordOrigin o ch) :=
    Event.recordOrigin_calm o ch e
  have hpend : (e.cc.get ch).state.tracked = false → (e.cc.get ch).state.resting = true →
      Calm x u e ((e.recordOrigin o ch).enterPending ch) := fun h h' =>
    (hrec h).trans (Event.enterPending_calm ch _ (by rw [Event.recordOrigin_state]; exact h'))
  unfold Event.addOrigin
  split <;> rename_i hst
  · split
    · exact hpend (by rw [hst]; rfl) (by rw [hst]; rfl)
    · exact hrec (by rw [hst]; rfl)
  · split
    · exact hpend (by rw [hst]; rfl) (by rw [hst]; rfl)
    · exact hrec (by rw [hst]; rfl)
  all_goals first | exact Calm.refl x u e | exact hrec (by rw [hst]; rfl)

/-! ## Running and resting -/

theorem Event.returnToAwake_calm (ch : Ch) (e : Event) : Calm x u e (e.returnToAwake ch) := by
  unfold Event.returnToAwake
  split
  · rename_i hst
    refine Event.setState_calm ch .awake e ?_ ?_ ?_ ?_ (.inr ⟨?_, ?_, ?_⟩)
    all_goals first | decide | (rw [hst]; decide)
  · exact Calm.refl x u e

theorem State.mayWait_awake {s : State} {ch : Ch} (h : s.mayWait ch = true) :
    (s.cc.get ch).state = .awake := by
  unfold State.mayWait at h
  simp only [Bool.and_eq_true, decide_eq_true_eq] at h
  exact h.1.1.1.1

theorem Event.tryWait_calm (ch : Ch) (e : Event) : Calm x u e (e.tryWait ch) := by
  unfold Event.tryWait
  split
  · rename_i h
    have hst := State.mayWait_awake h
    refine Event.setState_calm ch .waiting e ?_ ?_ ?_ ?_ (.inr ⟨?_, ?_, ?_⟩)
    all_goals first | decide | (rw [hst]; decide)
  · exact Calm.refl x u e

theorem Tracker.beginWindow_status (full : Micros) (t : Tracker) :
    (t.beginWindow full).status = t.status := by
  unfold Tracker.beginWindow; split <;> rfl

theorem Tracker.beginWindow_restful (full : Micros) (t : Tracker) (h : t.restful) :
    (t.beginWindow full).restful := by
  unfold Tracker.beginWindow
  split
  · rename_i hs; intro hn; exact absurd (hs.symm.trans hn) (by decide)
  · rename_i hs; intro hn; exact absurd (hs.symm.trans hn) (by decide)
  · exact h

theorem Event.wakeRunning_calm (ch : Ch) (e : Event) : Calm x u e (e.wakeRunning ch) := by
  refine Calm.trans (Event.modIt_calm ch _ e ?_ fun h => ?_) (Event.returnToAwake_calm _ _)
  · unfold Tracker.wake; rw [Tracker.beginWindow_status]
  · exact Tracker.beginWindow_restful _ _ h

/-- An idle window expires on a tracker that runs, or that is not at rest. -/
theorem Event.windowExpired_calm (ch : Ch) (e : Event)
    (h : (e.it.get ch).status = .stopped → (e.it.get ch).windowTimer ≠ none) :
    Calm x u e (e.windowExpired ch) := by
  unfold Event.windowExpired
  simp only
  have h1 : Calm x u e (e.modCc ch fun c => { c with tripCount := 0 }) := Event.modCc_calm _ _ _ rfl id
  have h2 := h1.trans (Event.modIt_calm ch (Tracker.windowExpired
    ((e.modCc ch fun c => { c with tripCount := 0 }).record ch).idleWindow
    ((e.modCc ch fun c => { c with tripCount := 0 }).held ch)) _ Iff.rfl
    fun hr hs => absurd (hr hs).1 (h hs))
  split
  · exact h2.trans (Event.tryWait_calm _ _)
  · exact h2

theorem Event.runDownEnds_calm (ch : Ch) (e : Event) (h : (e.cc.get ch).state = .coast) :
    Calm x u e (e.runDownEnds ch) := by
  have h1 : Calm x u e (e.modCc ch fun c => { c with runDownTimer := none }) :=
    Event.modCc_calm _ _ _ rfl id
  have hst : ((e.modCc ch fun c => { c with runDownTimer := none }).cc.get ch).state = .coast := by
    rw [Event.modCc_cc, PerChannel.get_set_same]; exact h
  unfold Event.runDownEnds
  simp only
  split
  · refine h1.trans (Event.setState_calm ch .rest _ ?_ ?_ ?_ ?_ (.inr ⟨?_, ?_, ?_⟩))
    all_goals first | decide | (rw [hst]; decide)
  · exact h1.trans (Event.enterPending_calm _ _ (by rw [hst]; rfl))

end

/-- A channel in COAST, its tracker stopped and its run-down begun (R19). -/
def Event.beginCoast (ch : Ch) (e : Event) : Event :=
  let e := (e.setState ch .coast).modIt ch Tracker.stopClear
  e.modCc ch fun c => { c with runDownTimer := some (e.record ch).runDown }

/-- An entry to COAST begins a run-down, which ends at once where it is of 0 s (R19, R20). -/
theorem Event.enterCoast_eq (ch : Ch) (e : Event) : e.enterCoast ch =
    if (e.record ch).runDown = 0 then (e.beginCoast ch).runDownEnds ch else e.beginCoast ch := by
  have h : (e.beginCoast ch).record ch = e.record ch := by
    unfold State.record Event.beginCoast
    simp only [Event.modCc_mc, Event.modIt_mc, Event.setState_mc]
  rw [← h]; rfl

theorem Event.beginCoast_cc (ch : Ch) (e : Event) : (e.beginCoast ch).cc = e.cc.set ch
    { Controller.enter (e.record ch).feedbackWindow .coast (e.cc.get ch) with
      runDownTimer := some (e.record ch).runDown } := by
  have h : ((e.setState ch .coast).modIt ch Tracker.stopClear).record ch = e.record ch := by
    unfold State.record; rw [Event.modIt_mc, Event.setState_mc]
  unfold Event.beginCoast
  simp only [Event.modCc_cc, Event.modIt_cc, Event.setState_cc, PerChannel.get_set_same,
    PerChannel.set_set, h]

theorem Event.beginCoast_it (ch : Ch) (e : Event) :
    (e.beginCoast ch).it = e.it.set ch (e.it.get ch).stopClear := by
  unfold Event.beginCoast
  simp only [Event.modCc_it, Event.modIt_it, Event.setState_it]

theorem Event.beginCoast_kept (ch : Ch) (e : Event) : NodeKept e (e.beginCoast ch) := by
  unfold Event.beginCoast
  exact ((Event.setState_kept ch .coast e).trans (Event.modIt_kept ch Tracker.stopClear _)).trans
    (Event.modCc_kept ch _ _)

theorem Event.beginCoast_mc (ch : Ch) (e : Event) : (e.beginCoast ch).mc = e.mc := by
  unfold Event.beginCoast
  simp only [Event.modCc_mc, Event.modIt_mc, Event.setState_mc]

theorem Event.beginCoast_state (ch : Ch) (e : Event) :
    ((e.beginCoast ch).cc.get ch).state = .coast := by
  rw [Event.beginCoast_cc, PerChannel.get_set_same]; exact Controller.enter_state _ _ _

theorem Tracker.stopClear_status (t : Tracker) : t.stopClear.status = .stopped := by
  unfold Tracker.stopClear; split
  · assumption
  · rfl
  · rfl

theorem Tracker.stopClear_restful (t : Tracker) (h : t.restful) : t.stopClear.restful := by
  unfold Tracker.stopClear; split
  · exact h
  · exact fun _ => ⟨rfl, rfl, rfl⟩
  · exact fun _ => ⟨rfl, rfl, rfl⟩

section
variable {x u : Prop}

/-- An entry to COAST stops the tracker, and the load runs down. -/
theorem Event.beginCoast_passes (ch : Ch) (e : Event) (ho : (e.cc.get ch).state.outside = false)
    (hl : (e.cc.get ch).state.isLocked = false) (k : Ch) :
    Passes x u (e.cc.get k) ((e.beginCoast ch).cc.get k) (e.it.get k)
      ((e.beginCoast ch).it.get k) := by
  rw [Event.beginCoast_cc, Event.beginCoast_it]
  by_cases hk : k = ch
  · subst hk
    have hs := Controller.enter_state (e.record k).feedbackWindow .coast (e.cc.get k)
    simp only [PerChannel.get_set_same]
    refine Passes.of_move ho hl (fun _ h => ?_) (fun _ => ?_)
      (fun _ => Tracker.stopClear_restful _) fun _ h => ?_
    · rw [hs] at h; exact absurd h (by decide)
    · unfold Tracker.followsState
      rw [hs, Tracker.stopClear_status]; exact ⟨fun h => absurd rfl h, fun h => absurd h (by decide)⟩
    · rw [hs] at h; exact absurd h (by decide)
  · rw [PerChannel.get_set_other _ hk, PerChannel.get_set_other _ hk]
    exact Passes.refl x u _ _

/-- A channel that has no own claim enters COAST. -/
theorem Event.beginCoast_calm (ch : Ch) (e : Event) (ho : (e.cc.get ch).state.outside = false)
    (hl : (e.cc.get ch).state.isLocked = false) (hc : (e.cc.get ch).state ≠ .pending .claiming) :
    Calm x u e (e.beginCoast ch) where
  channels := Event.beginCoast_passes ch e ho hl
  mc := .inl (Event.beginCoast_mc ch e)
  notices f hf := by rw [(Event.beginCoast_kept ch e).nodeNotices]; exact hf
  claims C h := by
    have hmc := Event.beginCoast_mc ch e
    refine h.of_same (by rw [hmc]) (by rw [hmc]) (by rw [hmc]) (by rw [(Event.beginCoast_kept ch e).bu])
      fun k => ?_
    by_cases hk : k = ch
    · subst hk; rw [Event.beginCoast_state]; exact .inr ⟨hc, by decide, by decide⟩
    · rw [Event.beginCoast_cc, PerChannel.get_set_other _ hk]; exact .inl rfl

/-- What follows an entry to COAST inside it. -/
theorem Event.enterCoast_of_begin (ch : Ch) (e : Event) :
    Calm x u (e.beginCoast ch) (e.enterCoast ch) := by
  rw [Event.enterCoast_eq]
  split
  · exact Event.runDownEnds_calm ch _ (Event.beginCoast_state ch e)
  · exact Calm.refl x u _

theorem Event.enterCoast_calm (ch : Ch) (e : Event) (h : (e.cc.get ch).state = .waiting) :
    Calm x u e (e.enterCoast ch) := by
  refine (Event.beginCoast_calm ch e ?_ ?_ ?_).trans (Event.enterCoast_of_begin ch e)
  all_goals (rw [h]; decide)

/-! ## Claims -/

theorem Claim.dropMarks_own {n : Nat} {c : Claim} (h : c.isOwn = true) : c.dropMarks n = c := by
  unfold Claim.isOwn at h; unfold Claim.dropMarks; split at h <;> simp_all

theorem Claim.dropMarks_isOwn (n : Nat) (c : Claim) : (c.dropMarks n).isOwn = c.isOwn := by
  unfold Claim.dropMarks Claim.isOwn; cases hs : c.status <;> simp [hs]

theorem Claim.dropMarks_key (n : Nat) (c : Claim) : (c.dropMarks n).key = c.key := by
  unfold Claim.dropMarks Claim.key; split <;> rfl

theorem Claim.addMark_own {n : Nat} {a : Arrival} {c : Claim} (h : c.isOwn = true) :
    c.addMark n a = c := by
  unfold Claim.isOwn at h; unfold Claim.addMark; split at h <;> simp_all

theorem Claim.addMark_isOwn (n : Nat) (a : Arrival) (c : Claim) : (c.addMark n a).isOwn = c.isOwn := by
  unfold Claim.addMark Claim.isOwn; cases hs : c.status <;> simp [hs]

theorem Claim.addMark_key (n : Nat) (a : Arrival) (c : Claim) : (c.addMark n a).key = c.key := by
  unfold Claim.addMark Claim.key; split <;> rfl

/-- A change of entries that leaves own ones alone leaves the own entries of the list as they are. -/
theorem mem_map_own {f : Claim → Claim} (hf : ∀ c, c.isOwn = true → f c = c)
    (hi : ∀ c, (f c).isOwn = c.isOwn) (l : List Claim) (c : Claim) (ho : c.isOwn = true) :
    c ∈ l.map f ↔ c ∈ l := by
  rw [List.mem_map]
  refine ⟨?_, fun h => ⟨c, h, hf c ho⟩⟩
  rintro ⟨d, hd, rfl⟩
  rw [hf d (hi d ▸ ho)]; exact hd

/-- The own entries that stay when the key of `x` leaves the table. -/
theorem Event.removeProvisional_own (x : Claim) (e : Event) (c : Claim) (ho : c.isOwn = true) :
    c ∈ (e.removeProvisional x).bu.claims ↔ c ∈ e.bu.claims ∧ ¬c.key = x.key := by
  have h : (e.removeProvisional x).bu.claims =
      (e.bu.claims.filter fun c => !c.hasKey x.station x.number).map (Claim.dropMarks x.number) := rfl
  rw [h, mem_map_own (fun c => Claim.dropMarks_own) (Claim.dropMarks_isOwn x.number) _ c ho,
    List.mem_filter, Bool.not_eq_true', ← Claim.hasKey_iff, Bool.not_eq_true]

theorem Event.removeProvisional_remote (x : Claim) (e : Event) (c : Claim)
    (hc : c ∈ (e.removeProvisional x).bu.claims) (hr : c.isOwn = false) :
    ∃ d ∈ e.bu.claims, d.isOwn = false ∧ d.station = c.station := by
  obtain ⟨d, hd, rfl⟩ := List.mem_map.1 hc
  exact ⟨d, (List.mem_filter.1 hd).1, (Claim.dropMarks_isOwn _ d).symm.trans hr,
    (congrArg Prod.fst (Claim.dropMarks_key x.number d)).symm⟩

theorem Event.removeProvisional_empty (x : Claim) (e : Event) (h : e.bu.claims = []) :
    (e.removeProvisional x).bu.claims = [] := by
  show (e.bu.claims.filter _).map _ = []
  rw [h]; rfl

/-- Where an own claim of `ch` leaves with its key, no other channel's own claim does. -/
theorem State.ClaimInv.ch_of_key {C : Prop} {s : State} (h : s.ClaimInv C) (hC : C) {c x : Claim}
    (hc : c ∈ s.bu.claims) (hx : x ∈ s.bu.claims) (ho : c.isOwn = true) (hox : x.isOwn = true)
    (hk : c.key = x.key) : c = x := by
  obtain ⟨-, -, h3, -⟩ := h.keys hC
  exact h3 c hc x hx ho hox hk

theorem Event.withdraw_calm (c : Claim) (e : Event) (hc : c ∈ e.bu.claims)
    (hp : c.isProvisional = true) : Calm x u e (e.withdraw c) := by
  have hf := Event.withdraw_flushes c e
  have hbu : (e.withdraw c).bu.claims = (e.removeProvisional c).bu.claims := by
    unfold Event.withdraw
    simp only
    split
    · rw [(Event.setState_kept _ _ _).bu]; rfl
    · rfl
  have hn : (e.withdraw c).out.nodeNotices = e.out.nodeNotices := by
    unfold Event.withdraw
    simp only
    split
    · rw [(Event.setState_kept _ _ _).nodeNotices]; rfl
    · rfl
  have hcc : ∀ k, k ≠ c.ch → (e.withdraw c).cc.get k = e.cc.get k := by
    intro k hk
    unfold Event.withdraw
    simp only
    split
    · rw [Event.setState_cc]; exact PerChannel.get_set_other _ hk _
    · rfl
  have hch : ((e.cc.get c.ch).state = .pending .claiming ∧
      ((e.withdraw c).cc.get c.ch).state = .pending .budget) ∨
      ((e.cc.get c.ch).state ≠ .pending .claiming ∧
        (e.withdraw c).cc.get c.ch = e.cc.get c.ch) := by
    unfold Event.withdraw
    simp only
    split
    · rename_i hst
      refine .inl ⟨hst, ?_⟩
      rw [Event.setState_cc, PerChannel.get_set_same]; exact Controller.enter_state _ _ _
    · rename_i hst
      exact .inr ⟨hst, rfl⟩
  refine ⟨fun k => ?_, .inl hf.mc, fun f h => by rw [hn]; exact h, fun C h => ?_⟩
  · rw [hf.it]
    have hrest := (Controller.withState _ _ (hf.rest k)).2.2.2.1
    by_cases hk : k = c.ch
    · subst hk
      rcases hch with ⟨hst, hst'⟩ | ⟨-, he⟩
      · refine Passes.of_move ?_ ?_ ?_ ?_ (fun _ h => h) ?_
        · rw [hst]; rfl
        · rw [hst]; rfl
        · rw [hst']; exact fun _ h => absurd h (by decide)
        · unfold Tracker.followsState; rw [hst, hst']; exact id
        · unfold Controller.served; rw [hst']; exact fun _ h => absurd h (by decide)
      · rw [he]; exact Passes.refl x u _ _
    · rw [hcc k hk]; exact Passes.refl x u _ _
  · refine h.of_removal c.ch (fun d => d.key = c.key) (by rw [hf.mc]) (by rw [hf.mc]) (by rw [hf.mc])
      (fun d hd => by rw [hbu]; exact Event.removeProvisional_own c e d hd)
      (fun d hd hr => Event.removeProvisional_remote c e d (hbu ▸ hd) hr)
      (fun hz => hbu.trans (Event.removeProvisional_empty c e hz))
      (fun d hd hC ho hk => by
        rw [h.ch_of_key hC hd hc ho (Claim.own_of_provisional hp) hk])
      (.inr fun d hd hq he => h.provisional.2 d hd c hc hq hp he) (fun _ => ?_)
      (fun k hk => by rw [hcc k hk])
    rcases hch with ⟨-, hst'⟩ | ⟨hne, -⟩
    · rw [hst']; exact ⟨by decide, by decide⟩
    · exact absurd (h.provisional.1 c hc hp) hne

theorem State.provisionalOf_some {s : State} {ch : Ch} {c : Claim} (h : s.provisionalOf ch = some c) :
    c ∈ s.bu.claims ∧ c.isProvisional = true ∧ c.ch = ch := by
  have hc := List.find?_some h
  simp only [Bool.and_eq_true, decide_eq_true_eq] at hc
  exact ⟨List.mem_of_find?_eq_some h, hc⟩

theorem State.provisionalOf_none {s : State} {ch : Ch} (h : s.provisionalOf ch = none) :
    ∀ c ∈ s.bu.claims, c.isProvisional = true → c.ch ≠ ch := by
  intro c hc hp he
  have := List.find?_eq_none.1 h c hc
  simp [hp, he] at this

theorem State.liveOf_some {s : State} {ch : Ch} {c : Claim} (h : s.liveOf ch = some c) :
    c ∈ s.bu.claims ∧ c.isLive = true ∧ c.ch = ch := by
  have hc := List.find?_some h
  simp only [Bool.and_eq_true, decide_eq_true_eq] at hc
  exact ⟨List.mem_of_find?_eq_some h, hc⟩

theorem Event.forProvisional_calm {f : Claim → Event → Event}
    (h : ∀ c e, c ∈ e.bu.claims → c.isProvisional = true → Calm x u e (f c e)) (e : Event) :
    Calm x u e (e.forProvisional f) := by
  refine Event.foldl_calm (fun e p => ?_) _ e
  split
  · rename_i c hc
    obtain ⟨hm, hp, -⟩ := State.provisionalOf_some hc
    split
    · exact h c e hm hp
    · exact Calm.refl x u e
  · exact Calm.refl x u e

theorem Event.withdrawAll_calm (e : Event) : Calm x u e e.withdrawAll :=
  Event.forProvisional_calm Event.withdraw_calm e

theorem Event.conflictCheck_calm (e : Event) : Calm x u e e.conflictCheck :=
  Event.forProvisional_calm (fun c e hc hp => by
    split
    · exact Event.withdraw_calm c e hc hp
    · exact Calm.refl x u e) e

theorem Event.releaseClaim_own (y : Claim) (e : Event) (c : Claim) :
    c ∈ (e.releaseClaim y).bu.claims ↔ c ∈ e.bu.claims ∧ ¬c.key = y.key := by
  show c ∈ (e.bu.claims.filter fun c => !c.hasKey y.station y.number) ↔ _
  rw [List.mem_filter, Bool.not_eq_true', ← Claim.hasKey_iff, Bool.not_eq_true]

/-- An own claim is released whose channel asks for none. -/
theorem Event.releaseClaim_calm (y : Claim) (e : Event) (hy : y ∈ e.bu.claims) (ho : y.isOwn = true)
    (clear : ∀ C : Prop, e.toState.ClaimInv C → C → (e.cc.get y.ch).state ≠ .pending .claiming ∧
      (e.cc.get y.ch).state ≠ .starting .claimed) : Calm x u e (e.releaseClaim y) := by
  refine Calm.of_claims rfl rfl rfl (fun _ h => h) fun C h => ?_
  exact h.of_removal (s := e.toState) (s' := (e.releaseClaim y).toState) y.ch (fun d => d.key = y.key) rfl rfl rfl
    (fun d _ => Event.releaseClaim_own y e d)
    (fun d hd hr => ⟨d, ((Event.releaseClaim_own y e d).1 hd).1, hr, rfl⟩)
    (fun hz => by show e.bu.claims.filter _ = []; rw [hz]; rfl)
    (fun d hd hC hod hk => by rw [h.ch_of_key hC hd hy hod ho hk]) (.inl rfl) (clear C h)
    (fun _ _ => rfl)

/-- A channel leaves PENDING for a state that asks for no claim, its PROVISIONAL claim withdrawn. -/
theorem State.ClaimInv.of_leavePending {C : Prop} (ch : Ch) (e e' : Event)
    (hcl : e'.bu.claims = (e.leavePending ch).bu.claims) (hmc : e'.mc = e.mc)
    (clear : (e'.cc.get ch).state ≠ .pending .claiming ∧ (e'.cc.get ch).state ≠ .starting .claimed)
    (moves : ∀ k, k ≠ ch → (e'.cc.get k).state = (e.cc.get k).state)
    (h : e.toState.ClaimInv C) : e'.toState.ClaimInv C := by
  have hp : ((e.setCallWait ch none).setRetryGap ch none).provisionalOf ch = e.provisionalOf ch := rfl
  cases hx : e.provisionalOf ch with
  | none =>
    have hcl' : e'.bu.claims = e.bu.claims := by
      rw [hcl]; unfold Event.leavePending; simp only [hp, hx]; rfl
    exact h.of_removal ch (fun _ => False) (by rw [hmc]) (by rw [hmc]) (by rw [hmc])
      (fun d _ => by rw [hcl']; simp) (fun d hd hr => ⟨d, hcl' ▸ hd, hr, rfl⟩)
      (fun hz => hcl'.trans hz) (fun _ _ _ _ hf => hf.elim)
      (.inr fun d hd hq he => State.provisionalOf_none hx d hd hq he) (fun _ => clear) moves
  | some c =>
    obtain ⟨hc, hpc, hch⟩ := State.provisionalOf_some hx
    have hcl' : e'.bu.claims = (e.removeProvisional c).bu.claims := by
      rw [hcl]; unfold Event.leavePending; simp only [hp, hx]; rfl
    exact h.of_removal ch (fun d => d.key = c.key) (by rw [hmc]) (by rw [hmc]) (by rw [hmc])
      (fun d hd => by rw [hcl']; exact Event.removeProvisional_own c e d hd)
      (fun d hd hr => Event.removeProvisional_remote c e d (hcl' ▸ hd) hr)
      (fun hz => hcl'.trans (Event.removeProvisional_empty c e hz))
      (fun d hd hC ho hk => by
        rw [h.ch_of_key hC hd hc ho (Claim.own_of_provisional hpc) hk, hch])
      (.inr fun d hd hq he => h.provisional.2 d hd c hc hq hpc (he.trans hch.symm))
      (fun _ => clear) moves

/-- What leaving PENDING does to the node, but for the Claim Table. -/
theorem Event.leavePending_rest (ch : Ch) (e : Event) :
    (e.leavePending ch).cc = e.cc ∧ (e.leavePending ch).it = e.it ∧ (e.leavePending ch).mc = e.mc ∧
      (e.leavePending ch).out.nodeNotices = e.out.nodeNotices := by
  unfold Event.leavePending
  simp only
  split <;> exact ⟨rfl, rfl, rfl, rfl⟩

/-- A channel leaves STARTING, and its LIVE claims take its inrush time as their hold, where the start
was CLAIMED. -/
theorem State.ClaimInv.of_handOver {C : Prop} (ch : Ch) (e e' : Event)
    (hcl : e'.bu.claims = (e.handOverInrush ch).bu.claims) (hmc : e'.mc = e.mc)
    (hne : (e.cc.get ch).state ≠ .pending .claiming)
    (clear : (e'.cc.get ch).state ≠ .pending .claiming ∧ (e'.cc.get ch).state ≠ .starting .claimed)
    (moves : ∀ k, k ≠ ch → (e'.cc.get k).state = (e.cc.get k).state)
    (h : e.toState.ClaimInv C) : e'.toState.ClaimInv C := by
  have hmoves : ∀ k, (e.cc.get k).state.unclaimedMove (e'.cc.get k).state := fun k => by
    by_cases hk : k = ch
    · subst hk; exact .inr ⟨hne, clear⟩
    · exact .inl (moves k hk)
  by_cases hs : (e.cc.get ch).state = .starting .claimed
  · refine h.of_map (fun c => if c.isLive && decide (c.ch = ch) then
        { c with timer := (e.cc.get ch).inrushTimer } else c) (by rw [hmc]) (by rw [hmc]) (by rw [hmc])
      ?_ (fun c => ?_) (fun c ht hk => ?_) hmoves
    · rw [hcl]; unfold Event.handOverInrush; simp only [hs]
    · split <;> exact ⟨rfl, rfl, rfl⟩
    · have hc : c.ch ≠ ch := fun hc => clear.2 (hc ▸ hk)
      simp [hc, ht]
  · refine h.of_same (by rw [hmc]) (by rw [hmc]) (by rw [hmc]) ?_ hmoves
    rw [hcl]; unfold Event.handOverInrush
    simp only
    rfl

theorem Event.handOverInrush_rest (ch : Ch) (e : Event) :
    (e.handOverInrush ch).cc = e.cc.set ch { e.cc.get ch with inrushTimer := none } ∧
      (e.handOverInrush ch).it = e.it ∧ (e.handOverInrush ch).mc = e.mc ∧
      (e.handOverInrush ch).out = e.out := by
  unfold Event.handOverInrush
  simp only
  split <;> exact ⟨rfl, rfl, rfl, rfl⟩

end

end Sys2Proof.Machine
end

