-- ==== Sys2Proof/Proofs/Ops2.lean ====
section
/-! SUPPORT. The operations that take a channel out of STARTING or PENDING (R6, R7, R25, R26, R29), each with
what it does to the node, and the rest of the shared operations up to the end of an event: all `Calm`,
but for an UNCLAIMED start, which closes a contactor. -/

namespace Sys2Proof.Machine

/-! ## Trips and locks -/

/-- A controller that is about to trip (R6, R10, R27). -/
def Controller.forTrip (r : ChannelRecord) (c : Controller) : Controller :=
  { c with
    inrushTimer := none
    tripCount := min (c.tripCount + 1) (max c.tripCount (r.retryLimit + 1))
    retryTimer := some r.retryDelay }

/-- What a trip does to the node. -/
theorem Event.trip_spec (ch : Ch) (cause : TripCause) (e : Event) :
    (e.trip ch cause).cc = e.cc.set ch (Controller.enter (e.record ch).feedbackWindow (.tripped cause)
      ((e.cc.get ch).forTrip (e.record ch))) ∧
    (e.trip ch cause).it = e.it.set ch (e.it.get ch).stop ∧
    (e.trip ch cause).mc = e.mc ∧ (e.trip ch cause).bu = (e.handOverInrush ch).bu ∧
    (e.trip ch cause).out.nodeNotices = e.out.nodeNotices := by
  obtain ⟨hcc, hit, hmc, hout⟩ := Event.handOverInrush_rest ch e
  have hrec := State.record_of_mc hmc ch
  refine ⟨?_, ?_, ?_, ?_, ?_⟩
  · simp only [Event.trip, Event.noticeCh_cc, Event.setState_cc, Event.modCc_cc, Event.modIt_cc, hcc,
      PerChannel.get_set_same, PerChannel.set_set, Event.modCc_record, Event.modIt_record, hrec]
    rfl
  · simp only [Event.trip, Event.noticeCh_it, Event.setState_it, Event.modCc_it, Event.modIt_it, hit]
  · simp only [Event.trip, Event.noticeCh_mc, Event.setState_mc, Event.modCc_mc, Event.modIt_mc, hmc]
  · simp only [Event.trip, Event.noticeCh_bu, (Event.setState_kept _ _ _).bu, Event.modCc_bu,
      Event.modIt_bu]
  · simp only [Event.trip, Event.noticeCh_out, (Event.setState_kept _ _ _).nodeNotices, Event.modCc_out,
      Event.modIt_out, hout]

/-- A controller that is about to lock (R7, R11, R30). -/
def Controller.forLock (c : Controller) : Controller :=
  { c with origins := {}, runDownTimer := none, retryTimer := none }

/-- What a lock does to the node. -/
theorem Event.lock_spec (ch : Ch) (cause : LockCause) (e : Event) :
    (e.lock ch cause).cc = e.cc.set ch (Controller.enter (e.record ch).feedbackWindow (.locked cause)
      (e.cc.get ch).forLock) ∧
    (e.lock ch cause).it = e.it ∧ (e.lock ch cause).mc = e.mc ∧
    (e.lock ch cause).bu = (if (e.cc.get ch).state.isPending then e.leavePending ch else e).bu ∧
    (e.lock ch cause).out.nodeNotices = e.out.nodeNotices := by
  have hrest : ∀ b : Bool, (if b then e.leavePending ch else e).cc = e.cc ∧
      (if b then e.leavePending ch else e).it = e.it ∧
      (if b then e.leavePending ch else e).mc = e.mc ∧
      (if b then e.leavePending ch else e).out.nodeNotices = e.out.nodeNotices := by
    intro b; cases b
    · exact ⟨rfl, rfl, rfl, rfl⟩
    · exact Event.leavePending_rest ch e
  obtain ⟨hcc, hit, hmc, hn⟩ := hrest (e.cc.get ch).state.isPending
  have hrec := State.record_of_mc hmc ch
  refine ⟨?_, ?_, ?_, ?_, ?_⟩
  · simp only [Event.lock, Event.noticeCh_cc, Event.setState_cc, Event.modCc_cc, hcc,
      PerChannel.get_set_same, PerChannel.set_set, Event.modCc_record, hrec]
    rfl
  · simp only [Event.lock, Event.noticeCh_it, Event.setState_it, Event.modCc_it, hit]
  · simp only [Event.lock, Event.noticeCh_mc, Event.setState_mc, Event.modCc_mc, hmc]
  · simp only [Event.lock, Event.noticeCh_bu, (Event.setState_kept _ _ _).bu, Event.modCc_bu]
  · simp only [Event.lock, Event.noticeCh_out, (Event.setState_kept _ _ _).nodeNotices, Event.modCc_out,
      hn]

section
variable {x u : Prop}

/-- An operation at one channel that sets its controller and its tracker. -/
theorem Calm.of_set {e e' : Event} (ch : Ch) (c : Controller) (t : Tracker)
    (hcc : e'.cc = e.cc.set ch c) (hit : e'.it = e.it.set ch t) (hmc : e'.mc = e.mc)
    (hn : e'.out.nodeNotices = e.out.nodeNotices)
    (here : Passes x u (e.cc.get ch) c (e.it.get ch) t)
    (claims : ∀ C : Prop, e.toState.ClaimInv C → e'.toState.ClaimInv C) : Calm x u e e' where
  channels k := by
    rw [hcc, hit, PerChannel.get_set, PerChannel.get_set]
    split
    · rename_i hk; subst hk; exact here
    · exact Passes.refl x u _ _
  mc := .inl hmc
  notices f hf := by rw [hn]; exact hf
  claims := claims

/-- The states of the channels after one of them was set. -/
theorem PerChannel.state_set_other (p : PerChannel Controller) (ch : Ch) (c : Controller) (k : Ch)
    (h : k ≠ ch) : ((p.set ch c).get k).state = (p.get k).state := by
  rw [PerChannel.get_set_other _ h]

/-- A channel that is energised and supervised is AWAKE, WAITING or STARTING. -/
theorem ChState.watching_iff (st : ChState) :
    st.watching = true ↔ st.energised = true ∧ st.supervised = true := by
  cases st <;> simp [ChState.watching, ChState.energised, ChState.supervised]

theorem ChState.watching_inside {st : ChState} (h : st.watching = true) :
    st.outside = false ∧ st.isLocked = false ∧ st ≠ .pending .claiming := by
  cases st <;> simp_all [ChState.watching, ChState.outside, ChState.isLocked]

theorem Event.trip_calm (ch : Ch) (cause : TripCause) (e : Event)
    (h : (e.cc.get ch).state.watching = true) : Calm x u e (e.trip ch cause) := by
  obtain ⟨hcc, hit, hmc, hbu, hn⟩ := Event.trip_spec ch cause e
  obtain ⟨ho, hl, hc⟩ := ChState.watching_inside h
  have hs := Controller.enter_state (e.record ch).feedbackWindow (.tripped cause)
    ((e.cc.get ch).forTrip (e.record ch))
  refine Calm.of_set ch _ _ hcc hit hmc hn ?_ fun C hC => ?_
  · refine Passes.of_move ho hl ?_ ?_ (fun _ _ _ => ⟨rfl, rfl, rfl⟩) ?_
    · rw [hs]; exact fun _ h => absurd h Bool.noConfusion
    · rw [hs]; exact fun _ => ⟨fun h => absurd rfl h, fun h => absurd h Bool.noConfusion⟩
    · unfold Controller.served; rw [hs]; exact fun _ h => absurd h Bool.noConfusion
  · refine State.ClaimInv.of_handOver ch e _ (by rw [hbu]) hmc hc ?_ ?_ hC
    · rw [hcc, PerChannel.get_set_same, hs]; exact ⟨ChState.noConfusion, ChState.noConfusion⟩
    · intro k hk; rw [hcc]; exact PerChannel.state_set_other _ _ _ _ hk

/-- A channel that is not energised locks. -/
theorem Event.lock_calm (ch : Ch) (cause : LockCause) (e : Event)
    (ho : (e.cc.get ch).state.outside = false) (hl : (e.cc.get ch).state.isLocked = false)
    (ht : (e.cc.get ch).state.tracked = false) : Calm x u e (e.lock ch cause) := by
  obtain ⟨hcc, hit, hmc, hbu, hn⟩ := Event.lock_spec ch cause e
  have hs := Controller.enter_state (e.record ch).feedbackWindow (.locked cause)
    (e.cc.get ch).forLock
  have clear : ((e.lock ch cause).cc.get ch).state ≠ .pending .claiming ∧
      ((e.lock ch cause).cc.get ch).state ≠ .starting .claimed := by
    rw [hcc, PerChannel.get_set_same, hs]; exact ⟨ChState.noConfusion, ChState.noConfusion⟩
  have moves : ∀ k, k ≠ ch → ((e.lock ch cause).cc.get k).state = (e.cc.get k).state := by
    intro k hk; rw [hcc]; exact PerChannel.state_set_other _ _ _ _ hk
  refine Calm.of_set ch _ (e.it.get ch) hcc (by rw [hit, PerChannel.set_get]) hmc hn ?_ fun C hC => ?_
  · refine Passes.of_move ho hl ?_ ?_ (fun _ h => h) ?_
    · rw [hs]; exact fun _ h => absurd h Bool.noConfusion
    · unfold Tracker.followsState
      rw [hs, ht]; exact id
    · unfold Controller.served; rw [hs]; exact fun _ h => absurd h Bool.noConfusion
  · by_cases hp : (e.cc.get ch).state.isPending = true
    · exact State.ClaimInv.of_leavePending ch e _ (by rw [hbu, if_pos hp]) hmc clear moves hC
    · refine hC.of_same (by rw [hmc]) (by rw [hmc]) (by rw [hmc]) (by rw [hbu, if_neg hp]) fun k => ?_
      by_cases hk : k = ch
      · subst hk
        exact .inr ⟨fun hc => hp (by rw [hc]; rfl), clear⟩
      · exact .inl (moves k hk)

/-! ## Sheds -/

theorem Event.clearOrigins_cc (ch : Ch) (e : Event) :
    (e.clearOrigins ch).cc = e.cc.set ch { e.cc.get ch with origins := {} } := rfl

/-- What the shed of a PENDING channel does to the node. -/
theorem Event.shedPending_spec (ch : Ch) (e : Event) :
    (e.shedPending ch).cc = e.cc.set ch
      (Controller.enter (e.record ch).feedbackWindow .rest { e.cc.get ch with origins := {} }) ∧
    (e.shedPending ch).it = e.it ∧ (e.shedPending ch).mc = e.mc ∧
    (e.shedPending ch).bu = (e.leavePending ch).bu ∧
    (e.shedPending ch).out.nodeNotices = e.out.nodeNotices := by
  obtain ⟨hcc, hit, hmc, hn⟩ := Event.leavePending_rest ch e
  have hk := Event.setState_kept ch .rest ((e.leavePending ch).clearOrigins ch)
  refine ⟨?_, ?_, ?_, ?_, ?_⟩
  · rw [Event.shedPending, Event.setState_cc, Event.clearOrigins_cc, PerChannel.get_set_same,
      PerChannel.set_set, hcc, Event.clearOrigins_record, State.record_of_mc hmc]
  · rw [Event.shedPending, Event.setState_it]; exact hit
  · rw [Event.shedPending, Event.setState_mc]; exact hmc
  · rw [Event.shedPending, hk.bu]; rfl
  · rw [Event.shedPending, hk.nodeNotices]; exact hn

theorem ChState.pending_inside {st : ChState} (h : st.isPending = true) :
    st.outside = false ∧ st.isLocked = false ∧ st.tracked = false := by
  cases st <;> simp_all [ChState.isPending, ChState.outside, ChState.isLocked, ChState.tracked]

theorem Event.shedPending_calm (ch : Ch) (e : Event) (h : (e.cc.get ch).state.isPending = true) :
    Calm x u e (e.shedPending ch) := by
  obtain ⟨hcc, hit, hmc, hbu, hn⟩ := Event.shedPending_spec ch e
  obtain ⟨ho, hl, ht⟩ := ChState.pending_inside h
  have hs := Controller.enter_state (e.record ch).feedbackWindow .rest
    { e.cc.get ch with origins := {} }
  refine Calm.of_set ch _ (e.it.get ch) hcc (by rw [hit, PerChannel.set_get]) hmc hn ?_ fun C hC => ?_
  · refine Passes.of_move ho hl ?_ ?_ (fun _ h => h) ?_
    · rw [hs]; exact fun _ h => absurd h Bool.noConfusion
    · unfold Tracker.followsState; rw [hs, ht]; exact id
    · unfold Controller.served; rw [hs]; exact fun _ h => absurd h Bool.noConfusion
  · refine State.ClaimInv.of_leavePending ch e _ (by rw [hbu]) hmc ?_ ?_ hC
    · rw [hcc, PerChannel.get_set_same, hs]; exact ⟨ChState.noConfusion, ChState.noConfusion⟩
    · intro k hk; rw [hcc]; exact PerChannel.state_set_other _ _ _ _ hk

theorem Event.shedTripped_calm (ch : Ch) (e : Event) (cause : TripCause)
    (h : (e.cc.get ch).state = .tripped cause) : Calm x u e (e.shedTripped ch) := by
  have h1 : Calm x u e (e.modCc ch fun c => { c with retryTimer := none }) :=
    Event.modCc_calm _ _ _ rfl id
  have hst : (((e.modCc ch fun c => { c with retryTimer := none }).clearOrigins ch).cc.get ch).state =
      .tripped cause := by
    rw [Event.clearOrigins_cc, PerChannel.get_set_same, Event.modCc_cc, PerChannel.get_set_same]; exact h
  refine (h1.trans (Event.clearOrigins_calm ch _)).trans (Event.setState_calm ch .rest _ ?_ ?_ ?_ ?_ ?_)
  all_goals rw [hst]
  · rfl
  · rfl
  · exact fun h => absurd h Bool.noConfusion
  · rfl
  · exact .inr ⟨ChState.noConfusion, ChState.noConfusion, ChState.noConfusion⟩

theorem Event.shedStarting_calm (ch : Ch) (e : Event) (kind : StartKind)
    (h : (e.cc.get ch).state = .starting kind) : Calm x u e (e.shedStarting ch) := by
  obtain ⟨hcc, hit, hmc, hout⟩ := Event.handOverInrush_rest ch e
  refine Calm.trans (e' := ((e.handOverInrush ch).clearOrigins ch).beginCoast ch) ?_
    (Event.enterCoast_of_begin ch _)
  have hcc' : ((e.handOverInrush ch).clearOrigins ch).cc =
      e.cc.set ch { e.cc.get ch with inrushTimer := none, origins := {} } := by
    rw [Event.clearOrigins_cc, hcc, PerChannel.get_set_same, PerChannel.set_set]
  have hst : (((e.handOverInrush ch).clearOrigins ch).cc.get ch).state = .starting kind := by
    rw [hcc', PerChannel.get_set_same]; exact h
  have hmc' : (((e.handOverInrush ch).clearOrigins ch).beginCoast ch).mc = e.mc := by
    rw [Event.beginCoast_mc]; exact hmc
  have hk := Event.beginCoast_kept ch ((e.handOverInrush ch).clearOrigins ch)
  refine ⟨fun k => ?_, .inl hmc', fun f hf => ?_, fun C hC => ?_⟩
  · have h1 : Passes x u (e.cc.get k) (((e.handOverInrush ch).clearOrigins ch).cc.get k) (e.it.get k)
        (((e.handOverInrush ch).clearOrigins ch).it.get k) := by
      rw [hcc', show ((e.handOverInrush ch).clearOrigins ch).it = e.it from hit, PerChannel.get_set]
      split
      · rename_i hk; subst hk; exact Passes.of_state rfl fun _ _ => rfl
      · exact Passes.refl x u _ _
    exact h1.trans (Event.beginCoast_passes ch _ (by rw [hst]; rfl) (by rw [hst]; rfl) k)
  · rw [hk.nodeNotices]; show f ∈ (e.handOverInrush ch).out.nodeNotices; rw [hout]; exact hf
  · refine State.ClaimInv.of_handOver ch e _ (by rw [hk.bu]; rfl) hmc' ?_ ?_ ?_ hC
    · rw [h]; exact ChState.noConfusion
    · rw [Event.beginCoast_state]; exact ⟨ChState.noConfusion, ChState.noConfusion⟩
    · intro k hk
      rw [Event.beginCoast_cc, PerChannel.state_set_other _ _ _ _ hk, hcc',
        PerChannel.state_set_other _ _ _ _ hk]

/-! ## Starts -/

/-- What an UNCLAIMED start does to the node (R25). -/
theorem Event.startUnclaimed_spec (ch : Ch) (e : Event) :
    (e.startUnclaimed ch).cc = e.cc.set ch
      { Controller.enter (e.record ch).feedbackWindow (.starting .unclaimed) (e.cc.get ch) with
        inrushTimer := some (e.record ch).inrushWindow } ∧
    (e.startUnclaimed ch).it = e.it ∧ (e.startUnclaimed ch).mc = e.mc ∧
    (e.startUnclaimed ch).bu = (e.leavePending ch).bu ∧
    (e.startUnclaimed ch).out.nodeNotices = e.out.nodeNotices := by
  obtain ⟨hcc, hit, hmc, hn⟩ := Event.leavePending_rest ch e
  have hk := Event.setState_kept ch (.starting .unclaimed) (e.leavePending ch)
  have hmc' : ((e.leavePending ch).setState ch (.starting .unclaimed)).mc = e.mc := by
    rw [Event.setState_mc, hmc]
  refine ⟨?_, ?_, ?_, ?_, ?_⟩
  · simp only [Event.startUnclaimed, Event.modCc_cc, Event.setState_cc, hcc, PerChannel.get_set_same,
      PerChannel.set_set, State.record_of_mc hmc, State.record_of_mc hmc']
  · simp only [Event.startUnclaimed, Event.modCc_it, Event.setState_it, hit]
  · simp only [Event.startUnclaimed, Event.modCc_mc, hmc']
  · simp only [Event.startUnclaimed, Event.modCc_bu, hk.bu]
  · simp only [Event.startUnclaimed, Event.modCc_out, hk.nodeNotices, hn]

/-- An UNCLAIMED start, which closes the contactor of a PENDING channel. -/
theorem Event.startUnclaimed_calm (hx : x) (ch : Ch) (e : Event)
    (h : (e.cc.get ch).state.isPending = true) : Calm x u e (e.startUnclaimed ch) := by
  obtain ⟨hcc, hit, hmc, hbu, hn⟩ := Event.startUnclaimed_spec ch e
  obtain ⟨ho, hl, ht⟩ := ChState.pending_inside h
  have hs := Controller.enter_state (e.record ch).feedbackWindow (.starting .unclaimed) (e.cc.get ch)
  refine Calm.of_set ch _ (e.it.get ch) hcc (by rw [hit, PerChannel.set_get]) hmc hn ?_ fun C hC => ?_
  · refine Passes.of_move ho hl (fun n => absurd hx n) ?_ (fun _ h => h) ?_
    · unfold Tracker.followsState; simp only [hs]; rw [ht]; exact id
    · unfold Controller.served; simp only [hs]; exact fun _ h => absurd h Bool.noConfusion
  · refine State.ClaimInv.of_leavePending ch e _ (by rw [hbu]) hmc ?_ ?_ hC
    · rw [hcc, PerChannel.get_set_same]; simp only [hs]; exact ⟨by decide, by decide⟩
    · intro k hk; rw [hcc]; exact PerChannel.state_set_other _ _ _ _ hk

theorem Tracker.start_status (full debounce : Micros) (held sense : Bool) :
    (Tracker.start full debounce held sense).status ≠ .stopped := by
  unfold Tracker.start; cases held <;> exact TrackerStatus.noConfusion

/-- What an entry to AWAKE does to the node (R26, R34). -/
theorem Event.enterAwake_spec (ch : Ch) (e : Event) :
    (e.enterAwake ch).cc = e.cc.set ch (Controller.enter (e.record ch).feedbackWindow .awake
      { e.cc.get ch with inrushTimer := none, origins := {} }) ∧
    (e.enterAwake ch).it = e.it.set ch (Tracker.start (e.record ch).idleWindow (e.record ch).debounce
      (e.held ch) (e.pins.senseActive.get ch)) ∧
    NodeKept e (e.enterAwake ch) ∧ (e.enterAwake ch).mc = e.mc ∧ (e.enterAwake ch).du = e.du := by
  have hk := Event.setState_kept ch .awake
    (e.modCc ch fun c => { c with inrushTimer := none, origins := {} })
  have hk' := (Event.modCc_kept ch (fun c => { c with inrushTimer := none, origins := {} }) e).trans hk
  refine ⟨?_, ?_, ?_, ?_, ?_⟩
  · simp only [Event.enterAwake, Event.modIt_cc, Event.setState_cc, Event.modCc_cc,
      PerChannel.get_set_same, PerChannel.set_set]
    rfl
  · simp only [Event.enterAwake, Event.modIt_it, Event.setState_it, Event.modCc_it, hk'.record, hk'.held,
      hk'.pins]
  · unfold Event.enterAwake; exact hk'.trans (Event.modIt_kept ch _ _)
  · simp only [Event.enterAwake, Event.modIt_mc, Event.setState_mc, Event.modCc_mc]
  · simp only [Event.enterAwake, Event.modIt_du, Event.setState_du, Event.modCc_du]

theorem Event.enterAwake_passes (ch : Ch) (e : Event) (kind : StartKind)
    (h : (e.cc.get ch).state = .starting kind) (k : Ch) :
    Passes x u (e.cc.get k) ((e.enterAwake ch).cc.get k) (e.it.get k) ((e.enterAwake ch).it.get k) := by
  obtain ⟨hcc, hit, -, -, -⟩ := Event.enterAwake_spec ch e
  rw [hcc, hit, PerChannel.get_set, PerChannel.get_set]
  split
  · rename_i hk; subst hk
    have hs := Controller.enter_state (e.record k).feedbackWindow .awake
      { e.cc.get k with inrushTimer := none, origins := {} }
    have ho := (Controller.enter_rest (e.record k).feedbackWindow .awake
      { e.cc.get k with inrushTimer := none, origins := {} }).2.2.2.1
    have hstart := Tracker.start_status (e.record k).idleWindow (e.record k).debounce (e.held k)
      (e.pins.senseActive.get k)
    refine Passes.of_move (by rw [h]; rfl) (by rw [h]; rfl) (fun _ _ => by rw [h]; rfl) (fun _ => ?_)
      (fun _ _ hn => absurd hn hstart) fun _ _ => ho
    unfold Tracker.followsState
    rw [hs]; exact ⟨fun _ => rfl, fun _ => hstart⟩
  · exact Passes.refl x u _ _

/-- A channel in STARTING enters AWAKE. -/
theorem Event.enterAwake_calm (ch : Ch) (e : Event) (kind : StartKind)
    (h : (e.cc.get ch).state = .starting kind) : Calm x u e (e.enterAwake ch) := by
  obtain ⟨hcc, -, hk, hmc, -⟩ := Event.enterAwake_spec ch e
  refine ⟨Event.enterAwake_passes ch e kind h, .inl hmc,
    fun f hf => by rw [hk.nodeNotices]; exact hf, fun C hC => ?_⟩
  refine hC.of_same (by rw [hmc]) (by rw [hmc]) (by rw [hmc]) (by rw [hk.bu]) fun k => ?_
  rw [hcc, PerChannel.get_set]
  split
  · rename_i hk; subst hk
    rw [Controller.enter_state, h]
    exact .inr ⟨ChState.noConfusion, ChState.noConfusion, ChState.noConfusion⟩
  · exact .inl rfl

end

end Sys2Proof.Machine
end

