-- ==== Sys2Proof/Proofs/Ops3.lean ====
section
/-! SUPPORT. A new claim takes a number that no own claim carries (R77); claims, holds, calls, the needs watch
and the end of an event are `Calm`. -/

namespace Sys2Proof.Machine

/-! ## Claim numbers (R77) -/

/-- The `i`-th claim number after `n`. -/
theorem nextNumber_iterate (n i : Nat) (h : i ≤ 254) : nextNumber^[i] n =
    if i = 0 then n else if n < 255 then (if n + i ≤ 255 then n + i else n + i - 255) else i := by
  induction i with
  | zero => rfl
  | succ i ih =>
    replace ih := ih (by omega)
    rw [Function.iterate_succ_apply', nextNumber, if_neg (Nat.succ_ne_zero i)]
    generalize nextNumber^[i] n = v at ih ⊢
    split_ifs at ih <;> split_ifs <;> omega

theorem nextNumber_iterate_injOn (n : Nat) :
    Set.InjOn (fun i => nextNumber^[i] n) (Finset.range Config.claimCapacity) := by
  intro i hi j hj h
  have hi : i < 24 := by simpa [Config.claimCapacity] using hi
  have hj : j < 24 := by simpa [Config.claimCapacity] using hj
  have h : nextNumber^[i] n = nextNumber^[j] n := h
  rw [nextNumber_iterate n i (by omega), nextNumber_iterate n j (by omega)] at h
  split_ifs at h <;> omega

/-- The search finds a number that is not taken, or all that it has tried are taken. -/
theorem freeNumber_spec (taken : List Nat) (fuel n : Nat) :
    freeNumber taken fuel n ∉ taken ∨ ∀ i < fuel, nextNumber^[i] n ∈ taken := by
  induction fuel generalizing n with
  | zero => exact .inr fun i hi => absurd hi (by omega)
  | succ fuel ih =>
    unfold freeNumber
    split
    · rename_i hn
      rcases ih (nextNumber n) with h | h
      · exact .inl h
      · refine .inr fun i hi => ?_
        cases i with
        | zero => simpa using hn
        | succ i => rw [Function.iterate_succ_apply]; exact h i (by omega)
    · rename_i hn; exact .inl (by simpa using hn)

theorem freeNumber_not_mem (taken : List Nat) (n : Nat) (h : taken.length < Config.claimCapacity) :
    freeNumber taken Config.claimCapacity n ∉ taken := by
  refine (freeNumber_spec taken Config.claimCapacity n).resolve_right fun hall => ?_
  have hsub : (Finset.range Config.claimCapacity).image (fun i => nextNumber^[i] n) ⊆ taken.toFinset := by
    intro k hk
    obtain ⟨i, hi, rfl⟩ := Finset.mem_image.1 hk
    exact List.mem_toFinset.2 (hall i (Finset.mem_range.1 hi))
  have hcard := Finset.card_le_card hsub
  rw [Finset.card_image_of_injOn (nextNumber_iterate_injOn n), Finset.card_range] at hcard
  have := taken.toFinset_card_le
  omega

/-- The number of a new claim is that of no own claim, where the table has room (R77). -/
theorem State.claimNumber_fresh (s : State) (h : s.bu.claims.length < Config.claimCapacity) (c : Claim)
    (hc : c ∈ s.bu.claims) (ho : c.isOwn = true) : c.number ≠ s.claimNumber := by
  intro hn
  refine freeNumber_not_mem ((s.bu.claims.filter Claim.isOwn).map Claim.number) s.bu.counter ?_ ?_
  · rw [List.length_map]; exact (List.length_filter_le _ _).trans_lt h
  · show s.claimNumber ∈ _
    rw [← hn]; exact List.mem_map.2 ⟨c, List.mem_filter.2 ⟨hc, ho⟩, rfl⟩

/-! ## The creation of a claim (R79) -/

/-- What R78 asks of a channel that may claim. -/
theorem State.claimable_iff {s : State} {ch : Ch} (h : s.claimable ch = true) :
    (s.cc.get ch).state = .pending .budget ∧ s.mc.mode = .operating ∧
    (∀ c ∈ s.bu.claims, c.isOwn = true → c.ch ≠ ch) ∧
    s.bu.claims.length < Config.claimCapacity := by
  unfold State.claimable at h
  simp only [Bool.and_eq_true, decide_eq_true_eq, Bool.not_eq_true', List.any_eq_false,
    not_and] at h
  obtain ⟨⟨⟨⟨⟨⟨⟨h1, h2⟩, -⟩, h4⟩, -⟩, h6⟩, -⟩, -⟩ := h
  exact ⟨h1, h2, fun c hc ho => h4 c hc ho, h6⟩

/-- The claim of a channel stands in the table and the channel is in CLAIMING; the conflict check is yet to
come. -/
def Event.openClaim (ch : Ch) (e : Event) : Event :=
  let x := e.newClaim ch
  let e : Event := { e with
    bu.counter := nextNumber x.number
    bu.claims := e.bu.claims.map (Claim.addMark x.number .before) ++ [x] }
  let e := e.enqueue ⟨0, .claim x.number ch x.weight x.rank⟩
  e.setState ch (.pending .claiming)

theorem Event.createClaim_eq (ch : Ch) (e : Event) :
    e.createClaim ch = (e.openClaim ch).conflictCheck := rfl

theorem Event.enqueue_rest (f : Frame) (e : Event) :
    (e.enqueue f).cc = e.cc ∧ (e.enqueue f).it = e.it ∧ (e.enqueue f).mc = e.mc ∧
      (e.enqueue f).bu = e.bu ∧ (e.enqueue f).out = e.out := by
  unfold Event.enqueue; split <;> exact ⟨rfl, rfl, rfl, rfl, rfl⟩

theorem Event.openClaim_bu (ch : Ch) (e : Event) : (e.openClaim ch).bu.claims =
    e.bu.claims.map (Claim.addMark (e.newClaim ch).number .before) ++ [e.newClaim ch] := by
  unfold Event.openClaim
  simp only [(Event.setState_kept _ _ _).bu, (Event.enqueue_rest _ _).2.2.2.1]

theorem Event.openClaim_rest (ch : Ch) (e : Event) :
    (e.openClaim ch).cc = e.cc.set ch (Controller.enter (e.record ch).feedbackWindow
      (.pending .claiming) (e.cc.get ch)) ∧
    (e.openClaim ch).it = e.it ∧ (e.openClaim ch).mc = e.mc ∧
    (e.openClaim ch).out.nodeNotices = e.out.nodeNotices := by
  have hrec : ∀ (e' : Event) (f : Frame), e'.mc = e.mc → (e'.enqueue f).record ch = e.record ch :=
    fun e' f h => State.record_of_mc ((Event.enqueue_rest f e').2.2.1.trans h) ch
  refine ⟨?_, ?_, ?_, ?_⟩
  · simp only [Event.openClaim, Event.setState_cc, (Event.enqueue_rest _ _).1]
    rw [hrec]; rfl
  · simp only [Event.openClaim, Event.setState_it, (Event.enqueue_rest _ _).2.1]
  · simp only [Event.openClaim, Event.setState_mc, (Event.enqueue_rest _ _).2.2.1]
  · simp only [Event.openClaim, (Event.setState_kept _ _ _).nodeNotices,
      (Event.enqueue_rest _ _).2.2.2.2]

/-- The new claim is in the table, and every own claim that was there stays. -/
theorem Event.openClaim_own (ch : Ch) (e : Event) (c : Claim) (ho : c.isOwn = true) :
    c ∈ (e.openClaim ch).bu.claims ↔ c ∈ e.bu.claims ∨ c = e.newClaim ch := by
  rw [Event.openClaim_bu, List.mem_append, List.mem_singleton,
    mem_map_own (fun c => Claim.addMark_own) (Claim.addMark_isOwn _ _) _ c ho]

section
variable {x u : Prop}

theorem State.ClaimInv.of_openClaim {C : Prop} (ch : Ch) (e : Event) (hc : e.claimable ch = true)
    (h : e.toState.ClaimInv C) : (e.openClaim ch).toState.ClaimInv C := by
  obtain ⟨hst, hmode, hnone, hroom⟩ := State.claimable_iff hc
  obtain ⟨hcc, -, hmc, -⟩ := Event.openClaim_rest ch e
  have own := fun c => Event.openClaim_own ch e c
  have hnew : (e.newClaim ch).isOwn = true := rfl
  have here : ((e.openClaim ch).cc.get ch).state = .pending .claiming := by
    rw [hcc, PerChannel.get_set_same]; exact Controller.enter_state _ _ _
  have other : ∀ k, k ≠ ch → ((e.openClaim ch).cc.get k).state = (e.cc.get k).state := fun k hk => by
    rw [hcc]; exact PerChannel.state_set_other _ _ _ _ hk
  have fresh : ∀ c ∈ e.bu.claims, c.isOwn = true → c.key ≠ (e.newClaim ch).key := fun c hm ho hk =>
    State.claimNumber_fresh e.toState hroom c hm ho (congrArg Prod.snd hk)
  constructor
  · obtain ⟨h1, h2⟩ := h.provisional
    refine ⟨fun c hm hp => ?_, fun c hm d hn hp hq he => ?_⟩
    · have ho := Claim.own_of_provisional hp
      rcases (own c ho).1 hm with hm | rfl
      · rw [other _ (hnone c hm ho)]; exact h1 c hm hp
      · exact here
    · have ho := Claim.own_of_provisional hp
      have ho' := Claim.own_of_provisional hq
      rcases (own c ho).1 hm with hm | rfl <;> rcases (own d ho').1 hn with hn | rfl
      · exact h2 c hm d hn hp hq he
      · exact absurd he (hnone c hm ho)
      · exact absurd he.symm (hnone d hn ho')
      · rfl
  · intro hC
    obtain ⟨h1, h2, h3, h4⟩ := h.keys hC
    refine ⟨fun c hm ho => ?_, fun c hm hr => ?_, fun c hm d hn ho ho' hk => ?_, fun hz => ?_⟩
    · rw [hmc]
      rcases (own c ho).1 hm with hm | rfl
      · exact h1 c hm ho
      · rfl
    · rw [hmc]
      rw [Event.openClaim_bu, List.mem_append, List.mem_singleton] at hm
      rcases hm with hm | rfl
      · obtain ⟨d, hd, rfl⟩ := List.mem_map.1 hm
        rw [show (Claim.addMark _ _ d).station = d.station from
          congrArg Prod.fst (Claim.addMark_key _ _ d)]
        exact h2 d hd ((Claim.addMark_isOwn _ _ d).symm.trans hr)
      · rw [hnew] at hr; exact absurd hr (by decide)
    · rcases (own c ho).1 hm with hm | rfl <;> rcases (own d ho').1 hn with hn | rfl
      · exact h3 c hm d hn ho ho' hk
      · exact absurd hk (fresh c hm ho)
      · exact absurd hk.symm (fresh d hn ho')
      · rfl
    · rw [hmc] at hz
      exact absurd ((h4 hz).1.symm.trans hmode) (by decide)
  · intro hC
    obtain ⟨h1, h2, h3⟩ := h.stand hC
    refine ⟨fun k hk => ?_, fun k hk => ?_, fun c hm d hn ho ho' he => ?_⟩
    · by_cases hne : k = ch
      · subst hne
        exact ⟨_, (own _ hnew).2 (.inr rfl), rfl, rfl⟩
      · obtain ⟨c, hm, hp, hch⟩ := h1 k (other k hne ▸ hk)
        exact ⟨c, (own c (Claim.own_of_provisional hp)).2 (.inl hm), hp, hch⟩
    · have hne : k ≠ ch := fun hne => by rw [hne, here] at hk; exact absurd hk (by decide)
      obtain ⟨c, hm, hl, hch⟩ := h2 k (other k hne ▸ hk)
      exact ⟨c, (own c (Claim.own_of_live hl)).2 (.inl hm), hl, hch⟩
    · rcases (own c ho).1 hm with hm | rfl <;> rcases (own d ho').1 hn with hn | rfl
      · exact h3 c hm d hn ho ho' he
      · exact absurd he (hnone c hm ho)
      · exact absurd he.symm (hnone d hn ho')
      · rfl

theorem Event.createClaim_calm (ch : Ch) (e : Event) (h : e.claimable ch = true) :
    Calm x u e (e.createClaim ch) := by
  obtain ⟨hst, -⟩ := State.claimable_iff h
  obtain ⟨hcc, hit, hmc, hn⟩ := Event.openClaim_rest ch e
  rw [Event.createClaim_eq]
  refine Calm.trans ?_ (Event.conflictCheck_calm _)
  refine Calm.of_set ch _ (e.it.get ch) hcc (by rw [hit, PerChannel.set_get]) hmc hn ?_
    fun C hC => hC.of_openClaim ch e h
  refine Passes.enter ?_ ?_ ?_ ?_ <;> rw [hst]
  · rfl
  · rfl
  · exact fun h => absurd h Bool.noConfusion
  · rfl

/-! ## The joining of frames -/

theorem Event.enqueue_calm (f : Frame) (e : Event) : Calm x u e (e.enqueue f) := by
  obtain ⟨h1, h2, h3, h4, h5⟩ := Event.enqueue_rest f e
  exact Calm.of_same h1 h2 (by rw [h4]) h3 fun _ h => by rw [h5]; exact h

theorem Event.enqueueAll_calm (fs : List Frame) (e : Event) : Calm x u e (e.enqueueAll fs) :=
  Event.foldl_calm (fun e f => Event.enqueue_calm f e) fs e

theorem Event.evaluateBudget_calm (e : Event) : Calm x u e e.evaluateBudget := by
  have h1 : Calm x u e { e with out.evalDue := false } := Calm.of_same rfl rfl rfl rfl fun _ h => h
  have h2 := h1.trans (Event.foldl_calm (f := fun e (p : Nat × Ch) =>
      if (e.record p.2).rank = p.1 ∧ e.claimable p.2 then e.createClaim p.2 else e) (fun e p => by
    split
    · rename_i h; exact Event.createClaim_calm p.2 e h.2
    · exact Calm.refl x u e) byPrecedence _)
  unfold Event.evaluateBudget
  simp only
  generalize byPrecedence.foldl _ _ = e1 at h2 ⊢
  exact h2.trans (Calm.of_same rfl rfl rfl rfl fun _ h => h)

theorem Event.payBudget_calm (e : Event) : Calm x u e e.payBudget := by
  unfold Event.payBudget
  split
  · refine Calm.trans ?_ (Event.enqueue_calm _ _)
    exact Calm.of_same rfl rfl rfl rfl fun _ h => h
  · split
    · exact Event.evaluateBudget_calm e
    · exact Calm.refl x u e

theorem Event.payState_calm (e : Event) : Calm x u e e.payState := by
  unfold Event.payState
  split
  · refine Calm.trans ?_ (Event.enqueue_calm _ _)
    exact Calm.of_same rfl rfl rfl rfl fun _ h => h
  · exact Calm.refl x u e

theorem Event.drainBudget_calm (n : Nat) (e : Event) : Calm x u e (e.drainBudget n) := by
  induction n generalizing e with
  | zero => exact Calm.refl x u e
  | succ n ih =>
    unfold Event.drainBudget
    split
    · exact Calm.refl x u e
    · have h : Calm x u e (Event.enqueueAll e.out.budget { e with out.budget := [] }) := by
        refine Calm.trans ?_ (Event.enqueueAll_calm _ _)
        exact Calm.of_same rfl rfl rfl rfl fun _ h => h
      simp only
      refine Calm.trans ?_ (ih _)
      split
      · exact h.trans (Event.evaluateBudget_calm _)
      · exact h

theorem Ending.next_calm (d : Ending) (b : Block) : Calm x u d.ev (d.next b).ev := by
  cases b <;> unfold Ending.next <;> simp only
  · split
    · exact Event.enqueue_calm _ _
    · exact Calm.refl x u _
  · split
    · exact Event.enqueue_calm _ _
    · exact Calm.refl x u _
  · exact Event.payBudget_calm _
  · split
    · exact Event.enqueue_calm _ _
    · exact Calm.refl x u _
  · exact Event.payState_calm _

theorem Ending.fold_calm (order : List Block) (d : Ending) :
    Calm x u d.ev (order.foldl Ending.next d).ev := by
  induction order generalizing d with
  | nil => exact Calm.refl x u _
  | cons b rest ih => exact (Ending.next_calm d b).trans (ih _)

theorem Event.flush_calm (order : List Block) (e : Event) : Calm x u e (e.flush order) :=
  ((((Ending.fold_calm order ⟨e, e.out.allNotices, e.out.allCalls, e.out.replies⟩).trans
    (Event.enqueueAll_calm _ _)).trans (Event.enqueueAll_calm _ _)).trans
    ((Event.drainBudget_calm _ _).trans (Event.enqueueAll_calm _ _))).trans (Event.payState_calm _)

/-! ## Calls, the needs watch and the verdicts -/

theorem Event.localCall_calm (r : Ref) (e : Event) : Calm x u e (e.localCall r) := by
  unfold Event.localCall
  split
  · exact Event.addOrigin_calm _ _ _
  · exact Calm.refl x u e

theorem Event.localCalls_calm (refs : List Ref) (e : Event) : Calm x u e (e.localCalls refs) :=
  Event.foldl_calm (fun e r => Event.localCall_calm r e) refs e

theorem Event.callFrame_calm (ch : Ch) (targets : List Ref) (e : Event) :
    Calm x u e (e.callFrame ch targets) := by
  unfold Event.callFrame
  split
  · exact Calm.refl x u e
  · exact Calm.of_same rfl rfl rfl rfl fun _ h => h

theorem Event.makeCall_calm (ch : Ch) (e : Event) : Calm x u e (e.makeCall ch) :=
  (Event.callFrame_calm ch _ e).trans (Event.localCalls_calm _ _)

theorem Event.standingFrame_calm (ch : Ch) (e : Event) : Calm x u e (e.standingFrame ch) :=
  Event.callFrame_calm ch _ e

theorem Event.oweStanding_calm (ch : Ch) (refs : List Ref) (e : Event) :
    Calm x u e (e.oweStanding ch refs) :=
  Calm.of_same rfl rfl rfl rfl fun _ h => h

theorem Event.payCall_calm (ch : Ch) (e : Event) : Calm x u e (e.payCall ch) := by
  have h : Calm x u e { e with out.callDue := e.out.callDue.set ch false } :=
    Calm.of_same rfl rfl rfl rfl fun _ h => h
  unfold Event.payCall
  split
  · simp only
    split
    · exact h.trans (Event.makeCall_calm _ _)
    · exact h
  · exact Calm.refl x u e

theorem Event.payStanding_calm (ch : Ch) (e : Event) : Calm x u e (e.payStanding ch) := by
  unfold Event.payStanding
  refine Calm.trans ?_ (Event.localCalls_calm _ _)
  exact Calm.of_same rfl rfl rfl rfl fun _ h => h

theorem Event.payCalls_calm (ch : Ch) (e : Event) : Calm x u e (e.payCalls ch) :=
  (Event.payCall_calm ch e).trans (Event.payStanding_calm ch _)

theorem Event.watch_calm (ch : Ch) (e : Event) : Calm x u e (e.watch ch) := by
  have marked : Calm x u e { e with du.marks := e.du.marks.set ch (e.lostProviders ch) } :=
    Calm.of_same rfl rfl rfl rfl fun _ h => h
  have framed : ∀ (b : Bool) (e : Event), Calm x u e (if b then e.standingFrame ch else e) := by
    intro b e; cases b
    · exact Calm.refl x u e
    · exact Event.standingFrame_calm ch e
  exact ((marked.trans (Event.foldl_calm (fun e r => Event.noticeCh_calm ch _ e) _ _)).trans
    (framed _ _)).trans (Event.oweStanding_calm ch _ _)

theorem Event.reportVerdict_calm (due : PerChannel Bool) (ch : Ch) (e : Event) :
    Calm x u e (e.reportVerdict due ch) := by
  unfold Event.reportVerdict
  split
  · split <;> rename_i hst
    · refine Calm.trans (Event.setState_calm ch (.pending .budget) e ?_ ?_ ?_ ?_ (.inr ⟨?_, ?_, ?_⟩))
        ((Event.setCallWait_calm ch none _).trans (Event.oweEval_calm _))
      all_goals first | decide | (rw [hst]; decide)
    · exact Event.enterCoast_calm ch e hst
    · exact Calm.refl x u e
  · exact Calm.refl x u e

theorem Event.settle_calm (n : Nat) (e : Event) : Calm x u e (e.settle n) := by
  induction n generalizing e with
  | zero => exact Calm.refl x u e
  | succ n ih =>
    unfold Event.settle
    split
    · exact ((Event.forChannels_calm (Event.reportVerdict_calm _) e).trans
        (Event.forChannels_calm Event.watch_calm _)).trans (ih _)
    · split
      · exact (Event.forChannels_calm Event.payCalls_calm e).trans (ih _)
      · exact Calm.refl x u e

theorem Event.settled_calm (e : Event) : Calm x u e e.settled := Event.settle_calm _ e

/-! ## Holds -/

theorem Tracker.pause_status (t : Tracker) : t.pause.status = .stopped ↔ t.status = .stopped := by
  cases hs : t.status <;> simp [Tracker.pause, hs]

theorem Tracker.pause_restful (t : Tracker) (h : t.restful) : t.pause.restful := fun hs => by
  have hs' := (Tracker.pause_status t).1 hs
  have he : t.pause = t := by simp [Tracker.pause, hs']
  rw [he]; exact h hs'

theorem Tracker.resume_status (t : Tracker) : t.resume.status = .stopped ↔ t.status = .stopped := by
  cases hs : t.status <;> simp [Tracker.resume, hs]

theorem Tracker.resume_restful (t : Tracker) (h : t.restful) : t.resume.restful := fun hs => by
  have hs' := (Tracker.resume_status t).1 hs
  have he : t.resume = t := by simp [Tracker.resume, hs']
  rw [he]; exact h hs'

theorem Event.becomeHeld_calm (ch : Ch) (e : Event) : Calm x u e (e.becomeHeld ch) := by
  unfold Event.becomeHeld
  split
  · exact (Event.modIt_calm ch _ e (Tracker.pause_status _) (Tracker.pause_restful _)).trans
      (Event.returnToAwake_calm ch _)
  · exact Event.addOrigin_calm _ _ _

theorem Timer.ne_none_of_due {t : Timer} (h : Timer.due t = true) : t ≠ none := by
  rintro rfl; exact absurd h (by decide)

theorem Event.ceaseHeld_calm (ch : Ch) (e : Event) : Calm x u e (e.ceaseHeld ch) := by
  have h1 : Calm x u e (e.modIt ch Tracker.resume) :=
    Event.modIt_calm ch _ e (Tracker.resume_status _) (Tracker.resume_restful _)
  unfold Event.ceaseHeld
  simp only
  refine Calm.trans ?_ (Event.tryWait_calm ch _)
  split
  · rename_i hd
    exact h1.trans (Event.windowExpired_calm ch _ fun _ => Timer.ne_none_of_due hd)
  · exact h1

theorem Event.changeHolds_calm (cu : CommandUnit) (e : Event) : Calm x u e (e.changeHolds cu) := by
  have h1 : Calm x u e { e with cu := cu } := Calm.of_same rfl rfl rfl rfl fun _ h => h
  have change : ∀ (b c : Bool) (ch : Ch) (e : Event),
      Calm x u e (if b then e.becomeHeld ch else if c then e.ceaseHeld ch else e) := by
    intro b c ch e
    cases b
    · cases c
      · exact Calm.refl x u e
      · exact Event.ceaseHeld_calm ch e
    · exact Event.becomeHeld_calm ch e
  unfold Event.changeHolds
  simp only
  refine Calm.trans ?_ (Event.forChannels_calm (fun ch e => change _ _ ch e) _)
  split
  · exact h1.trans (Event.oweState_calm _)
  · exact h1

end

end Sys2Proof.Machine
end

