-- ==== Sys2Proof/Proofs/Effects.lean ====
section
/-! SUPPORT. Each command is a `take` of its effect (`exec_eq`), and the effects that change no mode and close no
contactor are `Calm`. -/

namespace Sys2Proof.Machine

/-- The effect of a command on the event that it begins. -/
def effectOf : Instr → Event → Event
  | .reset _ cause => Event.resetNode cause
  | .resetRelease _ adr => Event.release adr
  | .imageReadComplete _ read => Event.imageRead read
  | .feedbackChange _ ch closed => Event.feedbackChange ch closed
  | .feedbackMismatch _ ch => Event.feedbackMismatch ch
  | .retryTimerExpiry _ ch => Event.retryEnds ch
  | .runDownExpiry _ ch => Event.runDownExpires ch
  | .inrushExpiry _ ch => Event.inrushEnds ch
  | .inrushHoldExpiry _ ch => Event.inrushHoldEnds ch
  | .activitySenseChange _ ch active => Event.activitySenseChange ch active
  | .activityDebounceExpiry _ ch => Event.activityDebounced ch
  | .idleWindowExpiry _ ch => Event.idleWindowEnds ch
  | .holdKeyChange _ ch on => Event.holdKeyChange ch on
  | .holdKeyDebounceExpiry _ ch => Event.holdKeyDebounced ch
  | .wakeButtonChange _ ch pressed => Event.wakeButtonChange ch pressed
  | .wakeButtonDebounceExpiry _ ch => Event.wakeButtonDebounced ch
  | .callWaitExpiry _ ch => Event.callWaitEnds ch
  | .ageTimerExpiry _ stations => Event.ageOut stations
  | .settleExpiry _ ch => Event.settleEnds ch
  | .claimHoldTimerExpiry _ station number => Event.claimHoldEnds station number
  | .overflowTimerExpiry _ => Event.overflowEnds
  | .retryGapExpiry _ ch => Event.retryGapEnds ch
  | .holdEntryExpiry _ entries => Event.holdEntriesExpire entries
  | .listenExpiry _ => Event.listenEnds
  | .isolationExpiry _ => Event.isolationEnds
  | .isolationStaggerExpiry _ => Event.staggerEnds
  | .bypassTimerExpiry _ ch => Event.bypassEnds ch
  | .heartbeatExpiry _ => Event.heartbeat
  | .lampStep _ lamp => Event.lampStep lamp
  | .lineAccessGap _ => Event.accessGap
  | .contentionLost _ winner => Event.contentionLost winner
  | .frameSent _ => Event.frameSent
  | .sendFault _ => Event.sendFault
  | .invalidFrame _ _ => Event.invalidFrame
  | .unknownKindFrame m env kind payload => Event.unknownKind (.inTurn m.arrival) env kind payload
  | .stateReceived m env p => fun e => e.hear (rejoinOrderOf (e.stateAdoption p) m.arrival) env
      kindState (statePayloadBytes p) (Event.takeState env p)
  | .phaseReceived m env phase epoch level => fun e =>
      e.hear (rejoinOrderOf (e.phaseAdoption env phase epoch level) m.arrival) env kindPhase
        ([phase] ++ bytes32 epoch ++ [level]) (Event.takePhaseFrame env phase epoch level)
  | .claimReceived m env number channel weight rank =>
      Event.hear (.inTurn m.arrival) env kindClaim [number, channel, weight, rank]
        (Event.takeClaim env number channel weight rank)
  | .withdrawReceived m env number =>
      Event.hear (.inTurn m.arrival) env kindWithdraw [number] (Event.takeEnd env number)
  | .releaseReceived m env number =>
      Event.hear (.inTurn m.arrival) env kindRelease [number] (Event.takeEnd env number)
  | .callReceived m env p =>
      Event.hear (.inTurn m.arrival) env kindCall (callPayloadBytes p) (Event.takeCall p)
  | .wake m env channel level => Event.hear (.inTurn m.arrival) env kindWake [channel, level]
      (Event.command env kindWake channel 0 (Event.judgeWake env channel level))
  | .shed m env channel level => Event.hear (.inTurn m.arrival) env kindShed [channel, level]
      (Event.command env kindShed channel 0 (Event.judgeShed env channel level))
  | .hold m env target tag level expiry =>
      Event.hear (.inTurn m.arrival) env kindHold ([target, tag, level] ++ bytes16 expiry)
        (Event.command env kindHold target tag (Event.judgeHold env target tag level expiry))
  | .unhold m env target tag level =>
      Event.hear (.inTurn m.arrival) env kindUnhold [target, tag, level]
        (Event.command env kindUnhold target tag (Event.judgeUnhold env target tag level))
  | .unlock m env channel level => Event.hear (.inTurn m.arrival) env kindUnlock [channel, level]
      (Event.command env kindUnlock channel 0 (Event.judgeUnlock env channel level))
  | .replyReceived m env kind channel tag code =>
      Event.hear (.inTurn m.arrival) env kindReply [kind, channel, tag, code] id
  | .noticeReceived m env channel code detail1 detail2 =>
      Event.hear (.inTurn m.arrival) env kindNotice [channel, code, detail1, detail2] id

/-- A command is the taking of its effect at its moment. -/
theorem exec_eq (c : Instr) (s : State) : exec c s = take c.moment (effectOf c) s := by
  cases c <;> rfl

section
variable {x u : Prop}

/-! ## Contactors -/

theorem Event.feedbackChange_calm (ch : Ch) (closed : Bool) (e : Event) :
    Calm x u e (e.feedbackChange ch closed) := by
  have h1 : Calm x u e { e with pins.feedbackClosed := e.pins.feedbackClosed.set ch closed } :=
    Calm.of_same rfl rfl rfl rfl fun _ h => h
  have hf : ∀ (b : Bool) (w : Micros) (c : Controller), (c.feedback b w closed).state = c.state ∧
      (c.feedback b w closed).origins = c.origins := by
    intro b w c; unfold Controller.feedback; split_ifs <;> exact ⟨rfl, rfl⟩
  unfold Event.feedbackChange
  simp only
  split
  · exact h1
  · refine (h1.trans (Event.modCc_calm _ _ _ (hf _ _ _).1 fun h => ?_)).trans (Event.oweState_calm _)
    unfold Controller.served at h ⊢
    rw [(hf _ _ _).1, (hf _ _ _).2]; exact h

/-- A channel that is supervised and not energised may lock. -/
theorem ChState.supervised_resting {st : ChState} (h : st.supervised = true)
    (he : st.energised = false) :
    st.outside = false ∧ st.isLocked = false ∧ st.tracked = false := by
  cases st <;> simp_all [ChState.supervised, ChState.energised, ChState.outside, ChState.isLocked,
    ChState.tracked]

theorem Event.feedbackMismatch_calm (ch : Ch) (e : Event) : Calm x u e (e.feedbackMismatch ch) := by
  unfold Event.feedbackMismatch
  split
  · rename_i mark _ hd
    have hsup : (e.cc.get ch).state.supervised = true := (Bool.and_eq_true_iff.1 hd).1
    have h1 : Calm x u e (e.modCc ch fun c => { c with mark := none, mismatchTimer := none }) :=
      Event.modCc_calm _ _ _ rfl id
    have hst : ((e.modCc ch fun c => { c with mark := none, mismatchTimer := none }).cc.get ch).state =
        (e.cc.get ch).state := by rw [Event.modCc_cc, PerChannel.get_set_same]
    simp only
    split
    · rename_i he
      exact h1.trans (Event.trip_calm ch _ _ ((ChState.watching_iff _).2 ⟨he, by rw [hst]; exact hsup⟩))
    · rename_i he
      obtain ⟨ho, hl, ht⟩ := ChState.supervised_resting hsup (by rw [hst] at he; simpa using he)
      rw [← hst] at ho hl ht
      exact h1.trans (Event.lock_calm ch _ _ ho hl ht)
  · exact Calm.refl x u e

theorem Event.retryEnds_calm (ch : Ch) (e : Event) : Calm x u e (e.retryEnds ch) := by
  unfold Event.retryEnds
  split
  · rename_i cause hst _
    split
    · refine (Event.recordOrigin_calm .retry ch e (by rw [hst]; rfl)).trans
        (Event.enterPending_calm ch _ ?_)
      rw [Event.recordOrigin_state, hst]; rfl
    · exact Event.lock_calm ch _ e (by rw [hst]; rfl) (by rw [hst]; rfl) (by rw [hst]; rfl)
  · exact Calm.refl x u e

theorem Event.runDownExpires_calm (ch : Ch) (e : Event) : Calm x u e (e.runDownExpires ch) := by
  unfold Event.runDownExpires
  split
  · rename_i hst _; exact Event.runDownEnds_calm ch e hst
  · exact Calm.refl x u e

theorem Event.inrushEnds_calm (ch : Ch) (e : Event) : Calm x u e (e.inrushEnds ch) := by
  unfold Event.inrushEnds
  split
  · rename_i hst _
    refine (Event.enterAwake_calm ch e _ hst).trans ?_
    unfold Event.releaseLive
    split
    · rename_i y hy
      obtain ⟨hm, hl, hch⟩ := State.liveOf_some hy
      refine Event.releaseClaim_calm y _ hm (Claim.own_of_live hl) fun _ _ _ => ?_
      rw [hch, (Event.enterAwake_spec ch e).1, PerChannel.get_set_same, Controller.enter_state]
      exact ⟨ChState.noConfusion, ChState.noConfusion⟩
    · exact Calm.refl x u _
  · rename_i hst _; exact Event.enterAwake_calm ch e _ hst
  · exact Calm.refl x u e

/-- A LIVE claim whose hold runs is of no channel in CLAIMING or CLAIMED start. -/
theorem State.ClaimInv.clear_of_held {C : Prop} {s : State} (h : s.ClaimInv C) (hC : C) {y : Claim}
    (hy : y ∈ s.bu.claims) (hl : y.isLive = true) (ht : y.timer ≠ none) :
    (s.cc.get y.ch).state ≠ .pending .claiming ∧ (s.cc.get y.ch).state ≠ .starting .claimed := by
  have ho := Claim.own_of_live hl
  obtain ⟨h1, h2, h3⟩ := h.stand hC
  refine ⟨fun hst => ?_, fun hst => ?_⟩
  · obtain ⟨c, hc, hp, hch⟩ := h1 _ hst
    have hoc := Claim.own_of_provisional hp
    have he := h.ch_of_key hC hc hy hoc ho (h3 c hc y hy hoc ho hch)
    rw [he] at hp
    exact absurd (Claim.not_live_of_provisional hp) (by rw [hl]; decide)
  · obtain ⟨c, hc, hlc, hch, htc⟩ := h2 _ hst
    have hoc := Claim.own_of_live hlc
    have he := h.ch_of_key hC hc hy hoc ho (h3 c hc y hy hoc ho hch)
    exact ht (he ▸ htc)

theorem Event.inrushHoldEnds_calm (ch : Ch) (e : Event) : Calm x u e (e.inrushHoldEnds ch) := by
  unfold Event.inrushHoldEnds
  split
  · rename_i y hy
    obtain ⟨hm, hl, hch⟩ := State.liveOf_some hy
    split
    · rename_i hd
      exact Event.releaseClaim_calm y e hm (Claim.own_of_live hl) fun C hi hC =>
        hi.clear_of_held hC hm hl (Timer.ne_none_of_due hd)
    · exact Calm.refl x u e
  · exact Calm.refl x u e

/-! ## Trackers -/

theorem Tracker.senseChange_status (d : Micros) (b : Bool) (t : Tracker) :
    (t.senseChange d b).status = t.status := by
  unfold Tracker.senseChange; split <;> rfl

theorem Event.activitySenseChange_calm (ch : Ch) (active : Bool) (e : Event) :
    Calm x u e (e.activitySenseChange ch active) := by
  unfold Event.activitySenseChange
  split
  · exact Calm.refl x u e
  · simp only
    refine Calm.trans (e' := { e with pins.senseActive := e.pins.senseActive.set ch active })
      (Calm.of_same rfl rfl rfl rfl fun _ h => h) (Event.modIt_calm ch _ _ ?_ fun h => ?_)
    · rw [Tracker.senseChange_status]
    · intro hs
      have hs' := (Tracker.senseChange_status _ _ _).symm.trans hs
      have he : ∀ d b, (e.it.get ch).senseChange d b = e.it.get ch := by
        intro d b; unfold Tracker.senseChange; rw [hs']
      rw [he]; exact h hs'

theorem Event.onset_calm (ch : Ch) (e : Event) : Calm x u e (e.onset ch) := by
  refine Calm.trans (Event.modIt_calm ch _ e ?_ fun h => ?_) (Event.returnToAwake_calm ch _)
  · unfold Tracker.onset; rw [Tracker.beginWindow_status]
  · refine Tracker.beginWindow_restful _ _ fun hs => ?_
    obtain ⟨h1, h2, -⟩ := h hs
    exact ⟨h1, h2, rfl⟩

theorem Event.activityDebounced_calm (ch : Ch) (e : Event) : Calm x u e (e.activityDebounced ch) := by
  unfold Event.activityDebounced
  split
  · split
    · exact Event.onset_calm ch e
    · refine Event.modIt_calm ch _ e ?_ fun h => ?_
      · unfold Tracker.activityEnd; rw [Tracker.beginWindow_status]
      · refine Tracker.beginWindow_restful _ _ fun hs => ?_
        obtain ⟨h1, h2, -⟩ := h hs
        exact ⟨h1, h2, rfl⟩
  · exact Calm.refl x u e

theorem Event.idleWindowEnds_calm (ch : Ch) (e : Event) : Calm x u e (e.idleWindowEnds ch) := by
  unfold Event.idleWindowEnds
  split
  · rename_i h
    exact Event.windowExpired_calm ch e fun hs => absurd (h.1.symm.trans hs) (by decide)
  · exact Calm.refl x u e

/-! ## Keys and buttons -/

theorem Event.holdKeyChange_calm (ch : Ch) (on : Bool) (e : Event) :
    Calm x u e (e.holdKeyChange ch on) := by
  unfold Event.holdKeyChange
  simp only
  split_ifs
  · exact Calm.refl x u e
  · exact Calm.of_same rfl rfl rfl rfl fun _ h => h
  · exact Calm.of_same rfl rfl rfl rfl fun _ h => h

theorem Event.holdKeyDebounced_calm (ch : Ch) (e : Event) : Calm x u e (e.holdKeyDebounced ch) := by
  unfold Event.holdKeyDebounced
  split
  · exact Event.changeHolds_calm _ e
  · exact Calm.refl x u e

theorem Event.wakeButtonChange_calm (ch : Ch) (pressed : Bool) (e : Event) :
    Calm x u e (e.wakeButtonChange ch pressed) := by
  unfold Event.wakeButtonChange
  simp only
  split_ifs
  · exact Calm.refl x u e
  · exact Calm.of_same rfl rfl rfl rfl fun _ h => h
  · exact Calm.of_same rfl rfl rfl rfl fun _ h => h

theorem Event.wakeChannel_calm (o : Origin) (ch : Ch) (e : Event) : Calm x u e (e.wakeChannel o ch) := by
  unfold Event.wakeChannel
  split
  · exact Event.wakeRunning_calm ch e
  · exact Event.addOrigin_calm o ch e

theorem Event.press_calm (ch : Ch) (e : Event) : Calm x u e (e.press ch) := by
  unfold Event.press
  split <;> first | exact Event.wakeChannel_calm _ _ _ | exact Calm.refl x u e

theorem Event.wakeButtonDebounced_calm (ch : Ch) (e : Event) :
    Calm x u e (e.wakeButtonDebounced ch) := by
  have h1 : Calm x u e { e with
      cu.button := e.cu.button.set ch (e.pins.buttonPressed.get ch)
      cu.buttonTimer := e.cu.buttonTimer.set ch none } := Calm.of_same rfl rfl rfl rfl fun _ h => h
  unfold Event.wakeButtonDebounced
  simp only
  split_ifs
  · exact h1.trans (Event.press_calm ch _)
  · exact h1
  · exact Calm.refl x u e

theorem Event.holdEntriesExpire_calm (keys : List HoldKey) (e : Event) :
    Calm x u e (e.holdEntriesExpire keys) := by
  unfold Event.holdEntriesExpire
  simp only
  refine Calm.trans ?_ (Event.changeHolds_calm _ _)
  exact Event.foldl_calm (f := fun e (h : HoldEntry) => e.noticeHold h.target h.tag)
    (fun e h => Calm.of_same rfl rfl rfl rfl fun _ h => h) _ e

/-! ## Peers, the budget timers and the line -/

theorem Event.callWaitEnds_calm (ch : Ch) (e : Event) : Calm x u e (e.callWaitEnds ch) := by
  unfold Event.callWaitEnds
  split
  · rename_i h
    have hn : Calm x u e (e.noticeUnanswered ch) ∧
        (e.noticeUnanswered ch).cc = e.cc := by
      unfold Event.noticeUnanswered
      split
      · exact ⟨Event.noticeCh_calm _ _ _, rfl⟩
      · exact ⟨Calm.refl x u e, rfl⟩
    refine Calm.trans ((hn.1.trans (Event.setCallWait_calm ch none _)).trans
      (Event.setState_calm ch (.pending .budget) _ ?_ ?_ ?_ ?_ (.inr ⟨?_, ?_, ?_⟩)))
      (Event.oweEval_calm _)
    all_goals first | decide | (rw [Event.setCallWait_cc, hn.2, h.1]; decide)
  · exact Calm.refl x u e

theorem Event.ageOut_calm (stations : List Nat) (e : Event) : Calm x u e (e.ageOut stations) := by
  unfold Event.ageOut
  simp only
  refine Calm.trans (e' := { e with du.peers := e.du.peers.map (PeerEntry.aged stations) })
    (Calm.of_same rfl rfl rfl rfl fun _ h => h) ?_
  exact Event.foldl_calm (fun e n => Event.noticeNode_calm _ e) _ _

theorem Event.heartbeat_calm (e : Event) : Calm x u e e.heartbeat := by
  unfold Event.heartbeat
  split
  · refine Calm.trans (e' := ({ e with li.heartbeatTimer := some e.heartbeatPeriod } : Event).oweState)
      (Calm.of_same rfl rfl rfl rfl fun _ h => h) (Event.forChannels_calm (fun ch e => ?_) _)
    unfold Event.heartbeatCalls
    simp only
    refine Calm.trans ?_ (Event.oweStanding_calm ch _ _)
    refine Calm.trans ?_ (Event.standingFrame_calm ch _)
    split
    · exact Calm.of_same rfl rfl rfl rfl fun _ h => h
    · exact Calm.refl x u e
  · exact Calm.refl x u e

/-- Remote claims leave the table. -/
theorem Event.filterRemote_calm (p : Claim → Bool) (hp : ∀ c, c.isOwn = true → p c = true) (e : Event) :
    Calm x u e { e with bu.claims := e.bu.claims.filter p } :=
  Calm.of_remote rfl rfl rfl (fun _ h => h)
    (fun c ho => by
      show c ∈ e.bu.claims.filter p ↔ c ∈ e.bu.claims
      rw [List.mem_filter]; exact ⟨fun h => h.1, fun h => ⟨h, hp c ho⟩⟩)
    (fun c hc hr => .inr ⟨c, (List.mem_filter.1 hc).1, hr, rfl⟩)
    (fun _ hz => by show e.bu.claims.filter p = []; rw [hz]; rfl)

theorem Event.claimHoldEnds_calm (station number : Nat) (e : Event) :
    Calm x u e (e.claimHoldEnds station number) := by
  unfold Event.claimHoldEnds
  split
  · exact (Event.filterRemote_calm _ (fun c ho => by simp [Claim.expiresAs, ho]) e).trans
      (Event.oweEval_calm _)
  · exact Calm.refl x u e

theorem Event.overflowEnds_calm (e : Event) : Calm x u e e.overflowEnds := by
  unfold Event.overflowEnds
  split
  · exact Calm.of_same rfl rfl rfl rfl fun _ h => h
  · exact Calm.refl x u e

theorem Event.retryGapEnds_calm (ch : Ch) (e : Event) : Calm x u e (e.retryGapEnds ch) := by
  unfold Event.retryGapEnds
  split
  · exact (Event.setRetryGap_calm ch none e).trans (Event.oweEval_calm _)
  · exact Calm.refl x u e

theorem Event.lampStep_calm (lamp : Lamp) (e : Event) : Calm x u e (e.lampStep lamp) := by
  cases lamp <;> exact Calm.of_same rfl rfl rfl rfl fun _ h => h

theorem Event.fillSender_calm (f : Frame) (rest : List Frame) (e : Event) :
    Calm x u e (e.fillSender f rest) := by
  unfold Event.fillSender
  simp only
  split
  · exact Calm.of_same rfl rfl rfl rfl fun _ h => h
  · exact Calm.of_same rfl rfl rfl rfl fun _ h => h

theorem Event.accessGap_calm (e : Event) : Calm x u e e.accessGap := by
  have h1 : Calm x u e { e with li.awaitingGap := false, li.inProgress := none } :=
    Calm.of_same rfl rfl rfl rfl fun _ h => h
  have drive : ∀ e : Event, Calm x u e { e with li.driving := true } := fun e =>
    Calm.of_same rfl rfl rfl rfl fun _ h => h
  unfold Event.accessGap
  simp only
  split
  · exact Calm.refl x u e
  · split
    · exact h1.trans (drive _)
    · exact (h1.trans (Event.fillSender_calm _ _ _)).trans (drive _)
    · exact h1

theorem Event.contentionLost_calm (winner : Byte) (e : Event) :
    Calm x u e (e.contentionLost winner) := by
  unfold Event.contentionLost
  split
  · exact Calm.of_same rfl rfl rfl rfl fun _ h => h
  · exact Calm.refl x u e

theorem Event.frameSent_calm (e : Event) : Calm x u e e.frameSent := by
  unfold Event.frameSent
  split
  · exact Calm.of_same rfl rfl rfl rfl fun _ h => h
  · exact Calm.refl x u e

theorem Event.sendFault_calm (e : Event) : Calm x u e e.sendFault := by
  unfold Event.sendFault
  split
  · exact Calm.of_same rfl rfl rfl rfl fun _ h => h
  · exact Calm.refl x u e

theorem Event.invalidFrame_calm (e : Event) : Calm x u e e.invalidFrame :=
  Calm.of_same rfl rfl rfl rfl fun _ h => h

/-! ## Frames of other stations -/

theorem Event.addIfResting_calm (o : Origin) (ch : Ch) (e : Event) :
    Calm x u e (e.addIfResting o ch) := by
  unfold Event.addIfResting
  split
  · exact Event.addOrigin_calm o ch e
  · exact Calm.refl x u e

theorem Event.takePhase_calm (ch : Ch) (e : Event) : Calm x u e (e.takePhase ch) := by
  unfold Event.takePhase
  split
  · split
    · exact Calm.refl x u e
    · exact Event.returnToAwake_calm ch e
  · exact Event.tryWait_calm ch e
  · split
    · exact Event.addIfResting_calm _ ch e
    · exact Calm.refl x u e

theorem Event.adopt_calm (adoption : Option PhaseUnit) (e : Event) : Calm x u e (e.adopt adoption) := by
  unfold Event.adopt
  split
  · rename_i v
    have h1 : Calm x u e ({ e with pu := v } : Event).oweState :=
      Calm.of_same rfl rfl rfl rfl fun _ h => h
    simp only
    split
    · exact h1
    · exact h1.trans (Event.forChannels_calm Event.takePhase_calm _)
  · exact Calm.refl x u e

theorem Event.updatePeers_calm (station : Nat) (reports : PerChannel Byte) (e : Event) :
    Calm x u e (e.updatePeers station reports) := by
  unfold Event.updatePeers
  split
  · exact Calm.of_same rfl rfl rfl rfl fun _ h => h
  · exact Calm.refl x u e

theorem Event.takeState_calm (env : Envelope) (p : StatePayload) (e : Event) :
    Calm x u e (e.takeState env p) :=
  ((Event.adopt_calm _ e).trans (Event.settled_calm _)).trans (Event.updatePeers_calm _ _ _)

theorem Event.takePhaseFrame_calm (env : Envelope) (phase : Byte) (epoch : Word32) (level : Byte)
    (e : Event) : Calm x u e (e.takePhaseFrame env phase epoch level) := Event.adopt_calm _ e

theorem Event.dropOlder_calm (c : Claim) (e : Event) : Calm x u e (e.dropOlder c) := by
  have h1 : Calm x u e ({ e with
      bu.claims := e.bu.claims.filter fun y => !y.isRemoteFor c.station c.ch } : Event).oweEval :=
    (Event.filterRemote_calm _ (fun c ho => by simp [Claim.isRemoteFor, ho]) e).trans
      (Event.oweEval_calm _)
  unfold Event.dropOlder
  simp only
  split
  · split
    · exact h1.trans (Event.drainBudget_calm _ _)
    · exact h1
  · exact Calm.refl x u e

/-- An entry as a CLAIM with its key leaves it (R92). -/
def Claim.retake (limit : Micros) (c y : Claim) : Claim :=
  if y.isRemote c.station c.number then
    { y with ch := c.ch, weight := c.weight, rank := c.rank, timer := some limit }
  else y

theorem Claim.retake_rest (limit : Micros) (c y : Claim) :
    (Claim.retake limit c y).isOwn = y.isOwn ∧ (Claim.retake limit c y).station = y.station := by
  unfold Claim.retake; split <;> exact ⟨rfl, rfl⟩

theorem Event.replaceClaim_calm (c old : Claim) (e : Event) : Calm x u e (e.replaceClaim c old) := by
  have h1 : Calm x u e { e with
      bu.claims := e.bu.claims.map (Claim.retake (e.plantTime Image.claimHoldLimit) c) } := by
    refine Calm.of_remote rfl rfl rfl (fun _ h => h) (fun d ho => ?_) (fun d hd hr => ?_) fun _ hz => ?_
    · exact mem_map_own (fun y hy => by simp [Claim.retake, Claim.isRemote, hy])
        (fun y => (Claim.retake_rest _ c y).1) _ d ho
    · obtain ⟨y, hy, rfl⟩ := List.mem_map.1 hd
      obtain ⟨ho, hs⟩ := Claim.retake_rest (e.plantTime Image.claimHoldLimit) c y
      exact .inr ⟨y, hy, ho.symm.trans hr, hs.symm⟩
    · show e.bu.claims.map _ = []
      rw [hz]; rfl
  rw [show e.replaceClaim c old = if c.weight < old.weight then
      (Event.conflictCheck { e with
        bu.claims := e.bu.claims.map (Claim.retake (e.plantTime Image.claimHoldLimit) c) }).oweEval
    else Event.conflictCheck { e with
      bu.claims := e.bu.claims.map (Claim.retake (e.plantTime Image.claimHoldLimit) c) } from rfl]
  split
  · exact (h1.trans (Event.conflictCheck_calm _)).trans (Event.oweEval_calm _)
  · exact h1.trans (Event.conflictCheck_calm _)

theorem Event.setOverflow_calm (e : Event) : Calm x u e e.setOverflow := by
  have h1 : Calm x u e { e with
      bu.overflow := true
      bu.overflowTimer := some (e.plantTime Image.claimHoldLimit) } :=
    Calm.of_same rfl rfl rfl rfl fun _ h => h
  unfold Event.setOverflow
  simp only
  split
  · exact h1
  · exact (h1.trans (Event.noticeNode_calm _ _)).trans (Event.withdrawAll_calm _)

/-- A remote claim joins the table. -/
theorem Event.appendRemote_calm (c : Claim) (e : Event) (hr : c.isOwn = false)
    (hs : c.station ≠ e.mc.station) (hm : e.mc.mode ≠ .loading) :
    Calm x u e { e with bu.claims := e.bu.claims ++ [c] } := by
  refine Calm.of_remote rfl rfl rfl (fun _ h => h) (fun d ho => ?_) (fun d hd hr => ?_)
    fun hl => absurd hl hm
  · show d ∈ e.bu.claims ++ [c] ↔ d ∈ e.bu.claims
    rw [List.mem_append, List.mem_singleton, or_iff_left]
    rintro rfl
    exact absurd (hr.symm.trans ho) (by decide)
  · rcases List.mem_append.1 hd with hd | hd
    · exact .inr ⟨d, hd, hr, rfl⟩
    · rw [List.mem_singleton.1 hd]; exact .inl hs

theorem Event.recordClaim_calm (c : Claim) (e : Event) (hs : c.station ≠ e.mc.station)
    (hm : e.mc.mode ≠ .loading) : Calm x u e (e.recordClaim c) := by
  unfold Event.recordClaim
  split
  · exact Event.replaceClaim_calm _ _ e
  · have h1 : Calm x u e (e.dropOlder c) := Event.dropOlder_calm c e
    simp only
    split
    · refine h1.trans (Calm.trans (Event.appendRemote_calm _ _ rfl ?_ ?_)
        (Event.conflictCheck_calm _))
      · rw [h1.station]; exact hs
      · rw [h1.mode]; exact hm
    · exact h1.trans (Event.setOverflow_calm _)

theorem Event.takeClaim_calm (env : Envelope) (number channel weight rank : Byte) (e : Event)
    (hs : env.sender.toNat ≠ e.mc.station) :
    Calm x u e (e.takeClaim env number channel weight rank) := by
  unfold Event.takeClaim
  split
  · rename_i c hc
    have hst : c.station = env.sender.toNat := by
      unfold remoteClaim? at hc
      split at hc
      · split at hc
        · injection hc with hc; rw [← hc]
        · exact absurd hc (by simp)
      · exact absurd hc (by simp)
    split
    · rename_i hm
      refine Event.recordClaim_calm c e (hst ▸ hs) fun hl => ?_
      rw [hl] at hm; exact absurd hm (by decide)
    · exact Calm.refl x u e
  · exact Calm.refl x u e

theorem Event.takeEnd_calm (env : Envelope) (number : Byte) (e : Event) :
    Calm x u e (e.takeEnd env number) := by
  unfold Event.takeEnd
  split
  · exact (Event.filterRemote_calm _ (fun c ho => by simp [Claim.isRemote, ho]) e).trans
      (Event.oweEval_calm _)
  · exact Calm.refl x u e

theorem Event.takeCall_calm (p : CallPayload) (e : Event) : Calm x u e (e.takeCall p) := by
  unfold Event.takeCall
  split
  · refine Event.foldl_calm (fun e r => ?_) _ e
    unfold Event.callTarget
    split
    · split
      · exact Event.addOrigin_calm _ _ e
      · exact Calm.refl x u e
    · exact Calm.refl x u e
  · exact Calm.refl x u e

/-! ## Commands of consoles -/

/-- What a judged command has done is `Calm` where it was carried out so. -/
theorem Event.command_calm (env : Envelope) (kind channel tag : Byte) (judge : Event → Judged)
    (e : Event) (h : Calm x u e (judge e).2) : Calm x u e (e.command env kind channel tag judge) := by
  have answered : ∀ j : Judged, Calm x u e j.2 → Calm x u e (j.answer env kind channel tag) :=
    fun j hj => hj.trans (Calm.of_same rfl rfl rfl rfl fun _ h => h)
  unfold Event.command
  split
  · exact Calm.refl x u e
  · split <;> first
      | exact Calm.refl x u e
      | exact answered _ (Calm.refl x u e)
      | exact answered _ h

theorem Event.judgeChannel_calm (env : Envelope) (channel level : Byte) (gate : Nat)
    (carryOut : Ch → Event → Judged) (e : Event) (h : ∀ ch, Calm x u e (carryOut ch e).2) :
    Calm x u e (e.judgeChannel env channel level gate carryOut).2 := by
  unfold Event.judgeChannel
  split
  · exact Calm.refl x u e
  · split
    · exact Calm.refl x u e
    · split
      · exact Calm.refl x u e
      · exact h _

theorem Event.judgeWake_calm (env : Envelope) (channel level : Byte) (e : Event) :
    Calm x u e (e.judgeWake env channel level).2 :=
  Event.judgeChannel_calm env channel level 3 _ e fun ch => Event.wakeChannel_calm .console ch e

theorem Event.shedIfUnused_calm (ch : Ch) (shed : Event → Event) (e : Event) (h : Calm x u e (shed e)) :
    Calm x u e (e.shedIfUnused ch shed).2 := by
  unfold Event.shedIfUnused
  split
  · exact h
  · exact Calm.refl x u e

theorem Event.shedAwake_calm (ch : Ch) (e : Event) :
    Calm x u e (e.shedAwake ch) :=
  (Event.modIt_calm ch _ e Iff.rfl fun h => h).trans (Event.tryWait_calm ch _)

theorem Event.carryOutShed_calm (ch : Ch) (e : Event) : Calm x u e (e.carryOutShed ch).2 := by
  unfold Event.carryOutShed
  split
  · exact Calm.refl x u e
  · split <;> rename_i hst
    · exact Event.shedAwake_calm ch e
    · exact Calm.refl x u e
    · exact Calm.refl x u e
    · exact Event.clearOrigins_calm ch e
    · exact Event.shedIfUnused_calm ch _ e (Event.shedPending_calm ch e (by rw [hst]; rfl))
    · exact Event.shedIfUnused_calm ch _ e (Event.shedTripped_calm ch e _ hst)
    · split
      · exact Event.shedIfUnused_calm ch _ e (Event.shedStarting_calm ch e _ hst)
      · exact Calm.refl x u e
    all_goals exact Calm.refl x u e

theorem Event.judgeShed_calm (env : Envelope) (channel level : Byte) (e : Event) :
    Calm x u e (e.judgeShed env channel level).2 := by
  unfold Event.judgeShed
  split
  · exact Calm.refl x u e
  · exact Event.judgeChannel_calm env channel level 2 _ e fun ch => Event.carryOutShed_calm ch e

theorem Event.judgeHold_calm (env : Envelope) (target tag level : Byte) (expiry : Word16) (e : Event) :
    Calm x u e (e.judgeHold env target tag level expiry).2 := by
  unfold Event.judgeHold
  split
  · exact Calm.refl x u e
  · split
    · exact Calm.refl x u e
    · unfold Event.carryOutHold
      split
      · exact Event.changeHolds_calm _ e
      · exact Calm.refl x u e

theorem Event.judgeUnhold_calm (env : Envelope) (target tag level : Byte) (e : Event) :
    Calm x u e (e.judgeUnhold env target tag level).2 := by
  unfold Event.judgeUnhold
  split
  · exact Calm.refl x u e
  · split
    · exact Calm.refl x u e
    · unfold Event.carryOutUnhold
      simp only
      split_ifs
      · exact Calm.refl x u e
      · exact Calm.refl x u e
      · exact Event.changeHolds_calm _ e

/-- An unlock, which alone takes a channel out of LOCKED. -/
theorem Event.unlockToRest_calm (hu : u) (ch : Ch) (e : Event)
    (h : (e.cc.get ch).state.isLocked = true) : Calm x u e (e.unlockToRest ch) := by
  have h1 : Calm x u e
      ((e.modCc ch fun c => { c with tripCount := 0, origins := {} }).setState ch .rest) := by
    have hst : (e.cc.get ch).state.outside = false ∧ (e.cc.get ch).state.tracked = false ∧
        (e.cc.get ch).state ≠ .pending .claiming := by
      cases hs : (e.cc.get ch).state <;> simp_all [ChState.isLocked, ChState.outside, ChState.tracked]
    have hs := Controller.enter_state (e.record ch).feedbackWindow .rest
      { e.cc.get ch with tripCount := 0, origins := {} }
    have hk := Event.setState_kept ch .rest (e.modCc ch fun c => { c with tripCount := 0, origins := {} })
    have hcc : ((e.modCc ch fun c => { c with tripCount := 0, origins := {} }).setState ch .rest).cc =
        e.cc.set ch (Controller.enter (e.record ch).feedbackWindow .rest
          { e.cc.get ch with tripCount := 0, origins := {} }) := by
      rw [Event.setState_cc, Event.modCc_cc, PerChannel.get_set_same, PerChannel.set_set,
        Event.modCc_record]
    have hmc : ((e.modCc ch fun c => { c with tripCount := 0, origins := {} }).setState ch .rest).mc =
        e.mc := Event.setState_mc _ _ _
    refine Calm.of_set ch _ (e.it.get ch) hcc (by rw [Event.setState_it, PerChannel.set_get]; rfl) hmc
      hk.nodeNotices ?_ fun C hC => hC.of_same (by rw [hmc]) (by rw [hmc]) (by rw [hmc])
        (by rw [hk.bu]; rfl) fun k => ?_
    · refine ⟨.inr hst.1, ?_, fun n => absurd hu n, ?_, fun _ h => h, ?_⟩
      · rw [hs]; exact fun _ h => absurd h Bool.noConfusion
      · unfold Tracker.followsState; rw [hs, hst.2.1]; exact id
      · unfold Controller.served; rw [hs]; exact fun _ h => absurd h Bool.noConfusion
    · by_cases hk : k = ch
      · subst hk
        rw [hcc, PerChannel.get_set_same, hs]
        exact .inr ⟨hst.2.2, ChState.noConfusion, ChState.noConfusion⟩
      · rw [hcc, PerChannel.get_set_other _ hk]; exact .inl rfl
  unfold Event.unlockToRest
  simp only
  split
  · exact h1.trans (Event.addOrigin_calm _ ch _)
  · exact h1

theorem Event.judgeUnlock_calm (hu : u) (env : Envelope) (channel level : Byte) (e : Event) :
    Calm x u e (e.judgeUnlock env channel level).2 := by
  refine Event.judgeChannel_calm env channel level 1 _ e fun ch => ?_
  unfold Event.carryOutUnlock
  split
  · rename_i h
    exact Event.unlockToRest_calm hu ch e (Bool.and_eq_true_iff.1 h).1
  · exact Calm.refl x u e

end

end Sys2Proof.Machine
end

