-- ==== Sys2Proof/Proofs/Sound.lean ====
section
/-! SUPPORT. What every step keeps of the channels: the invariant `State.Sound`, kept by every effect, and the
three statements about all steps (R8, R24, R30 to R34, R76). -/

namespace Sys2Proof.Machine

/-- The trackers follow their channels, claims stand where they should and channels are OFFLINE before an
image is accepted; and, where `R`, `S` and `C` ask for it, STOPPED trackers rest, running loads have no
origins, and every CLAIMING channel and CLAIMED start has its claim. -/
structure State.Sound (R S C : Prop) (s : State) : Prop where
  follows : ∀ ch, (s.it.get ch).followsState (s.cc.get ch).state
  offline : s.offlineBefore
  restful : R → ∀ ch, (s.it.get ch).restful
  served : S → ∀ ch, (s.cc.get ch).served
  claims : s.ClaimInv C

theorem State.channelsSound_iff (s : State) :
    s.channelsSound ↔ State.Sound False False False s :=
  ⟨fun h => ⟨h.1, h.2.2, False.elim, False.elim, ⟨h.2.1, False.elim, False.elim⟩⟩,
    fun h => ⟨h.follows, h.claims.provisional, h.offline⟩⟩

/-- What an effect may do: at each channel what `Passes` says, and the invariant is kept. -/
structure Steady (x u : Prop) (e e' : Event) : Prop where
  channels : ∀ ch, Passes x u (e.cc.get ch) (e'.cc.get ch) (e.it.get ch) (e'.it.get ch)
  sound : ∀ R S C : Prop, State.Sound R S C e.toState → State.Sound R S C e'.toState

section
variable {x u : Prop} {e e' e'' : Event}

theorem Steady.refl (x u : Prop) (e : Event) : Steady x u e e :=
  ⟨fun _ => Passes.refl x u _ _, fun _ _ _ h => h⟩

theorem Steady.trans (h : Steady x u e e') (k : Steady x u e' e'') : Steady x u e e'' :=
  ⟨fun ch => (h.channels ch).trans (k.channels ch), fun R S C hs => k.sound R S C (h.sound R S C hs)⟩

/-- Before an image is accepted no channel leaves OFFLINE or BYPASS. -/
theorem State.offlineBefore.of_inside {s s' : State} (hmode : s'.mc.mode = s.mc.mode)
    (ht : s'.mc.bypassTimer = s.mc.bypassTimer)
    (hin : ∀ ch, (s'.cc.get ch).state = (s.cc.get ch).state ∨ (s.cc.get ch).state.outside = false)
    (h : s.offlineBefore) : s'.offlineBefore := by
  obtain ⟨h1, h2, h3⟩ := h
  have stay : ∀ ch, (s.cc.get ch).state.outside = true →
      (s'.cc.get ch).state = (s.cc.get ch).state := fun ch ho =>
    (hin ch).resolve_right (by rw [ho]; decide)
  rw [State.offlineBefore, hmode, ht]
  refine ⟨fun hl ch => ?_, fun hu ch => ?_, fun ch hb => ?_⟩
  · obtain ⟨ho, hn⟩ := h1 hl ch
    exact ⟨(stay ch (by rw [ho]; rfl)).trans ho, hn⟩
  · rw [stay ch (by rcases h2 hu ch with ho | ho <;> rw [ho] <;> rfl)]; exact h2 hu ch
  · obtain ⟨hm, ho⟩ := h3 ch hb
    exact ⟨hm, (stay ch (by rw [ho]; rfl)).trans ho⟩

theorem Calm.steady (h : Calm x u e e') : Steady x u e e' where
  channels := h.channels
  sound _ _ _ hs :=
    { follows := fun ch => (h.channels ch).tracker (hs.follows ch)
      offline := hs.offline.of_inside h.mode h.bypassTimer fun ch => (h.channels ch).inside
      restful := fun hR ch => (h.channels ch).restful (hs.follows ch) (hs.restful hR ch)
      served := fun hS ch => (h.channels ch).served (hs.served hS ch)
      claims := h.claims _ hs.claims }

/-- The node enters a mode, the channels, trackers and claims as they are. -/
theorem State.Sound.of_mode {R S C : Prop} {s s' : State} (hcc : s'.cc = s.cc) (hit : s'.it = s.it)
    (hcl : s'.bu.claims = s.bu.claims) (hst : s'.mc.station = s.mc.station)
    (hre : s'.mc.inReset = s.mc.inReset)
    (hmode : s'.mc.mode = s.mc.mode ∨ s.mc.mode ≠ .loading ∨ s.mc.inReset = false)
    (hoff : s.offlineBefore → s'.offlineBefore) (h : State.Sound R S C s) : State.Sound R S C s' where
  follows ch := by rw [hcc, hit]; exact h.follows ch
  offline := hoff h.offline
  restful hR ch := by rw [hit]; exact h.restful hR ch
  served hS ch := by rw [hcc]; exact h.served hS ch
  claims := by
    refine ⟨?_, fun hC => ?_, fun hC => ?_⟩
    · unfold State.provisionalClaiming; rw [hcc, hcl]; exact h.claims.provisional
    · obtain ⟨h1, h2, h3, h4⟩ := h.claims.keys hC
      refine ⟨by rw [hcl, hst]; exact h1, by rw [hcl, hst]; exact h2, by rw [hcl]; exact h3,
        fun hz => ?_⟩
      rw [hre] at hz
      obtain ⟨hl, hn⟩ := h4 hz
      rcases hmode with hm | hm | hm
      · exact ⟨hm.trans hl, hcl.trans hn⟩
      · exact absurd hl hm
      · exact absurd (hz.symm.trans hm) (by decide)
    · unfold State.claimsStand; rw [hcc, hcl]; exact h.claims.stand hC

theorem Steady.of_mode (hcc : e'.cc = e.cc) (hit : e'.it = e.it) (hcl : e'.bu.claims = e.bu.claims)
    (hst : e'.mc.station = e.mc.station) (hre : e'.mc.inReset = e.mc.inReset)
    (hmode : e'.mc.mode = e.mc.mode ∨ e.mc.mode ≠ .loading ∨ e.mc.inReset = false)
    (hoff : e.offlineBefore → e'.offlineBefore) : Steady x u e e' :=
  ⟨fun ch => by rw [hcc, hit]; exact Passes.refl x u _ _,
    fun _ _ _ h => h.of_mode hcc hit hcl hst hre hmode hoff⟩

/-- A change of Mode Control that is no change of mode. -/
theorem Steady.of_timers (hcc : e'.cc = e.cc) (hit : e'.it = e.it) (hcl : e'.bu.claims = e.bu.claims)
    (hst : e'.mc.station = e.mc.station) (hre : e'.mc.inReset = e.mc.inReset)
    (hmode : e'.mc.mode = e.mc.mode) (hb : e'.mc.bypassTimer = e.mc.bypassTimer) : Steady x u e e' :=
  Steady.of_mode hcc hit hcl hst hre (.inl hmode)
    fun h => h.of_inside hmode hb fun ch => .inl (by rw [hcc])

/-- In a mode with an accepted image no bypass timer runs (R31). -/
theorem State.offlineBefore.noBypass {s : State} (h : s.offlineBefore)
    (hu : s.mc.mode ≠ .unconfigured) (hs : s.mc.mode ≠ .silent) (ch : Ch) :
    s.mc.bypassTimer.get ch = none := by
  by_contra hb
  obtain ⟨hm, -⟩ := h.2.2 ch hb
  rcases hm with hm | hm
  · exact hu hm
  · exact hs hm

/-- A change of mode among those with an accepted image, or to SILENT. -/
theorem State.offlineBefore.of_mode {s s' : State} (hcc : s'.cc = s.cc)
    (hb : s'.mc.bypassTimer = s.mc.bypassTimer) (hl : s'.mc.mode ≠ .loading)
    (hu : s'.mc.mode ≠ .unconfigured)
    (hs : s'.mc.mode = .silent ∨ s.mc.mode ≠ .unconfigured ∧ s.mc.mode ≠ .silent)
    (h : s.offlineBefore) : s'.offlineBefore := by
  refine ⟨fun h => absurd h hl, fun h => absurd h hu, fun ch ht => ?_⟩
  rw [hb] at ht
  rcases hs with hs | ⟨h1, h2⟩
  · rw [hcc]; exact ⟨.inr hs, (h.2.2 ch ht).2⟩
  · exact absurd (h.noBypass h1 h2 ch) ht

/-! ## Changes of mode -/

theorem Event.setMode_rest (mode : Mode) (e : Event) :
    (e.setMode mode).cc = e.cc ∧ (e.setMode mode).it = e.it ∧ (e.setMode mode).bu = e.bu ∧
      (e.setMode mode).mc = { e.mc with mode := mode } ∧ (e.setMode mode).du = e.du ∧
      (e.setMode mode).cu = e.cu ∧ (e.setMode mode).pu = e.pu ∧ (e.setMode mode).li = e.li ∧
      (e.setMode mode).out.nodeNotices = e.out.nodeNotices := by
  unfold Event.setMode
  split
  · rename_i h; subst h; exact ⟨rfl, rfl, rfl, rfl, rfl, rfl, rfl, rfl, rfl⟩
  · exact ⟨rfl, rfl, rfl, rfl, rfl, rfl, rfl, rfl, rfl⟩

theorem Event.setMode_steady (mode : Mode) (e : Event) (hl : e.mc.mode ≠ .loading)
    (hl' : mode ≠ .loading) (hu : mode ≠ .unconfigured)
    (hs : mode = .silent ∨ e.mc.mode ≠ .unconfigured ∧ e.mc.mode ≠ .silent) :
    Steady x u e (e.setMode mode) := by
  obtain ⟨hcc, hit, hbu, hmc, -⟩ := Event.setMode_rest mode e
  refine Steady.of_mode hcc hit (by rw [hbu]) (by rw [hmc]) (by rw [hmc]) (.inr (.inl hl)) fun h => ?_
  exact h.of_mode hcc (by rw [hmc]) (by rw [hmc]; exact hl') (by rw [hmc]; exact hu)
    (by rw [hmc]; exact hs)

theorem Event.cutOff_steady (e : Event) : Steady x u e e.cutOff := by
  refine Steady.trans (e' := { e with mc.staggerTimer := some e.staggerStart })
    (Steady.of_timers rfl rfl rfl rfl rfl rfl rfl) (Calm.steady ?_)
  exact ((Event.withdrawAll_calm _).trans (Event.forChannels_calm Event.returnToAwake_calm _)).trans
    (Event.forChannels_calm (Event.addIfResting_calm .isolation) _)

theorem Event.stopModeTimers_steady (e : Event) : Steady x u e e.stopModeTimers :=
  Steady.of_timers rfl rfl rfl rfl rfl rfl rfl

theorem Event.goQuiet_steady (e : Event) : Steady x u e e.goQuiet :=
  Steady.of_timers rfl rfl rfl rfl rfl rfl rfl

theorem Event.enterIsolated_steady (e : Event) (h : e.toState.onLine) :
    Steady x u e e.enterIsolated := by
  have hm : e.mc.mode ≠ .loading ∧ e.mc.mode ≠ .unconfigured ∧ e.mc.mode ≠ .silent := by
    rcases h with h | h <;> rw [h] <;> decide
  exact ((((Event.noticeNode_calm .isolated e).steady).trans (Event.stopModeTimers_steady _)).trans
    (Event.setMode_steady .isolated _ hm.1 (by decide) (by decide) (.inr hm.2))).trans
    (Event.cutOff_steady _)

theorem Event.enterSilent_steady (e : Event) : Steady x u e e.enterSilent := by
  have silent : ∀ e : Event, e.mc.mode ≠ .loading → Steady x u e (e.setMode .silent) := fun e h =>
    Event.setMode_steady .silent e h (by decide) (by decide) (.inl rfl)
  unfold Event.enterSilent
  split <;> rename_i hm
  · exact Steady.refl x u e
  · exact Steady.refl x u e
  · exact (Event.goQuiet_steady e).trans (silent _ (by rw [show e.goQuiet.mc = e.mc from rfl, hm]; decide))
  · exact ((Event.goQuiet_steady e).trans
      (silent _ (by rw [show e.goQuiet.mc = e.mc from rfl, hm]; decide))).trans
      (Event.withdrawAll_calm _).steady
  all_goals
    exact (((Event.goQuiet_steady e).trans (Event.stopModeTimers_steady _)).trans
      (silent _ (by show e.mc.mode ≠ _; rw [hm]; decide))).trans (Event.cutOff_steady _)

theorem Event.rejoin_steady (e : Event) (h : e.mc.mode = .isolated) : Steady x u e e.rejoin := by
  have h1 : Steady x u e ((e.setMode .operating).noticeNode .rejoined) :=
    (Event.setMode_steady .operating e (by rw [h]; decide) (by decide) (by decide)
      (.inr (by rw [h]; decide))).trans (Event.noticeNode_calm _ _).steady
  unfold Event.rejoin
  simp only
  refine Steady.trans (h1.trans ?_)
    ((Event.forChannels_calm Event.tryWait_calm _).trans (Event.oweEval_calm _)).steady
  exact Steady.of_timers rfl rfl rfl rfl rfl rfl rfl

theorem State.staggerChoice_pending {s : State} {ch : Ch} (h : s.staggerChoice = some ch) :
    (s.cc.get ch).state.isPending = true := by
  unfold State.staggerChoice at h
  obtain ⟨p, hp, rfl⟩ := Option.map_eq_some_iff.1 h
  have found := List.find?_some hp
  exact (Bool.and_eq_true_iff.1 found).2

/-- An expiry of the stagger closes a contactor, in ISOLATED or SILENT alone (R146). -/
theorem Event.staggerEnds_steady (e : Event) (hx : e.mc.mode = .isolated ∨ e.mc.mode = .silent → x) :
    Steady x u e e.staggerEnds ∧ e.staggerEnds.mc.mode = e.mc.mode := by
  unfold Event.staggerEnds
  split
  · rename_i h
    split
    · rename_i ch hch
      have hc : Calm x u e (e.startUnclaimed ch) :=
        Event.startUnclaimed_calm (hx h.1) ch e (State.staggerChoice_pending hch)
      exact ⟨hc.steady.trans (Steady.of_timers rfl rfl rfl rfl rfl rfl rfl), hc.mode⟩
    · exact ⟨Steady.of_timers rfl rfl rfl rfl rfl rfl rfl, rfl⟩
  · exact ⟨Steady.refl x u e, rfl⟩

theorem Event.rejoinWith_steady (order : RejoinOrder) (dispatch : Event → Event) (e : Event)
    (hm : e.mc.mode = .isolated) (hx : x)
    (hd : ∀ f, f.mc.station = e.mc.station → Calm x u f (dispatch f)) :
    Steady x u e (e.rejoinWith order dispatch) := by
  have hst : e.rejoin.mc.station = e.mc.station := by
    have h1 : Calm x u { (e.setMode .operating).noticeNode .rejoined with
        mc.isolationTimer := some (State.plantTime
          ((e.setMode .operating).noticeNode .rejoined).toState Image.isolationLimit)
        mc.staggerTimer := none } e.rejoin :=
      (Event.forChannels_calm Event.tryWait_calm _).trans (Event.oweEval_calm _)
    rw [h1.station]
    show (e.setMode .operating).mc.station = _
    rw [(Event.setMode_rest .operating e).2.2.2.1]
  unfold Event.rejoinWith
  split
  · exact (Event.rejoin_steady e hm).trans (hd _ hst).steady
  · have h1 : Calm x u e.rejoin ((e.rejoin.settled).drainBudget budgetRounds) :=
      (Event.settled_calm _).trans (Event.drainBudget_calm _ _)
    exact ((Event.rejoin_steady e hm).trans h1.steady).trans (hd _ (h1.station.trans hst)).steady
  · have h1 : Calm x u e (dispatch e).settled := (hd e rfl).trans (Event.settled_calm _)
    exact h1.steady.trans (Event.rejoin_steady _ (h1.mode.trans hm))
  · have h1 : Calm x u e (dispatch e).settled := (hd e rfl).trans (Event.settled_calm _)
    obtain ⟨h2, h2m⟩ := Event.staggerEnds_steady (x := x) (u := u) (dispatch e).settled fun _ => hx
    have h3 : Calm x u (dispatch e).settled.staggerEnds (dispatch e).settled.staggerEnds.settled :=
      Event.settled_calm _
    exact ((h1.steady.trans h2).trans h3.steady).trans
      (Event.rejoin_steady _ (h3.mode.trans (h2m.trans (h1.mode.trans hm))))

theorem Event.heard_steady (order : RejoinOrder) (dispatch : Event → Event) (e : Event)
    (hx : e.mc.mode = .isolated → x)
    (hd : ∀ f, f.mc.station = e.mc.station → Calm x u f (dispatch f)) :
    Steady x u e (e.heard order dispatch) := by
  have heard : Steady x u e
      (dispatch { e with mc.isolationTimer := some (e.plantTime Image.isolationLimit) }) := by
    generalize he :
      ({ e with mc.isolationTimer := some (e.plantTime Image.isolationLimit) } : Event) = e1
    have h1 : Steady x u e e1 := he ▸ Steady.of_timers rfl rfl rfl rfl rfl rfl rfl
    exact h1.trans (hd e1 (by rw [← he])).steady
  unfold Event.heard
  split <;> rename_i hm
  · exact heard
  · exact heard
  · exact Event.rejoinWith_steady order dispatch e hm (hx hm) hd
  · exact (hd e rfl).steady
  · exact (hd e rfl).steady
  · exact (hd e rfl).steady

/-- A frame that arrives: what its dispatch keeps, the arrival keeps. -/
theorem Event.hear_steady (order : RejoinOrder) (env : Envelope) (kind : Byte) (payload : List Byte)
    (dispatch : Event → Event) (e : Event) (hx : e.mc.mode = .isolated → x)
    (hd : ∀ f : Event, env.sender.toNat ≠ f.mc.station → Calm x u f (dispatch f)) :
    Steady x u e (e.hear order env kind payload dispatch) := by
  have h1 : Calm x u e { e with li.inProgress := none } := Calm.of_same rfl rfl rfl rfl fun _ h => h
  unfold Event.hear
  split
  · exact Steady.refl x u e
  · split
    · exact Steady.refl x u e
    · simp only
      split
      · exact h1.steady.trans (Event.enterSilent_steady _)
      · rename_i hne
        exact h1.steady.trans (Event.heard_steady order dispatch _ hx fun f hf => hd f (hf ▸ hne))

theorem Event.listenEnds_steady (e : Event) : Steady x u e e.listenEnds := by
  unfold Event.listenEnds
  split
  · rename_i h
    have h1 : Steady x u e (({ e with mc.listenTimer := none } : Event).setMode .operating) :=
      Steady.trans (e' := { e with mc.listenTimer := none })
        (Steady.of_timers rfl rfl rfl rfl rfl rfl rfl)
        (Event.setMode_steady .operating _ (by show e.mc.mode ≠ _; rw [h.1]; decide) (by decide)
          (by decide) (.inr (by show e.mc.mode ≠ _ ∧ e.mc.mode ≠ _; rw [h.1]; decide)))
    refine h1.trans (Calm.steady ?_)
    refine Calm.trans (Calm.trans (Event.forChannels_calm (fun ch e => ?_) _)
      (Event.forChannels_calm (fun ch e => ?_) _)) (Event.oweEval_calm _)
    · unfold Event.startRule
      split
      · refine Event.modCc_calm ch _ e rfl fun h ht => ?_
        show ({ (e.cc.get ch).origins with start := false } : OriginSet) = {}
        rw [h ht]
      · exact Calm.refl x u e
    · unfold Event.actOnOrigins
      split
      · rename_i hst
        split
        · exact Calm.refl x u e
        · exact Event.enterPending_calm ch e (by rw [hst]; rfl)
      · exact Calm.refl x u e
  · exact Steady.refl x u e

theorem Event.isolationEnds_steady (e : Event) : Steady x u e e.isolationEnds := by
  unfold Event.isolationEnds
  split
  · rename_i h; exact Event.enterIsolated_steady e h.1
  · exact Steady.refl x u e

end

/-! ## Time -/

/-- Time changes no state and no status. -/
theorem State.elapse_passes (x u : Prop) (d : Micros) (s : State) (ch : Ch) :
    Passes x u (s.cc.get ch) ((s.elapse d).cc.get ch) (s.it.get ch) ((s.elapse d).it.get ch) := by
  have hc : (s.elapse d).cc.get ch = (s.cc.get ch).elapse d := PerChannel.get_map _ _ _
  have ht : (s.elapse d).it.get ch = (s.it.get ch).elapse d := PerChannel.get_map _ _ _
  rw [hc, ht]
  refine Passes.trans (c' := (s.cc.get ch).elapse d) (t' := s.it.get ch) (Passes.of_state rfl id)
    (Passes.of_tracker Iff.rfl fun h hs => ?_)
  obtain ⟨h1, h2, h3⟩ := h hs
  exact ⟨by show Timer.run d _ = none; rw [h1]; rfl, h2, by show Timer.run d _ = none; rw [h3]; rfl⟩

theorem State.elapse_bypass (d : Micros) (s : State) (ch : Ch) :
    (s.elapse d).mc.bypassTimer.get ch = Timer.run d (s.mc.bypassTimer.get ch) :=
  PerChannel.get_map _ _ _

theorem State.Sound.elapse {R S C : Prop} (d : Micros) {s : State} (h : State.Sound R S C s) :
    State.Sound R S C (s.elapse d) where
  follows ch := (State.elapse_passes True True d s ch).tracker (h.follows ch)
  restful hR ch := (State.elapse_passes True True d s ch).restful (h.follows ch) (h.restful hR ch)
  served hS ch := (State.elapse_passes True True d s ch).served (h.served hS ch)
  offline := by
    obtain ⟨h1, h2, h3⟩ := h.offline
    have hb : ∀ ch, (s.elapse d).mc.bypassTimer.get ch ≠ none → s.mc.bypassTimer.get ch ≠ none := by
      intro ch hn hz
      rw [State.elapse_bypass, hz] at hn; exact hn rfl
    refine ⟨fun hl ch => ?_, fun hu ch => ?_, fun ch ht => ?_⟩
    · rw [State.state_elapse]
      refine ⟨(h1 hl ch).1, ?_⟩
      rw [State.elapse_bypass, (h1 hl ch).2]; rfl
    · rw [State.state_elapse]; exact h2 hu ch
    · rw [State.state_elapse]; exact h3 ch (hb ch ht)
  claims := State.ClaimInv.of_map (s := s) (s' := s.elapse d) (Claim.elapse d) rfl rfl rfl rfl (fun _ => ⟨rfl, rfl, rfl⟩)
    (fun c ht _ => by show Timer.run d c.timer = none; rw [ht]; rfl)
    (fun k => .inl (State.state_elapse d s k)) h.claims

/-! ## Starts, BYPASS, reset and the image -/

theorem Event.startClaimed_cc (ch : Ch) (e : Event) : (e.startClaimed ch).cc = e.cc.set ch
    { Controller.enter (e.record ch).feedbackWindow (.starting .claimed) (e.cc.get ch) with
      inrushTimer := some (e.record ch).inrushWindow } := by
  simp only [Event.startClaimed, Event.modCc_cc, Event.setState_cc, PerChannel.get_set_same,
    PerChannel.set_set, Event.setState_record]

theorem Event.startClaimed_rest (ch : Ch) (e : Event) :
    (e.startClaimed ch).it = e.it ∧ (e.startClaimed ch).mc = e.mc ∧ (e.startClaimed ch).bu = e.bu := by
  refine ⟨?_, ?_, ?_⟩
  · simp only [Event.startClaimed, Event.modCc_it, Event.setState_it]
  · simp only [Event.startClaimed, Event.modCc_mc, Event.setState_mc]
  · simp only [Event.startClaimed, Event.modCc_bu, (Event.setState_kept _ _ _).bu]

/-- An entry of the table after a claim of it has become LIVE. -/
theorem mem_promote {y : Claim} {claims : List Claim} {c : Claim} (h : c ∈ promote y claims) :
    ∃ d ∈ claims, c.key = d.key ∧
      (d.key = y.key ∧ c = { d with status := .live, timer := none } ∨
        d.key ≠ y.key ∧ c = d.dropMarks y.number) := by
  unfold promote at h
  obtain ⟨d, hd, rfl⟩ := List.mem_map.1 h
  refine ⟨d, hd, ?_⟩
  by_cases hk : d.key = y.key
  · rw [if_pos ((Claim.hasKey_iff d y).2 hk)]
    exact ⟨rfl, .inl ⟨hk, rfl⟩⟩
  · rw [if_neg (fun h => hk ((Claim.hasKey_iff d y).1 h))]
    exact ⟨Claim.dropMarks_key _ d, .inr ⟨hk, rfl⟩⟩

theorem mem_promote_self {y : Claim} {claims : List Claim} (h : y ∈ claims) :
    { y with status := .live, timer := none } ∈ promote y claims :=
  List.mem_map.2 ⟨y, h, if_pos ((Claim.hasKey_iff y y).2 rfl)⟩

theorem mem_promote_other {y c : Claim} {claims : List Claim} (h : c ∈ claims) (ho : c.isOwn = true)
    (hk : c.key ≠ y.key) : c ∈ promote y claims := by
  refine List.mem_map.2 ⟨c, h, ?_⟩
  rw [if_neg fun h => hk ((Claim.hasKey_iff c y).1 h), Claim.dropMarks_own ho]

/-- A settled claim becomes LIVE and its channel starts CLAIMED (R87). -/
theorem State.ClaimInv.of_promote {C : Prop} {s s' : State} (y : Claim) (hy : y ∈ s.bu.claims)
    (hp : y.isProvisional = true) (hmc : s'.mc = s.mc) (hcl : s'.bu.claims = promote y s.bu.claims)
    (here : (s'.cc.get y.ch).state = .starting .claimed)
    (other : ∀ k, k ≠ y.ch → (s'.cc.get k).state = (s.cc.get k).state) (h : s.ClaimInv C) :
    s'.ClaimInv C := by
  have ho := Claim.own_of_provisional hp
  -- a PROVISIONAL entry of the new table was one of the old, of another key
  have prov : ∀ c ∈ s'.bu.claims, c.isProvisional = true → c ∈ s.bu.claims ∧ c.key ≠ y.key := by
    intro c hc hq
    obtain ⟨d, hd, hk, ⟨hdk, rfl⟩ | ⟨hdk, rfl⟩⟩ := mem_promote (hcl ▸ hc)
    · exact Bool.noConfusion hq
    · have hdo : d.isOwn = true := (Claim.dropMarks_isOwn _ d).symm.trans (Claim.own_of_provisional hq)
      rw [Claim.dropMarks_own hdo]; exact ⟨hd, hdk⟩
  obtain ⟨h1, h2⟩ := h.provisional
  have chne : ∀ c ∈ s'.bu.claims, c.isProvisional = true → c.ch ≠ y.ch := fun c hc hq he =>
    (prov c hc hq).2 (h2 c (prov c hc hq).1 y hy hq hp he)
  -- an own entry of the new table comes of an own entry of the old, of the same key and channel
  have own : C → ∀ c ∈ s'.bu.claims, c.isOwn = true →
      ∃ d ∈ s.bu.claims, d.isOwn = true ∧ c.key = d.key ∧ c.ch = d.ch ∧
        (d = y ∧ c = { y with status := .live, timer := none } ∨ d.key ≠ y.key ∧ c = d) := by
    intro hC c hc hoc
    obtain ⟨k1, k2, k3, -⟩ := h.keys hC
    obtain ⟨d, hd, hk, ⟨hdk, rfl⟩ | ⟨hdk, rfl⟩⟩ := mem_promote (hcl ▸ hc)
    · have hdo : d.isOwn = true := by
        by_contra hn
        exact k2 d hd (by simpa using hn) ((congrArg Prod.fst hdk).trans (k1 y hy ho))
      obtain rfl := k3 d hd y hy hdo ho hdk
      exact ⟨d, hd, hdo, rfl, rfl, .inl ⟨rfl, rfl⟩⟩
    · have hdo : d.isOwn = true := (Claim.dropMarks_isOwn _ d).symm.trans hoc
      rw [Claim.dropMarks_own hdo]
      exact ⟨d, hd, hdo, rfl, rfl, .inr ⟨hdk, rfl⟩⟩
  constructor
  · refine ⟨fun c hc hq => ?_, fun c hc d hd hq hr he => ?_⟩
    · rw [other _ (chne c hc hq)]; exact h1 c (prov c hc hq).1 hq
    · exact h2 c (prov c hc hq).1 d (prov d hd hr).1 hq hr he
  · intro hC
    obtain ⟨k1, k2, k3, k4⟩ := h.keys hC
    refine ⟨fun c hc hoc => ?_, fun c hc hr => ?_, fun c hc d hd hoc hod hk => ?_, fun hz => ?_⟩
    · obtain ⟨d, hd, hdo, hk, -⟩ := own hC c hc hoc
      rw [hmc, show c.station = d.station from congrArg Prod.fst hk]; exact k1 d hd hdo
    · obtain ⟨d, hd, hk, ⟨-, rfl⟩ | ⟨-, rfl⟩⟩ := mem_promote (hcl ▸ hc)
      · exact Bool.noConfusion hr
      · rw [hmc, show (Claim.dropMarks y.number d).station = d.station from congrArg Prod.fst hk]
        exact k2 d hd ((Claim.dropMarks_isOwn _ d).symm.trans hr)
    · obtain ⟨c', hc', hco, hck, -, hcs⟩ := own hC c hc hoc
      obtain ⟨d', hd', hdo, hdk, -, hds⟩ := own hC d hd hod
      have he := k3 c' hc' d' hd' hco hdo (hck.symm.trans (hk.trans hdk))
      subst he
      rcases hcs with ⟨rfl, rfl⟩ | ⟨hn, rfl⟩ <;> rcases hds with ⟨he, rfl⟩ | ⟨hm, rfl⟩
      · rfl
      · exact absurd rfl hm
      · exact absurd (by rw [he]) hn
      · rfl
    · rw [hmc] at hz
      obtain ⟨hl, hn⟩ := k4 hz
      exact ⟨by rw [hmc]; exact hl, by rw [hcl, hn]; rfl⟩
  · intro hC
    obtain ⟨s1, s2, s3⟩ := h.stand hC
    have kept : ∀ c ∈ s.bu.claims, c.isOwn = true → c.ch ≠ y.ch → c ∈ s'.bu.claims :=
      fun c hc hoc hne => by
        rw [hcl]
        exact mem_promote_other hc hoc fun hk => hne (by rw [h.ch_of_key hC hc hy hoc ho hk])
    refine ⟨fun k hk => ?_, fun k hk => ?_, fun c hc d hd hoc hod he => ?_⟩
    · have hne : k ≠ y.ch := fun hne => by rw [hne, here] at hk; exact absurd hk (by decide)
      obtain ⟨c, hc, hq, rfl⟩ := s1 k (other k hne ▸ hk)
      exact ⟨c, kept c hc (Claim.own_of_provisional hq) hne, hq, rfl⟩
    · by_cases hne : k = y.ch
      · subst hne
        exact ⟨{ y with status := .live, timer := none }, hcl ▸ mem_promote_self hy, rfl, rfl, rfl⟩
      · obtain ⟨c, hc, hl, rfl, ht⟩ := s2 k (other k hne ▸ hk)
        exact ⟨c, kept c hc (Claim.own_of_live hl) hne, hl, rfl, ht⟩
    · obtain ⟨c', hc', hco, hck, hcc, -⟩ := own hC c hc hoc
      obtain ⟨d', hd', hdo, hdk, hdc, -⟩ := own hC d hd hod
      rw [hck, hdk]
      exact s3 c' hc' d' hd' hco hdo (hcc.symm.trans (he.trans hdc))

section
variable {R S C : Prop}

theorem Event.settleEnds_sound (ch : Ch) (e : Event) (h : State.Sound R S C e.toState) :
    State.Sound R S C (e.settleEnds ch).toState := by
  unfold Event.settleEnds
  split
  · rename_i y hy
    obtain ⟨hm, hp, rfl⟩ := State.provisionalOf_some hy
    split
    · generalize he : ({ e with bu.claims := promote y e.bu.claims } : Event) = e1
      have hcc := Event.startClaimed_cc y.ch e1
      obtain ⟨hit, hmc, hbu⟩ := Event.startClaimed_rest y.ch e1
      have hs := Controller.enter_state (e1.record y.ch).feedbackWindow (.starting .claimed)
        (e1.cc.get y.ch)
      have ho := (Controller.enter_rest (e1.record y.ch).feedbackWindow (.starting .claimed)
        (e1.cc.get y.ch)).2.2.2.1
      have hcl := h.claims.provisional.1 y hm hp
      have hcc1 : e1.cc = e.cc := by rw [← he]
      have hit1 : e1.it = e.it := by rw [← he]
      have hmc1 : e1.mc = e.mc := by rw [← he]
      have pass : ∀ k, Passes True True (e.cc.get k) ((e1.startClaimed y.ch).cc.get k) (e.it.get k)
          ((e1.startClaimed y.ch).it.get k) := by
        intro k
        rw [hcc, hit, hit1, hcc1, PerChannel.get_set]
        rw [hcc1] at hs ho
        split
        · rename_i hk; subst hk
          refine Passes.of_move (by rw [hcl]; rfl) (by rw [hcl]; rfl) (fun h => absurd trivial h) ?_
            (fun _ h => h) ?_
          · unfold Tracker.followsState; simp only [hs]; rw [hcl]; exact id
          · unfold Controller.served; simp only [hs]; exact fun _ h => absurd h Bool.noConfusion
        · exact Passes.refl _ _ _ _
      exact
        { follows := fun k => (pass k).tracker (h.follows k)
          offline := h.offline.of_inside (by rw [hmc, hmc1]) (by rw [hmc, hmc1])
            fun k => (pass k).inside
          restful := fun hR k => (pass k).restful (h.follows k) (h.restful hR k)
          served := fun hS k => (pass k).served (h.served hS k)
          claims := h.claims.of_promote y hm hp (hmc.trans hmc1) (by rw [hbu, ← he])
            (by rw [hcc, PerChannel.get_set_same]; exact hs)
            fun k hk => by rw [hcc, PerChannel.state_set_other _ _ _ _ hk, hcc1] }
    · exact h
  · exact h

theorem Event.bypassEnds_sound (ch : Ch) (e : Event) (h : State.Sound R S C e.toState) :
    State.Sound R S C (e.bypassEnds ch).toState := by
  unfold Event.bypassEnds
  split
  · rename_i hd
    obtain ⟨hmode, hoff⟩ := h.offline.2.2 ch (Timer.ne_none_of_due hd)
    generalize he : ({ e with mc.bypassTimer := e.mc.bypassTimer.set ch none } : Event) = e1
    have hcc1 : e1.cc = e.cc := by rw [← he]
    have hmc1 : e1.mc = { e.mc with bypassTimer := e.mc.bypassTimer.set ch none } := by rw [← he]
    have hk := Event.setState_kept ch .bypass e1
    have hcc : ∀ k, k ≠ ch → (e1.setState ch .bypass).cc.get k = e.cc.get k := fun k hk => by
      rw [Event.setState_cc, PerChannel.get_set_other _ hk, hcc1]
    have hst : ((e1.setState ch .bypass).cc.get ch).state = .bypass := by
      rw [Event.setState_cc, PerChannel.get_set_same]; exact Controller.enter_state _ _ _
    have hit : (e1.setState ch .bypass).it = e.it := by rw [Event.setState_it, ← he]
    have hmc : (e1.setState ch .bypass).mc =
        { e.mc with bypassTimer := e.mc.bypassTimer.set ch none } := by rw [Event.setState_mc, hmc1]
    have trackers : ∀ k, ((e1.setState ch .bypass).cc.get k).state.tracked =
        (e.cc.get k).state.tracked := fun k => by
      by_cases hk : k = ch
      · subst hk; rw [hst, hoff]; rfl
      · rw [hcc k hk]
    constructor
    · intro k
      unfold Tracker.followsState
      rw [trackers, hit]; exact h.follows k
    · refine ⟨fun hl => ?_, fun hu k => ?_, fun k ht => ?_⟩
      · rw [hmc] at hl
        rcases hmode with hm | hm <;> exact absurd (hm.symm.trans hl) (by decide)
      · rw [hmc] at hu
        by_cases hk : k = ch
        · subst hk; exact .inr hst
        · rw [hcc k hk]; exact h.offline.2.1 hu k
      · rw [hmc] at ht ⊢
        have hk : k ≠ ch := fun hk => by subst hk; exact ht (PerChannel.get_set_same _ _ _)
        rw [hcc k hk]
        exact h.offline.2.2 k (by rw [PerChannel.get_set_other _ hk] at ht; exact ht)
    · intro hR k; rw [hit]; exact h.restful hR k
    · intro hS k
      by_cases hk : k = ch
      · subst hk; unfold Controller.served; rw [hst]; exact fun h => absurd h (by decide)
      · rw [hcc k hk]; exact h.served hS k
    · refine h.claims.of_same (by rw [hmc]) (by rw [hmc]) (by rw [hmc]) (by rw [hk.bu, ← he])
        fun k => ?_
      by_cases hk : k = ch
      · subst hk; rw [hst, hoff]
        exact .inr ⟨ChState.noConfusion, ChState.noConfusion, ChState.noConfusion⟩
      · rw [hcc k hk]; exact .inl rfl
  · exact h

theorem Event.resetNode_sound (cause : StartCause) (e : Event) :
    State.Sound R S C (e.resetNode cause).toState := by
  have hcc : ∀ ch, (e.resetNode cause).cc.get ch = Controller.reset (e.pins.feedbackClosed.get ch) :=
    fun ch => PerChannel.get_map _ _ _
  have hit : ∀ ch, (e.resetNode cause).it.get ch = Tracker.reset := fun ch => PerChannel.get_all _ _
  have hcl : (e.resetNode cause).bu.claims = [] := rfl
  have hoff : ∀ ch, ((e.resetNode cause).cc.get ch).state = .offline := fun ch => by rw [hcc]; rfl
  have empty : ∀ c ∈ (e.resetNode cause).bu.claims, False := fun c hc => by
    rw [hcl] at hc; exact absurd hc (by simp)
  constructor
  · intro ch
    unfold Tracker.followsState
    rw [hit, hoff]; decide
  · refine ⟨fun _ ch => ⟨hoff ch, PerChannel.get_all _ _⟩, fun _ ch => .inl (hoff ch), fun ch ht => ?_⟩
    exact absurd (PerChannel.get_all _ _) ht
  · intro _ ch; rw [hit]; exact fun _ => ⟨rfl, rfl, rfl⟩
  · intro _ ch; unfold Controller.served; rw [hoff]; exact fun h => absurd h (by decide)
  · refine ⟨⟨fun c hc => (empty c hc).elim, fun c hc => (empty c hc).elim⟩,
      fun _ => ⟨fun c hc => (empty c hc).elim, fun c hc => (empty c hc).elim,
        fun c hc => (empty c hc).elim, fun _ => ⟨rfl, hcl⟩⟩,
      fun _ => ⟨fun ch h => ?_, fun ch h => ?_, fun c hc => (empty c hc).elim⟩⟩
    · rw [hoff] at h; exact absurd h (by decide)
    · rw [hoff] at h; exact absurd h (by decide)

theorem Event.release_sound (adr : BitVec 6) (e : Event) (h : State.Sound R S C e.toState) :
    State.Sound R S C (e.release adr).toState := by
  unfold Event.release
  split
  · rename_i hr
    refine ⟨h.follows, h.offline, h.restful, h.served, ⟨h.claims.provisional, fun hC => ?_,
      h.claims.stand⟩⟩
    obtain ⟨-, -, -, h4⟩ := h.claims.keys hC
    have empty : ∀ c ∈ e.bu.claims, False := fun c hc => by
      rw [(h4 hr).2] at hc; exact absurd hc (by simp)
    exact ⟨fun c hc => (empty c hc).elim, fun c hc => (empty c hc).elim,
      fun c hc => (empty c hc).elim, fun h => absurd h Bool.noConfusion⟩
  · exact h

/-! ## Channel by channel -/

/-- An operation done for each channel in turn: what holds of the node all along (`I`), and of each channel
until its turn comes (`P`). -/
theorem Event.forChannels_induct {I : Event → Prop} {P : Ch → Event → Prop}
    {f : Ch → Event → Event} (step : ∀ ch e, I e → P ch e → I (f ch e))
    (other : ∀ ch k e, k ≠ ch → P k e → P k (f ch e)) (e : Event) (hI : I e)
    (hP : ∀ ch, P ch e) : I (e.forChannels f) := by
  have fold : ∀ (l : List Ch) (e : Event), l.Nodup → I e → (∀ ch ∈ l, P ch e) →
      I (l.foldl (fun e ch => f ch e) e) := by
    intro l
    induction l with
    | nil => exact fun _ _ hI _ => hI
    | cons ch rest ih =>
      intro e hn hI hP
      obtain ⟨hc, hn⟩ := List.nodup_cons.1 hn
      refine ih _ hn (step ch e hI (hP ch (List.mem_cons_self ..))) fun k hk => ?_
      exact other ch k e (fun h => hc (h ▸ hk)) (hP k (List.mem_cons_of_mem _ hk))
  exact fold Ch.all e (by decide) hI fun ch _ => hP ch

theorem Event.enterPending_other (ch k : Ch) (e : Event) (h : k ≠ ch) :
    (e.enterPending ch).cc.get k = e.cc.get k ∧ (e.enterPending ch).it.get k = e.it.get k := by
  obtain ⟨sub, -, hcc, hit, -⟩ := Event.enterPending_spec ch e
  rw [hcc, hit]; exact ⟨PerChannel.get_set_other _ h _, rfl⟩

theorem Event.addOrigin_other (o : Origin) (ch k : Ch) (e : Event) (h : k ≠ ch) :
    (e.addOrigin o ch).cc.get k = e.cc.get k ∧ (e.addOrigin o ch).it.get k = e.it.get k := by
  have hrec : (e.recordOrigin o ch).cc.get k = e.cc.get k := PerChannel.get_set_other _ h _
  have hpend : ((e.recordOrigin o ch).enterPending ch).cc.get k = e.cc.get k ∧
      ((e.recordOrigin o ch).enterPending ch).it.get k = e.it.get k := by
    obtain ⟨h1, h2⟩ := Event.enterPending_other ch k (e.recordOrigin o ch) h
    exact ⟨h1.trans hrec, h2⟩
  unfold Event.addOrigin
  split
  · split
    · exact hpend
    · exact ⟨hrec, rfl⟩
  · split
    · exact hpend
    · exact ⟨hrec, rfl⟩
  all_goals first | exact ⟨hrec, rfl⟩ | exact ⟨rfl, rfl⟩

theorem Event.leaveOffline_other (ch k : Ch) (e : Event) (h : k ≠ ch) :
    (e.leaveOffline ch).cc.get k = e.cc.get k ∧ (e.leaveOffline ch).it.get k = e.it.get k := by
  unfold Event.leaveOffline
  split
  · split
    · obtain ⟨hcc, hit, -⟩ := Event.lock_spec ch .welded e
      rw [hcc, hit]; exact ⟨PerChannel.get_set_other _ h _, rfl⟩
    · have h1 : (e.setState ch .rest).cc.get k = e.cc.get k ∧
          (e.setState ch .rest).it.get k = e.it.get k := by
        rw [Event.setState_cc, Event.setState_it]; exact ⟨PerChannel.get_set_other _ h _, rfl⟩
      obtain ⟨h2, h2'⟩ := Event.addOrigin_other .start ch k (e.setState ch .rest) h
      simp only
      split
      · obtain ⟨h3, h3'⟩ := Event.addOrigin_other .hold ch k
          ((e.setState ch .rest).addOrigin .start ch) h
        exact ⟨h3.trans (h2.trans h1.1), h3'.trans (h2'.trans h1.2)⟩
      · exact ⟨h2.trans h1.1, h2'.trans h1.2⟩
  · exact ⟨rfl, rfl⟩

/-- A channel leaves OFFLINE for a state that is neither energised nor tracked, once an image is accepted. -/
theorem State.Sound.of_leaveOffline {s s' : State} (ch : Ch) (hmode : s.mc.mode = .listening)
    (hoff : (s.cc.get ch).state = .offline) (hmc : s'.mc = s.mc) (hcl : s'.bu.claims = s.bu.claims)
    (hit : s'.it = s.it) (other : ∀ k, k ≠ ch → s'.cc.get k = s.cc.get k)
    (hst : (s'.cc.get ch).state = .rest ∨ ∃ cause, (s'.cc.get ch).state = .locked cause)
    (h : State.Sound R S C s) : State.Sound R S C s' := by
  have hnew : (s'.cc.get ch).state.tracked = false ∧ (s'.cc.get ch).state ≠ .pending .claiming ∧
      (s'.cc.get ch).state ≠ .starting .claimed := by
    rcases hst with hst | ⟨cause, hst⟩ <;> rw [hst] <;>
      exact ⟨rfl, ChState.noConfusion, ChState.noConfusion⟩
  constructor
  · intro k
    by_cases hk : k = ch
    · subst hk
      have := h.follows k
      unfold Tracker.followsState at this ⊢
      rw [hoff] at this
      rw [hnew.1, hit]; exact this
    · rw [hit, other k hk]; exact h.follows k
  · refine ⟨fun hl => ?_, fun hu => ?_, fun k ht => ?_⟩
    · rw [hmc, hmode] at hl; exact absurd hl (by decide)
    · rw [hmc, hmode] at hu; exact absurd hu (by decide)
    · rw [hmc] at ht
      exact absurd (h.offline.noBypass (by rw [hmode]; decide) (by rw [hmode]; decide) k) ht
  · intro hR k; rw [hit]; exact h.restful hR k
  · intro hS k
    by_cases hk : k = ch
    · subst hk; exact fun ht => absurd (hnew.1.symm.trans ht) (by decide)
    · rw [other k hk]; exact h.served hS k
  · refine h.claims.of_same (by rw [hmc]) (by rw [hmc]) (by rw [hmc]) hcl fun k => ?_
    by_cases hk : k = ch
    · subst hk; rw [hoff]; exact .inr ⟨ChState.noConfusion, hnew.2⟩
    · rw [other k hk]; exact .inl rfl

theorem Event.leaveOffline_sound (ch : Ch) (e : Event) (hmode : e.mc.mode = .listening)
    (hoff : (e.cc.get ch).state = .offline) (h : State.Sound R S C e.toState) :
    State.Sound R S C (e.leaveOffline ch).toState ∧ (e.leaveOffline ch).mc.mode = .listening := by
  unfold Event.leaveOffline
  split
  · split
    · obtain ⟨hcc, hit, hmc, hbu, -⟩ := Event.lock_spec ch .welded e
      refine ⟨h.of_leaveOffline ch hmode hoff hmc (by rw [hbu, hoff]; rfl) hit (fun k hk => ?_) ?_,
        by rw [hmc]; exact hmode⟩
      · rw [hcc]; exact PerChannel.get_set_other _ hk _
      · rw [hcc, PerChannel.get_set_same]; exact .inr ⟨_, Controller.enter_state _ _ _⟩
    · have h1 : State.Sound R S C (e.setState ch .rest).toState := by
        refine h.of_leaveOffline ch hmode hoff (Event.setState_mc _ _ _)
          (by rw [(Event.setState_kept _ _ _).bu]) (Event.setState_it _ _ _) (fun k hk => ?_) ?_
        · rw [Event.setState_cc]; exact PerChannel.get_set_other _ hk _
        · rw [Event.setState_cc, PerChannel.get_set_same]; exact .inl (Controller.enter_state _ _ _)
      have h2 : Calm True True (e.setState ch .rest) ((e.setState ch .rest).addOrigin .start ch) :=
        Event.addOrigin_calm _ _ _
      have hm1 : (e.setState ch .rest).mc.mode = .listening := by rw [Event.setState_mc]; exact hmode
      simp only
      split
      · have h3 := h2.trans (Event.addOrigin_calm .hold ch _)
        exact ⟨h3.steady.sound R S C h1, h3.mode.trans hm1⟩
      · exact ⟨h2.steady.sound R S C h1, h2.mode.trans hm1⟩
  · exact ⟨h, hmode⟩

/-- The parts that each block takes of an accepted image. -/
def Event.takeImage (image : Image) (e : Event) : Event :=
  { e with
    mc.image := some image
    mc.listenTimer := some image.listenInterval
    mc.isolationTimer := some image.isolationLimit
    du.peers := image.peerTable e.mc.station
    li.heartbeatTimer := some image.heartbeatPeriod }

theorem Event.acceptImage_eq (image : Image) (e : Event) :
    e.acceptImage image =
      (((e.takeImage image).setMode .listening).noticeNode (.started e.mc.startCause)).forChannels
        Event.leaveOffline := rfl

/-- What a rejected image writes, before the mode. -/
def Event.refuseImage (reason : RejectReason) (record : Nat) (e : Event) : Event :=
  { e with
    mc.reject := some (reason, record)
    mc.bypassTimer := .tabulate fun ch => some (bypassTime e.mc.station ch)
    li.heartbeatTimer := if e.mc.station = 0 then none else some Config.unconfiguredHeartbeat }

theorem Event.rejectImage_eq (reason : RejectReason) (record : Nat) (e : Event) :
    e.rejectImage reason record =
      (((e.refuseImage reason record).setMode .unconfigured).noticeNode
        (.started e.mc.startCause)).noticeNode (.imageRejected record reason) := rfl

theorem Event.acceptImage_sound (image : Image) (e : Event) (hl : e.mc.mode = .loading)
    (hr : e.mc.inReset = false) (h : State.Sound R S C e.toState) :
    State.Sound R S C (e.acceptImage image).toState := by
  obtain ⟨hcc, hit, hbu, hmc, -⟩ := Event.setMode_rest .listening (e.takeImage image)
  have h2 : State.Sound R S C ((e.takeImage image).setMode .listening).toState := by
    refine h.of_mode (s := e.toState) hcc hit (by rw [hbu]; rfl) (by rw [hmc]; rfl) (by rw [hmc]; rfl) (.inr (.inr hr))
      fun _ => ⟨fun hm => ?_, fun hm => ?_, fun ch ht => ?_⟩
    · rw [hmc] at hm; exact Mode.noConfusion hm
    · rw [hmc] at hm; exact Mode.noConfusion hm
    · rw [hmc] at ht; exact absurd (h.offline.1 hl ch).2 ht
  rw [Event.acceptImage_eq]
  refine (Event.forChannels_induct
    (I := fun e => State.Sound R S C e.toState ∧ e.mc.mode = .listening)
    (P := fun ch e => (e.cc.get ch).state = .offline)
    (fun ch e hI hP => Event.leaveOffline_sound ch e hI.2 hP hI.1)
    (fun ch k e hk hP => by rw [(Event.leaveOffline_other ch k e hk).1]; exact hP) _
    ⟨(Event.noticeNode_calm (x := True) (u := True) _ _).steady.sound R S C h2, ?_⟩ fun ch => ?_).1
  · show ((e.takeImage image).setMode .listening).mc.mode = .listening
    rw [hmc]
  · show (((e.takeImage image).setMode .listening).cc.get ch).state = .offline
    rw [hcc]; exact (h.offline.1 hl ch).1

theorem Event.rejectImage_sound (reason : RejectReason) (record : Nat) (e : Event)
    (hl : e.mc.mode = .loading) (hr : e.mc.inReset = false) (h : State.Sound R S C e.toState) :
    State.Sound R S C (e.rejectImage reason record).toState := by
  obtain ⟨hcc, hit, hbu, hmc, -⟩ := Event.setMode_rest .unconfigured (e.refuseImage reason record)
  have hoff : ∀ ch, (((e.refuseImage reason record).setMode .unconfigured).cc.get ch).state =
      .offline := fun ch => by rw [hcc]; exact (h.offline.1 hl ch).1
  have h2 : State.Sound R S C ((e.refuseImage reason record).setMode .unconfigured).toState :=
    h.of_mode (s := e.toState) hcc hit (by rw [hbu]; rfl) (by rw [hmc]; rfl) (by rw [hmc]; rfl) (.inr (.inr hr))
      fun _ => ⟨fun hm => by rw [hmc] at hm; exact Mode.noConfusion hm, fun _ ch => .inl (hoff ch),
        fun ch _ => ⟨.inl (by rw [hmc]), hoff ch⟩⟩
  rw [Event.rejectImage_eq]
  exact (((Event.noticeNode_calm (x := True) (u := True) _ _).trans
    (Event.noticeNode_calm _ _)).steady.sound R S C h2)

theorem Event.imageRead_sound (read : ImageRead) (e : Event) (h : State.Sound R S C e.toState) :
    State.Sound R S C (e.imageRead read).toState := by
  unfold Event.imageRead
  split
  · rename_i hg
    split
    · exact Event.acceptImage_sound _ e hg.1 hg.2 h
    · exact Event.rejectImage_sound _ _ e hg.1 hg.2 h
  · exact h

end

end Sys2Proof.Machine
end

