-- ==== Sys2Proof/Proofs/Steps.lean ====
section
/-! SUPPORT. Every step: the invariant `State.Sound` is kept, and what each channel may do (R8, R24, R30 to
R34, R76). The three statements about all steps. -/

namespace Sys2Proof

/-- The commands whose effects do more to a channel than `Passes` says. -/
def Instr.sudden : Instr → Bool
  | .reset .. | .imageReadComplete .. | .settleExpiry .. | .bypassTimerExpiry .. => true
  | _ => false

/-- An UNLOCK command. -/
def Instr.unlocks : Instr → Bool
  | .unlock .. => true
  | _ => false

end Sys2Proof

namespace Sys2Proof.Machine

theorem Event.release_steady {x u : Prop} (adr : BitVec 6) (e : Event) : Steady x u e (e.release adr) := by
  refine ⟨fun ch => ?_, fun _ _ _ h => Event.release_sound adr e h⟩
  have hcc : (e.release adr).cc = e.cc ∧ (e.release adr).it = e.it := by
    unfold Event.release; split <;> exact ⟨rfl, rfl⟩
  rw [hcc.1, hcc.2]; exact Passes.refl x u _ _

/-- A frame from a command that closes no contactor by itself. -/
theorem Event.hear_steady_of_calm {u : Prop} (order : RejoinOrder) (env : Envelope) (kind : Byte)
    (payload : List Byte) (dispatch : Event → Event) (e : Event)
    (hd : ∀ f : Event, env.sender.toNat ≠ f.mc.station →
      Calm (e.mc.mode ≠ .operating) u f (dispatch f)) :
    Steady (e.mc.mode ≠ .operating) u e (e.hear order env kind payload dispatch) :=
  Event.hear_steady order env kind payload dispatch e (fun h => by rw [h]; decide) hd

/-- The arrival of a frame is heard, and its dispatch closes no contactor and opens no lock but by an
UNLOCK (R161). -/
theorem effectOf_hears (c : Instr) (e : Event) (bytes : List Byte) (hb : commandBytes c = some bytes)
    (hk : ∀ m env kind payload, c = .unknownKindFrame m env kind payload →
      payloadLength? kind.toNat = none ∧ payload.length ≤ 40) :
    ∃ order env kind payload dispatch, bytes = lineBytes env.sender kind env.target payload ∧
      effectOf c e = e.hear order env kind payload dispatch ∧
      ∀ f : Event, env.sender.toNat ≠ f.mc.station →
        Calm (e.mc.mode ≠ .operating) (c.unlocks = true) f (dispatch f) := by
  cases c <;> try exact absurd hb.symm (Option.some_ne_none bytes)
  all_goals obtain rfl := Option.some.inj hb
  case unknownKindFrame m env kind payload =>
    exact ⟨_, env, kind, payload, id, rfl, if_pos (hk m env kind payload rfl), fun f _ => Calm.refl _ _ f⟩
  case stateReceived m env p =>
    exact ⟨_, env, _, _, _, rfl, rfl, fun f _ => Event.takeState_calm env p f⟩
  case phaseReceived m env phase epoch level =>
    exact ⟨_, env, _, _, _, rfl, rfl, fun f _ => Event.takePhaseFrame_calm env phase epoch level f⟩
  case claimReceived m env number channel weight rank =>
    exact ⟨_, env, _, _, _, rfl, rfl, fun f hf => Event.takeClaim_calm env number channel weight rank f hf⟩
  case withdrawReceived m env number =>
    exact ⟨_, env, _, _, _, rfl, rfl, fun f _ => Event.takeEnd_calm env number f⟩
  case releaseReceived m env number =>
    exact ⟨_, env, _, _, _, rfl, rfl, fun f _ => Event.takeEnd_calm env number f⟩
  case callReceived m env p =>
    exact ⟨_, env, _, _, _, rfl, rfl, fun f _ => Event.takeCall_calm p f⟩
  case wake m env channel level =>
    exact ⟨_, env, _, _, _, rfl, rfl,
      fun f _ => Event.command_calm env _ _ _ _ f (Event.judgeWake_calm env channel level f)⟩
  case shed m env channel level =>
    exact ⟨_, env, _, _, _, rfl, rfl,
      fun f _ => Event.command_calm env _ _ _ _ f (Event.judgeShed_calm env channel level f)⟩
  case hold m env target tag level expiry =>
    exact ⟨_, env, _, _, _, rfl, rfl,
      fun f _ => Event.command_calm env _ _ _ _ f (Event.judgeHold_calm env target tag level expiry f)⟩
  case unhold m env target tag level =>
    exact ⟨_, env, _, _, _, rfl, rfl,
      fun f _ => Event.command_calm env _ _ _ _ f (Event.judgeUnhold_calm env target tag level f)⟩
  case unlock m env channel level =>
    exact ⟨_, env, _, _, _, rfl, rfl,
      fun f _ => Event.command_calm env _ _ _ _ f (Event.judgeUnlock_calm rfl env channel level f)⟩
  case replyReceived m env kind channel tag code =>
    exact ⟨_, env, _, _, _, rfl, rfl, fun f _ => Calm.refl _ _ f⟩
  case noticeReceived m env channel code detail1 detail2 =>
    exact ⟨_, env, _, _, _, rfl, rfl, fun f _ => Calm.refl _ _ f⟩

theorem effectOf_steady_of_frame {c : Instr} {e : Event} {bytes : List Byte}
    (hb : commandBytes c = some bytes)
    (hk : ∀ m env kind payload, c = .unknownKindFrame m env kind payload →
      payloadLength? kind.toNat = none ∧ payload.length ≤ 40) :
    Steady (e.mc.mode ≠ .operating) (c.unlocks = true) e (effectOf c e) := by
  obtain ⟨order, env, kind, payload, dispatch, -, heq, hcalm⟩ := effectOf_hears c e bytes hb hk
  rw [heq]
  exact Event.hear_steady_of_calm order env kind payload dispatch e hcalm

/-- What the effects of all but the sudden commands do: a contactor closes outside OPERATING alone, and a
channel leaves LOCKED by an UNLOCK alone. -/
theorem effectOf_steady (c : Instr) (e : Event) (hc : c.sudden = false) :
    Steady (e.mc.mode ≠ .operating) (c.unlocks = true) e (effectOf c e) := by
  cases c
  case reset | imageReadComplete | settleExpiry | bypassTimerExpiry => exact Bool.noConfusion hc
  case resetRelease m adr => exact Event.release_steady adr e
  case feedbackChange m ch closed => exact (Event.feedbackChange_calm ch closed e).steady
  case feedbackMismatch m ch => exact (Event.feedbackMismatch_calm ch e).steady
  case retryTimerExpiry m ch => exact (Event.retryEnds_calm ch e).steady
  case runDownExpiry m ch => exact (Event.runDownExpires_calm ch e).steady
  case inrushExpiry m ch => exact (Event.inrushEnds_calm ch e).steady
  case inrushHoldExpiry m ch => exact (Event.inrushHoldEnds_calm ch e).steady
  case activitySenseChange m ch active => exact (Event.activitySenseChange_calm ch active e).steady
  case activityDebounceExpiry m ch => exact (Event.activityDebounced_calm ch e).steady
  case idleWindowExpiry m ch => exact (Event.idleWindowEnds_calm ch e).steady
  case holdKeyChange m ch on => exact (Event.holdKeyChange_calm ch on e).steady
  case holdKeyDebounceExpiry m ch => exact (Event.holdKeyDebounced_calm ch e).steady
  case wakeButtonChange m ch pressed => exact (Event.wakeButtonChange_calm ch pressed e).steady
  case wakeButtonDebounceExpiry m ch => exact (Event.wakeButtonDebounced_calm ch e).steady
  case callWaitExpiry m ch => exact (Event.callWaitEnds_calm ch e).steady
  case ageTimerExpiry m stations => exact (Event.ageOut_calm stations e).steady
  case claimHoldTimerExpiry m station number => exact (Event.claimHoldEnds_calm station number e).steady
  case overflowTimerExpiry m => exact (Event.overflowEnds_calm e).steady
  case retryGapExpiry m ch => exact (Event.retryGapEnds_calm ch e).steady
  case holdEntryExpiry m entries => exact (Event.holdEntriesExpire_calm entries e).steady
  case listenExpiry m => exact Event.listenEnds_steady e
  case isolationExpiry m => exact Event.isolationEnds_steady e
  case isolationStaggerExpiry m =>
    exact (Event.staggerEnds_steady e fun h => by rcases h with h | h <;> rw [h] <;> decide).1
  case heartbeatExpiry m => exact (Event.heartbeat_calm e).steady
  case lampStep m lamp => exact (Event.lampStep_calm lamp e).steady
  case lineAccessGap m => exact (Event.accessGap_calm e).steady
  case contentionLost m winner => exact (Event.contentionLost_calm winner e).steady
  case frameSent m => exact (Event.frameSent_calm e).steady
  case sendFault m => exact (Event.sendFault_calm e).steady
  case invalidFrame m kind => exact (Event.invalidFrame_calm e).steady
  case unknownKindFrame m env kind payload =>
    show Steady _ _ e (e.unknownKind _ env kind payload)
    unfold Event.unknownKind
    split
    · exact Event.hear_steady_of_calm _ env kind payload id e fun f _ => Calm.refl _ _ f
    · exact Steady.refl _ _ e
  case stateReceived | phaseReceived | claimReceived | withdrawReceived | releaseReceived | callReceived
       | wake | shed | hold | unhold | unlock | replyReceived | noticeReceived =>
    exact effectOf_steady_of_frame rfl fun _ _ _ _ h => nomatch h

/-- What follows from an effect within its event. -/
theorem Event.follows_calm {x u : Prop} (order : List Block) (e : Event) :
    Calm x u e (e.settled.flush order) :=
  (Event.settled_calm e).trans (Event.flush_calm order _)

theorem effectOf_sound {R S C : Prop} (c : Instr) (e : Event) (h : State.Sound R S C e.toState) :
    State.Sound R S C (effectOf c e).toState := by
  by_cases hc : c.sudden = false
  · exact (effectOf_steady c e hc).sound R S C h
  · cases c <;> try exact absurd rfl hc
    case reset m cause => exact Event.resetNode_sound cause e
    case imageReadComplete m read => exact Event.imageRead_sound read e h
    case settleExpiry m ch => exact Event.settleEnds_sound ch e h
    case bypassTimerExpiry m ch => exact Event.bypassEnds_sound ch e h

/-- Every command keeps the invariant. -/
theorem exec_sound {R S C : Prop} (c : Instr) {s t : State} (h : State.Sound R S C s)
    (ht : exec c s = .next t) : State.Sound R S C t := by
  rw [exec_eq] at ht
  obtain rfl := Host.Outcome.next.inj ht
  exact (Event.follows_calm (x := True) (u := True) _ _).steady.sound R S C
    (effectOf_sound c _ (h.elapse c.moment.elapsed))

theorem State.Sound.pending {R S C : Prop} {s : State} (rest : List Instr) (h : State.Sound R S C s) :
    State.Sound R S C { s with pending := rest } := ⟨h.follows, h.offline, h.restful, h.served,
      ⟨h.claims.provisional, h.claims.keys, h.claims.stand⟩⟩

/-- Every step keeps the invariant. -/
theorem step_sound {R S C : Prop} {s t : State} (h : State.Sound R S C s) (ht : step s = .next t) :
    State.Sound R S C t := by
  unfold step at ht
  split at ht
  · exact exec_sound _ (h.pending _) ht
  · obtain rfl := Host.Outcome.next.inj ht
    exact h

/-- Settles O57: each effect keeps `State.Sound`, whose parts asked for are the premises of the parts. -/
theorem everyStepKeepsTheChannelsSound : Obligations.EveryStepKeepsTheChannelsSound := by
  unfold Obligations.EveryStepKeepsTheChannelsSound
  intro s t hs ht
  have base := (State.channelsSound_iff s).1 hs
  have claims : s.claimTableSound → s.claimsStand → s.ClaimInv True := fun hk hc =>
    ⟨base.claims.provisional, fun _ => State.ownKeysSound_of_claimTableSound hk, fun _ => hc⟩
  refine ⟨(State.channelsSound_iff t).2 (step_sound base ht), fun hr => ?_, fun ho => ?_,
    fun hk hc => ?_⟩
  · have hs' : State.Sound True False False s :=
      ⟨base.follows, base.offline, fun _ => hr, False.elim, base.claims⟩
    exact (step_sound hs' ht).restful trivial
  · have hs' : State.Sound False True False s :=
      ⟨base.follows, base.offline, False.elim, fun _ => ho, base.claims⟩
    exact (step_sound hs' ht).served trivial
  · have hs' : State.Sound False False True s :=
      ⟨base.follows, base.offline, False.elim, False.elim, claims hk hc⟩
    exact (step_sound hs' ht).claims.stand trivial

end Sys2Proof.Machine
end

