-- ==== Sys2Proof/Proofs/Joins.lean ====
section
/-! SUPPORT. What the joining of an event's frames can reach: an induction over its operations. A LIVE claim
stays in the table in it (R76), and the statement that a contactor closes for such a claim alone (R24, R78). -/

namespace Sys2Proof.Machine

theorem foldl_induct {α β : Type} {P : β → Prop} {f : β → α → β} (h : ∀ b a, P b → P (f b a))
    (l : List α) (b : β) (hb : P b) : P (l.foldl f b) := by
  induction l generalizing b with
  | nil => exact hb
  | cons a rest ih => exact ih _ (h b a hb)

/-! ## A claim that fits conflicts with none (R78, R84) -/

theorem weightSum_filter_add {p : Claim → Bool} {l : List Claim} {x : Claim} (hx : x ∈ l)
    (hp : p x = false) : weightSum (l.filter p) + x.weight ≤ weightSum l := by
  have cons : ∀ (c : Claim) (l : List Claim), weightSum (c :: l) = c.weight + weightSum l :=
    fun c l => by unfold weightSum; rw [List.map_cons, List.sum_cons]
  have filtered : ∀ l : List Claim, weightSum (l.filter p) ≤ weightSum l := by
    intro l
    induction l with
    | nil => exact Nat.le_refl _
    | cons c l ih =>
      rw [List.filter_cons, cons]
      split
      · rw [cons]; omega
      · omega
  induction l with
  | nil => exact absurd hx List.not_mem_nil
  | cons c l ih =>
    rw [List.filter_cons, cons]
    rcases List.mem_cons.1 hx with rfl | hx
    · rw [hp, if_neg Bool.noConfusion]
      have := filtered l
      omega
    · have := ih hx
      split
      · rw [cons]; omega
      · omega

theorem not_outranks_self (station : Nat) {x : Claim} (h : x.isProvisional = true) :
    outranks station x x = false := by
  unfold Claim.isProvisional at h
  unfold outranks
  split at h
  · rename_i hs; rw [hs]; simp [ranksAbove]
  · exact Bool.noConfusion h

/-- Where all claims fit in the budget none is withdrawn for a conflict. -/
theorem Event.conflictCheck_of_fits (e : Event) (h : weightSum e.bu.claims ≤ e.plantBudget) :
    e.conflictCheck = e := by
  unfold Event.conflictCheck Event.forProvisional
  refine foldl_induct (P := fun e' => e' = e) (fun e' p he => ?_) _ e rfl
  subst he
  split
  · rename_i x hx
    obtain ⟨hm, hp, -⟩ := State.provisionalOf_some hx
    split
    · refine if_neg (Nat.not_lt.2 (Nat.le_trans ?_ h))
      exact weightSum_filter_add hm (not_outranks_self _ hp)
    · rfl
  · rfl

theorem Event.openClaim_weight (ch : Ch) (e : Event) :
    weightSum (e.openClaim ch).bu.claims = weightSum e.bu.claims + (e.record ch).weight := by
  have hmark : ∀ (n : Nat) (l : List Claim), (l.map (Claim.addMark n .before)).map Claim.weight =
      l.map Claim.weight := fun n l => by
    rw [List.map_map]
    refine List.map_congr_left fun c _ => ?_
    unfold Function.comp Claim.addMark
    split <;> rfl
  unfold weightSum
  rw [Event.openClaim_bu, List.map_append, hmark, List.sum_append]
  rfl

/-- The creation of a claim withdraws none. -/
theorem Event.createClaim_of_claimable {e : Event} {ch : Ch} (h : e.claimable ch = true) :
    e.createClaim ch = e.openClaim ch := by
  rw [Event.createClaim_eq]
  refine Event.conflictCheck_of_fits _ ?_
  have hfit : weightSum e.bu.claims + (e.record ch).weight ≤ e.plantBudget := by
    unfold State.claimable at h
    exact of_decide_eq_true (Bool.and_eq_true_iff.1 h).2
  rw [Event.openClaim_weight]
  unfold State.plantBudget at hfit ⊢
  rw [(Event.openClaim_rest ch e).2.2.1]
  exact hfit

/-- `P` is kept by every operation of the joining of frames: a frame joins the queue, what the event owes
changes, a claim is created. No claim is withdrawn in it: one is created only where it fits in the budget. -/
structure KeptByJoins (P : Event → Prop) : Prop where
  enqueue : ∀ (f : Frame) (e : Event), P e → P (e.enqueue f)
  out : ∀ (e : Event) (o : Outbox), P e → P { e with out := o }
  full : ∀ (e : Event) (b : Bool), P e → P { e with bu.fullAtEval := b }
  claim : ∀ (ch : Ch) (e : Event), e.claimable ch = true → P e → P (e.openClaim ch)

section
variable {P : Event → Prop} (k : KeptByJoins P)

include k

theorem KeptByJoins.enqueueAll (fs : List Frame) (e : Event) (h : P e) : P (e.enqueueAll fs) :=
  foldl_induct (fun e f => k.enqueue f e) fs e h

theorem KeptByJoins.evaluateBudget (e : Event) (h : P e) : P e.evaluateBudget := by
  unfold Event.evaluateBudget
  refine k.full _ _ (foldl_induct (fun e p h => ?_) _ _ (k.out e _ h))
  split
  · rename_i hc
    rw [Event.createClaim_of_claimable hc.2]
    exact k.claim p.2 e hc.2 h
  · exact h

theorem KeptByJoins.payBudget (e : Event) (h : P e) : P e.payBudget := by
  unfold Event.payBudget
  split
  · exact k.enqueue _ _ (k.out e _ h)
  · split
    · exact k.evaluateBudget e h
    · exact h

theorem KeptByJoins.payState (e : Event) (h : P e) : P e.payState := by
  unfold Event.payState
  split
  · exact k.enqueue _ _ (k.out e _ h)
  · exact h

theorem KeptByJoins.drainBudget (n : Nat) (e : Event) (h : P e) : P (e.drainBudget n) := by
  induction n generalizing e with
  | zero => exact h
  | succ n ih =>
    unfold Event.drainBudget
    split
    · exact h
    · have h1 := k.enqueueAll e.out.budget _ (k.out e { e.out with budget := [] } h)
      simp only
      split
      · exact ih _ (k.evaluateBudget _ h1)
      · exact ih _ h1

theorem KeptByJoins.next (d : Ending) (b : Block) (h : P d.ev) : P (d.next b).ev := by
  cases b <;> unfold Ending.next <;> simp only
  case iu | du | cu =>
    split
    · exact k.enqueue _ _ h
    · exact h
  case bu => exact k.payBudget _ h
  case li => exact k.payState _ h

theorem KeptByJoins.flush (order : List Block) (e : Event) (h : P e) : P (e.flush order) := by
  have h1 : P (order.foldl Ending.next ⟨e, e.out.allNotices, e.out.allCalls, e.out.replies⟩).ev :=
    foldl_induct (P := fun d : Ending => P d.ev) (fun d b => k.next d b) order _ h
  exact k.payState _ (k.enqueueAll _ _ (k.drainBudget _ _ (k.enqueueAll _ _ (k.enqueueAll _ _ h1))))

end

/-! ## LIVE claims -/

/-- A LIVE claim stands in the table, and no two own claims have one key. -/
def State.standsLive (y : Claim) (s : State) : Prop :=
  y ∈ s.bu.claims ∧ y.isLive = true ∧
    ∀ c ∈ s.bu.claims, ∀ d ∈ s.bu.claims, c.isOwn = true → d.isOwn = true → c.key = d.key → c = d

theorem Event.withdraw_claims (x : Claim) (e : Event) :
    (e.withdraw x).bu.claims = (e.removeProvisional x).bu.claims := by
  unfold Event.withdraw
  simp only
  split
  · rw [(Event.setState_kept _ _ _).bu]; rfl
  · rfl

theorem Event.openClaim_standsLive {y : Claim} (ch : Ch) (e : Event) (hc : e.claimable ch = true)
    (h : e.standsLive y) : (e.openClaim ch).standsLive y := by
  obtain ⟨hm, hl, hd⟩ := h
  obtain ⟨-, -, -, hroom⟩ := State.claimable_iff hc
  have own := fun c (ho : c.isOwn = true) => Event.openClaim_own ch e c ho
  have fresh : ∀ c ∈ e.bu.claims, c.isOwn = true → c.key ≠ (e.newClaim ch).key := fun c hm ho hk =>
    State.claimNumber_fresh e.toState hroom c hm ho (congrArg Prod.snd hk)
  refine ⟨(own y (Claim.own_of_live hl)).2 (.inl hm), hl, fun c hc d hd' ho ho' hk => ?_⟩
  rcases (own c ho).1 hc with hc | rfl <;> rcases (own d ho').1 hd' with hd' | rfl
  · exact hd c hc d hd' ho ho' hk
  · exact absurd hk (fresh c hc ho)
  · exact absurd hk.symm (fresh d hd' ho')
  · rfl

theorem standsLive_keptByJoins (y : Claim) : KeptByJoins fun e => e.standsLive y where
  enqueue f e h := by
    unfold State.standsLive; rw [(Event.enqueue_rest f e).2.2.2.1]; exact h
  out _ _ h := h
  full _ _ h := h
  claim := Event.openClaim_standsLive

/-- A LIVE claim that stands when an effect has been taken stands when the command has ended. -/
theorem Event.follows_standsLive {y : Claim} (order : List Block) (e : Event) (h : e.standsLive y) :
    (e.settled.flush order).standsLive y := by
  refine (standsLive_keptByJoins y).flush order _ ?_
  unfold State.standsLive
  rw [(Event.settled_follows e).kept.bu]; exact h

theorem promote_keys (y : Claim) (claims : List Claim) :
    (promote y claims).map Claim.key = claims.map Claim.key := by
  unfold promote
  rw [List.map_map]
  refine List.map_congr_left fun c _ => ?_
  simp only [Function.comp]
  split
  · rfl
  · exact Claim.dropMarks_key _ c

theorem elapse_keys (d : Micros) (s : State) :
    (s.elapse d).bu.claims.map Claim.key = s.bu.claims.map Claim.key := by
  show (s.bu.claims.map (Claim.elapse d)).map Claim.key = _
  rw [List.map_map]; rfl

/-- What a SETTLE_EXPIRY does that does anything. -/
theorem Event.settleEnds_cases (ch : Ch) (e : Event) : e.settleEnds ch = e ∨
    ∃ y ∈ e.bu.claims, y.isProvisional = true ∧ y.ch = ch ∧ Timer.due y.timer = true ∧
      e.settleEnds ch = ({ e with bu.claims := promote y e.bu.claims } : Event).startClaimed ch := by
  unfold Event.settleEnds
  split
  · rename_i y hy
    obtain ⟨hm, hp, hch⟩ := State.provisionalOf_some hy
    split
    · rename_i hd; exact .inr ⟨y, hm, hp, hch, hd, rfl⟩
    · exact .inl rfl
  · exact .inl rfl

/-- A start on a settled claim: its channel is CLAIMED with a LIVE claim, the others are as they were. -/
theorem Event.startClaimed_spec (ch : Ch) (e : Event) :
    ((e.startClaimed ch).cc.get ch).state = .starting .claimed ∧
      (∀ k, k ≠ ch → (e.startClaimed ch).cc.get k = e.cc.get k) := by
  rw [Event.startClaimed_cc]
  refine ⟨?_, fun k hk => PerChannel.get_set_other _ hk _⟩
  rw [PerChannel.get_set_same]; exact Controller.enter_state _ _ _

theorem Event.settleEnds_closes (ch k : Ch) (e : Event) (hn : (e.bu.claims.map Claim.key).Nodup) :
    (e.settleEnds ch).cc.get k = e.cc.get k ∨
      ((e.settleEnds ch).cc.get k).state = .starting .claimed ∧
      ∃ y, y.ch = k ∧ (e.settleEnds ch).standsLive y := by
  rcases Event.settleEnds_cases ch e with h | ⟨y, hm, -, rfl, -, h⟩ <;> rw [h]
  · exact .inl rfl
  · obtain ⟨hs, ho⟩ := Event.startClaimed_spec y.ch { e with bu.claims := promote y e.bu.claims }
    by_cases hk : k = y.ch
    · subst hk
      refine .inr ⟨hs, { y with status := .live, timer := none }, rfl, ?_⟩
      unfold State.standsLive
      rw [(Event.startClaimed_rest _ _).2.2]
      refine ⟨mem_promote_self hm, rfl, fun c hc d hd _ _ he => ?_⟩
      exact List.inj_on_of_nodup_map (by rw [promote_keys]; exact hn) hc hd he
    · exact .inl (ho k hk)

/-! ## Contactors close, and locks open -/

theorem State.coilDrive_iff (s : State) (ch : Ch) :
    s.coilDrive ch = true ↔ s.mc.mode ≠ .loading ∧ (s.cc.get ch).state.energised = true := by
  unfold State.coilDrive; rw [Bool.and_eq_true, decide_eq_true_eq]

/-- Settles O7, along the states. -/
theorem coilDriveFollowsTheState : Obligations.CoilDriveFollowsTheState := by
  unfold Obligations.CoilDriveFollowsTheState
  intro s ch
  rw [State.coilDrive_iff]
  refine and_congr_right fun _ => ?_
  cases (s.cc.get ch).state <;> simp [ChState.energised]

/-- The effect of a command in OPERATING closes a contactor for a CLAIMED start alone, whose claim stands
LIVE. -/
theorem effectOf_closes (c : Instr) (e : Event) (ch : Ch) (hs : State.Sound False False False e.toState)
    (hk : (e.bu.claims.map Claim.key).Nodup) (hm : e.mc.mode = .operating)
    (ho : (e.cc.get ch).state.energised = false)
    (hd : ((effectOf c e).cc.get ch).state.energised = true) (hl : (effectOf c e).mc.mode ≠ .loading) :
    ((effectOf c e).cc.get ch).state = .starting .claimed ∧
      ∃ y, y.ch = ch ∧ (effectOf c e).standsLive y := by
  have same : (effectOf c e).cc.get ch = e.cc.get ch → False := fun h => by
    rw [h, ho] at hd; exact Bool.noConfusion hd
  by_cases hc : c.sudden = false
  · have hx := ((effectOf_steady c e hc).channels ch).closes (fun h => h hm) hd
    rw [ho] at hx; exact Bool.noConfusion hx
  · cases c <;> try exact absurd rfl hc
    case reset m cause => exact absurd rfl hl
    case imageReadComplete m read =>
      have hi : e.imageRead read = e := by
        unfold Event.imageRead; exact if_neg fun h => by rw [hm] at h; exact Mode.noConfusion h.1
      exact (same (congrArg (fun e : Event => e.cc.get ch) hi)).elim
    case settleExpiry m k => exact (Event.settleEnds_closes k ch e hk).resolve_left fun h => same h
    case bypassTimerExpiry m k =>
      have hb : e.bypassEnds k = e := by
        unfold Event.bypassEnds
        refine if_neg fun h => Timer.ne_none_of_due h ?_
        exact hs.offline.noBypass (by rw [hm]; decide) (by rw [hm]; decide) k
      exact (same (congrArg (fun e : Event => e.cc.get ch) hb)).elim

/-- What follows from an effect closes no contactor. -/
theorem Event.follows_energised (order : List Block) (e : Event) (ch : Ch)
    (h : ((e.settled.flush order).cc.get ch).state.energised = true) :
    (e.cc.get ch).state.energised = true :=
  ((Event.follows_calm (x := False) (u := False) order e).channels ch).closes id h

/-- Settles O59: a contactor closes in OPERATING by SETTLE_EXPIRY alone, on a claim it makes LIVE, which
nothing in the rest of the event removes. -/
theorem noStartWithoutALiveClaim : Obligations.NoStartWithoutALiveClaim := by
  unfold Obligations.NoStartWithoutALiveClaim
  intro s t ch hs hclaims hm ht hoff hon
  have hoff' : (s.cc.get ch).state.energised = false := by
    by_contra h
    have := (State.coilDrive_iff s ch).2 ⟨by rw [hm]; decide, by simpa using h⟩
    rw [hoff] at this; exact Bool.noConfusion this
  obtain ⟨hl, hen⟩ := (State.coilDrive_iff t ch).1 hon
  unfold step at ht
  split at ht
  · rename_i c rest _
    rw [exec_eq] at ht
    obtain rfl := Host.Outcome.next.inj ht
    generalize he : State.begin c.moment { s with pending := rest } = e at hl hen ⊢
    have hsound : State.Sound False False False e.toState := by
      rw [← he]; exact (((State.channelsSound_iff s).1 hs).pending rest).elapse c.moment.elapsed
    have hkeys : (e.bu.claims.map Claim.key).Nodup := by
      rw [← he]
      exact (elapse_keys c.moment.elapsed { s with pending := rest }).symm ▸ hclaims.2.1
    have hmode : (effectOf c e).mc.mode ≠ .loading := by
      intro h
      exact hl ((Event.follows_calm (x := False) (u := False) c.moment.order _).mode.trans h)
    obtain ⟨hst, y, hy, hlive⟩ := effectOf_closes c e ch hsound hkeys (by rw [← he]; exact hm)
      (by rw [← he]; exact (congrArg ChState.energised (State.state_elapse _ _ ch)).trans hoff')
      (Event.follows_energised c.moment.order _ ch hen) hmode
    obtain ⟨hin, hlv, -⟩ := Event.follows_standsLive c.moment.order _ hlive
    refine ⟨?_, y, hin, hlv, hy⟩
    rw [(Event.took c.moment.order (effectOf c e)).code_kept ch (by rw [hst]; rfl), hst]
  · obtain rfl := Host.Outcome.next.inj ht
    rw [hoff] at hon; exact Bool.noConfusion hon

/-- The effect of a command that is no UNLOCK and no reset leaves a LOCKED channel in its state. -/
theorem effectOf_locked (c : Instr) (e : Event) (ch : Ch) (hs : State.Sound False False False e.toState)
    (hu : c.unlocks = false) (hr : ∀ m k, c ≠ .reset m k) (hl : (e.cc.get ch).state.isLocked = true) :
    ((effectOf c e).cc.get ch).state = (e.cc.get ch).state := by
  by_cases hc : c.sudden = false
  · exact ((effectOf_steady c e hc).channels ch).locked (by rw [hu]; exact Bool.noConfusion) hl
  · cases c <;> try exact absurd rfl hc
    case reset m cause => exact absurd rfl (hr m cause)
    case imageReadComplete m read =>
      have hi : e.imageRead read = e := by
        unfold Event.imageRead
        refine if_neg fun h => ?_
        rw [(hs.offline.1 h.1 ch).1] at hl; exact Bool.noConfusion hl
      exact congrArg (fun e : Event => (e.cc.get ch).state) hi
    case settleExpiry m k =>
      show ((e.settleEnds k).cc.get ch).state = _
      rcases Event.settleEnds_cases k e with h | ⟨y, hm, hp, rfl, -, h⟩ <;> rw [h]
      have hne : ch ≠ y.ch := fun hne => by
        rw [hne, hs.claims.provisional.1 y hm hp] at hl; exact Bool.noConfusion hl
      rw [(Event.startClaimed_spec y.ch _).2 ch hne]
    case bypassTimerExpiry m k =>
      show ((e.bypassEnds k).cc.get ch).state = _
      unfold Event.bypassEnds
      split
      · rename_i hd
        have hne : ch ≠ k := fun hne => by
          rw [hne, (hs.offline.2.2 k (Timer.ne_none_of_due hd)).2] at hl; exact Bool.noConfusion hl
        rw [Event.setState_cc, PerChannel.state_set_other _ _ _ _ hne]
      · rfl

/-- Settles O60: no effect but an UNLOCK's and a reset's takes a channel from LOCKED, and nothing that
follows does. -/
theorem lockedUntilUnlockOrReset : Obligations.LockedUntilUnlockOrReset := by
  unfold Obligations.LockedUntilUnlockOrReset
  intro s t ch cause c rest hs hst hp hr hu ht
  rw [step_cons s c rest hp, exec_eq] at ht
  obtain rfl := Host.Outcome.next.inj ht
  generalize he : State.begin c.moment { s with pending := rest } = e
  have hsound : State.Sound False False False e.toState := by
    rw [← he]; exact (((State.channelsSound_iff s).1 hs).pending rest).elapse c.moment.elapsed
  have hst' : (e.cc.get ch).state = .locked cause := by
    rw [← he]; exact (State.state_elapse _ _ ch).trans hst
  have hun : c.unlocks = false := by
    cases c <;> first | rfl | exact absurd rfl (hu _ _ _ _)
  have hl := effectOf_locked c e ch hsound hun hr (by rw [hst']; rfl)
  rw [(Event.took c.moment.order (effectOf c e)).code_kept ch (by rw [hl, hst']; rfl), hl, hst']

end Sys2Proof.Machine
end

