-- ==== Sys2Proof/Proofs/Settle.lean ====
section
/-! SUPPORT. What follows from an event inside it: an induction over its operations, as `KeptByJoins` is for
the joining of frames. What has been noticed stays noticed, a channel that may enter COAST does, and a channel
that no load needs is left alone. -/

namespace Sys2Proof.Machine

/-! ## What the operations of a channel leave of the outbox -/

/-- No channel's notice and no standing call is added or lost. -/
def Event.unnoticed (e e' : Event) : Prop :=
  e'.out.notices = e.out.notices ∧ e'.out.standingDue = e.out.standingDue

theorem Event.unnoticed_refl (e : Event) : e.unnoticed e := ⟨rfl, rfl⟩

theorem Event.unnoticed.trans {a b c : Event} (h : a.unnoticed b) (k : b.unnoticed c) : a.unnoticed c :=
  ⟨k.1.trans h.1, k.2.trans h.2⟩

theorem Event.setState_unnoticed (ch : Ch) (st : ChState) (e : Event) :
    e.unnoticed (e.setState ch st) := by
  unfold Event.setState; split <;> exact ⟨rfl, rfl⟩

theorem Event.wakeStagger_unnoticed (e : Event) : e.unnoticed e.wakeStagger := by
  have h := (Event.wakeStagger_rest e).2.2.2.2
  exact ⟨by rw [h], by rw [h]⟩

theorem Event.enterPending_unnoticed (ch : Ch) (e : Event) : e.unnoticed (e.enterPending ch) := by
  unfold Event.enterPending
  simp only
  refine Event.unnoticed.trans ?_ (Event.wakeStagger_unnoticed _)
  split <;> exact Event.setState_unnoticed ch _ (e.modCc ch Controller.forPending)

theorem Event.addOrigin_unnoticed (o : Origin) (ch : Ch) (e : Event) : e.unnoticed (e.addOrigin o ch) := by
  have hrec : e.unnoticed (e.recordOrigin o ch) := ⟨rfl, rfl⟩
  have hpend : e.unnoticed ((e.recordOrigin o ch).enterPending ch) :=
    hrec.trans (Event.enterPending_unnoticed ch _)
  unfold Event.addOrigin
  split
  · split
    · exact hpend
    · exact hrec
  · split
    · exact hpend
    · exact hrec
  all_goals exact ⟨rfl, rfl⟩

theorem Event.runDownEnds_unnoticed (ch : Ch) (e : Event) : e.unnoticed (e.runDownEnds ch) := by
  unfold Event.runDownEnds
  simp only
  split
  · exact Event.setState_unnoticed ch _ (e.modCc ch fun c => { c with runDownTimer := none })
  · exact Event.enterPending_unnoticed ch (e.modCc ch fun c => { c with runDownTimer := none })

theorem Event.enterCoast_unnoticed (ch : Ch) (e : Event) : e.unnoticed (e.enterCoast ch) := by
  have h : e.unnoticed (e.beginCoast ch) := Event.setState_unnoticed ch .coast e
  rw [Event.enterCoast_eq]
  split
  · exact h.trans (Event.runDownEnds_unnoticed ch _)
  · exact h

/-! ## The induction -/

/-- The end of CALLING (R59). -/
def Event.endCalling (ch : Ch) (e : Event) : Event :=
  (e.setState ch (.pending .budget)).setCallWait ch none

/-- The outbox holds every notice of a channel that it held. -/
def Outbox.grows (o o' : Outbox) : Prop := ∀ ch, ∀ f ∈ o.notices.get ch, f ∈ o'.notices.get ch

theorem Outbox.grows_of_same {o o' : Outbox} (h : o'.notices = o.notices) : o.grows o' := fun ch f hf => by
  rw [h]; exact hf

/-- `P` is kept by every operation of what follows from an event: the watch marks and the outbox change, a
load that a channel needs is called, a channel ends CALLING, a WAITING channel enters COAST. -/
structure KeptBySettle (P : Event → Prop) : Prop where
  out : ∀ (e : Event) (o : Outbox), e.out.grows o → P e → P { e with out := o }
  marks : ∀ (e : Event) (m : PerChannel (List Ref)), P e → P { e with du.marks := m }
  call : ∀ (ch k : Ch) (r : Ref) (e : Event), r ∈ (e.record k).needs → e.localCh? r = some ch → P e →
    P (e.addOrigin .call ch)
  endCalling : ∀ (ch : Ch) (e : Event), (e.cc.get ch).state = .pending .calling → P e →
    P (e.endCalling ch)
  coast : ∀ (ch : Ch) (e : Event), (e.cc.get ch).state = .waiting → P e → P (e.enterCoast ch)

/-- The standing calls owed are to loads that their channels need. -/
def Event.duesNeeded (e : Event) : Prop :=
  ∀ k, ∀ r ∈ e.out.standingDue.get k, r ∈ (e.record k).needs

theorem Event.duesNeeded_of_none {e : Event} (h : e.out.standingDue = .all []) : e.duesNeeded := by
  intro k r hr
  rw [h, PerChannel.get_all] at hr
  exact absurd hr (by simp)

theorem Event.duesNeeded.of_follows {e e' : Event} (hd : e.duesNeeded) (h : Follows e e')
    (hn : e.unnoticed e') : e'.duesNeeded := fun k r hr => by
  rw [h.kept.record]; rw [hn.2] at hr; exact hd k r hr

theorem Event.duesNeeded.of_out {e : Event} (hd : e.duesNeeded) (o : Outbox)
    (h : ∀ k, ∀ r ∈ o.standingDue.get k, r ∈ e.out.standingDue.get k ∨ r ∈ (e.record k).needs) :
    Event.duesNeeded { e with out := o } := fun k r hr =>
  (h k r hr).elim (hd k r) id

section
variable {P : Event → Prop} (k : KeptBySettle P)

include k

theorem KeptBySettle.localCalls (c : Ch) (refs : List Ref) (e : Event)
    (hr : ∀ r ∈ refs, r ∈ (e.record c).needs) (h : P e) (hd : e.duesNeeded) :
    P (e.localCalls refs) ∧ (e.localCalls refs).duesNeeded := by
  induction refs generalizing e with
  | nil => exact ⟨h, hd⟩
  | cons r rest ih =>
    show P ((e.localCall r).localCalls rest) ∧ ((e.localCall r).localCalls rest).duesNeeded
    have hf := Event.localCall_follows r e
    refine ih _ (fun q hq => ?_) ?_ ?_
    · rw [hf.kept.record]; exact hr q (List.mem_cons_of_mem _ hq)
    · unfold Event.localCall
      split
      · rename_i ch hl; exact k.call ch c r e (hr r (List.mem_cons_self ..)) hl h
      · exact h
    · refine hd.of_follows hf ?_
      unfold Event.localCall
      split
      · exact Event.addOrigin_unnoticed _ _ _
      · exact Event.unnoticed_refl e

theorem KeptBySettle.out_same (e : Event) (o : Outbox) (hn : o.notices = e.out.notices)
    (hs : ∀ c, ∀ r ∈ o.standingDue.get c, r ∈ e.out.standingDue.get c ∨ r ∈ (e.record c).needs)
    (h : P e ∧ e.duesNeeded) :
    P { e with out := o } ∧ Event.duesNeeded { e with out := o } :=
  ⟨k.out e o (Outbox.grows_of_same hn) h.1, h.2.of_out o hs⟩

theorem KeptBySettle.callFrame (c : Ch) (targets : List Ref) (e : Event) (h : P e ∧ e.duesNeeded) :
    P (e.callFrame c targets) ∧ (e.callFrame c targets).duesNeeded := by
  unfold Event.callFrame
  split
  · exact h
  · exact k.out_same e _ rfl (fun _ _ hr => .inl hr) h

theorem KeptBySettle.payCall (c : Ch) (e : Event) (h : P e ∧ e.duesNeeded) :
    P (e.payCall c) ∧ (e.payCall c).duesNeeded := by
  unfold Event.payCall
  split
  · have h1 := k.out_same e { e.out with callDue := e.out.callDue.set c false } rfl
      (fun _ _ hr => .inl hr) h
    simp only
    split
    · unfold Event.makeCall
      generalize ({ e with out.callDue := e.out.callDue.set c false } : Event) = e1 at h1 ⊢
      have h2 := k.callFrame c ((e1.unavailable c).filter fun r => !e1.isLocal r) e1 h1
      refine k.localCalls c _ _ (fun r hr => ?_) h2.1 h2.2
      rw [(Event.callFrame_follows c _ e1).kept.record]
      exact (List.mem_filter.1 hr).1
    · exact h1
  · exact h

theorem KeptBySettle.payStanding (c : Ch) (e : Event) (h : P e ∧ e.duesNeeded) :
    P (e.payStanding c) ∧ (e.payStanding c).duesNeeded := by
  have h1 := k.out_same e { e.out with standingDue := e.out.standingDue.set c [] } rfl (fun d r hr => by
    rw [PerChannel.get_set] at hr
    split at hr
    · exact absurd hr (by simp)
    · exact .inl hr) h
  exact k.localCalls c _ _ (fun r hr => h.2 c r hr) h1.1 h1.2

theorem KeptBySettle.noticeAll (c : Ch) (refs : List Ref) (e : Event) (h : P e ∧ e.duesNeeded) :
    P (refs.foldl (fun e r => e.noticeCh c (.providerLost c r)) e) ∧
      (refs.foldl (fun e r => e.noticeCh c (.providerLost c r)) e).duesNeeded := by
  refine foldl_induct (P := fun e => P e ∧ e.duesNeeded) (fun e r h => ?_) refs e h
  refine ⟨k.out e _ (fun d f hf => ?_) h.1, h.2.of_out _ fun _ _ hr => .inl hr⟩
  show f ∈ (e.out.notices.set c _).get d
  rw [PerChannel.get_set]
  split
  · rename_i hd; subst hd; exact List.mem_append_left _ hf
  · exact hf

theorem KeptBySettle.watch (c : Ch) (e : Event) (h : P e ∧ e.duesNeeded) :
    P (e.watch c) ∧ (e.watch c).duesNeeded := by
  have framed : ∀ (b : Bool) (e : Event), P e ∧ e.duesNeeded →
      P (if b then e.standingFrame c else e) ∧ (if b then e.standingFrame c else e).duesNeeded := by
    intro b e h; cases b
    · exact h
    · exact k.callFrame c _ e h
  have hkept : ∀ (b : Bool) (e : Event), NodeKept e (if b then e.standingFrame c else e) := by
    intro b e; cases b
    · exact NodeKept.refl e
    · exact (Event.standingFrame_follows c e).kept
  have hmarks : Event.duesNeeded { e with du.marks := e.du.marks.set c (e.lostProviders c) } := h.2
  have h1 := k.noticeAll c ((e.lostProviders c).filter fun r => !(e.du.marks.get c).contains r)
    _ ⟨k.marks e (e.du.marks.set c (e.lostProviders c)) h.1, hmarks⟩
  have h1k := (Event.foldl_follows (fun e (r : Ref) => Event.noticeCh_follows c (.providerLost c r) e)
    ((e.lostProviders c).filter fun r => !(e.du.marks.get c).contains r)
    { e with du.marks := e.du.marks.set c (e.lostProviders c) }).kept
  have owe : ∀ e2 : Event, NodeKept e e2 → P e2 ∧ e2.duesNeeded →
      P (e2.oweStanding c (((e.lostProviders c).filter
        fun r => !(e.du.marks.get c).contains r).filter e2.isLocal)) ∧
      (e2.oweStanding c (((e.lostProviders c).filter
        fun r => !(e.du.marks.get c).contains r).filter e2.isLocal)).duesNeeded := by
    intro e2 hk h
    refine k.out_same e2 _ rfl (fun d r hr => ?_) h
    have hr : r ∈ (e2.out.standingDue.set c (e2.out.standingDue.get c ++ _)).get d := hr
    rw [PerChannel.get_set] at hr
    split at hr
    · rename_i hd; subst hd
      rcases List.mem_append.1 hr with hr | hr
      · exact .inl hr
      · right
        rw [hk.record]
        have hl := (List.mem_filter.1 (List.mem_filter.1 hr).1).1
        unfold State.lostProviders at hl
        split at hl
        · exact (List.mem_filter.1 hl).1
        · exact absurd hl (by simp)
    · exact .inl hr
  have hmk : NodeKept e { e with du.marks := e.du.marks.set c (e.lostProviders c) } := by
    constructor <;> first | rfl | exact ⟨_, rfl⟩
  exact owe _ ((hmk.trans h1k).trans (hkept _ _)) (framed _ _ h1)

theorem KeptBySettle.reportVerdict (due : PerChannel Bool) (c : Ch) (e : Event) (h : P e ∧ e.duesNeeded) :
    P (e.reportVerdict due c) ∧ (e.reportVerdict due c).duesNeeded := by
  have hf := Event.reportVerdict_follows due c e
  suffices hp : P (e.reportVerdict due c) ∧ e.unnoticed (e.reportVerdict due c) from
    ⟨hp.1, h.2.of_follows hf hp.2⟩
  unfold Event.reportVerdict
  split
  · split <;> rename_i hst
    · have hu : e.unnoticed (e.endCalling c) := Event.setState_unnoticed c _ e
      refine ⟨k.out (e.endCalling c) _ (Outbox.grows_of_same rfl) (k.endCalling c e hst h.1), hu⟩
    · exact ⟨k.coast c e hst h.1, Event.enterCoast_unnoticed c e⟩
    · exact ⟨h.1, Event.unnoticed_refl e⟩
  · exact ⟨h.1, Event.unnoticed_refl e⟩

theorem KeptBySettle.settle (n : Nat) (e : Event) (h : P e ∧ e.duesNeeded) :
    P (e.settle n) ∧ (e.settle n).duesNeeded := by
  have each : ∀ {f : Ch → Event → Event}, (∀ c e, P e ∧ e.duesNeeded → P (f c e) ∧ (f c e).duesNeeded) →
      ∀ e, P e ∧ e.duesNeeded → P (e.forChannels f) ∧ (e.forChannels f).duesNeeded := fun hf e h =>
    foldl_induct (P := fun e => P e ∧ e.duesNeeded) (fun e c => hf c e) Ch.all e h
  induction n generalizing e with
  | zero => exact h
  | succ n ih =>
    unfold Event.settle
    split
    · exact ih _ (each k.watch _ (each (k.reportVerdict _) e h))
    · split
      · refine ih _ (each (fun c e h => ?_) e h)
        exact k.payStanding c _ (k.payCall c e h)
      · exact h

theorem KeptBySettle.settled (e : Event) (h : P e) (hd : e.duesNeeded) : P e.settled :=
  (k.settle settleRounds e ⟨h, hd⟩).1

end

end Sys2Proof.Machine
end

