-- ==== Sys2Proof/Proofs/Ends.lean ====
section
/-! SUPPORT. How a command ends, from what its effect left: the supervision of an opened contactor, the
channels that enter COAST, those that rest, the notices and replies, and the queue. -/

namespace Sys2Proof.Machine

/-! ## The supervision of a contactor (R4) -/

/-- A change to a state of the same output leaves the supervision as it is. -/
theorem Controller.enter_alike (w : Micros) (st : ChState) (c : Controller) (hs : st.supervised = true)
    (hc : c.state.supervised = true) (he : c.state.energised = st.energised) :
    c.enter w st = { c with state := st } := by
  unfold Controller.enter
  simp [hs, hc, he]

/-- A change of the output begins the supervision against it. -/
theorem Controller.enter_outputChanged (w : Micros) (st : ChState) (c : Controller)
    (hs : st.supervised = true) (hc : c.state.energised ≠ st.energised) :
    c.outputChanged w (c.enter w st) := by
  unfold Controller.outputChanged
  rw [Controller.enter_state]
  unfold Controller.enter
  have hne : (c.state.supervised && c.state.energised == st.energised) = false := by simp [hc]
  rw [hne]
  simp only [hs, Bool.not_true, Bool.false_eq_true, if_false, beq_iff_eq]
  split
  · exact ⟨rfl, rfl⟩
  · exact ⟨rfl, rfl⟩

/-- What `outputChanged` says of the later controller depends on its output and its supervision alone. -/
theorem Controller.outputChanged.of_same {w : Micros} {c d d' : Controller} (h : c.outputChanged w d)
    (he : d'.state.energised = d.state.energised) (hm : d'.mark = d.mark)
    (ht : d'.mismatchTimer = d.mismatchTimer) : c.outputChanged w d' := by
  unfold Controller.outputChanged at h ⊢; rw [he, hm, ht]; exact h

/-! ## One channel, until nothing more follows -/

/-- A contactor that is not WAITING keeps its output and supervision; a WAITING one stays as it is or opens,
its tracker stopped. -/
structure ChannelSettles (w : Micros) (c c' : Controller) (t t' : Tracker) : Prop where
  stay : c.state ≠ .waiting → c'.state ≠ .waiting ∧ c'.state.energised = c.state.energised ∧
    c'.mark = c.mark ∧ c'.mismatchTimer = c.mismatchTimer ∧ t' = t
  leave : c.state = .waiting → c' = c ∧ t' = t ∨
    c'.state ≠ .waiting ∧ c'.state.energised = false ∧ c.outputChanged w c' ∧ t' = t.stopClear

theorem ChannelSettles.refl (w : Micros) (c : Controller) (t : Tracker) : ChannelSettles w c c t t :=
  ⟨fun h => ⟨h, rfl, rfl, rfl, rfl⟩, fun _ => .inl ⟨rfl, rfl⟩⟩

theorem ChannelSettles.trans {w : Micros} {c c' c'' : Controller} {t t' t'' : Tracker}
    (h : ChannelSettles w c c' t t') (k : ChannelSettles w c' c'' t' t'') :
    ChannelSettles w c c'' t t'' where
  stay hn := by
    obtain ⟨h1, h2, h3, h4, h5⟩ := h.stay hn
    obtain ⟨k1, k2, k3, k4, k5⟩ := k.stay h1
    exact ⟨k1, k2.trans h2, k3.trans h3, k4.trans h4, k5.trans h5⟩
  leave hw := by
    rcases h.leave hw with ⟨rfl, rfl⟩ | ⟨h1, h2, h3, h4⟩
    · exact k.leave hw
    · obtain ⟨k1, k2, k3, k4, k5⟩ := k.stay h1
      exact .inr ⟨k1, k2.trans h2, h3.of_same k2 k3 k4, k5.trans h4⟩

/-- Every channel settles so, under one image. -/
structure Event.Settles (e e' : Event) : Prop where
  image : e'.mc.image = e.mc.image
  channels : ∀ ch, ChannelSettles (e.record ch).feedbackWindow (e.cc.get ch) (e'.cc.get ch)
    (e.it.get ch) (e'.it.get ch)

theorem Event.Settles.refl (e : Event) : e.Settles e := ⟨rfl, fun _ => ChannelSettles.refl _ _ _⟩

theorem Event.Settles.trans {a b c : Event} (h : a.Settles b) (k : b.Settles c) : a.Settles c :=
  ⟨k.image.trans h.image, fun ch => by
    have hr : b.record ch = a.record ch := by unfold State.record; rw [h.image]
    exact (h.channels ch).trans (hr ▸ k.channels ch)⟩

theorem Event.Settles.of_same {e e' : Event} (hc : e'.cc = e.cc) (ht : e'.it = e.it)
    (hi : e'.mc.image = e.mc.image) : e.Settles e' :=
  ⟨hi, fun ch => by rw [hc, ht]; exact ChannelSettles.refl _ _ _⟩

/-- A channel that is not WAITING changes its state to one of the same output. -/
theorem Event.Settles.of_set {e e' : Event} (ch : Ch) (c : Controller) (hi : e'.mc.image = e.mc.image)
    (hcc : e'.cc = e.cc.set ch c) (ht : e'.it = e.it) (hw : (e.cc.get ch).state ≠ .waiting)
    (hw' : c.state ≠ .waiting) (he : c.state.energised = (e.cc.get ch).state.energised)
    (hm : c.mark = (e.cc.get ch).mark) (hmt : c.mismatchTimer = (e.cc.get ch).mismatchTimer) :
    e.Settles e' := by
  refine ⟨hi, fun k => ?_⟩
  rw [hcc, ht, PerChannel.get_set]
  split
  · rename_i hk; subst hk
    exact ⟨fun _ => ⟨hw', he, hm, hmt, rfl⟩, fun h => absurd h hw⟩
  · exact ChannelSettles.refl _ _ _

theorem ChState.pending_alike {st : ChState} (h : st = .coast ∨ st = .rest ∨ st.isPending = true) :
    st.supervised = true ∧ st.energised = false ∧ st ≠ .waiting := by
  rcases h with rfl | rfl | h
  · exact ⟨rfl, rfl, ChState.noConfusion⟩
  · exact ⟨rfl, rfl, ChState.noConfusion⟩
  · cases st <;> first | exact ⟨rfl, rfl, ChState.noConfusion⟩ | exact Bool.noConfusion h

theorem Event.enterPending_settles (ch : Ch) (e : Event)
    (h : (e.cc.get ch).state = .coast ∨ (e.cc.get ch).state = .rest) : e.Settles (e.enterPending ch) := by
  obtain ⟨sub, -, hc, ht, -, hk⟩ := Event.enterPending_spec ch e
  obtain ⟨h1, h2, h3⟩ := ChState.pending_alike (h.imp_right Or.inl)
  have he : Controller.enter (e.record ch).feedbackWindow (.pending sub) (e.cc.get ch).forPending =
      { (e.cc.get ch).forPending with state := .pending sub } := Controller.enter_alike _ _ _ rfl h1 h2
  refine Event.Settles.of_set ch _ hk.image hc ht h3 ?_ ?_ ?_ ?_ <;> rw [he]
  · exact ChState.noConfusion
  · exact h2.symm
  · rfl
  · rfl

theorem Event.recordOrigin_settles (o : Origin) (ch : Ch) (e : Event) (h : (e.cc.get ch).state ≠ .waiting) :
    e.Settles (e.recordOrigin o ch) :=
  Event.Settles.of_set ch _ rfl rfl rfl h h rfl rfl rfl

theorem Event.addOrigin_settles (o : Origin) (ch : Ch) (e : Event) : e.Settles (e.addOrigin o ch) := by
  have hpend : (e.cc.get ch).state = .coast ∨ (e.cc.get ch).state = .rest →
      e.Settles ((e.recordOrigin o ch).enterPending ch) := fun h => by
    obtain ⟨-, -, hw⟩ := ChState.pending_alike (h.imp_right Or.inl)
    refine (Event.recordOrigin_settles o ch e hw).trans (Event.enterPending_settles ch _ ?_)
    rw [Event.recordOrigin_state]; exact h
  unfold Event.addOrigin
  split <;> rename_i hst
  · split
    · exact hpend (.inl hst)
    · exact Event.recordOrigin_settles o ch e (by rw [hst]; exact ChState.noConfusion)
  · split
    · exact hpend (.inr hst)
    · exact Event.recordOrigin_settles o ch e (by rw [hst]; exact ChState.noConfusion)
  all_goals
    first
    | exact Event.Settles.refl e
    | exact Event.recordOrigin_settles o ch e (by rw [hst]; exact ChState.noConfusion)

theorem Event.endCalling_settles (ch : Ch) (e : Event) (h : (e.cc.get ch).state = .pending .calling) :
    e.Settles (e.endCalling ch) := by
  have he : Controller.enter (e.record ch).feedbackWindow (.pending .budget) (e.cc.get ch) =
      { e.cc.get ch with state := .pending .budget } :=
    Controller.enter_alike _ _ _ rfl (by rw [h]; rfl) (by rw [h]; rfl)
  refine Event.Settles.of_set ch _ (Event.setState_kept _ _ e).image (Event.setState_cc _ _ e)
    (Event.setState_it _ _ e) (by rw [h]; exact ChState.noConfusion) ?_ ?_ ?_ ?_ <;> rw [he]
  · exact ChState.noConfusion
  · rw [h]; rfl

theorem Event.runDownEnds_settles (ch : Ch) (e : Event) (h : (e.cc.get ch).state = .coast) :
    e.Settles (e.runDownEnds ch) := by
  have h1 : e.Settles (e.modCc ch fun c => { c with runDownTimer := none }) :=
    Event.Settles.of_set ch _ rfl rfl rfl (by rw [h]; exact ChState.noConfusion)
      (by rw [h]; exact ChState.noConfusion) rfl rfl rfl
  have hst : ((e.modCc ch fun c => { c with runDownTimer := none }).cc.get ch).state = .coast := by
    rw [Event.modCc_cc, PerChannel.get_set_same]; exact h
  unfold Event.runDownEnds
  simp only
  generalize (e.modCc ch fun c => { c with runDownTimer := none }) = e1 at h1 hst ⊢
  split
  · have he : Controller.enter (e1.record ch).feedbackWindow .rest (e1.cc.get ch) =
        { e1.cc.get ch with state := .rest } :=
      Controller.enter_alike _ _ _ rfl (by rw [hst]; rfl) (by rw [hst]; rfl)
    refine h1.trans (Event.Settles.of_set ch _ (Event.setState_kept _ _ e1).image
      (Event.setState_cc _ _ e1) (Event.setState_it _ _ e1) (by rw [hst]; exact ChState.noConfusion)
      ?_ ?_ ?_ ?_) <;> rw [he]
    · exact ChState.noConfusion
    · rw [hst]; rfl
  · exact h1.trans (Event.enterPending_settles ch e1 (.inl hst))

/-- An entry to COAST from a driven output opens the contactor under supervision and stops the tracker;
nothing else is touched. -/
theorem Event.enterCoast_opens (ch : Ch) (e : Event) (h : (e.cc.get ch).state.energised = true) :
    ((e.enterCoast ch).cc.get ch).state ≠ .waiting ∧
    ((e.enterCoast ch).cc.get ch).state.energised = false ∧
    (e.cc.get ch).outputChanged (e.record ch).feedbackWindow ((e.enterCoast ch).cc.get ch) ∧
    (e.enterCoast ch).it.get ch = (e.it.get ch).stopClear := by
  have hs := Event.beginCoast_state ch e
  have hopen : (e.cc.get ch).outputChanged (e.record ch).feedbackWindow ((e.beginCoast ch).cc.get ch) := by
    rw [Event.beginCoast_cc, PerChannel.get_set_same]
    exact (Controller.enter_outputChanged _ .coast _ rfl (by rw [h]; exact Bool.noConfusion)).of_same
      rfl rfl rfl
  have hit : (e.beginCoast ch).it.get ch = (e.it.get ch).stopClear := by
    rw [Event.beginCoast_it, PerChannel.get_set_same]
  rw [Event.enterCoast_eq]
  split
  · obtain ⟨k1, k2, k3, k4, k5⟩ := ((Event.runDownEnds_settles ch _ hs).channels ch).stay
      (by rw [hs]; exact ChState.noConfusion)
    exact ⟨k1, k2.trans (by rw [hs]; rfl), hopen.of_same k2 k3 k4, k5.trans hit⟩
  · exact ⟨by rw [hs]; exact ChState.noConfusion, by rw [hs]; rfl, hopen, hit⟩

theorem Event.runDownEnds_other (ch k : Ch) (e : Event) (h : k ≠ ch) :
    (e.runDownEnds ch).cc.get k = e.cc.get k ∧ (e.runDownEnds ch).it.get k = e.it.get k := by
  have h1 : (e.modCc ch fun c => { c with runDownTimer := none }).cc.get k = e.cc.get k :=
    PerChannel.get_set_other _ h _
  unfold Event.runDownEnds
  simp only
  split
  · rw [Event.setState_cc, Event.setState_it, PerChannel.get_set_other _ h]
    exact ⟨h1, rfl⟩
  · obtain ⟨h2, h3⟩ := Event.enterPending_other ch k (e.modCc ch fun c => { c with runDownTimer := none }) h
    exact ⟨h2.trans h1, h3⟩

theorem Event.enterCoast_other (ch k : Ch) (e : Event) (h : k ≠ ch) :
    (e.enterCoast ch).cc.get k = e.cc.get k ∧ (e.enterCoast ch).it.get k = e.it.get k := by
  have h1 : (e.beginCoast ch).cc.get k = e.cc.get k ∧ (e.beginCoast ch).it.get k = e.it.get k := by
    rw [Event.beginCoast_cc, Event.beginCoast_it]
    exact ⟨PerChannel.get_set_other _ h _, PerChannel.get_set_other _ h _⟩
  rw [Event.enterCoast_eq]
  split
  · obtain ⟨h2, h3⟩ := Event.runDownEnds_other ch k (e.beginCoast ch) h
    exact ⟨h2.trans h1.1, h3.trans h1.2⟩
  · exact h1

theorem Event.runDownEnds_image (ch : Ch) (e : Event) : (e.runDownEnds ch).mc.image = e.mc.image := by
  unfold Event.runDownEnds
  simp only
  split
  · rw [Event.setState_mc]; rfl
  · exact (Event.enterPending_spec ch _).choose_spec.2.2.2.2.image

theorem Event.enterCoast_image (ch : Ch) (e : Event) : (e.enterCoast ch).mc.image = e.mc.image := by
  rw [Event.enterCoast_eq]
  split
  · rw [Event.runDownEnds_image, Event.beginCoast_mc]
  · rw [Event.beginCoast_mc]

theorem Event.enterCoast_settles (ch : Ch) (e : Event) (h : (e.cc.get ch).state = .waiting) :
    e.Settles (e.enterCoast ch) := by
  refine ⟨Event.enterCoast_image ch e, fun k => ?_⟩
  by_cases hk : k = ch
  · subst hk
    exact ⟨fun hn => absurd h hn, fun _ => .inr (Event.enterCoast_opens k e (by rw [h]; rfl))⟩
  · obtain ⟨h1, h2⟩ := Event.enterCoast_other ch k e hk
    rw [h1, h2]; exact ChannelSettles.refl _ _ _

theorem settles_keptBySettle (e0 : Event) : KeptBySettle fun e => e0.Settles e where
  out _ _ _ h := h.trans (Event.Settles.of_same rfl rfl rfl)
  marks _ _ h := h.trans (Event.Settles.of_same rfl rfl rfl)
  call ch _ _ e _ _ h := h.trans (Event.addOrigin_settles .call ch e)
  endCalling ch e hst h := h.trans (Event.endCalling_settles ch e hst)
  coast ch e hst h := h.trans (Event.enterCoast_settles ch e hst)

/-- What follows from an event changes a contactor in this way alone. -/
theorem Event.settled_settles (e : Event) (hd : e.duesNeeded) : e.Settles e.settled :=
  (settles_keptBySettle e).settled e (Event.Settles.refl e) hd

end Sys2Proof.Machine
end

