-- ==== Sys2Proof/Proofs/Follow.lean ====
section
/-! SUPPORT. How a command ends, continued: where the notices and replies stand, which channels are in
PENDING, COAST or REST, and when nothing but the queue changes. -/

namespace Sys2Proof.Machine

/-! ## Notices and replies -/

theorem mem_mergeNotices {notices : PerChannel (List Frame)} {ch : Ch} {f : Frame}
    (hf : f ∈ notices.get ch) (chs : List Ch) (holds : List (Target × Nat)) (h : ch ∈ chs) :
    f ∈ mergeNotices notices chs holds := by
  induction chs generalizing holds with
  | nil => exact absurd h (by simp)
  | cons k rest ih =>
    unfold mergeNotices
    rcases List.mem_cons.1 h with rfl | h
    · exact List.mem_append_left _ (List.mem_append_right _ hf)
    · exact List.mem_append_right _ (ih _ h)

theorem Outbox.mem_allNotices_of_channel {o : Outbox} {ch : Ch} {f : Frame} (h : f ∈ o.notices.get ch) :
    f ∈ o.allNotices :=
  List.mem_append_right _ (mem_mergeNotices h _ _ (Ch.mem_all ch))

theorem State.speaks_queueTakes {s : State} (h : s.speaks) (n : Notice) :
    s.queueTakes (.notice n) = true := by
  obtain ⟨h1, h2, h3⟩ := h
  unfold State.queueTakes
  cases hm : s.mc.mode <;> simp_all

/-- The mode and the station at the end of the event are those that the effect left. -/
theorem Event.settled_queueTakes (e : Event) (b : Body) : e.settled.queueTakes b = e.queueTakes b := by
  obtain ⟨t, ht⟩ := (Event.settled_follows e).kept.mc
  unfold State.queueTakes; rw [ht]

/-- What the node has noticed of a channel keeps its place in the outbox. -/
theorem notices_keptBySettle (ch : Ch) (f : Frame) :
    KeptBySettle fun e => f ∈ e.out.notices.get ch where
  out _ _ ho h := ho ch f h
  marks _ _ h := h
  call k _ _ e _ _ h := by rw [(Event.addOrigin_unnoticed .call k e).1]; exact h
  endCalling k e _ h := by
    rw [show (e.endCalling k).out.notices = _ from (Event.setState_unnoticed k _ e).1]; exact h
  coast k e _ h := by rw [(Event.enterCoast_unnoticed k e).1]; exact h

theorem Event.follows_noticed_channel (order : List Block) (ch : Ch) (n : Notice) (e : Event)
    (ht : e.speaks) (hd : e.duesNeeded) (h : (⟨0, .notice n⟩ : Frame) ∈ e.out.notices.get ch) :
    (e.settled.flush order).noticed n :=
  Event.flush_queued rfl order _ ((Event.settled_queueTakes e _).trans (State.speaks_queueTakes ht n))
    (.inr (.inl (Outbox.mem_allNotices_of_channel ((notices_keptBySettle ch _).settled e h hd))))

theorem Event.follows_noticed_node (order : List Block) (n : Notice) (e : Event) (ht : e.speaks)
    (h : (⟨0, .notice n⟩ : Frame) ∈ e.out.nodeNotices) : (e.settled.flush order).noticed n := by
  refine Event.flush_queued rfl order _
    ((Event.settled_queueTakes e _).trans (State.speaks_queueTakes ht n)) (.inr (.inl ?_))
  exact List.mem_append_left _ (by rw [(Event.settled_follows e).kept.nodeNotices]; exact h)

theorem Event.follows_replied (order : List Block) (env : Envelope) (kind channel tag : Byte)
    (code : ReplyCode) (e : Event) (ht : e.queueTakes (.reply kind channel tag code) = true)
    (h : (⟨env.sender, .reply kind channel tag code⟩ : Frame) ∈ e.out.replies) :
    (e.settled.flush order).replied env kind channel tag code := by
  refine Event.flush_queued rfl order _ ((Event.settled_queueTakes e _).trans ht) (.inr (.inr (.inr ?_)))
  rw [(Event.settled_follows e).kept.replies]; exact h

/-! ## The states in which a command ends -/

theorem ChState.isPending_follows {a b : ChState} (h : a.isPending = true) (f : a.follows b = true) :
    b.isPending = true := by
  cases a with
  | pending s =>
    cases s with
    | calling =>
      simp only [ChState.follows, Bool.or_eq_true, beq_iff_eq] at f
      rcases f with rfl | rfl <;> rfl
    | budget => simp only [ChState.follows, beq_iff_eq] at f; rw [← f]; rfl
    | claiming => simp only [ChState.follows, beq_iff_eq] at f; rw [← f]; rfl
  | _ => exact Bool.noConfusion h

theorem ChState.isPending_flushes {a b : ChState} (h : a.isPending = true) (f : a.flushes b = true) :
    b.isPending = true := by
  cases a with
  | pending s =>
    cases s with
    | calling => simp only [ChState.flushes, beq_iff_eq] at f; rw [← f]; rfl
    | budget | claiming =>
      simp only [ChState.flushes, Bool.or_eq_true, beq_iff_eq] at f
      rcases f with rfl | rfl <;> rfl
  | _ => exact Bool.noConfusion h

/-- A channel in PENDING stays in it to the end of the event. -/
theorem Took.pending_kept {e : Event} {t : State} (h : Took e t) (ch : Ch)
    (hp : (e.cc.get ch).state.isPending = true) : (t.cc.get ch).state.isPending = true := by
  obtain ⟨st, hf, hg⟩ := h.state ch
  exact ChState.isPending_flushes (ChState.isPending_follows hp hf) hg

/-- A channel that is LOCKED, OFFLINE, in BYPASS or AWAKE ends as it is. -/
theorem Took.ignored {e : Event} {t : State} (h : Took e t) (ch : Ch)
    (hs : (e.cc.get ch).state.records = false) (hw : (e.cc.get ch).state ≠ .waiting) :
    t.cc.get ch = e.cc.get ch := h.ignores ch hs hw

theorem Took.bypassTimer {e : Event} {t : State} (h : Took e t) : t.mc.bypassTimer = e.mc.bypassTimer := by
  obtain ⟨u, hu⟩ := h.mc; rw [hu]

theorem Took.mode {e : Event} {t : State} (h : Took e t) : t.mc.mode = e.mc.mode := by
  obtain ⟨u, hu⟩ := h.mc; rw [hu]

theorem Took.image {e : Event} {t : State} (h : Took e t) : t.mc.image = e.mc.image := by
  obtain ⟨u, hu⟩ := h.mc; rw [hu]

theorem Took.held {e : Event} {t : State} (h : Took e t) (ch : Ch) : t.held ch = e.held ch :=
  State.held_of_same h.cu h.image ch

/-- Mode Control ends as the effect left it, but that the stagger may have started (R146). -/
theorem Event.follows_mc (order : List Block) (e : Event) : (e.settled.flush order).mc = e.mc ∨
    e.mc.staggerTimer = none ∧ (e.mc.mode = .isolated ∨ e.mc.mode = .silent) ∧
      (e.settled.flush order).mc = { e.mc with staggerTimer := some e.staggerStart } :=
  (Event.follows_calm (x := True) (u := True) order e).mc

/-- A channel that is not in PENDING is left as it is where frames join the queue. -/
theorem Flushes.channel {e e' : Event} (k : Flushes e e') (ch : Ch)
    (h : (e.cc.get ch).state.isPending = false) : e'.cc.get ch = e.cc.get ch := by
  have hs : (e'.cc.get ch).state = (e.cc.get ch).state := by
    refine ChState.flushes_of_ne ?_ ?_ (k.state ch) <;> intro hst <;> rw [hst] at h <;>
      exact Bool.noConfusion h
  exact (Controller.withState _ _ (k.rest ch)).2.2.2.2.2.2 hs

theorem Event.flush_channel (order : List Block) (e : Event) (ch : Ch)
    (h : (e.cc.get ch).state.isPending = false) : (e.flush order).cc.get ch = e.cc.get ch :=
  (Event.flush_flushes order e).channel ch h

theorem Event.flush_supervision (order : List Block) (e : Event) (ch : Ch) :
    ((e.flush order).cc.get ch).state.energised = (e.cc.get ch).state.energised ∧
      ((e.flush order).cc.get ch).mark = (e.cc.get ch).mark ∧
      ((e.flush order).cc.get ch).mismatchTimer = (e.cc.get ch).mismatchTimer := by
  have k := Event.flush_flushes order e
  have hk := k.rest ch
  have h1 := congrArg Controller.mark hk
  have h2 := congrArg Controller.mismatchTimer hk
  refine ⟨?_, h1, h2⟩
  by_cases hp : (e.cc.get ch).state.isPending = true
  · have off : ∀ st : ChState, st.isPending = true → st.energised = false := by
      intro st h; cases st <;> first | rfl | exact Bool.noConfusion h
    rw [off _ hp, off _ (ChState.isPending_flushes hp (k.state ch))]
  · rw [Event.flush_channel order e ch (by simpa using hp)]

/-! ## A channel that may enter COAST does (R19, R57, R58) -/

theorem Event.takeReports_coasts (e : Event) (ch : Ch) (h : e.mayCoast ch = true) :
    (e.takeReports.cc.get ch).state ≠ .waiting := by
  have hw : (e.cc.get ch).state = .waiting := by
    unfold State.mayCoast at h
    simp only [Bool.and_eq_true, decide_eq_true_eq] at h
    exact h.1.1.1
  have hdue : (PerChannel.tabulate e.reportDue).get ch = true := by
    rw [PerChannel.get_tabulate]; unfold State.reportDue; rw [h, Bool.or_true]
  -- the channel leaves WAITING at its turn, if not before
  have fold : ∀ (l : List Ch) (f : Event),
      ((f.cc.get ch).state ≠ .waiting ∨ ch ∈ l) →
      ((l.foldl (fun f k => f.reportVerdict (.tabulate e.reportDue) k) f).cc.get ch).state ≠
        .waiting := by
    intro l
    induction l with
    | nil => exact fun f h => h.resolve_right (by simp)
    | cons k rest ih =>
      intro f hf
      rw [List.foldl_cons]
      refine ih _ ?_
      by_cases hn : (f.cc.get ch).state = .waiting
      · by_cases hk : ch = k
        · subst hk
          left
          unfold Event.reportVerdict
          rw [if_pos hdue, hn]
          exact (Event.enterCoast_opens ch f (by rw [hn]; rfl)).1
        · refine .inr ((List.mem_cons.1 (hf.resolve_left (fun h => h hn))).resolve_left hk)
      · exact .inl (ChState.follows_waiting ((Event.reportVerdict_follows _ k f).channels ch).state hn)
  exact fold Ch.all e (.inr (Ch.mem_all ch))

/-- A channel that may enter COAST when its command's effect has been taken leaves WAITING in the event. -/
theorem Event.settled_leaves (e : Event) (ch : Ch) (h : e.mayCoast ch = true) :
    (e.settled.cc.get ch).state ≠ .waiting := by
  have hany : (Ch.all.any e.reportDue || Ch.all.any e.watchStale) = true := by
    rw [Bool.or_eq_true]
    refine .inl (List.any_eq_true.2 ⟨ch, Ch.mem_all ch, ?_⟩)
    unfold State.reportDue; rw [h, Bool.or_true]
  unfold Event.settled settleRounds Event.settle
  rw [if_pos hany]
  refine ChState.follows_waiting ((Event.settle_follows _ _).channels ch).state ?_
  refine ChState.follows_waiting
    ((Event.forChannels_follows Event.watch_follows e.takeReports).channels ch).state ?_
  exact Event.takeReports_coasts e ch h

theorem Event.follows_coasts (order : List Block) (e : Event) (hd : e.duesNeeded) (ch : Ch)
    (h : e.mayCoast ch = true) :
    ((e.settled.flush order).cc.get ch).state ≠ .waiting ∧
    ((e.settled.flush order).cc.get ch).state.energised = false ∧
    (e.cc.get ch).outputChanged (e.record ch).feedbackWindow ((e.settled.flush order).cc.get ch) ∧
    (e.settled.flush order).it.get ch = (e.it.get ch).stopClear := by
  have hw : (e.cc.get ch).state = .waiting := by
    unfold State.mayCoast at h
    simp only [Bool.and_eq_true, decide_eq_true_eq] at h
    exact h.1.1.1
  have hs := Event.settled_leaves e ch h
  obtain ⟨h1, h2, h3, h4⟩ := (((Event.settled_settles e hd).channels ch).leave hw).resolve_left
    fun hsame => hs (by rw [hsame.1]; exact hw)
  obtain ⟨k1, k2, k3⟩ := Event.flush_supervision order e.settled ch
  refine ⟨fun hw' => ?_, k1.trans h2, h3.of_same k1 k2 k3, ?_⟩
  · have := k1.trans h2
    rw [hw'] at this; exact Bool.noConfusion this
  · rw [(Event.flush_flushes order e.settled).it]; exact h4

end Sys2Proof.Machine
end

