-- ==== Sys2Proof/Proofs/Contactors.lean ====
section
/-! SUPPORT. Commands of the contactors and of the stagger: mismatches, retries, settled claims, BYPASS. -/

namespace Sys2Proof.Machine

/-- A channel that the verdicts and calls do not move ends with nothing changed but its origins. -/
theorem Took.stays_eq {e : Event} {t : State} (h : Took e t) (ch : Ch)
    (hs : (e.cc.get ch).state.stays = true) :
    t.cc.get ch = { e.cc.get ch with origins := (t.cc.get ch).origins } := by
  have := h.stays ch hs
  rw [← this]

theorem Controller.outputChanged.of_was {w : Micros} {c c' d : Controller} (h : c.outputChanged w d)
    (hf : c'.feedbackClosed = c.feedbackClosed) : c'.outputChanged w d := by
  unfold Controller.outputChanged at h ⊢; rw [hf]; exact h

/-! ## BYPASS (R31) -/

/-- Settles O44. -/
theorem bypassTimerEnergises : Obligations.BypassTimerEnergises := by
  unfold Obligations.BypassTimerEnergises
  intro m ch s a hd hm
  obtain ⟨t, ht, took⟩ := take_took m (Event.bypassEnds ch) s
  have he : (s.begin m).bypassEnds ch = Event.setState ch .bypass
      { s.begin m with mc.bypassTimer := a.mc.bypassTimer.set ch none } := if_pos hd
  rw [he] at took
  have hmc := Event.setState_mc ch .bypass
    { s.begin m with mc.bypassTimer := a.mc.bypassTimer.set ch none }
  have hcc := Event.setState_cc ch .bypass
    { s.begin m with mc.bypassTimer := a.mc.bypassTimer.set ch none }
  generalize Event.setState ch .bypass
    { s.begin m with mc.bypassTimer := a.mc.bypassTimer.set ch none } = e at took hmc hcc
  have hst : (e.cc.get ch).state = .bypass := by
    rw [hcc, PerChannel.get_set_same]; exact Controller.enter_state _ _ _
  have hst' : (t.cc.get ch).state = .bypass := (took.code_kept ch (by rw [hst]; rfl)).trans hst
  refine ⟨t, ht, hst', ?_, ?_, fun k hk hkst => ?_⟩
  · refine (State.coilDrive_iff t ch).2 ⟨?_, by rw [hst']; rfl⟩
    rw [took.mode, hmc]; exact hm
  · rw [took.bypassTimer, hmc]
  · have hk' : e.cc.get k = a.cc.get k := by rw [hcc]; exact PerChannel.get_set_other _ hk _
    rw [took.ignored k (by rw [hk']; rcases hkst with h | h <;> rw [h] <;> rfl)
      (by rw [hk']; rcases hkst with h | h <;> rw [h] <;> exact ChState.noConfusion), hk']

/-! ## Locks (R5, R7, R11) -/

theorem Event.leavePending_unnoticed (ch : Ch) (e : Event) : e.unnoticed (e.leavePending ch) := by
  unfold Event.leavePending
  simp only
  split <;> exact ⟨rfl, rfl⟩

/-- A lock is noticed, and owes no standing call. -/
theorem Event.lock_out (ch : Ch) (cause : LockCause) (e : Event) :
    (⟨0, .notice (.locked ch cause)⟩ : Frame) ∈ (e.lock ch cause).out.notices.get ch ∧
      (e.lock ch cause).out.standingDue = e.out.standingDue := by
  have hl : ∀ b : Bool, e.unnoticed (if b then e.leavePending ch else e) := by
    intro b; cases b
    · exact Event.unnoticed_refl e
    · exact Event.leavePending_unnoticed ch e
  have hs := (hl (e.cc.get ch).state.isPending).trans (Event.setState_unnoticed ch (.locked cause)
    ((if (e.cc.get ch).state.isPending then e.leavePending ch else e).modCc ch Controller.forLock))
  refine ⟨?_, hs.2⟩
  show _ ∈ (PerChannel.set _ ch _).get ch
  rw [PerChannel.get_set_same]
  exact List.mem_append_right _ (List.mem_singleton.2 rfl)

/-- A channel that locks ends LOCKED, its wakes dropped, and it is noticed. -/
theorem Event.lock_ends (order : List Block) (ch : Ch) (cause : LockCause) (e : Event)
    (hd : e.out.standingDue = .all []) :
    ((e.lock ch cause).settled.flush order).cc.get ch =
      { e.cc.get ch with
        state := .locked cause
        origins := {}
        mark := none
        mismatchTimer := none
        runDownTimer := none
        retryTimer := none } ∧
    (e.speaks → ((e.lock ch cause).settled.flush order).noticed (.locked ch cause)) := by
  obtain ⟨hcc, -, hmc, -, -⟩ := Event.lock_spec ch cause e
  have hst : ((e.lock ch cause).cc.get ch).state = .locked cause := by
    rw [hcc, PerChannel.get_set_same]; exact Controller.enter_state _ _ _
  refine ⟨?_, fun hs => ?_⟩
  · rw [(Event.took order _).ignored ch (by rw [hst]; rfl) (by rw [hst]; exact ChState.noConfusion), hcc,
      PerChannel.get_set_same]
    rfl
  · obtain ⟨hn, hsd⟩ := Event.lock_out ch cause e
    refine Event.follows_noticed_channel order ch _ _ ?_ (Event.duesNeeded_of_none (hsd.trans hd)) hn
    unfold State.speaks; rw [hmc]; exact hs

/-- The mismatch timer of a supervised channel with a mark expires: its supervision ends, and it trips or
locks. -/
theorem Event.feedbackMismatch_eq (ch : Ch) (mark : Mark) (e : Event)
    (hs : (e.cc.get ch).state.supervised = true) (hm : (e.cc.get ch).mark = some mark)
    (hd : Timer.due (e.cc.get ch).mismatchTimer = true) :
    e.feedbackMismatch ch =
      if (e.cc.get ch).state.energised then
        (e.modCc ch fun c => { c with mark := none, mismatchTimer := none }).trip ch (tripCauseOf mark)
      else
        (e.modCc ch fun c => { c with mark := none, mismatchTimer := none }).lock ch (lockCauseOf mark) := by
  have hdue : (e.cc.get ch).mismatchDue = true := by unfold Controller.mismatchDue; rw [hs, hd]; rfl
  unfold Event.feedbackMismatch
  rw [hm, hdue]
  simp only [Event.modCc_cc, PerChannel.get_set_same]

/-- Settles O10. -/
theorem deenergisedMismatchLocks : Obligations.DeenergisedMismatchLocks := by
  unfold Obligations.DeenergisedMismatchLocks
  intro m ch mark s a c hs he hm hd
  have heq : (s.begin m).feedbackMismatch ch = _ := Event.feedbackMismatch_eq ch mark (s.begin m) hs hm hd
  rw [if_neg (show ¬((s.begin m).cc.get ch).state.energised = true by
    show ¬c.state.energised = true; rw [he]; exact Bool.noConfusion)] at heq
  obtain ⟨hcc, hn⟩ := Event.lock_ends m.order ch (lockCauseOf mark)
    ((s.begin m).modCc ch fun c => { c with mark := none, mismatchTimer := none }) rfl
  refine ⟨_, rfl, fun hsp => ?_, ?_⟩
  · rw [heq]; cases mark <;> exact hn hsp
  · rw [heq, hcc, Event.modCc_cc, PerChannel.get_set_same]; cases mark <;> rfl

/-- Settles O11. -/
theorem retryExpiryWakesOrLocks : Obligations.RetryExpiryWakesOrLocks := by
  unfold Obligations.RetryExpiryWakesOrLocks
  intro m ch cause s a c hst hd
  have heq : (s.begin m).retryEnds ch =
      if c.tripCount ≤ (a.record ch).retryLimit then ((s.begin m).recordOrigin .retry ch).enterPending ch
      else (s.begin m).lock ch (retryLockCause (a.record ch).retryLimit cause) := by
    have h1 : ((s.begin m).cc.get ch).state = .tripped cause := hst
    have h2 : Timer.due ((s.begin m).cc.get ch).retryTimer = true := hd
    unfold Event.retryEnds; rw [h1, h2]; rfl
  by_cases hle : c.tripCount ≤ (a.record ch).retryLimit
  · rw [if_pos hle] at heq
    obtain ⟨t, ht, took⟩ := take_took m (Event.retryEnds ch) s
    rw [heq] at took
    obtain ⟨sub, -, hcc, -, -, -⟩ :=
      Event.enterPending_spec ch ((s.begin m).recordOrigin .retry ch)
    generalize Event.enterPending ch _ = e at took hcc
    have hc : e.cc.get ch = Controller.enter
        (((s.begin m).recordOrigin .retry ch).record ch).feedbackWindow (.pending sub)
        (((s.begin m).recordOrigin .retry ch).cc.get ch).forPending := by
      rw [hcc, PerChannel.get_set_same]
    have hrec : ((s.begin m).recordOrigin .retry ch).cc.get ch =
        { c with origins := c.origins.add .retry } := PerChannel.get_set_same _ _ _
    rw [hrec] at hc
    obtain ⟨-, htr, -, hor, -, hre⟩ := hc ▸ Controller.enter_rest _ (.pending sub) _
    have hpe : (e.cc.get ch).state.isPending = true := by
      rw [hc, Controller.enter_state]; rfl
    refine ⟨t, ht, (took.trips ch).trans htr, took.retry ch hre, fun _ => ⟨took.pending_kept ch hpe, ?_,
      fun o ho => ?_⟩, fun hlt => absurd hle (Nat.not_le.2 hlt)⟩
    · exact took.origins ch _ (by rw [hor]; exact OriginSet.has_add_self _ _)
    · exact took.origins ch _ (by rw [hor]; exact OriginSet.has_add _ _ _ ho)
  · rw [if_neg hle] at heq
    obtain ⟨hcc, hn⟩ := Event.lock_ends m.order ch (retryLockCause (a.record ch).retryLimit cause)
      (s.begin m) rfl
    refine ⟨_, rfl, ?_, ?_, fun h => absurd h hle, fun _ => ?_⟩
    · rw [heq, hcc]; rfl
    · rw [heq, hcc]
    · rw [heq, hcc]; cases cause <;> exact ⟨rfl, rfl, hn⟩

/-! ## Trips (R6) -/

theorem Event.trip_out (ch : Ch) (cause : TripCause) (e : Event) :
    (⟨0, .notice (.tripped ch cause)⟩ : Frame) ∈ (e.trip ch cause).out.notices.get ch ∧
      (e.trip ch cause).out.standingDue = e.out.standingDue := by
  obtain ⟨-, -, -, hout⟩ := Event.handOverInrush_rest ch e
  have hs := Event.setState_unnoticed ch (.tripped cause)
    (((e.handOverInrush ch).modIt ch Tracker.stop).modCc ch fun c =>
      { c with
        tripCount := min (c.tripCount + 1)
          (max c.tripCount ((((e.handOverInrush ch).modIt ch Tracker.stop).record ch).retryLimit + 1))
        retryTimer := some (((e.handOverInrush ch).modIt ch Tracker.stop).record ch).retryDelay })
  refine ⟨?_, hs.2.trans (by show (e.handOverInrush ch).out.standingDue = _; rw [hout])⟩
  show _ ∈ (PerChannel.set _ ch _).get ch
  rw [PerChannel.get_set_same]
  exact List.mem_append_right _ (List.mem_singleton.2 rfl)

theorem State.liveOf_mem {s : State} {ch : Ch} {x : Claim} (h : s.liveOf ch = some x) :
    x ∈ s.bu.claims ∧ x.isLive = true ∧ x.ch = ch := State.liveOf_some h

/-- The LIVE claim of a CLAIMED start stands with the inrush time left as its hold (R27, R90). -/
theorem Event.handOverInrush_standsLive (ch : Ch) (e : Event) (x : Claim)
    (hn : (e.bu.claims.map Claim.key).Nodup) (hs : (e.cc.get ch).state = .starting .claimed)
    (hx : e.liveOf ch = some x) :
    State.standsLive { x with timer := (e.cc.get ch).inrushTimer } (e.handOverInrush ch).toState := by
  obtain ⟨hm, hl, hch⟩ := State.liveOf_mem hx
  have hcl : (e.handOverInrush ch).bu.claims = e.bu.claims.map fun c =>
      if c.isLive && decide (c.ch = ch) then { c with timer := (e.cc.get ch).inrushTimer } else c := by
    unfold Event.handOverInrush; rw [hs]
  have hkeys : (e.handOverInrush ch).bu.claims.map Claim.key = e.bu.claims.map Claim.key := by
    rw [hcl, List.map_map]
    refine List.map_congr_left fun c _ => ?_
    simp only [Function.comp]
    split <;> rfl
  refine ⟨?_, hl, fun c hc d hd _ _ hk => List.inj_on_of_nodup_map (by rw [hkeys]; exact hn) hc hd hk⟩
  rw [hcl]
  exact List.mem_map.2 ⟨x, hm, if_pos (by rw [hl, hch]; simp)⟩

theorem State.standsLive.of_claims {y : Claim} {s s' : State} (h : s.standsLive y)
    (hc : s'.bu.claims = s.bu.claims) : s'.standsLive y := by
  unfold State.standsLive; rw [hc]; exact h

/-- What an energised channel that trips is when the command ends. -/
theorem Event.trip_ends (order : List Block) (ch : Ch) (cause : TripCause) (e : Event)
    (hd : e.out.standingDue = .all []) (hen : (e.cc.get ch).state.energised = true) :
    let t := ((e.trip ch cause).settled.flush order).toState
    (t.cc.get ch).state = .tripped cause ∧
    (e.cc.get ch).outputChanged (e.record ch).feedbackWindow (t.cc.get ch) ∧
    (t.cc.get ch).tripCount = min ((e.cc.get ch).tripCount + 1)
      (max (e.cc.get ch).tripCount ((e.record ch).retryLimit + 1)) ∧
    (t.cc.get ch).retryTimer = some (e.record ch).retryDelay ∧ (t.cc.get ch).inrushTimer = none ∧
    (∀ o, (e.cc.get ch).origins.has o = true → (t.cc.get ch).origins.has o = true) ∧
    t.it.get ch = (e.it.get ch).stop ∧ (e.speaks → t.noticed (.tripped ch cause)) := by
  obtain ⟨hcc, hit, hmc, -, -⟩ := Event.trip_spec ch cause e
  have took := Event.took order (e.trip ch cause)
  have hc : (e.trip ch cause).cc.get ch = Controller.enter (e.record ch).feedbackWindow (.tripped cause)
      ((e.cc.get ch).forTrip (e.record ch)) := by rw [hcc, PerChannel.get_set_same]
  have hst : ((e.trip ch cause).cc.get ch).state = .tripped cause := by
    rw [hc]; exact Controller.enter_state _ _ _
  have hopen : (e.cc.get ch).outputChanged (e.record ch).feedbackWindow ((e.trip ch cause).cc.get ch) := by
    rw [hc]
    exact (Controller.enter_outputChanged _ _ ((e.cc.get ch).forTrip (e.record ch)) rfl
      (by rw [show ((e.cc.get ch).forTrip (e.record ch)).state = (e.cc.get ch).state from rfl, hen]
          exact Bool.noConfusion)).of_was rfl
  obtain ⟨-, htr, hin, hor, -, hre⟩ := hc ▸ Controller.enter_rest (e.record ch).feedbackWindow
    (.tripped cause) ((e.cc.get ch).forTrip (e.record ch))
  have hstay := took.stays_eq ch (by rw [hst]; rfl)
  refine ⟨by rw [hstay]; exact hst, by rw [hstay]; exact hopen.of_same rfl rfl rfl,
    (took.trips ch).trans htr, by rw [hstay]; exact hre, (took.inrush ch).trans hin,
    fun o ho => took.origins ch o (by rw [hor]; exact ho), ?_, fun hsp => ?_⟩
  · rw [took.tracker ch (by rw [hst]; exact ChState.noConfusion), hit, PerChannel.get_set_same]
  · obtain ⟨hn, hsd⟩ := Event.trip_out ch cause e
    refine Event.follows_noticed_channel order ch _ _ ?_ (Event.duesNeeded_of_none (hsd.trans hd)) hn
    unfold State.speaks; rw [hmc]; exact hsp

/-- Settles O9. -/
theorem energisedMismatchTrips : Obligations.EnergisedMismatchTrips := by
  unfold Obligations.EnergisedMismatchTrips
  intro m ch mark s a c hs he hm hd hle
  have heq : (s.begin m).feedbackMismatch ch = _ := Event.feedbackMismatch_eq ch mark (s.begin m) hs hm hd
  rw [if_pos (show ((s.begin m).cc.get ch).state.energised = true from he)] at heq
  generalize he1 : (s.begin m).modCc ch (fun c => { c with mark := none, mismatchTimer := none }) = e1
    at heq
  have hc1 : e1.cc.get ch = { c with mark := none, mismatchTimer := none } := by
    rw [← he1, Event.modCc_cc, PerChannel.get_set_same]; rfl
  have hrec : e1.record ch = a.record ch := by rw [← he1]; rfl
  have hit : e1.it = a.it := by rw [← he1]; rfl
  obtain ⟨h1, h2, h3, h4, h5, h6, h7, h8⟩ := Event.trip_ends m.order ch (tripCauseOf mark) e1
    (by rw [← he1]; rfl) (by rw [hc1]; exact he)
  rw [hc1, hrec] at h2 h3
  rw [hrec] at h4
  rw [hc1] at h6
  rw [hit] at h7
  refine ⟨_, rfl, by rw [heq]; cases mark <;> exact h1, ?_, by rw [heq]; exact h2.of_was rfl, fun hsp => ?_, ?_,
    by rw [heq]; exact h4, by rw [heq]; exact h5, by rw [heq]; exact h6, ?_⟩
  · rw [heq]; unfold State.coilDrive; rw [h1]; exact Bool.and_false _
  · rw [heq]
    have hn := h8 (by rw [← he1]; exact hsp)
    cases mark <;> exact hn
  · rw [heq, h3]
    show min (c.tripCount + 1) (max c.tripCount _) = _
    split <;> omega
  · rw [heq, h7]
    refine ⟨rfl, rfl, rfl, rfl, fun x hcl hst hx => ?_⟩
    obtain ⟨-, -, -, hbu, -⟩ := Event.trip_spec ch (tripCauseOf mark) e1
    have hbu1 : e1.bu = a.bu := by rw [← he1]; rfl
    have hlive := Event.handOverInrush_standsLive ch e1 x
      (by rw [hbu1]; exact (elapse_keys m.elapsed s).symm ▸ hcl.2.1) (by rw [hc1]; exact hst)
      (by unfold State.liveOf; rw [hbu1]; exact hx)
    rw [hc1] at hlive
    exact (Event.follows_standsLive m.order _
      (hlive.of_claims (s' := (e1.trip ch (tripCauseOf mark)).toState) (by rw [hbu]))).1

end Sys2Proof.Machine
end

