-- ==== Sys2Proof/Proofs/Starts.lean ====
section
/-! SUPPORT. Reset, settled claims and the isolation stagger. -/

namespace Sys2Proof.Machine

/-! ## Reset (R136) -/

theorem State.heldInReset_settled (cause : StartCause) (s : State) : (s.heldInReset cause).settled := by
  intro ch
  have hst : ((s.heldInReset cause).cc.get ch).state = .offline := by
    rw [show (s.heldInReset cause).cc = s.pins.feedbackClosed.map Controller.reset from rfl,
      PerChannel.get_map]; rfl
  refine ⟨fun h => ?_, ?_, ?_⟩
  · rw [hst] at h; exact ChState.noConfusion h.1
  · unfold State.mayCoast; rw [hst]; rfl
  · rw [show (s.heldInReset cause).du.marks = .all [] from rfl, PerChannel.get_all]
    unfold State.lostProviders; rw [hst]; rfl

theorem execReset_eq (m : Moment) (cause : StartCause) (s : State) : exec (.reset m cause) s =
    .next ((s.elapse m.elapsed).heldInReset (s.mc.causeAfter cause)) :=
  take_quiet m (Event.resetNode cause) s rfl (State.heldInReset_settled _ _)

/-- Settles O2: nothing follows from a reset. -/
theorem resetPutsEveryBlockAtItsResetValues : Obligations.ResetPutsEveryBlockAtItsResetValues := by
  unfold Obligations.ResetPutsEveryBlockAtItsResetValues
  intro m cause s
  refine ⟨_, execReset_eq m cause s, fun ch => ?_, rfl, rfl, rfl, rfl, rfl, rfl, rfl, rfl, rfl, rfl, rfl,
    rfl, rfl, rfl, fun h => ?_, fun h => ?_, rfl, rfl, rfl, rfl, rfl, rfl, rfl, rfl, rfl, rfl, rfl, rfl⟩
  · cases ch <;>
      exact ⟨rfl, rfl, rfl, rfl, rfl, rfl, rfl, rfl, rfl, rfl, rfl, rfl, rfl⟩
  · show s.mc.causeAfter cause = cause
    unfold ModeControl.causeAfter; rw [h]; rfl
  · show s.mc.causeAfter cause = _
    unfold ModeControl.causeAfter; rw [h]
    cases s.mc.startCause <;> cases cause <;> rfl

/-! ## Starts (R24, R25) -/

theorem ChState.pending_off {st : ChState} (h : st.isPending = true) : st.energised = false := by
  cases st <;> first | rfl | exact Bool.noConfusion h

/-- A start of a PENDING channel drives its output, supervised against the feedback. -/
theorem Controller.enter_starting (w : Micros) (kind : StartKind) (c : Controller)
    (h : c.state.isPending = true) : c.outputChanged w (c.enter w (.starting kind)) :=
  Controller.enter_outputChanged w _ c rfl (by rw [ChState.pending_off h]; exact Bool.noConfusion)

/-- A channel that an effect has started ends so, with its origins. -/
theorem Event.start_ends (order : List Block) (ch : Ch) (kind : StartKind) (e : Event) (c : Controller)
    (w i : Micros) (hp : c.state.isPending = true)
    (he : e.cc.get ch = { Controller.enter w (.starting kind) c with inrushTimer := some i }) :
    let t := (e.settled.flush order).toState
    (t.cc.get ch).state = .starting kind ∧ c.outputChanged w (t.cc.get ch) ∧
      (t.cc.get ch).inrushTimer = some i ∧
      ∀ o, c.origins.has o = true → (t.cc.get ch).origins.has o = true := by
  have took := Event.took order e
  have hst : (e.cc.get ch).state = .starting kind := by rw [he]; exact Controller.enter_state _ _ _
  have ho : (e.cc.get ch).origins = c.origins := by
    rw [he]; exact (Controller.enter_rest w (.starting kind) c).2.2.2.1
  have hstay := took.stays_eq ch (by rw [hst]; rfl)
  refine ⟨by rw [hstay]; exact hst, ?_, by rw [hstay, he], fun o h => took.origins ch o (by rw [ho]; exact h)⟩
  rw [hstay, he]
  exact (Controller.enter_starting w kind c hp).of_same rfl rfl rfl

/-- Settles O26. -/
theorem settledClaimStartsTheLoad : Obligations.SettledClaimStartsTheLoad := by
  unfold Obligations.SettledClaimStartsTheLoad
  intro m ch x s a hcl hst hx hd hm
  have heq : (s.begin m).settleEnds ch =
      Event.startClaimed ch { s.begin m with bu.claims := promote x a.bu.claims } := by
    have h1 : (s.begin m).provisionalOf ch = some x := hx
    unfold Event.settleEnds; rw [h1]; exact if_pos hd
  have hcc := Event.startClaimed_cc ch { s.begin m with bu.claims := promote x a.bu.claims }
  obtain ⟨-, -, hbu⟩ := Event.startClaimed_rest ch { s.begin m with bu.claims := promote x a.bu.claims }
  obtain ⟨h1, h2, h3, h4⟩ := Event.start_ends m.order ch .claimed
    (Event.startClaimed ch { s.begin m with bu.claims := promote x a.bu.claims }) (a.cc.get ch)
    (a.record ch).feedbackWindow (a.record ch).inrushWindow (by rw [hst]; rfl)
    (by rw [hcc, PerChannel.get_set_same]; rfl)
  have hlive : (Event.startClaimed ch { s.begin m with bu.claims := promote x a.bu.claims }).standsLive
      { x with status := .live, timer := none } := by
    refine ⟨?_, rfl, fun c hc d hd' _ _ hk => ?_⟩
    · rw [hbu]; exact mem_promote_self (State.provisionalOf_some hx).1
    · rw [hbu] at hc hd'
      exact List.inj_on_of_nodup_map (by
        rw [promote_keys]; exact (elapse_keys m.elapsed s).symm ▸ hcl.2.1) hc hd' hk
  have hmode : (Event.startClaimed ch { s.begin m with bu.claims := promote x a.bu.claims }).mc =
    a.mc := (Event.startClaimed_rest ch _).2.1
  refine ⟨_, rfl, by rw [heq]; exact h1, ?_, by rw [heq]; exact h2, by rw [heq]; exact h3,
    by rw [heq]; exact h4, by rw [heq]; exact (Event.follows_standsLive m.order _ hlive).1⟩
  rw [heq]
  refine (State.coilDrive_iff _ ch).2 ⟨?_, by rw [h1]; rfl⟩
  rw [(Event.took m.order _).mode, hmode]
  show s.mc.mode ≠ .loading
  rw [hm]; decide

/-! ## The isolation stagger (R146) -/

/-- Of two in the order of own-claim precedence, the first: higher rank, or equal rank and lower channel. -/
def precedes (p q : Nat × Ch) : Prop := q.1 < p.1 ∨ q.1 = p.1 ∧ p.2.toNat < q.2.toNat

theorem byPrecedence_pairwise : byPrecedence.Pairwise precedes := by
  unfold precedes byPrecedence; decide

theorem mem_byPrecedence {r : Nat} (h : 1 ≤ r ∧ r ≤ 3) (ch : Ch) : (r, ch) ∈ byPrecedence := by
  have hr : r = 3 ∨ r = 2 ∨ r = 1 := by omega
  refine List.mem_flatMap.2 ⟨r, ?_, List.mem_map.2 ⟨ch, Ch.mem_all ch, rfl⟩⟩
  rcases hr with rfl | rfl | rfl <;> simp

/-- The first that is found stands before every other that would be. -/
theorem find?_of_pairwise {α : Type} {R : α → α → Prop} {P : α → Bool} {l : List α}
    (h : l.Pairwise R) {p q : α} (hp : l.find? P = some p) (hq : q ∈ l) (hPq : P q = true) :
    p = q ∨ R p q := by
  obtain ⟨-, as, bs, rfl, hn⟩ := List.find?_eq_some_iff_append.1 hp
  obtain ⟨-, hcons, -⟩ := List.pairwise_append.1 h
  rcases List.mem_append.1 hq with hq | hq
  · have := hn q hq
    rw [hPq] at this; exact Bool.noConfusion this
  · rcases List.mem_cons.1 hq with rfl | hq
    · exact .inl rfl
    · exact .inr (List.rel_of_pairwise_cons hcons hq)

/-- The stagger chooses the PENDING channel of highest rank, then lowest number. -/
theorem State.staggerChoice_eq (s : State) (ch : Ch) (hp : (s.cc.get ch).state.isPending = true)
    (hr : 1 ≤ (s.record ch).rank ∧ (s.record ch).rank ≤ 3)
    (hfirst : ∀ k, (s.cc.get k).state.isPending = true → k ≠ ch →
      (s.record k).rank < (s.record ch).rank ∨
        (s.record k).rank = (s.record ch).rank ∧ ch.toNat < k.toNat) : s.staggerChoice = some ch := by
  have hq := mem_byPrecedence hr ch
  have hPq : ((s.record ch).rank == (s.record ch).rank && (s.cc.get ch).state.isPending) = true := by
    rw [hp]; simp
  unfold State.staggerChoice
  cases hf : byPrecedence.find? fun p =>
      (s.record p.2).rank == p.1 && (s.cc.get p.2).state.isPending with
  | none => exact absurd hPq (List.find?_eq_none.1 hf _ hq)
  | some p =>
    have hP := List.find?_some hf
    simp only [Bool.and_eq_true, beq_iff_eq] at hP
    by_cases hk : p.2 = ch
    · rw [Option.map_some, hk]
    · have hlt := hfirst p.2 hP.2 hk
      rcases find?_of_pairwise byPrecedence_pairwise hf hq hPq with h | h
      · exact absurd (congrArg Prod.snd h) hk
      · unfold precedes at h
        rw [hP.1] at hlt
        simp only at h
        omega

/-- Settles O41. -/
theorem staggerStartsOneLoad : Obligations.StaggerStartsOneLoad := by
  unfold Obligations.StaggerStartsOneLoad
  intro m ch s a hmode hd hp hr hfirst
  have heq : (s.begin m).staggerEnds = { (s.begin m).startUnclaimed ch with
      mc.staggerTimer := some (((s.begin m).startUnclaimed ch).record ch).inrushWindow } := by
    have hch : (s.begin m).staggerChoice = some ch := State.staggerChoice_eq a ch hp (hr ch) hfirst
    unfold Event.staggerEnds
    rw [if_pos ⟨hmode, hd⟩, hch]
  obtain ⟨hcc, -, hmc, -, -⟩ := Event.startUnclaimed_spec ch (s.begin m)
  have hrec : ((s.begin m).startUnclaimed ch).record ch = a.record ch := State.record_of_mc hmc ch
  rw [hrec] at heq
  generalize he : ({ (s.begin m).startUnclaimed ch with
    mc.staggerTimer := some (a.record ch).inrushWindow } : Event) = e at heq
  have hcc' : e.cc = a.cc.set ch { Controller.enter (a.record ch).feedbackWindow (.starting .unclaimed)
      (a.cc.get ch) with inrushTimer := some (a.record ch).inrushWindow } := by
    rw [← he]; exact hcc
  have hst : e.mc.staggerTimer = some (a.record ch).inrushWindow := by rw [← he]
  obtain ⟨h1, h2, h3, -⟩ := Event.start_ends m.order ch .unclaimed e (a.cc.get ch) _ _ hp
    (by rw [hcc', PerChannel.get_set_same])
  refine ⟨_, rfl, by rw [heq]; exact h1, by rw [heq]; exact h2, by rw [heq]; exact h3, ?_,
    fun k hk hpk => ?_⟩
  · rw [heq]
    rcases Event.follows_mc m.order e with h | ⟨h, -⟩
    · rw [h]; exact hst
    · rw [hst] at h; exact absurd h (by simp)
  · rw [heq]
    exact (Event.took m.order e).pending_kept k
      (by rw [hcc', PerChannel.get_set_other _ hk]; exact hpk)

end Sys2Proof.Machine
end

