-- ==== Sys2Proof/Proofs/Still.lean ====
section
/-! SUPPORT. When nothing follows from an effect: the verdicts and the watch of a settled node agree before
and after, and the joining of frames changes nothing but the queue. -/

namespace Sys2Proof.Machine

/-! ## The joining of frames where no budget work is owed -/

/-- The event differs from another in the queue and the outbox alone, and owes no budget work. -/
def Event.queuedFrom (e e' : Event) : Prop :=
  (∃ q o, e' = { e with li.queue := q, out := o }) ∧ e'.out.budget = [] ∧ e'.out.evalDue = false

theorem Event.queuedFrom.enqueue {e e' : Event} (f : Frame) (h : e.queuedFrom e') :
    e.queuedFrom (e'.enqueue f) := by
  obtain ⟨⟨q, o, rfl⟩, hb, he⟩ := h
  unfold Event.enqueue
  split
  · exact ⟨⟨_, _, rfl⟩, hb, he⟩
  · exact ⟨⟨_, _, rfl⟩, hb, he⟩

theorem Event.queuedFrom.enqueueAll {e e' : Event} (fs : List Frame) (h : e.queuedFrom e') :
    e.queuedFrom (e'.enqueueAll fs) :=
  foldl_induct (P := fun e' => e.queuedFrom e') (fun _ f h => h.enqueue f) fs e' h

theorem Event.queuedFrom.payState {e e' : Event} (h : e.queuedFrom e') : e.queuedFrom e'.payState := by
  unfold Event.payState
  split
  · obtain ⟨⟨q, o, rfl⟩, hb, he⟩ := h
    exact Event.queuedFrom.enqueue _ ⟨⟨_, _, rfl⟩, hb, he⟩
  · exact h

theorem Event.queuedFrom.payBudget {e e' : Event} (h : e.queuedFrom e') : e.queuedFrom e'.payBudget := by
  have hp : e'.payBudget = e' := by
    obtain ⟨-, hb, he⟩ := h
    unfold Event.payBudget; rw [hb]; exact if_neg (by rw [he]; exact Bool.noConfusion)
  rw [hp]; exact h

theorem Event.queuedFrom.next {e : Event} {d : Ending} (b : Block) (h : e.queuedFrom d.ev) :
    e.queuedFrom (d.next b).ev := by
  cases b <;> unfold Ending.next <;> simp only
  case iu | du | cu =>
    split
    · exact h.enqueue _
    · exact h
  case bu => exact h.payBudget
  case li => exact h.payState

/-- Where no budget work is owed the joining of frames changes nothing but the queue. -/
theorem Event.flush_queue (order : List Block) (e : Event) (hb : e.out.budget = [])
    (he : e.out.evalDue = false) :
    ∃ q, (e.flush order).toState = { e.toState with li.queue := q } := by
  have h1 : e.queuedFrom (order.foldl Ending.next
      ⟨e, e.out.allNotices, e.out.allCalls, e.out.replies⟩).ev :=
    foldl_induct (P := fun d : Ending => e.queuedFrom d.ev) (fun _ b h => h.next b) order _
      ⟨⟨e.li.queue, e.out, rfl⟩, hb, he⟩
  have hdrain : ∀ e' : Event, e.queuedFrom e' → e'.drainBudget budgetRounds = e' := fun e' h => by
    unfold budgetRounds Event.drainBudget; exact if_pos ⟨h.2.1, h.2.2⟩
  obtain ⟨⟨q, o, hq⟩, -⟩ : e.queuedFrom (e.flush order) := by
    unfold Event.flush
    simp only
    rw [hdrain _ ((h1.enqueueAll _).enqueueAll _)]
    exact (((h1.enqueueAll _).enqueueAll _).enqueueAll _).payState
  exact ⟨q, by rw [hq]⟩

/-- Where nothing follows and no budget work is owed a command leaves its effect, but for the queue. -/
theorem Event.follows_still (order : List Block) (e : Event) (hs : e.toState.settled)
    (hc : e.out.callDue = .all false) (hd : e.out.standingDue = .all []) (hb : e.out.budget = [])
    (he : e.out.evalDue = false) :
    ∃ q, (e.settled.flush order).toState = { e.toState with li.queue := q } := by
  rw [Event.settled_of_quiet e hc hd hs]
  exact Event.flush_queue order e hb he

/-! ## What the verdicts read (R51, R56) -/

theorem State.localCh?_of_station {a b : State} (hst : b.mc.station = a.mc.station) (r : Ref) :
    b.localCh? r = a.localCh? r := by
  unfold State.localCh? State.isLocal; rw [hst]

section
variable {a b : State} (hst : b.mc.station = a.mc.station) (hp : b.du.peers = a.du.peers)

include hst hp

/-- What is known of a reference differs where it names a channel of the node alone. -/
theorem State.known_cases (r : Ref) : b.known r = a.known r ∨ ∃ ch, a.localCh? r = some ch ∧
    a.known r = some ((a.cc.get ch).state.code, (a.cc.get ch).feedbackClosed) ∧
    b.known r = some ((b.cc.get ch).state.code, (b.cc.get ch).feedbackClosed) := by
  have hl := State.localCh?_of_station hst r
  have hpe : b.peer? r = a.peer? r := by unfold State.peer?; rw [hp]
  unfold State.known
  rw [hl, hpe]
  cases a.localCh? r with
  | some ch => exact .inr ⟨ch, rfl, rfl, rfl⟩
  | none => exact .inl rfl

theorem State.available_of_local
    (h : ∀ ch, countsAvailable (b.cc.get ch).state.code (b.cc.get ch).feedbackClosed =
      countsAvailable (a.cc.get ch).state.code (a.cc.get ch).feedbackClosed) :
    b.available = a.available := by
  funext r
  unfold State.available
  rcases State.known_cases hst hp r with hk | ⟨ch, -, ha, hb⟩
  · rw [hk]
  · rw [ha, hb]; exact h ch

theorem State.atRest_of_local
    (h : ∀ ch, countsAtRest (b.cc.get ch).state.code (b.cc.get ch).feedbackClosed =
      countsAtRest (a.cc.get ch).state.code (a.cc.get ch).feedbackClosed) : b.atRest = a.atRest := by
  funext r
  unfold State.atRest
  rcases State.known_cases hst hp r with hk | ⟨ch, -, ha, hb⟩
  · rw [hk]
  · rw [ha, hb]; exact h ch

/-- A reference is known to rest as it was, but for the channels whose own rest has changed. -/
theorem State.restsBeneath_of_local (r : Ref)
    (h : ∀ ch, a.localCh? r = some ch →
      countsLost (b.cc.get ch).state.code = countsLost (a.cc.get ch).state.code) :
    b.restsBeneath r = a.restsBeneath r := by
  unfold State.restsBeneath
  rcases State.known_cases hst hp r with hk | ⟨ch, hl, ha, hb⟩
  · rw [hk]
  · rw [ha, hb]; exact h ch hl

end

/-- A node is settled that agrees with a settled one in what is available, in its watch and in its calls,
and in which no channel may enter COAST that could not before. -/
theorem State.settled_of_agree {a b : State} (h : a.settled) (hi : b.mc.image = a.mc.image)
    (hm : b.du.marks = a.du.marks) (hav : b.available = a.available)
    (hcall : ∀ ch, (b.cc.get ch).state = .pending .calling → (a.cc.get ch).state = .pending .calling)
    (hcoast : ∀ ch, b.mayCoast ch = true → a.mayCoast ch = true)
    (hlost : ∀ ch, b.lostProviders ch = a.lostProviders ch) : b.settled := by
  intro ch
  obtain ⟨p, q, r⟩ := h ch
  refine ⟨fun ⟨hc, hv⟩ => p ⟨hcall ch hc, ?_⟩, Bool.eq_false_iff.2 fun hb => ?_, ?_⟩
  · unfold State.providersVerdict State.record at hv ⊢
    rw [hi, hav] at hv; exact hv
  · have ha := hcoast ch hb
    rw [q] at ha; exact Bool.noConfusion ha
  · rw [hm, hlost]; exact r

theorem State.record_of_image {a b : State} (hi : b.mc.image = a.mc.image) (ch : Ch) :
    b.record ch = a.record ch := by unfold State.record; rw [hi]

theorem State.lostProviders_of {a b : State} (hi : b.mc.image = a.mc.image) (ch : Ch)
    (hw : (b.cc.get ch).state.watching = (a.cc.get ch).state.watching)
    (hr : (a.cc.get ch).state.watching = true →
      ∀ r ∈ (a.record ch).needs, b.restsBeneath r = a.restsBeneath r) :
    b.lostProviders ch = a.lostProviders ch := by
  unfold State.lostProviders
  rw [hw, State.record_of_image hi]
  split
  · rename_i h
    exact List.filter_congr fun r hrm => hr h r hrm
  · rfl

theorem State.mayCoast_of {a b : State} (hi : b.mc.image = a.mc.image) (hm : b.mc.mode = a.mc.mode)
    (ch : Ch) (hs : (b.cc.get ch).state = (a.cc.get ch).state) (hh : b.held ch = a.held ch)
    (hr : b.atRest = a.atRest) : b.mayCoast ch = a.mayCoast ch := by
  unfold State.mayCoast State.consumersVerdict
  rw [hs, hh, hm, State.record_of_image hi, hr]

end Sys2Proof.Machine
end

