-- ==== Sys2Proof/Proofs/Signals.lean ====
section
/-! SUPPORT. Commands of the feedback contacts, of run-downs, of activity and of idle windows. -/

namespace Sys2Proof.Machine

/-! ## Feedback (R3, R4) -/

theorem Controller.feedback_rest (b : Bool) (w : Micros) (closed : Bool) (c : Controller) :
    (c.feedback b w closed).state = c.state ∧ (c.feedback b w closed).feedbackClosed = closed ∧
      { c.feedback b w closed with
        feedbackClosed := c.feedbackClosed
        mark := c.mark
        mismatchTimer := c.mismatchTimer } = c := by
  unfold Controller.feedback
  split_ifs <;> exact ⟨rfl, rfl, rfl⟩

/-- A supervised disagreement opens or closes with the contact. -/
theorem Controller.feedback_supervised (w : Micros) (closed : Bool) (c : Controller) :
    if c.state.energised = closed then
      (c.feedback true w closed).mark = none ∧ (c.feedback true w closed).mismatchTimer = none
    else
      (c.feedback true w closed).mark = some .feedback ∧
      (c.feedback true w closed).mismatchTimer = some w := by
  unfold Controller.feedback
  by_cases h : c.state.energised = closed <;> simp [h]

/-- A feedback flag counts for nothing while its channel is supervised. -/
theorem counts_of_supervised {st : ChState} (h : st.supervised = true) (b c : Bool) :
    countsAtRest st.code b = countsAtRest st.code c ∧
      countsAvailable st.code b = countsAvailable st.code c := by
  cases st <;> first | exact ⟨rfl, rfl⟩ | exact Bool.noConfusion h

/-- What a change of a feedback contact does to the node. -/
theorem Event.feedbackChange_spec (ch : Ch) (closed : Bool) (e : Event) :
    (e.feedbackChange ch closed).pins.feedbackClosed = e.pins.feedbackClosed.set ch closed ∧
    ((e.cc.get ch).feedbackClosed = closed → (e.feedbackChange ch closed).cc = e.cc) ∧
    ((e.cc.get ch).feedbackClosed ≠ closed → (e.feedbackChange ch closed).cc = e.cc.set ch
      ((e.cc.get ch).feedback (e.supervises ch) (e.record ch).feedbackWindow closed)) ∧
    (e.feedbackChange ch closed).it = e.it ∧ (e.feedbackChange ch closed).du = e.du ∧
    (e.feedbackChange ch closed).cu = e.cu ∧ (e.feedbackChange ch closed).mc = e.mc ∧
    ∃ b, (e.feedbackChange ch closed).out = { e.out with stateDue := b } := by
  unfold Event.feedbackChange
  simp only
  split
  · rename_i h
    exact ⟨rfl, fun _ => rfl, fun hn => absurd h hn, rfl, rfl, rfl, rfl, e.out.stateDue, rfl⟩
  · rename_i h
    exact ⟨rfl, fun hn => absurd hn h, fun _ => rfl, rfl, rfl, rfl, rfl, true, rfl⟩

/-- A supervised contact that changes in a settled node leaves it settled. -/
theorem Event.feedbackChange_settled (ch : Ch) (closed : Bool) (e : Event) (h : e.toState.settled)
    (hs : (e.cc.get ch).state.supervised = true) : (e.feedbackChange ch closed).toState.settled := by
  obtain ⟨-, hsame, hcc, -, hdu, hcu, hmc, -⟩ := Event.feedbackChange_spec ch closed e
  have channel : ∀ k, ((e.feedbackChange ch closed).cc.get k).state = (e.cc.get k).state ∧
      (k ≠ ch → (e.feedbackChange ch closed).cc.get k = e.cc.get k) := by
    intro k
    by_cases hc : (e.cc.get ch).feedbackClosed = closed
    · rw [hsame hc]; exact ⟨rfl, fun _ => rfl⟩
    · rw [hcc hc]
      refine ⟨?_, fun hk => PerChannel.get_set_other _ hk _⟩
      rw [PerChannel.get_set]; split
      · rename_i hk; subst hk; exact (Controller.feedback_rest _ _ _ _).1
      · rfl
  have counts : ∀ k, countsAtRest ((e.feedbackChange ch closed).cc.get k).state.code
        ((e.feedbackChange ch closed).cc.get k).feedbackClosed =
        countsAtRest (e.cc.get k).state.code (e.cc.get k).feedbackClosed ∧
      countsAvailable ((e.feedbackChange ch closed).cc.get k).state.code
        ((e.feedbackChange ch closed).cc.get k).feedbackClosed =
        countsAvailable (e.cc.get k).state.code (e.cc.get k).feedbackClosed := by
    intro k
    by_cases hk : k = ch
    · subst hk; rw [(channel k).1]; exact counts_of_supervised hs _ _
    · rw [(channel k).2 hk]; exact ⟨rfl, rfl⟩
  have hi : (e.feedbackChange ch closed).mc.image = e.mc.image := by rw [hmc]
  have hst : (e.feedbackChange ch closed).mc.station = e.mc.station := by rw [hmc]
  have hp : (e.feedbackChange ch closed).du.peers = e.du.peers := by rw [hdu]
  have hr := State.atRest_of_local hst hp fun k => (counts k).1
  refine State.settled_of_agree h hi (by rw [hdu])
    (State.available_of_local hst hp fun k => (counts k).2)
    (fun k hk => by rw [← (channel k).1]; exact hk) (fun k hk => ?_) fun k => ?_
  · rw [← State.mayCoast_of hi (by rw [hmc]) k (channel k).1 (State.held_of_same hcu hi k) hr]; exact hk
  · refine State.lostProviders_of hi k (by rw [(channel k).1]) fun _ r _ => ?_
    exact State.restsBeneath_of_local hst hp r fun c _ => by rw [(channel c).1]

/-- Settles O8. -/
theorem feedbackChangeMovesTheFlag : Obligations.FeedbackChangeMovesTheFlag := by
  unfold Obligations.FeedbackChangeMovesTheFlag
  intro m ch closed s a
  obtain ⟨hpins, hsame, hset, -, hdu, -, hmc, b, hout⟩ :=
    Event.feedbackChange_spec ch closed (s.begin m)
  have hstill := Event.feedbackChange_settled ch closed (s.begin m)
  have took := Event.took m.order ((s.begin m).feedbackChange ch closed)
  refine ⟨((((s.begin m).feedbackChange ch closed).settled).flush m.order).toState, rfl, ?_, ?_,
    fun k hk => ?_, fun hne hmode hcase hsup => ?_⟩
  · rw [took.pins, hpins]; rfl
  · rw [took.closed]
    by_cases hc : (a.cc.get ch).feedbackClosed = closed
    · rw [hsame hc]; exact hc
    · rw [hset hc, PerChannel.get_set_same]; exact (Controller.feedback_rest _ _ _ _).2.1
  · rw [took.closed]
    have hk' : ((s.begin m).feedbackChange ch closed).cc.get k = a.cc.get k := by
      by_cases hc : (a.cc.get ch).feedbackClosed = closed
      · rw [hsame hc]; rfl
      · rw [hset hc]; exact PerChannel.get_set_other _ hk _
    rw [hk']
    show (((s.cc.map (Controller.elapse m.elapsed)).get k)).feedbackClosed = _
    rw [PerChannel.get_map]; rfl
  · have hsv : (s.begin m).supervises ch = true := by
      unfold State.supervises
      rw [Bool.and_eq_true, decide_eq_true_eq]; exact ⟨hsup, hmode⟩
    have hc : ((s.begin m).feedbackChange ch closed).cc.get ch =
        (a.cc.get ch).feedback true (a.record ch).feedbackWindow closed := by
      rw [hset hne, PerChannel.get_set_same, hsv]; rfl
    obtain ⟨hst, hcl, hrest⟩ := Controller.feedback_rest true (a.record ch).feedbackWindow closed
      (a.cc.get ch)
    have hmark := Controller.feedback_supervised (a.record ch).feedbackWindow closed (a.cc.get ch)
    rw [← hc] at hst hcl hrest hmark
    -- the channel ends as the effect left it but for its origins, and these too in a settled node
    have settled : s.settled →
        ((((s.begin m).feedbackChange ch closed).settled).flush m.order).cc.get ch =
          ((s.begin m).feedbackChange ch closed).cc.get ch := by
      intro hs
      obtain ⟨q, hq⟩ := Event.follows_still m.order _ (hstill (State.settled_elapse m.elapsed s hs) hsup)
        (by rw [hout]; rfl) (by rw [hout]; rfl) (by rw [hout]; rfl) (by rw [hout]; rfl)
      rw [hq]
    have hend : ((((s.begin m).feedbackChange ch closed).settled).flush m.order).cc.get ch =
        { ((s.begin m).feedbackChange ch closed).cc.get ch with
          origins := (((((s.begin m).feedbackChange ch closed).settled).flush m.order).cc.get ch).origins } := by
      rcases hcase with h | h
      · exact took.stays_eq ch (by rw [hst]; exact h)
      · rw [settled h]
    refine ⟨by rw [hend]; exact hst, ?_, fun hs => ?_, ?_⟩
    · rw [hend]
      have := congrArg (fun c : Controller => { c with origins := (a.cc.get ch).origins }) hrest
      exact this
    · rw [settled hs]
      have := congrArg Controller.origins hrest
      exact this
    · rw [hend]; exact hmark

end Sys2Proof.Machine
end

