-- ==== Sys2Proof/Proofs/Run.lean ====
section
/-! SUPPORT. Commands of run-downs, of activity and of idle windows. -/

namespace Sys2Proof.Machine

/-! ## Run-downs (R20) -/

theorem OriginSet.isEmpty_iff (o : OriginSet) : o.isEmpty = true ↔ o = {} := by
  unfold OriginSet.isEmpty; exact decide_eq_true_iff

/-- A run-down with wakes recorded ends in PENDING. -/
theorem Event.runDownEnds_pending (ch : Ch) (e : Event) (h : (e.cc.get ch).origins ≠ {}) :
    ((e.runDownEnds ch).cc.get ch).state.isPending = true ∧
      ((e.runDownEnds ch).cc.get ch).origins = (e.cc.get ch).origins ∧
      ((e.runDownEnds ch).cc.get ch).runDownTimer = none := by
  have hor : ((e.modCc ch fun c => { c with runDownTimer := none }).cc.get ch).origins =
      (e.cc.get ch).origins := by rw [Event.modCc_cc, PerChannel.get_set_same]
  unfold Event.runDownEnds
  simp only
  rw [if_neg fun hE => h ((OriginSet.isEmpty_iff _).1 (hor ▸ hE))]
  generalize (e.modCc ch fun c => { c with runDownTimer := none }) = e1 at hor ⊢
  obtain ⟨sub, -, hcc, -⟩ := Event.enterPending_spec ch e1
  obtain ⟨-, -, -, ho, hr, -⟩ := Controller.enter_rest (e1.record ch).feedbackWindow (.pending sub)
    (e1.cc.get ch).forPending
  rw [hcc, PerChannel.get_set_same, Controller.enter_state]
  exact ⟨rfl, ho.trans hor, hr⟩

/-- A run-down with no wake recorded ends in REST. -/
theorem Event.runDownEnds_rest (ch : Ch) (e : Event) (h : (e.cc.get ch).origins = {})
    (hst : (e.cc.get ch).state = .coast) :
    (e.runDownEnds ch).cc = e.cc.set ch { e.cc.get ch with state := .rest, runDownTimer := none } ∧
      (e.runDownEnds ch).it = e.it ∧ (e.runDownEnds ch).du = e.du ∧ (e.runDownEnds ch).cu = e.cu ∧
      (e.runDownEnds ch).mc = e.mc ∧ ∃ b, (e.runDownEnds ch).out = { e.out with stateDue := b } := by
  have hc : (e.modCc ch fun c => { c with runDownTimer := none }).cc.get ch =
      { e.cc.get ch with runDownTimer := none } := by rw [Event.modCc_cc, PerChannel.get_set_same]
  have heq : e.runDownEnds ch = (e.modCc ch fun c => { c with runDownTimer := none }).setState ch .rest := by
    unfold Event.runDownEnds
    simp only
    exact if_pos ((OriginSet.isEmpty_iff _).2 (by rw [hc]; exact h))
  have hk := Event.setState_kept ch .rest (e.modCc ch fun c => { c with runDownTimer := none })
  rw [heq]
  refine ⟨?_, Event.setState_it _ _ _, Event.setState_du _ _ _, hk.cu, Event.setState_mc _ _ _, ?_⟩
  · rw [Event.setState_cc, hc, Controller.enter_alike _ .rest _ rfl (by rw [hst]; rfl) (by rw [hst]; rfl),
      Event.modCc_cc, PerChannel.set_set]
  · unfold Event.setState
    split
    · exact ⟨e.out.stateDue, rfl⟩
    · exact ⟨true, rfl⟩

/-- The end of a run-down in REST leaves a settled node settled, where no channel waits to follow it. -/
theorem Event.runDownEnds_settled (ch : Ch) (e : Event) (h : e.toState.settled)
    (ho : (e.cc.get ch).origins = {}) (hst : (e.cc.get ch).state = .coast)
    (hw : ∀ k, (e.cc.get k).state ≠ .waiting) : (e.runDownEnds ch).toState.settled := by
  obtain ⟨hcc, -, hdu, -, hmc, -⟩ := Event.runDownEnds_rest ch e ho hst
  have here : ((e.runDownEnds ch).cc.get ch).state = .rest := by rw [hcc, PerChannel.get_set_same]
  have other : ∀ k, k ≠ ch → (e.runDownEnds ch).cc.get k = e.cc.get k := fun k hk => by
    rw [hcc]; exact PerChannel.get_set_other _ hk _
  have hi : (e.runDownEnds ch).mc.image = e.mc.image := by rw [hmc]
  have hs : (e.runDownEnds ch).mc.station = e.mc.station := by rw [hmc]
  have hp : (e.runDownEnds ch).du.peers = e.du.peers := by rw [hdu]
  refine State.settled_of_agree h hi (by rw [hdu]) (State.available_of_local hs hp fun k => ?_)
    (fun k hk => ?_) (fun k hk => ?_) fun k => ?_
  · by_cases hk : k = ch
    · subst hk; rw [here, hst]; rfl
    · rw [other k hk]
  · by_cases hk' : k = ch
    · subst hk'; rw [here] at hk; exact ChState.noConfusion hk
    · rw [← other k hk']; exact hk
  · exfalso
    unfold State.mayCoast at hk
    simp only [Bool.and_eq_true, decide_eq_true_eq] at hk
    have hkw := hk.1.1.1
    by_cases hk' : k = ch
    · subst hk'; rw [here] at hkw; exact ChState.noConfusion hkw
    · rw [other k hk'] at hkw; exact hw k hkw
  · refine State.lostProviders_of hi k ?_ fun _ r _ => State.restsBeneath_of_local hs hp r fun c _ => ?_
    · by_cases hk : k = ch
      · subst hk; rw [here, hst]; rfl
      · rw [other k hk]
    · by_cases hc : c = ch
      · subst hc; rw [here, hst]; rfl
      · rw [other c hc]

/-- Settles O12. -/
theorem runDownEndsInRestOrPending : Obligations.RunDownEndsInRestOrPending := by
  unfold Obligations.RunDownEndsInRestOrPending
  intro m ch s a c hst hd
  have heq : (s.begin m).runDownExpires ch = (s.begin m).runDownEnds ch := by
    have h1 : ((s.begin m).cc.get ch).state = .coast := hst
    have h2 : Timer.due ((s.begin m).cc.get ch).runDownTimer = true := hd
    unfold Event.runDownExpires; rw [h1, h2]
  have took := Event.took m.order ((s.begin m).runDownEnds ch)
  refine ⟨((((s.begin m).runDownEnds ch).settled).flush m.order).toState, ?_, ?_, fun ho => ?_,
    fun ho hs hw => ?_⟩
  · rw [exec_eq, ← heq]; rfl
  · by_cases ho : c.origins = {}
    · obtain ⟨hcc, -⟩ := Event.runDownEnds_rest ch (s.begin m) ho hst
      have hc : ((s.begin m).runDownEnds ch).cc.get ch = { c with state := .rest, runDownTimer := none } := by
        rw [hcc, PerChannel.get_set_same]; rfl
      exact took.runDown ch (by rw [hc]; exact ChState.noConfusion) (by rw [hc])
    · obtain ⟨hp, -, hr⟩ := Event.runDownEnds_pending ch (s.begin m) ho
      exact took.runDown ch (fun hw => by rw [hw] at hp; exact Bool.noConfusion hp) hr
  · obtain ⟨hp, hor, -⟩ := Event.runDownEnds_pending ch (s.begin m) ho
    exact ⟨took.pending_kept ch hp, fun o h => took.origins ch o (by rw [hor]; exact h)⟩
  · obtain ⟨hcc, -, -, -, -, b, hout⟩ := Event.runDownEnds_rest ch (s.begin m) ho hst
    obtain ⟨q, hq⟩ := Event.follows_still m.order _
      (Event.runDownEnds_settled ch (s.begin m) (State.settled_elapse m.elapsed s hs) ho hst
        fun k => by show ((s.elapse m.elapsed).cc.get k).state ≠ _; rw [State.state_elapse]; exact hw k)
      (by rw [hout]; rfl) (by rw [hout]; rfl) (by rw [hout]; rfl) (by rw [hout]; rfl)
    rw [hq]
    show (((s.begin m).runDownEnds ch).cc.get ch).state = _ ∧
      (((s.begin m).runDownEnds ch).cc.get ch).origins = _
    rw [hcc, PerChannel.get_set_same]
    exact ⟨rfl, ho⟩

/-! ## Cadence (R42) -/

theorem cadenceOf_short (marks : List Nat) (h : marks.length < 4) : cadenceOf marks = none := by
  match marks, h with
  | [], _ | [_], _ | [_, _], _ | [_, _, _], _ => rfl
  | _ :: _ :: _ :: _ :: _, h => simp only [List.length_cons] at h; omega

/-- An interval is regular where it differs from the mean of the three by an eighth of it at most. -/
theorem regularInterval_iff (sum i : Nat) :
    regularInterval sum i = true ↔ |(i : ℚ) - sum / 3| ≤ (sum / 3 : ℚ) / 8 := by
  unfold regularInterval
  rw [Bool.and_eq_true, decide_eq_true_eq, decide_eq_true_eq, abs_le]
  constructor
  · rintro ⟨h1, h2⟩
    have h1' : (8 * (3 * i) : ℚ) ≤ 9 * sum := by exact_mod_cast h1
    have h2' : (7 * sum : ℚ) ≤ 8 * (3 * i) := by exact_mod_cast h2
    constructor <;> linarith
  · rintro ⟨h1, h2⟩
    have h1' : (8 * (3 * i) : ℚ) ≤ 9 * sum := by linarith
    have h2' : (7 * sum : ℚ) ≤ 8 * (3 * i) := by linarith
    exact ⟨by exact_mod_cast h1', by exact_mod_cast h2'⟩

theorem cadenceOf_four (p q r t : Nat) : cadenceOf [p, q, r, t] =
    let sum := (p - q) + (q - r) + (r - t)
    if regularInterval sum (p - q) && regularInterval sum (q - r) && regularInterval sum (r - t) &&
        decide (30 ≤ sum) then some (min (sum / 30) Config.cadenceCap)
    else none := rfl

/-- The cadence is the mean interval in whole seconds, where the three are regular and it is 1 s or more. -/
theorem cadenceOf_regular (p q r t : Nat) (h1 : t ≤ r) (h2 : r ≤ q) (h3 : q ≤ p) :
    let intervals : List ℚ := [p - q, q - r, r - t]
    let mean : ℚ := intervals.sum / 3
    let regular : Prop := ∀ i ∈ intervals, |i - mean| ≤ mean / 8
    (regular → 10 ≤ mean → cadenceOf [p, q, r, t] = some (min ⌊mean / 10⌋₊ 65535)) ∧
    (¬regular ∨ mean < 10 → cadenceOf [p, q, r, t] = none) := by
  intro intervals mean regular
  set sum := (p - q) + (q - r) + (r - t) with hsum
  have hmean : mean = (sum : ℚ) / 3 := by
    simp only [mean, intervals, List.sum_cons, List.sum_nil, hsum]
    push_cast [Nat.cast_sub h1, Nat.cast_sub h2, Nat.cast_sub h3]
    ring
  have hreg : regular ↔ (regularInterval sum (p - q) && regularInterval sum (q - r) &&
      regularInterval sum (r - t)) = true := by
    simp only [regular, intervals, Bool.and_eq_true, regularInterval_iff, hmean, List.mem_cons,
      List.not_mem_nil, or_false, forall_eq_or_imp, forall_eq, and_assoc, Nat.cast_sub h1,
      Nat.cast_sub h2, Nat.cast_sub h3]
  have hten : (10 : ℚ) ≤ mean ↔ 30 ≤ sum := by
    rw [hmean, le_div_iff₀ (by norm_num)]
    constructor
    · intro h; have : (30 : ℚ) ≤ sum := by linarith
      exact_mod_cast this
    · intro h; have : (30 : ℚ) ≤ sum := by exact_mod_cast h
      linarith
  have hfloor : ⌊mean / 10⌋₊ = sum / 30 := by
    rw [hmean, div_div, show (3 * 10 : ℚ) = ((30 : ℕ) : ℚ) by norm_num, Nat.floor_div_eq_div]
  rw [cadenceOf_four]
  simp only
  rw [← hsum, hfloor]
  refine ⟨fun hr ht => ?_, fun hno => if_neg fun h => ?_⟩
  · rw [if_pos]
    · rfl
    · rw [Bool.and_eq_true, decide_eq_true_eq]; exact ⟨hreg.1 hr, hten.1 ht⟩
  · rw [Bool.and_eq_true, decide_eq_true_eq] at h
    rcases hno with hn | hn
    · exact hn (hreg.2 h.1)
    · exact absurd (hten.2 h.2) (not_le.2 hn)

end Sys2Proof.Machine
end

