-- ==== Sys2Proof/Proofs/Idle.lean ====
section
/-! SUPPORT. The debounce of activity and the idle window. -/

namespace Sys2Proof.Machine

/-! ## Activity (R35 to R37) -/

theorem ChState.tracked_iff (st : ChState) : st.tracked = true ↔ st = .awake ∨ st = .waiting := by
  cases st <;> simp [ChState.tracked]

/-- A return to AWAKE: the channel is AWAKE where it ran, and its tracker is not touched. -/
theorem Event.returnToAwake_spec (ch : Ch) (e : Event) :
    ((e.cc.get ch).state.tracked = true → ((e.returnToAwake ch).cc.get ch).state = .awake) ∧
      ((e.cc.get ch).state ≠ .waiting → e.returnToAwake ch = e) ∧
      (e.returnToAwake ch).it = e.it ∧ NodeKept e (e.returnToAwake ch) ∧
      (e.returnToAwake ch).mc = e.mc ∧ (e.returnToAwake ch).du = e.du ∧
      e.unnoticed (e.returnToAwake ch) ∧
      ∀ k, k ≠ ch → (e.returnToAwake ch).cc.get k = e.cc.get k := by
  unfold Event.returnToAwake
  split
  · rename_i h
    refine ⟨fun _ => ?_, fun hn => absurd h hn, Event.setState_it _ _ _, Event.setState_kept _ _ _,
      Event.setState_mc _ _ _, Event.setState_du _ _ _, Event.setState_unnoticed _ _ _, fun k hk => ?_⟩
    · rw [Event.setState_cc, PerChannel.get_set_same]; exact Controller.enter_state _ _ _
    · rw [Event.setState_cc]; exact PerChannel.get_set_other _ hk _
  · rename_i h
    exact ⟨fun ht => ((ChState.tracked_iff _).1 ht).resolve_right h, fun _ => rfl, rfl, NodeKept.refl e, rfl,
      rfl, Event.unnoticed_refl e, fun _ _ => rfl⟩

theorem Tracker.onset_eq (full now : Micros) (u : Tracker) (h : u.status ≠ .stopped) :
    u.onset full now =
      { u with
        active := true
        debounceTimer := none
        count := 0
        history := (onsetMark now :: u.history).take 4
        cadence := cadenceOf ((onsetMark now :: u.history).take 4)
        sinceOnset := some 0
        windowTimer := if u.status = .running then some full else u.windowTimer
        remaining := if u.status = .paused then some full else u.remaining } := by
  cases hs : u.status with
  | stopped => exact absurd hs h
  | running | paused => simp [Tracker.onset, Tracker.beginWindow, hs]

theorem Tracker.activityEnd_eq (full : Micros) (u : Tracker) (h : u.status ≠ .stopped) :
    u.activityEnd full =
      { u with
        active := false
        debounceTimer := none
        windowTimer := if u.status = .running then some full else u.windowTimer
        remaining := if u.status = .paused then some full else u.remaining } := by
  cases hs : u.status with
  | stopped => exact absurd hs h
  | running | paused => simp [Tracker.activityEnd, Tracker.beginWindow, hs]

theorem Event.activityDebounced_onset (ch : Ch) (e : Event)
    (hd : Timer.due (e.it.get ch).debounceTimer = true) (hs : e.pins.senseActive.get ch = true) :
    e.activityDebounced ch = e.onset ch := by
  unfold Event.activityDebounced; rw [if_pos hd, if_pos hs]

theorem Event.activityDebounced_end (ch : Ch) (e : Event)
    (hd : Timer.due (e.it.get ch).debounceTimer = true) (hs : e.pins.senseActive.get ch = false) :
    e.activityDebounced ch =
      { e with it := e.it.set ch ((e.it.get ch).activityEnd (e.record ch).idleWindow) } := by
  unfold Event.activityDebounced
  rw [if_pos hd, if_neg (by rw [hs]; exact Bool.noConfusion)]; rfl

/-- Settles O15: an onset and an activity end, and the cadence of four marks. -/
theorem activityDebounceTakesTheLevel : Obligations.ActivityDebounceTakesTheLevel := by
  unfold Obligations.ActivityDebounceTakesTheLevel
  refine ⟨?_, cadenceOf_short, cadenceOf_regular⟩
  intro m ch s a u newWindow newRemaining history hrun hd
  refine ⟨fun hs ht => ?_, fun hs hset => ?_⟩
  · have heq := Event.activityDebounced_onset ch (s.begin m) hd hs
    obtain ⟨hst, -, hit, -⟩ := Event.returnToAwake_spec ch
      ((s.begin m).modIt ch (Tracker.onset (a.record ch).idleWindow a.now))
    have hst : (((s.begin m).onset ch).cc.get ch).state = .awake := hst ht
    have took := Event.took m.order ((s.begin m).onset ch)
    refine ⟨_, (exec_eq _ s).trans (congrArg (fun e : Event =>
      Host.Outcome.next (e.settled.flush m.order).toState) heq),
      (took.code_kept ch (by rw [hst]; rfl)).trans hst, ?_⟩
    rw [took.tracker ch (by rw [hst]; exact ChState.noConfusion)]
    have hit : ((s.begin m).onset ch).it.get ch = u.onset (a.record ch).idleWindow a.now := by
      rw [show ((s.begin m).onset ch).it = _ from hit, Event.modIt_it, PerChannel.get_set_same]; rfl
    rw [hit, Tracker.onset_eq _ _ u hrun]
  · refine take_settled m (Event.activityDebounced ch) s _ hset ?_ (fun _ => rfl) (fun _ => rfl) rfl rfl
      rfl rfl rfl fun _ => rfl
    rw [Event.activityDebounced_end ch (s.begin m) hd hs, show (s.begin m).it.get ch = u from rfl,
      Tracker.activityEnd_eq _ u hrun]
    rfl

/-! ## Idle windows (R38 to R40) -/

/-- An AWAKE channel that enters WAITING: nothing that the verdicts read changes. -/
theorem State.settled_of_waiting {a b : State} (ch : Ch) (h : a.settled) (hmc : b.mc = a.mc)
    (hdu : b.du = a.du) (hcu : b.cu = a.cu) (hst : (a.cc.get ch).state = .awake)
    (here : (b.cc.get ch).state = .waiting ∨ (b.cc.get ch).state = .awake)
    (other : ∀ k, k ≠ ch → (b.cc.get k).state = (a.cc.get k).state ∧
      (b.cc.get k).feedbackClosed = (a.cc.get k).feedbackClosed)
    (hv : (b.cc.get ch).state = .waiting → a.consumersVerdict ch = false) : b.settled := by
  have hi : b.mc.image = a.mc.image := by rw [hmc]
  have hs : b.mc.station = a.mc.station := by rw [hmc]
  have hp : b.du.peers = a.du.peers := by rw [hdu]
  have hr : b.atRest = a.atRest := State.atRest_of_local hs hp fun k => by
    by_cases hk : k = ch
    · subst hk; rw [hst]; rcases here with h | h <;> (rw [h]; rfl)
    · rw [(other k hk).1, (other k hk).2]
  refine State.settled_of_agree h hi (by rw [hdu]) (State.available_of_local hs hp fun k => ?_)
    (fun k hk => ?_) (fun k hk => ?_) fun k => ?_
  · by_cases hk : k = ch
    · subst hk; rw [hst]; rcases here with h | h <;> (rw [h]; rfl)
    · rw [(other k hk).1, (other k hk).2]
  · by_cases hk' : k = ch
    · subst hk'; rcases here with h | h <;> (rw [h] at hk; exact ChState.noConfusion hk)
    · rw [← (other k hk').1]; exact hk
  · by_cases hk' : k = ch
    · subst hk'
      exfalso
      unfold State.mayCoast at hk
      simp only [Bool.and_eq_true, decide_eq_true_eq] at hk
      obtain ⟨⟨⟨hw, -⟩, -⟩, hc⟩ := hk
      have := hv hw
      unfold State.consumersVerdict at hc this
      rw [State.record_of_image hi, hr] at hc
      rw [hc] at this; exact Bool.noConfusion this
    · rw [← State.mayCoast_of hi (by rw [hmc]) k (other k hk').1 (State.held_of_same hcu hi k) hr]; exact hk
  · refine State.lostProviders_of hi k ?_ fun _ r _ => State.restsBeneath_of_local hs hp r fun c _ => ?_
    · by_cases hk : k = ch
      · subst hk; rw [hst]
        rcases here with h | h
        · rw [h]; rfl
        · rw [h]
      · rw [(other k hk).1]
    · by_cases hc : c = ch
      · subst hc; rw [hst]
        rcases here with h | h
        · rw [h]; rfl
        · rw [h]
      · rw [(other c hc).1]

/-- An AWAKE channel whose window has been judged, before it may wait. -/
def Event.judgeWindow (ch : Ch) (e : Event) : Event :=
  (e.modCc ch fun c => { c with tripCount := 0 }).modIt ch
    (Tracker.windowExpired (e.record ch).idleWindow (e.held ch))

theorem Event.windowExpired_eq (ch : Ch) (e : Event) : e.windowExpired ch =
    if !e.idleConfirmed ch && (e.judgeWindow ch).idleConfirmed ch then (e.judgeWindow ch).tryWait ch
    else e.judgeWindow ch := rfl

theorem Event.judgeWindow_tracker (ch : Ch) (e : Event) : (e.judgeWindow ch).it.get ch =
    (e.it.get ch).windowExpired (e.record ch).idleWindow (e.held ch) := by
  unfold Event.judgeWindow
  rw [Event.modIt_it, PerChannel.get_set_same]; rfl

theorem Event.judgeWindow_controller (ch : Ch) (e : Event) :
    (e.judgeWindow ch).cc.get ch = { e.cc.get ch with tripCount := 0 } := by
  unfold Event.judgeWindow
  rw [Event.modIt_cc, Event.modCc_cc, PerChannel.get_set_same]

/-- A channel that may wait enters WAITING, and nothing else of the node changes but its lamp. -/
theorem Event.tryWait_spec (ch : Ch) (e : Event) (h : e.mayWait ch = true) :
    (e.tryWait ch).cc = e.cc.set ch { e.cc.get ch with state := .waiting } ∧ (e.tryWait ch).it = e.it ∧
      (e.tryWait ch).mc = e.mc ∧ (e.tryWait ch).du = e.du ∧ (e.tryWait ch).cu = e.cu ∧
      ∃ b, (e.tryWait ch).out = { e.out with stateDue := b } := by
  have hst := State.mayWait_awake h
  have hk := Event.setState_kept ch .waiting e
  unfold Event.tryWait
  rw [if_pos h]
  refine ⟨?_, Event.setState_it _ _ _, Event.setState_mc _ _ _, Event.setState_du _ _ _, hk.cu, ?_⟩
  · rw [Event.setState_cc, Controller.enter_alike _ .waiting _ rfl (by rw [hst]; rfl) (by rw [hst]; rfl)]
  · unfold Event.setState
    split
    · exact ⟨e.out.stateDue, rfl⟩
    · exact ⟨true, rfl⟩

theorem Tracker.confirms_iff (held : Bool) (u : Tracker) : u.confirms held = true ↔
    u.active = false ∧
      (∀ c since, u.cadence = some c → u.sinceOnset = some since → Config.sec (2 * c) < since) ∧
      held = false := by
  unfold Tracker.confirms Tracker.guardPassed
  cases u.active <;> cases u.cadence <;> cases u.sinceOnset <;> cases held <;> simp

theorem State.mayWait_iff (s : State) (ch : Ch) : s.mayWait ch = true ↔ (s.cc.get ch).state = .awake ∧
    (s.record ch).requiredCount ≤ (s.it.get ch).count ∧ s.pu.phase.permits (s.record ch).rank = true ∧
    s.held ch = false ∧ s.mc.mode = .operating := by
  unfold State.mayWait State.idleConfirmed
  simp only [Bool.and_eq_true, decide_eq_true_eq, Bool.not_eq_true', and_assoc]

/-- Settles O16. -/
theorem idleWindowExpiryJudgesTheWindow : Obligations.IdleWindowExpiryJudgesTheWindow := by
  unfold Obligations.IdleWindowExpiryJudgesTheWindow
  intro m ch s a u confirms rests hset hst hrun hd
  have heq : (s.begin m).idleWindowEnds ch = (s.begin m).windowExpired ch := by
    unfold Event.idleWindowEnds; exact if_pos ⟨hrun, hd⟩
  rw [Event.windowExpired_eq] at heq
  generalize hj : (s.begin m).judgeWindow ch = e at heq
  have hit : e.it.get ch = u.windowExpired (a.record ch).idleWindow (a.held ch) := by
    rw [← hj]; exact Event.judgeWindow_tracker ch _
  have hcc : e.cc.get ch = { a.cc.get ch with tripCount := 0 } := by
    rw [← hj]; exact Event.judgeWindow_controller ch _
  have hother : ∀ k, k ≠ ch → e.cc.get k = a.cc.get k := fun k hk => by
    rw [← hj]; exact PerChannel.get_set_other _ hk _
  have hmc : e.mc = a.mc := by rw [← hj]; rfl
  have hpu : e.pu = a.pu := by rw [← hj]; rfl
  have hdu : e.du = a.du := by rw [← hj]; rfl
  have hcu : e.cu = a.cu := by rw [← hj]; rfl
  have hout : e.out = {} := by rw [← hj]; rfl
  have hrec : e.record ch = a.record ch := State.record_of_mc hmc ch
  have hheld : e.held ch = a.held ch := State.held_of_same hcu (by rw [hmc]) ch
  have hcount : (confirms → (e.it.get ch).count = min (u.count + 1) 15) ∧
      (¬confirms → (e.it.get ch).count = u.count) := by
    rw [hit]
    refine ⟨fun h => if_pos ((Tracker.confirms_iff _ u).2 h), fun h => if_neg fun hc => h ?_⟩
    exact (Tracker.confirms_iff _ u).1 hc
  have hwin : (e.it.get ch).windowTimer = some (a.record ch).idleWindow := by rw [hit]; rfl
  -- the channel rests exactly where the window completes its count and it may wait
  have hrests : rests ↔ (!(s.begin m).idleConfirmed ch && e.idleConfirmed ch) = true ∧
      e.mayWait ch = true := by
    rw [State.mayWait_iff, hrec, hheld, hpu, hmc, hcc]
    unfold State.idleConfirmed
    simp only [Bool.and_eq_true, Bool.not_eq_true', decide_eq_false_iff_not, decide_eq_true_eq, hrec]
    constructor
    · rintro ⟨hc, hlt, hle, hph, hmo⟩
      rw [hcount.1 hc]
      exact ⟨⟨not_le.2 hlt, hle⟩, hst, hle, hph, hc.2.2, hmo⟩
    · rintro ⟨⟨hlt, hle⟩, -, -, hph, hh, hmo⟩
      have hc : confirms := by
        by_contra hn
        rw [hcount.2 hn] at hle; exact hlt hle
      rw [hcount.1 hc] at hle
      exact ⟨hc, not_le.1 hlt, hle, hph, hmo⟩
  by_cases hR : rests
  · obtain ⟨hb, hw⟩ := hrests.1 hR
    rw [if_pos hb] at heq
    obtain ⟨wcc, wit, wmc, wdu, wcu, b, wout⟩ := Event.tryWait_spec ch e hw
    generalize e.tryWait ch = e1 at heq wcc wit wmc wdu wcu wout
    have hc1 : e1.cc.get ch = { a.cc.get ch with tripCount := 0, state := .waiting } := by
      rw [wcc, PerChannel.get_set_same, hcc]
    have other1 : ∀ k, k ≠ ch → e1.cc.get k = a.cc.get k := fun k hk => by
      rw [wcc, PerChannel.get_set_other _ hk, hother k hk]
    have hrec1 : e1.record ch = a.record ch := State.record_of_mc (wmc.trans hmc) ch
    have hcv : e1.consumersVerdict ch = a.consumersVerdict ch := by
      have hr : e1.atRest = a.atRest := State.atRest_of_local (by rw [wmc, hmc]) (by rw [wdu, hdu])
        fun k => by
          by_cases hk : k = ch
          · subst hk; rw [hc1, hst]; rfl
          · rw [other1 k hk]
      unfold State.consumersVerdict; rw [hrec1, hr]
    have took := Event.took m.order e1
    refine ⟨(e1.settled.flush m.order).toState, (exec_eq _ s).trans (congrArg (fun e : Event =>
      Host.Outcome.next (e.settled.flush m.order).toState) heq), (took.trips ch).trans (by rw [hc1]),
      fun h => absurd hR h, ?_⟩
    cases hv : a.consumersVerdict ch with
    | true =>
      have hco : e1.mayCoast ch = true := by
        unfold State.mayCoast
        rw [hcv, hv, hc1, State.held_of_same (wcu.trans hcu) (by rw [wmc, hmc]) ch, hR.1.2.2, wmc, hmc,
          show a.mc.mode = .operating from hR.2.2.2.2]
        rfl
      obtain ⟨-, hoff, hopen, htr⟩ := Event.follows_coasts m.order e1
        (Event.duesNeeded_of_none (by rw [wout, hout])) ch hco
      refine ⟨fun _ h => Bool.noConfusion h, fun _ _ => ⟨?_, ?_, ?_⟩,
        fun h => (h.elim (fun h => h hR) fun h => Bool.noConfusion h).elim⟩
      · unfold State.coilDrive; rw [hoff]; exact Bool.and_false _
      · rw [htr, wit, hit]
        unfold Tracker.stopClear
        rw [show (u.windowExpired _ _).status = .running from hrun]; rfl
      · rw [hc1, hrec1] at hopen; exact hopen.of_was rfl
    | false =>
      have hs1 : e1.toState.settled := State.settled_of_waiting ch (State.settled_elapse m.elapsed s hset)
        (wmc.trans hmc) (wdu.trans hdu) (wcu.trans hcu) hst (.inl (by rw [hc1]))
        (fun k hk => by rw [other1 k hk]; exact ⟨rfl, rfl⟩) fun _ => hv
      obtain ⟨q, hq⟩ := Event.follows_still m.order e1 hs1 (by rw [wout, hout]) (by rw [wout, hout])
        (by rw [wout, hout]) (by rw [wout, hout])
      have htc : (e1.settled.flush m.order).cc = e1.cc := by rw [hq]
      have htt : (e1.settled.flush m.order).it = e1.it := by rw [hq]
      refine ⟨fun _ _ => ?_, fun _ h => Bool.noConfusion h, fun _ => ?_⟩
      · rw [htc, hc1]
      · rw [htt, wit]
        exact ⟨hwin, hcount.1, hcount.2⟩
  · have heq' : (s.begin m).idleWindowEnds ch = e := by
      rw [heq]
      split
      · rename_i hb
        have hn : ¬e.mayWait ch = true := fun hw => hR (hrests.2 ⟨hb, hw⟩)
        unfold Event.tryWait; exact if_neg hn
      · rfl
    have took := Event.took m.order e
    have hst1 : (e.cc.get ch).state = .awake := by rw [hcc]; exact hst
    have htt := took.tracker ch (by rw [hst1]; exact ChState.noConfusion)
    refine ⟨(e.settled.flush m.order).toState, (exec_eq _ s).trans (congrArg (fun e : Event =>
      Host.Outcome.next (e.settled.flush m.order).toState) heq'), (took.trips ch).trans (by rw [hcc]),
      fun _ => (took.code_kept ch (by rw [hst1]; rfl)).trans hst1, fun h => absurd h hR,
      fun h => absurd h hR, fun _ => ?_⟩
    rw [htt]
    exact ⟨hwin, hcount.1, hcount.2⟩

end Sys2Proof.Machine
end

