-- ==== Sys2Proof/Proofs/Inrush.lean ====
section
/-! SUPPORT. The end of an inrush window (R26, R89): no LIVE claim of the load is left, and its RELEASE stands
in the queue where the queue takes it (R157). -/

namespace Sys2Proof.Machine

/-! ## A RELEASE in the queue (R157) -/

theorem dropOldestReport_none {q : List Frame} (h : dropOldestReport q = none) :
    ∀ f ∈ q, f.isReport = false := by
  induction q with
  | nil => simp
  | cons g rest ih =>
    unfold dropOldestReport at h
    split at h
    · exact absurd h (by simp)
    · rename_i hg
      intro f hf
      rcases List.mem_cons.1 hf with rfl | hf
      · simpa using hg
      · exact ih (Option.map_eq_none_iff.1 h) f hf

theorem dropOldestReport_mem {q r : List Frame} (h : dropOldestReport q = some r) {f : Frame} (hf : f ∈ q)
    (hn : f.isReport = false) : f ∈ r := by
  induction q generalizing r with
  | nil => exact absurd hf (by simp)
  | cons g rest ih =>
    unfold dropOldestReport at h
    split at h
    · rename_i hg
      obtain rfl := Option.some.inj h
      rcases List.mem_cons.1 hf with rfl | hf
      · rw [hn] at hg; exact Bool.noConfusion hg
      · exact hf
    · obtain ⟨r', hr', rfl⟩ := Option.map_eq_some_iff.1 h
      rcases List.mem_cons.1 hf with rfl | hf
      · exact List.mem_cons_self ..
      · exact List.mem_cons_of_mem _ (ih hr' hf)

theorem dropOldestReport_subset {q r : List Frame} (h : dropOldestReport q = some r) : ∃ f ∈ q, f.isReport := by
  induction q generalizing r with
  | nil => exact absurd h (by simp [dropOldestReport])
  | cons g rest ih =>
    unfold dropOldestReport at h
    split at h
    · rename_i hg; exact ⟨g, List.mem_cons_self .., hg⟩
    · obtain ⟨r', hr', -⟩ := Option.map_eq_some_iff.1 h
      obtain ⟨f, hf, hr⟩ := ih hr'
      exact ⟨f, List.mem_cons_of_mem _ hf, hr⟩

/-- A frame that is neither a STATE nor a report and for which a full queue makes room (R157). -/
def Frame.pressing (f : Frame) : Prop := f.displaces = true ∧ f.isReport = false ∧ f.isState = false

/-- The frame stands in the queue, unless the queue is full of frames that make no room for it. -/
def stands (f : Frame) (q : List Frame) : Prop :=
  f ∈ q ∨ 16 ≤ q.length ∧ ∀ g ∈ q, g.isReport = false

theorem joinQueue_stands_self {f : Frame} (hf : f.pressing) (q : List Frame) : stands f (joinQueue f q) := by
  obtain ⟨hd, -, hs⟩ := hf
  unfold joinQueue
  rw [hs, Bool.false_and, if_neg Bool.noConfusion]
  split
  · exact .inl (List.mem_append_right _ (List.mem_singleton.2 rfl))
  · rename_i hl
    split
    · exact .inl (List.mem_append_right _ (List.mem_singleton.2 rfl))
    · rename_i hn; exact .inr ⟨Nat.le_of_not_lt hl, dropOldestReport_none hn⟩

theorem joinQueue_stands {f : Frame} (hf : f.pressing) (g : Frame) {q : List Frame} (h : stands f q) :
    stands f (joinQueue g q) := by
  obtain ⟨-, hr, hs⟩ := hf
  unfold joinQueue
  split
  · -- a STATE frame takes the place of another
    rename_i hg
    rcases h with h | ⟨hl, hn⟩
    · exact .inl (List.mem_map.2 ⟨f, h, by rw [hs]; rfl⟩)
    · refine .inr ⟨by unfold replaceState; rw [List.length_map]; exact hl, fun k hk => ?_⟩
      obtain ⟨c, hc, rfl⟩ := List.mem_map.1 hk
      split
      · have hgs := (Bool.and_eq_true_iff.1 hg).1
        unfold Frame.isState at hgs
        unfold Frame.isReport
        split at hgs
        · rename_i hb; rw [hb]
        · exact Bool.noConfusion hgs
      · exact hn c hc
  · split
    · rename_i hl
      rcases h with h | ⟨hle, -⟩
      · exact .inl (List.mem_append_left _ h)
      · exact absurd (show q.length < 16 from hl) (Nat.not_lt.2 hle)
    · split
      · split
        · rename_i r hdr
          rcases h with h | ⟨-, hn⟩
          · exact .inl (List.mem_append_left _ (dropOldestReport_mem hdr h hr))
          · obtain ⟨c, hc, hcr⟩ := dropOldestReport_subset hdr
            rw [hn c hc] at hcr; exact Bool.noConfusion hcr
        · exact h
      · exact h

/-- The mode takes the frame, and it stands in the queue. -/
def State.hasQueued (f : Frame) (s : State) : Prop := s.queueTakes f.body = true ∧ stands f s.li.queue

theorem Event.enqueue_hasQueued {f : Frame} (hf : f.pressing) (g : Frame) (e : Event)
    (h : e.hasQueued f) : (e.enqueue g).hasQueued f := by
  unfold Event.enqueue
  split
  · exact ⟨h.1, joinQueue_stands hf g h.2⟩
  · exact h

theorem hasQueued_keptByJoins {f : Frame} (hf : f.pressing) : KeptByJoins fun e => e.hasQueued f where
  enqueue := Event.enqueue_hasQueued hf
  out _ _ h := h
  full _ _ h := h
  claim ch e _ h := by
    show ((Event.enqueue _ _).setState ch _).hasQueued f
    unfold State.hasQueued
    rw [State.queueTakes_of_mc (Event.setState_mc _ _ _), (Event.setState_kept _ _ _).li]
    exact Event.enqueue_hasQueued hf _ _ h

/-- The mode takes the frame, and it stands in the queue or is yet to be queued by the Budget Unit. -/
def Event.willQueue (f : Frame) (e : Event) : Prop :=
  e.queueTakes f.body = true ∧ (f ∈ e.out.budget ∨ stands f e.li.queue)

theorem Event.enqueue_budget (g : Frame) (e : Event) : (e.enqueue g).out.budget = e.out.budget := by
  rw [(Event.enqueue_rest g e).2.2.2.2]

theorem Event.setState_budget (ch : Ch) (st : ChState) (e : Event) :
    (e.setState ch st).out.budget = e.out.budget := (Event.setState_kept ch st e).budget

theorem Event.openClaim_budget (ch : Ch) (e : Event) : (e.openClaim ch).out.budget = e.out.budget := by
  unfold Event.openClaim
  simp only [Event.setState_budget, Event.enqueue_budget]

theorem Event.evaluateBudget_budget {f : Frame} (e : Event) (h : f ∈ e.out.budget) :
    f ∈ e.evaluateBudget.out.budget := by
  have loop : ∀ (l : List (Nat × Ch)) (e : Event), f ∈ e.out.budget → f ∈ (l.foldl
      (fun e p => if (e.record p.2).rank = p.1 ∧ e.claimable p.2 then e.createClaim p.2 else e)
        e).out.budget := by
    intro l e h
    refine foldl_induct (P := fun e : Event => f ∈ e.out.budget) (fun e p h => ?_) l e h
    split
    · rename_i hc
      rw [Event.createClaim_of_claimable hc.2, Event.openClaim_budget]; exact h
    · exact h
  have h1 := loop byPrecedence { e with out.evalDue := false } h
  unfold Event.evaluateBudget
  simp only
  generalize byPrecedence.foldl _ _ = e1 at h1 ⊢
  exact h1

theorem Event.evaluateBudget_willQueue {f : Frame} (hf : f.pressing) (e : Event) (h : e.willQueue f) :
    e.evaluateBudget.willQueue f := by
  obtain ⟨ht, hb | hs⟩ := h
  · exact ⟨(State.queueTakes_of_mc (Event.evaluateBudget_flushes e).mc _).trans ht,
      .inl (Event.evaluateBudget_budget e hb)⟩
  · obtain ⟨ht', hs'⟩ := (hasQueued_keptByJoins hf).evaluateBudget e ⟨ht, hs⟩
    exact ⟨ht', .inr hs'⟩

theorem Event.enqueue_willQueue {f : Frame} (hf : f.pressing) (g : Frame) (e : Event)
    (h : e.willQueue f) : (e.enqueue g).willQueue f := by
  obtain ⟨ht, hb | hs⟩ := h
  · refine ⟨(State.queueTakes_of_mc (Event.enqueue_flushes g e).mc _).trans ht, .inl ?_⟩
    rw [Event.enqueue_budget]; exact hb
  · obtain ⟨ht', hs'⟩ := Event.enqueue_hasQueued hf g e ⟨ht, hs⟩
    exact ⟨ht', .inr hs'⟩

theorem Event.enqueue_joins {f : Frame} (hf : f.pressing) (e : Event) (h : e.queueTakes f.body = true) :
    (e.enqueue f).hasQueued f := by
  unfold Event.enqueue
  rw [if_pos h]
  exact ⟨h, joinQueue_stands_self hf _⟩

theorem Event.payBudget_willQueue {f : Frame} (hf : f.pressing) (e : Event) (h : e.willQueue f) :
    e.payBudget.willQueue f := by
  unfold Event.payBudget
  split
  · rename_i g rest hg
    obtain ⟨ht, hb | hs⟩ := h
    · rw [hg] at hb
      rcases List.mem_cons.1 hb with rfl | hb
      · obtain ⟨ht', hs'⟩ := Event.enqueue_joins hf { e with out.budget := rest } ht
        exact ⟨ht', .inr hs'⟩
      · exact Event.enqueue_willQueue hf g { e with out.budget := rest } ⟨ht, .inl hb⟩
    · exact Event.enqueue_willQueue hf g { e with out.budget := rest } ⟨ht, .inr hs⟩
  · split
    · exact Event.evaluateBudget_willQueue hf e h
    · exact h

theorem Event.payState_willQueue {f : Frame} (hf : f.pressing) (e : Event) (h : e.willQueue f) :
    e.payState.willQueue f := by
  unfold Event.payState
  split
  · exact Event.enqueue_willQueue hf _ { e with out.stateDue := false } h
  · exact h

theorem Ending.next_willQueue {f : Frame} (hf : f.pressing) (d : Ending) (b : Block)
    (h : d.ev.willQueue f) : (d.next b).ev.willQueue f := by
  cases b <;> unfold Ending.next <;> simp only
  case iu | du | cu =>
    split
    · exact Event.enqueue_willQueue hf _ _ h
    · exact h
  case bu => exact Event.payBudget_willQueue hf _ h
  case li => exact Event.payState_willQueue hf _ h

theorem Event.enqueueAll_willQueue {f : Frame} (hf : f.pressing) (fs : List Frame) (e : Event)
    (h : e.willQueue f) : (e.enqueueAll fs).willQueue f :=
  foldl_induct (P := fun e : Event => e.willQueue f) (fun e g h => Event.enqueue_willQueue hf g e h) fs e h

/-- All that the Budget Unit is to queue joins when its work is drained. -/
theorem Event.drainBudget_hasQueued {f : Frame} (hf : f.pressing) (n : Nat) (e : Event)
    (h : e.willQueue f) : (e.drainBudget (n + 1)).hasQueued f := by
  have joins : ∀ (fs : List Frame) (e : Event), e.queueTakes f.body = true → f ∈ fs →
      (e.enqueueAll fs).hasQueued f := by
    intro fs
    induction fs with
    | nil => exact fun _ _ h => absurd h (by simp)
    | cons g rest ih =>
      intro e ht hm
      rcases List.mem_cons.1 hm with rfl | hm
      · exact (hasQueued_keptByJoins hf).enqueueAll rest _ (Event.enqueue_joins hf e ht)
      · exact ih (e.enqueue g) ((State.queueTakes_of_mc (Event.enqueue_flushes g e).mc _).trans ht) hm
  obtain ⟨ht, hb⟩ := h
  unfold Event.drainBudget
  split
  · rename_i hnone
    rw [hnone.1] at hb
    exact ⟨ht, hb.resolve_left (by simp)⟩
  · have h1 : (Event.enqueueAll e.out.budget { e with out.budget := [] }).hasQueued f := by
      rcases hb with hb | hs
      · exact joins _ { e with out.budget := [] } ht hb
      · exact (hasQueued_keptByJoins hf).enqueueAll _ { e with out.budget := [] } ⟨ht, hs⟩
    simp only
    refine (hasQueued_keptByJoins hf).drainBudget n _ ?_
    split
    · exact (hasQueued_keptByJoins hf).evaluateBudget _ h1
    · exact h1

/-- A frame of the Budget Unit stands in the queue when the event has ended. -/
theorem Event.follows_queues {f : Frame} (hf : f.pressing) (order : List Block) (e : Event)
    (ht : e.queueTakes f.body = true) (hb : f ∈ e.out.budget) :
    stands f (e.settled.flush order).li.queue := by
  have h0 : e.settled.willQueue f := ⟨(Event.settled_queueTakes e _).trans ht, .inl (by
    rw [(Event.settled_follows e).kept.budget]; exact hb)⟩
  have k := hasQueued_keptByJoins hf
  have h1 : (order.foldl Ending.next ⟨e.settled, e.settled.out.allNotices, e.settled.out.allCalls,
      e.settled.out.replies⟩).ev.willQueue f :=
    foldl_induct (P := fun d : Ending => d.ev.willQueue f) (fun d b => Ending.next_willQueue hf d b) order _ h0
  unfold Event.flush
  simp only
  generalize order.foldl Ending.next _ = d at h1 ⊢
  have h2 := Event.drainBudget_hasQueued hf 7 ((d.ev.enqueueAll d.notices).enqueueAll d.calls)
    (Event.enqueueAll_willQueue hf _ _ (Event.enqueueAll_willQueue hf _ _ h1))
  exact (k.payState _ (k.enqueueAll _ _ h2)).2

/-! ## The claim leaves the table (R89) -/

/-- No LIVE claim has this key. -/
def State.noLive (key : Nat × Nat) (s : State) : Prop := ∀ c ∈ s.bu.claims, c.isLive = true → c.key ≠ key

theorem noLive_keptByJoins (key : Nat × Nat) : KeptByJoins fun e => e.noLive key where
  enqueue f e h := by unfold State.noLive; rw [(Event.enqueue_rest f e).2.2.2.1]; exact h
  out _ _ h := h
  full _ _ h := h
  claim ch e _ h := by
    intro c hc hl
    rcases (Event.openClaim_own ch e c (Claim.own_of_live hl)).1 hc with hc | rfl
    · exact h c hc hl
    · exact Bool.noConfusion hl

theorem Event.follows_noLive (order : List Block) (key : Nat × Nat) (e : Event) (h : e.noLive key) :
    (e.settled.flush order).noLive key := by
  refine (noLive_keptByJoins key).flush order _ ?_
  unfold State.noLive; rw [(Event.settled_follows e).kept.bu]; exact h

/-- A released claim leaves the table and its RELEASE is queued. -/
theorem Event.releaseClaim_released (order : List Block) (x : Claim) (e : Event) (s : State)
    (hst : e.mc.station = s.mc.station) (hm : e.mc.mode = s.mc.mode) :
    s.released x ((e.releaseClaim x).settled.flush order).toState := by
  refine ⟨Event.follows_noLive order x.key _ fun c hc _ hk => ?_, fun h0 hmode => ?_⟩
  · have hn := (List.mem_filter.1 (show c ∈ e.bu.claims.filter _ from hc)).2
    rw [Bool.not_eq_true', (Claim.hasKey_iff c x).2 hk] at hn
    exact Bool.noConfusion hn
  · refine Event.follows_queues ⟨rfl, rfl, rfl⟩ order _ ?_
      (List.mem_append_right _ (List.mem_singleton.2 rfl))
    show e.queueTakes (.release x.number) = true
    unfold State.queueTakes
    rw [hst, hm]
    rcases hmode with h | h | h <;> rw [h] <;> simp [h0]

/-! ## The end of the inrush window (R26) -/

/-- Settles O13. -/
theorem inrushExpiryReachesAwake : Obligations.InrushExpiryReachesAwake := by
  unfold Obligations.InrushExpiryReachesAwake
  intro m ch kind s a c hst hd
  obtain ⟨hcc, hit, hk, hmc, -⟩ := Event.enterAwake_spec ch (s.begin m)
  have heq : (s.begin m).inrushEnds ch =
      if kind = .claimed then ((s.begin m).enterAwake ch).releaseLive ch
      else (s.begin m).enterAwake ch := by
    have h1 : ((s.begin m).cc.get ch).state = .starting kind := hst
    have h2 : Timer.due ((s.begin m).cc.get ch).inrushTimer = true := hd
    unfold Event.inrushEnds; rw [h1, h2]
    cases kind <;> rfl
  have hrest : (((s.begin m).inrushEnds ch).cc = ((s.begin m).enterAwake ch).cc) ∧
      ((s.begin m).inrushEnds ch).it = ((s.begin m).enterAwake ch).it := by
    rw [heq]
    split
    · unfold Event.releaseLive; split <;> exact ⟨rfl, rfl⟩
    · exact ⟨rfl, rfl⟩
  have hch : ((s.begin m).inrushEnds ch).cc.get ch =
      { c with state := .awake, origins := {}, inrushTimer := none } := by
    rw [hrest.1, hcc, PerChannel.get_set_same, Controller.enter_alike _ .awake _ rfl
      (by show c.state.supervised = true; rw [hst]; rfl)
      (by show c.state.energised = _; rw [hst]; rfl)]
    rfl
  have htr : ((s.begin m).inrushEnds ch).it.get ch = Tracker.start (a.record ch).idleWindow
      (a.record ch).debounce (a.held ch) (a.pins.senseActive.get ch) := by
    rw [hrest.2, hit, PerChannel.get_set_same]; rfl
  have took := Event.took m.order ((s.begin m).inrushEnds ch)
  have ht := took.tracker ch (by rw [hch]; exact ChState.noConfusion)
  rw [htr] at ht
  refine ⟨(((s.begin m).inrushEnds ch).settled.flush m.order).toState, rfl, ?_, by rw [ht]; rfl, by rw [ht]; rfl, by rw [ht]; rfl, by rw [ht]; rfl,
    by rw [ht]; rfl, ?_, ?_⟩
  · rw [took.ignored ch (by rw [hch]; rfl) (by rw [hch]; exact ChState.noConfusion), hch]
  · rw [ht]
    unfold Tracker.start
    cases a.held ch <;> exact ⟨rfl, rfl, rfl⟩
  · rintro x rfl hx
    have hlive : ((s.begin m).enterAwake ch).liveOf ch = some x := by
      unfold State.liveOf; rw [hk.bu]; exact hx
    have heq' : (s.begin m).inrushEnds ch = ((s.begin m).enterAwake ch).releaseClaim x := by
      rw [heq, if_pos rfl]; unfold Event.releaseLive; rw [hlive]
    have hrel : s.released x (((s.begin m).inrushEnds ch).settled.flush m.order).toState := by
      rw [heq']
      exact Event.releaseClaim_released m.order x _ s (by rw [hmc]; rfl) (by rw [hmc]; rfl)
    exact ⟨fun hin => hrel.1 x hin (State.liveOf_mem hx).2.1 rfl, hrel⟩

end Sys2Proof.Machine
end

