-- ==== Sys2Proof/Proofs/Wake.lean ====
section
/-! SUPPORT. Wakes of a channel by its button and by a console (R16, R129, R130), and how a command frame
reaches its channel. -/

namespace Sys2Proof.Machine

/-! ## An origin is added (R13 to R15) -/

theorem Event.recordOrigin_has (o : Origin) (ch : Ch) (e : Event) :
    ((e.recordOrigin o ch).cc.get ch).origins.has o = true := by
  unfold Event.recordOrigin
  rw [Event.modCc_cc, PerChannel.get_set_same]; exact OriginSet.has_add_self o _

theorem Event.enterPending_channel (ch : Ch) (e : Event) :
    ((e.enterPending ch).cc.get ch).state.isPending = true ∧
      ((e.enterPending ch).cc.get ch).origins = (e.cc.get ch).origins := by
  obtain ⟨sub, -, hcc, -⟩ := Event.enterPending_spec ch e
  rw [hcc, PerChannel.get_set_same, Controller.enter_state]
  exact ⟨rfl, (Controller.enter_rest _ _ _).2.2.2.1⟩

/-- A channel in a state that records an origin has it then. -/
theorem Event.addOrigin_has (o : Origin) (ch : Ch) (e : Event) (h : (e.cc.get ch).state.records = true) :
    ((e.addOrigin o ch).cc.get ch).origins.has o = true := by
  have hrec := Event.recordOrigin_has o ch e
  have hpend : (((e.recordOrigin o ch).enterPending ch).cc.get ch).origins.has o = true := by
    rw [(Event.enterPending_channel ch _).2]; exact hrec
  unfold Event.addOrigin
  split <;> rename_i hst
  · split
    · exact hpend
    · exact hrec
  · split
    · exact hpend
    · exact hrec
  all_goals first | exact hrec | (rw [hst] at h; exact Bool.noConfusion h)

/-- A resting channel is woken at once in the modes that do so, a coasting one where it can fly. -/
theorem Event.addOrigin_wakes (o : Origin) (ch : Ch) (e : Event)
    (h : (e.cc.get ch).state = .rest ∧ e.mc.mode.wakesAtOnce = true ∨
      (e.cc.get ch).state = .coast ∧ (e.record ch).kind.flying = true) :
    ((e.addOrigin o ch).cc.get ch).state.isPending = true := by
  have heq : e.addOrigin o ch = (e.recordOrigin o ch).enterPending ch := by
    unfold Event.addOrigin
    rcases h with ⟨h1, h2⟩ | ⟨h1, h2⟩ <;> (rw [h1]; exact if_pos h2)
  rw [heq]; exact (Event.enterPending_channel ch _).1

/-- A channel that records no origin is left as it is. -/
theorem Event.addOrigin_ignored (o : Origin) (ch : Ch) (e : Event)
    (h : (e.cc.get ch).state.records = false) : e.addOrigin o ch = e := by
  unfold Event.addOrigin
  split <;> rename_i hst <;> first | rfl | (rw [hst] at h; exact Bool.noConfusion h)

/-! ## A wake (R16) -/

theorem Tracker.wake_eq (full : Micros) (u : Tracker) : u.wake full = u.woken full := by
  unfold Tracker.wake Tracker.beginWindow Tracker.woken
  cases hs : u.status <;> simp

/-- A wake of a running channel: it is AWAKE, its count cleared and its window begun again. -/
theorem Event.wakeChannel_tracked (o : Origin) (ch : Ch) (e : Event)
    (h : (e.cc.get ch).state.tracked = true) :
    ((e.wakeChannel o ch).cc.get ch).state = .awake ∧
      (e.wakeChannel o ch).it.get ch = (e.it.get ch).woken (e.record ch).idleWindow := by
  obtain ⟨hst, -, hit, -⟩ := Event.returnToAwake_spec ch
    (e.modIt ch (Tracker.wake (e.record ch).idleWindow))
  unfold Event.wakeChannel Event.wakeRunning
  rw [if_pos h]
  refine ⟨hst h, ?_⟩
  rw [hit, Event.modIt_it, PerChannel.get_set_same, Tracker.wake_eq]

theorem Event.wakeChannel_untracked (o : Origin) (ch : Ch) (e : Event)
    (h : (e.cc.get ch).state.tracked = false) : e.wakeChannel o ch = e.addOrigin o ch := by
  unfold Event.wakeChannel
  rw [if_neg (by rw [h]; exact Bool.noConfusion)]

/-- What a wake of a channel leaves when its command has ended. -/
theorem Event.wakeChannel_ends {o : Origin} {ch : Ch} {e : Event} {t : State}
    (took : Took (e.wakeChannel o ch) t) :
    ((e.cc.get ch).state = .rest → e.mc.mode.wakesAtOnce = true →
      (t.cc.get ch).state.isPending = true ∧ (t.cc.get ch).origins.has o = true) ∧
    ((e.cc.get ch).state.tracked = true → (t.cc.get ch).state = .awake ∧
      t.it.get ch = (e.it.get ch).woken (e.record ch).idleWindow) ∧
    ((e.cc.get ch).state.tracked = false → t.it.get ch = e.it.get ch) := by
  refine ⟨fun hst hm => ?_, fun ht => ?_, fun ht => ?_⟩
  · rw [Event.wakeChannel_untracked o ch e (by rw [hst]; rfl)] at took
    exact ⟨took.pending_kept ch (Event.addOrigin_wakes o ch e (.inl ⟨hst, hm⟩)),
      took.origins ch o (Event.addOrigin_has o ch e (by rw [hst]; rfl))⟩
  · obtain ⟨hst, hit⟩ := Event.wakeChannel_tracked o ch e ht
    refine ⟨(took.code_kept ch (by rw [hst]; rfl)).trans hst, ?_⟩
    rw [took.tracker ch (by rw [hst]; exact ChState.noConfusion), hit]
  · rw [Event.wakeChannel_untracked o ch e ht] at took
    have hf := (Event.addOrigin_follows o ch e).channels ch
    have hw : (e.cc.get ch).state ≠ .waiting := fun h => by rw [h] at ht; exact Bool.noConfusion ht
    rw [took.tracker ch (ChState.follows_waiting hf.state hw), hf.tracker hw]

/-- Settles O19. -/
theorem wakeButtonPressWakes : Obligations.WakeButtonPressWakes := by
  unfold Obligations.WakeButtonPressWakes
  intro m ch s a hd
  generalize he : ({ s.begin m with
    cu.button := a.cu.button.set ch (a.pins.buttonPressed.get ch)
    cu.buttonTimer := a.cu.buttonTimer.set ch none } : Event) = e
  have heq : (s.begin m).wakeButtonDebounced ch =
      if a.pins.buttonPressed.get ch then e.press ch else e := by
    rw [← he]; unfold Event.wakeButtonDebounced; exact if_pos hd
  have hcu : (e.press ch).cu = e.cu := by
    have hw : ∀ o, (e.wakeChannel o ch).cu = e.cu := by
      intro o
      unfold Event.wakeChannel Event.wakeRunning
      split
      · exact (Event.returnToAwake_spec ch _).2.2.2.1.cu
      · exact (Event.addOrigin_follows o ch e).kept.cu
    unfold Event.press
    split <;> first | exact hw _ | rfl
  have took := Event.took m.order ((s.begin m).wakeButtonDebounced ch)
  refine ⟨(((s.begin m).wakeButtonDebounced ch).settled.flush m.order).toState, rfl, ?_,
    fun hp hmode => ?_⟩
  · rw [took.cu, heq]
    split
    · rw [hcu, ← he]; rfl
    · rw [← he]; rfl
  · have hm : e.mc.mode = s.mc.mode := by rw [← he]; rfl
    have hpress : e.press ch = e.wakeChannel .loc ch := by
      unfold Event.press; rw [hm]
      rcases hmode with h | h | h <;> rw [h]
    have heq' : (s.begin m).wakeButtonDebounced ch = e.wakeChannel .loc ch := by
      rw [heq, if_pos hp, hpress]
    rw [heq'] at took ⊢
    obtain ⟨h1, h2, h3⟩ := Event.wakeChannel_ends took
    have hcc : e.cc = a.cc := by rw [← he]; rfl
    have hit : e.it = a.it := by rw [← he]; rfl
    have hrec : e.record ch = a.record ch := by rw [← he]; rfl
    rw [hcc, hm] at h1
    rw [hcc, hit, hrec] at h2
    rw [hcc, hit] at h3
    exact ⟨fun hst => h1 hst (by rcases hmode with h | h | h <;> rw [h] <;> rfl), h2, h3⟩

/-! ## A command frame reaches its channel (R116) -/

/-- The node as a heard frame finds it in LISTENING or OPERATING: the isolation timer runs anew. -/
def State.heardAt (m : Moment) (s : State) : Event :=
  { s.begin m with
    li.inProgress := none
    mc.isolationTimer := some ((s.elapse m.elapsed).plantTime Image.isolationLimit) }

theorem State.hears_elapse {s : State} {env : Envelope} {kind : Byte} {payload : List Byte} (d : Micros)
    (h : s.hears env kind payload) : (s.elapse d).hears env kind payload := h

/-- A frame heard in LISTENING or OPERATING is dispatched. -/
theorem hear_onLine (order : RejoinOrder) (env : Envelope) (kind : Byte) (payload : List Byte)
    (dispatch : Event → Event) (m : Moment) (s : State) (ho : s.onLine) (h : s.hears env kind payload) :
    (s.begin m).hear order env kind payload dispatch = dispatch (s.heardAt m) := by
  rw [Event.hear_of_hears order env kind payload dispatch (s.begin m) (State.hears_elapse m.elapsed h)]
  exact Event.heard_onLine order dispatch _ ho

theorem Ch.ofNat?_toNat (ch : Ch) : Ch.ofNat? ch.toNat = some ch := by cases ch <;> rfl

/-- A command that names a configured channel, at a level that its gate admits, is carried out there. -/
theorem Event.judgeChannel_eq (env : Envelope) (channel level : Byte) (gate : Nat)
    (carryOut : Ch → Event → Judged) (ch : Ch) (e : Event) (hl : level.toNat ≤ 3)
    (hc : channel.toNat = ch.toNat) (hcf : e.configured ch = true)
    (hg : e.effectiveLevel env.sender.toNat level.toNat ≤ gate) :
    e.judgeChannel env channel level gate carryOut = carryOut ch e := by
  have hall : channel ≠ channelAll := by
    rintro rfl
    have hlt : ch.toNat < 6 := by cases ch <;> decide
    rw [← hc] at hlt
    exact absurd hlt (by decide)
  have hch : e.commandCh? channel = some ch := by
    unfold State.commandCh?
    rw [hc, Ch.ofNat?_toNat]
    exact if_pos hcf
  unfold Event.judgeChannel
  rw [if_neg (by rintro (h | h) <;> [omega; exact hall h]), hch]
  exact if_neg (by omega)

/-- A command for this station is judged in LISTENING, OPERATING and ISOLATED, and answered. -/
theorem Event.command_eq (env : Envelope) (kind channel tag : Byte) (judge : Event → Judged) (e : Event)
    (ht : env.target.toNat = e.mc.station) (h0 : env.target ≠ 0)
    (hm : e.toState.onLine ∨ e.mc.mode = .isolated) :
    e.command env kind channel tag judge = Judged.answer env kind channel tag (judge e) := by
  unfold Event.command
  rw [if_neg (by rintro (h | h) <;> [exact h0 h; exact h ht])]
  rcases hm with (h | h) | h <;> rw [h]

/-- How a command ends depends on the node that its effect left, and not on its outbox. -/
theorem Took.of_state {e e' : Event} {t : State} (h : Took e t) (hs : e'.toState = e.toState) :
    Took e' t := by
  obtain ⟨s, o⟩ := e
  obtain ⟨s', o'⟩ := e'
  obtain rfl : s' = s := hs
  exact ⟨h.cu, h.pu, h.pins, h.now, h.pending, h.node, h.peers, h.li, h.mc, h.overflow, h.overflowTimer,
    h.state, h.closed, h.trips, h.inrush, h.retry, h.runDown, h.origins, h.stays, h.ignores, h.tracker,
    h.lamp⟩

theorem State.queueTakes_reply {s : State} (h0 : s.mc.station ≠ 0)
    (hm : s.mc.mode ≠ .loading ∧ s.mc.mode ≠ .silent) (kind channel tag : Byte) (code : ReplyCode) :
    s.queueTakes (.reply kind channel tag code) = true := by
  obtain ⟨hm1, hm2⟩ := hm
  unfold State.queueTakes
  cases hmode : s.mc.mode <;> simp_all

/-- A command on the line that names a configured channel, at a level that its gate admits: what it does
there, and its reply. -/
theorem command_onLine (env : Envelope) (kind channel level : Byte) (gate : Nat)
    (carryOut : Ch → Event → Judged) (ch : Ch) (m : Moment) (s : State) (ho : s.onLine)
    (hh : s.hears env kind [channel, level]) (ht : env.target.toNat = s.mc.station) (h0 : env.target ≠ 0)
    (hl : level.toNat ≤ 3) (hc : channel.toNat = ch.toNat)
    (hcf : (s.elapse m.elapsed).configured ch = true)
    (hg : (s.elapse m.elapsed).effectiveLevel env.sender.toNat level.toNat ≤ gate) :
    (s.begin m).hear (.inTurn m.arrival) env kind [channel, level]
      (Event.command env kind channel 0 fun e => e.judgeChannel env channel level gate carryOut) =
    Judged.answer env kind channel 0 (carryOut ch (s.heardAt m)) := by
  rw [hear_onLine _ env kind _ _ m s ho hh,
    Event.command_eq env kind channel 0 _ (s.heardAt m) ht h0 (.inl ho)]
  exact congrArg _ (Event.judgeChannel_eq env channel level gate carryOut ch (s.heardAt m) hl hc hcf hg)

/-- The reply to a command stands in the queue when the command has ended. -/
theorem answer_replied (order : List Block) (env : Envelope) (kind channel tag : Byte) (j : Judged)
    (h0 : env.target ≠ 0) (ht : env.target.toNat = j.2.mc.station)
    (hm : j.2.mc.mode ≠ .loading ∧ j.2.mc.mode ≠ .silent) :
    ((Judged.answer env kind channel tag j).settled.flush order).replied env kind channel tag j.1 := by
  refine Event.follows_replied order env kind channel tag j.1 _ ?_
    (List.mem_append_right _ (List.mem_singleton.2 rfl))
  refine State.queueTakes_reply (fun h => h0 ?_) hm kind channel tag j.1
  have hz : env.target.toNat = 0 := ht.trans h
  exact BitVec.eq_of_toNat_eq (by simpa using hz)

theorem ChState.locked_ignores {st : ChState} (h : st.isLocked = true) :
    st.tracked = false ∧ st.records = false ∧ st ≠ .waiting := by
  cases st <;> first | exact ⟨rfl, rfl, ChState.noConfusion⟩ | exact Bool.noConfusion h

theorem Event.wakeChannel_mc (o : Origin) (ch : Ch) (e : Event) :
    (e.wakeChannel o ch).mc.mode = e.mc.mode ∧ (e.wakeChannel o ch).mc.station = e.mc.station := by
  have h : Calm True True e (e.wakeChannel o ch) := Event.wakeChannel_calm o ch e
  exact ⟨h.mode, h.station⟩

/-- Settles O33. -/
theorem wakeActsByState : Obligations.WakeActsByState := by
  unfold Obligations.WakeActsByState
  intro m env channel level ch s a hmode hh ht h0 hl hc hcf hg kind mayFly
  have heq : effectOf (.wake m env channel level) (s.begin m) =
      Judged.answer env kindWake channel 0 (Event.carryOutWake ch (s.heardAt m)) :=
    command_onLine env kindWake channel level 3 Event.carryOutWake ch m s (.inr hmode) hh ht h0 hl hc hcf hg
  have hm := Event.wakeChannel_mc .console ch (s.heardAt m)
  have hop : (s.heardAt m).mc.mode = .operating := hmode
  have hrep := answer_replied m.order env kindWake channel 0 (Event.carryOutWake ch (s.heardAt m)) h0
    (ht.trans hm.2.symm) (by
      rw [show (Event.carryOutWake ch (s.heardAt m)).2.mc.mode = .operating from hm.1.trans hop]; decide)
  have took : Took ((s.heardAt m).wakeChannel .console ch)
      ((Judged.answer env kindWake channel 0 (Event.carryOutWake ch (s.heardAt m))).settled.flush
        m.order).toState := (Event.took m.order _).of_state rfl
  obtain ⟨h1, h2, h3⟩ := Event.wakeChannel_ends took
  have untracked := Event.wakeChannel_untracked .console ch (s.heardAt m)
  have hfly : mayFly = (a.record ch).kind.flying := by
    show decide ((a.record ch).kind = .fan ∨ (a.record ch).kind = .conveyor ∨
      (a.record ch).kind = .aux) = _
    cases (a.record ch).kind <;> rfl
  refine ⟨((Judged.answer env kindWake channel 0 (Event.carryOutWake ch (s.heardAt m))).settled.flush
      m.order).toState, ?_, fun hst => h1 hst (by rw [hop]; rfl), h2, h3, fun hlk => ?_, fun hst => ?_,
    fun hst hf => ?_, fun hoff hby => ?_⟩
  · rw [exec_eq, ← heq]; rfl
  · obtain ⟨htr, hrec, hw⟩ := ChState.locked_ignores hlk
    rw [untracked htr, Event.addOrigin_ignored _ _ _ hrec] at took
    exact took.ignored ch hrec hw
  · have hrec : (a.cc.get ch).state.records = true ∧ (a.cc.get ch).state.tracked = false := by
      rcases hst with h | h | ⟨k, h⟩ | ⟨k, h⟩
      · rw [h]; exact ⟨rfl, rfl⟩
      · cases hp : (a.cc.get ch).state <;> rw [hp] at h <;>
          first | exact ⟨rfl, rfl⟩ | exact Bool.noConfusion h
      · rw [h]; exact ⟨rfl, rfl⟩
      · rw [h]; exact ⟨rfl, rfl⟩
    rw [untracked hrec.2] at took
    exact took.origins ch .console (Event.addOrigin_has .console ch (s.heardAt m) hrec.1)
  · have hst' : ((s.heardAt m).cc.get ch).state = .coast := hst
    rw [untracked (by rw [hst']; rfl)] at took
    exact took.pending_kept ch (Event.addOrigin_wakes .console ch (s.heardAt m)
      (.inr ⟨hst, hfly.symm.trans hf⟩))
  · have hcode : (Event.carryOutWake ch (s.heardAt m)).1 = wakeReply (a.cc.get ch).state (a.record ch).kind :=
      rfl
    rw [hcode] at hrep
    rw [hfly]
    cases hst : (a.cc.get ch).state <;> rw [hst] at hrep hoff hby <;>
      first | exact hrep | exact absurd rfl hoff | exact absurd rfl hby

end Sys2Proof.Machine
end

