-- ==== Sys2Proof/Proofs/Holds.lean ====
section
/-! SUPPORT. The debounce of a hold key: a channel becomes held or ceases to be held (R123 to R126). -/

namespace Sys2Proof.Machine

/-- An operation done for each channel that does something at one alone. -/
theorem Event.forChannels_single {f : Ch → Event → Event} (ch : Ch) (h : ∀ k, k ≠ ch → ∀ e, f k e = e)
    (e : Event) : e.forChannels f = f ch e := by
  have step : ∀ k ∈ Ch.all, k ≠ ch → ∀ e, f k e = e := fun k _ hk => h k hk
  unfold Event.forChannels
  cases ch <;> simp [Ch.all, h]

/-- The Hold List and the key flags stand as given, and the report of a change is owed. -/
def Event.withHolds (cu : CommandUnit) (e : Event) : Event :=
  if e.heldFlagsDiffer { e.toState with cu := cu } then ({ e with cu := cu } : Event).oweState
  else { e with cu := cu }

theorem Event.withHolds_rest (cu : CommandUnit) (e : Event) :
    (e.withHolds cu).toState = { e.toState with cu := cu } ∧
      ∃ b, (e.withHolds cu).out = { e.out with stateDue := b } := by
  unfold Event.withHolds
  split
  · exact ⟨rfl, true, rfl⟩
  · exact ⟨rfl, e.out.stateDue, rfl⟩

/-- A change of holds that concerns one channel alone: it becomes held, ceases to be held, or neither. -/
theorem Event.changeHolds_single (ch : Ch) (cu : CommandUnit) (e : Event)
    (h : ∀ k, k ≠ ch → (e.withHolds cu).held k = e.held k) :
    e.changeHolds cu =
      if !e.held ch && (e.withHolds cu).held ch then (e.withHolds cu).becomeHeld ch
      else if e.held ch && !(e.withHolds cu).held ch then (e.withHolds cu).ceaseHeld ch
      else e.withHolds cu := by
  refine Event.forChannels_single ch (fun k hk acc => ?_) (e.withHolds cu)
  have hk := h k hk
  show (if !e.held k && (e.withHolds cu).held k then _ else if e.held k && !(e.withHolds cu).held k then _
    else acc) = acc
  rw [hk]
  cases e.held k <;> rfl

theorem Tracker.pause_running (u : Tracker) (h : u.status = .running) :
    u.pause = { u with status := .paused, remaining := u.windowTimer, windowTimer := none } := by
  unfold Tracker.pause; rw [h]

theorem Tracker.resume_paused (u : Tracker) (h : u.status = .paused) :
    u.resume = { u with status := .running, windowTimer := u.remaining, remaining := none } := by
  unfold Tracker.resume; rw [h]

theorem Tracker.resume_stopped (u : Tracker) (h : u.status = .stopped) : u.resume = u := by
  unfold Tracker.resume; rw [h]

/-- A running channel that becomes held is AWAKE, its tracker PAUSED with the time left. -/
theorem Event.becomeHeld_tracked (ch : Ch) (e : Event) (h : (e.cc.get ch).state.tracked = true) :
    ((e.becomeHeld ch).cc.get ch).state = .awake ∧ (e.becomeHeld ch).it.get ch = (e.it.get ch).pause := by
  obtain ⟨hst, -, hit, -⟩ := Event.returnToAwake_spec ch (e.modIt ch Tracker.pause)
  unfold Event.becomeHeld
  rw [if_pos h]
  refine ⟨hst h, ?_⟩
  rw [hit, Event.modIt_it, PerChannel.get_set_same]

/-- Holds do not change with what becomes of their channels. -/
theorem Event.becomeHeld_cu (ch : Ch) (e : Event) : (e.becomeHeld ch).cu = e.cu := by
  unfold Event.becomeHeld
  split
  · exact (Event.returnToAwake_spec ch _).2.2.2.1.cu
  · exact (Event.addOrigin_follows _ ch e).kept.cu

theorem Event.tryWait_kept (ch : Ch) (e : Event) : NodeKept e (e.tryWait ch) := by
  unfold Event.tryWait
  split
  · exact Event.setState_kept _ _ _
  · exact NodeKept.refl e

theorem Event.judgeWindow_kept (ch : Ch) (e : Event) : NodeKept e (e.judgeWindow ch) :=
  (Event.modCc_kept ch _ e).trans (Event.modIt_kept ch _ _)

theorem Event.windowExpired_kept (ch : Ch) (e : Event) : NodeKept e (e.windowExpired ch) := by
  rw [Event.windowExpired_eq]
  split
  · exact (Event.judgeWindow_kept ch e).trans (Event.tryWait_kept ch _)
  · exact Event.judgeWindow_kept ch e

theorem Event.ceaseHeld_cu (ch : Ch) (e : Event) : (e.ceaseHeld ch).cu = e.cu := by
  have h1 := Event.modIt_kept ch Tracker.resume e
  unfold Event.ceaseHeld
  simp only
  split
  · exact ((h1.trans (Event.windowExpired_kept ch _)).trans (Event.tryWait_kept ch _)).cu
  · exact (h1.trans (Event.tryWait_kept ch _)).cu

theorem Event.changeHolds_cu (cu : CommandUnit) (e : Event) : (e.changeHolds cu).cu = cu := by
  have step : ∀ (b c : Bool) (k : Ch) (acc : Event), acc.cu = cu →
      (if b then acc.becomeHeld k else if c then acc.ceaseHeld k else acc).cu = cu := by
    intro b c k acc h
    cases b
    · cases c
      · exact h
      · exact (Event.ceaseHeld_cu k acc).trans h
    · exact (Event.becomeHeld_cu k acc).trans h
  refine foldl_induct (P := fun acc : Event => acc.cu = cu) (fun acc k h => step _ _ k acc h) Ch.all
    (e.withHolds cu) ?_
  rw [(Event.withHolds_rest cu e).1]

/-- A channel that ceases to be held, its window not over: its tracker resumes, and it may wait. -/
theorem Event.ceaseHeld_eq (ch : Ch) (e : Event)
    (h : Timer.due (e.it.get ch).resume.windowTimer = false) :
    e.ceaseHeld ch = (e.modIt ch Tracker.resume).tryWait ch := by
  unfold Event.ceaseHeld
  simp only
  rw [if_neg]
  rw [Event.modIt_it, PerChannel.get_set_same, h]
  exact Bool.noConfusion

theorem Timer.due_eq_false {t : Timer} (h : t ≠ some 0) : Timer.due t = false := by
  unfold Timer.due; exact beq_eq_false_iff_ne.2 h

/-- A WAITING channel does not end AWAKE. -/
theorem Took.waiting_leaves {e : Event} {t : State} (h : Took e t) (ch : Ch)
    (hw : (e.cc.get ch).state = .waiting) : (t.cc.get ch).state ≠ .awake := by
  intro ha
  obtain ⟨st, hf, hg⟩ := h.state ch
  rw [hw] at hf
  rw [ha] at hg
  cases st with
  | awake => exact Bool.noConfusion hf
  | pending s => exact Bool.noConfusion (ChState.isPending_flushes (a := .pending s) rfl hg)
  | _ => exact Bool.noConfusion hg

/-- What ceasing to be held leaves of a channel (R45, R126). -/
theorem Event.ceaseHeld_resumes (order : List Block) (ch : Ch) (a : State) (e : Event)
    (hcc : e.cc = a.cc) (hit : e.it = a.it) (hdu : e.du = a.du) (hmc : e.mc = a.mc) (hpu : e.pu = a.pu)
    (hh : e.held ch = false) (hd : e.out.standingDue = .all []) :
    a.resumes ((e.ceaseHeld ch).settled.flush order).toState ch := by
  refine ⟨fun hst hp hr => ?_, fun hs hna hstop hwin => ?_⟩
  · have hst' : (e.cc.get ch).state = .awake := by rw [hcc]; exact hst
    have hres : (e.it.get ch).resume = { a.it.get ch with
        status := .running
        windowTimer := (a.it.get ch).remaining
        remaining := none } := by rw [hit]; exact Tracker.resume_paused _ hp
    have heq : e.ceaseHeld ch = (e.modIt ch Tracker.resume).tryWait ch :=
      Event.ceaseHeld_eq ch e (by rw [hres]; exact Timer.due_eq_false hr)
    have hmw : (e.modIt ch Tracker.resume).mayWait ch = true ↔
        (a.record ch).requiredCount ≤ (a.it.get ch).count ∧
          a.pu.phase.permits (a.record ch).rank = true ∧ a.mc.mode = .operating := by
      have hrec : (e.modIt ch Tracker.resume).record ch = a.record ch :=
        State.record_of_image (b := (e.modIt ch Tracker.resume).toState) (congrArg _ hmc) ch
      rw [State.mayWait_iff, hrec, Event.modIt_it, PerChannel.get_set_same, hres]
      show (e.cc.get ch).state = .awake ∧ _ ∧ e.pu.phase.permits _ = true ∧ e.held ch = false ∧
        e.mc.mode = .operating ↔ _
      rw [hst', hpu, hh, hmc]
      simp
    refine ⟨fun hn => ?_, fun hR => ?_⟩
    · have heq' : e.ceaseHeld ch = e.modIt ch Tracker.resume := by
        rw [heq]; unfold Event.tryWait; exact if_neg fun h => hn (hmw.1 h)
      have took := Event.took order (e.ceaseHeld ch)
      rw [heq'] at took ⊢
      refine ⟨(took.code_kept ch (by rw [Event.modIt_cc, hst']; rfl)).trans hst', ?_⟩
      rw [took.tracker ch (by rw [Event.modIt_cc, hst']; exact ChState.noConfusion), Event.modIt_it,
        PerChannel.get_set_same, hres]
    · obtain ⟨wcc, -, wmc, wdu, wcu, b, wout⟩ := Event.tryWait_spec ch _ (hmw.2 hR)
      rw [← heq] at wcc wmc wdu wcu wout
      have hw : (e.ceaseHeld ch).cc.get ch = { a.cc.get ch with state := .waiting } := by
        rw [wcc, PerChannel.get_set_same, Event.modIt_cc, hcc]
      have hw' : ((e.ceaseHeld ch).cc.get ch).state = .waiting := by rw [hw]
      refine ⟨(Event.took order _).waiting_leaves ch hw', fun hv => ?_⟩
      have hi : (e.ceaseHeld ch).mc.image = a.mc.image := by rw [wmc]; exact congrArg _ hmc
      have hrest : (e.ceaseHeld ch).atRest = a.atRest := by
        refine State.atRest_of_local (by rw [wmc]; exact congrArg _ hmc)
          (by rw [wdu]; exact congrArg _ hdu) fun k => ?_
        by_cases hk : k = ch
        · subst hk; rw [hw, hst]; rfl
        · rw [wcc, PerChannel.get_set_other _ hk, Event.modIt_cc, hcc]
      have hco : (e.ceaseHeld ch).mayCoast ch = true := by
        unfold State.mayCoast State.consumersVerdict
        rw [hw', State.record_of_image hi, hrest, wmc,
          State.held_of_same wcu (show _ = (e.modIt ch Tracker.resume).mc.image by rw [wmc]) ch,
          show (e.modIt ch Tracker.resume).held ch = e.held ch from rfl, hh,
          show (e.modIt ch Tracker.resume).mc = a.mc from hmc, hR.2.2]
        exact hv
      obtain ⟨-, hoff, -⟩ := Event.follows_coasts order (e.ceaseHeld ch)
        (Event.duesNeeded_of_none (by rw [wout]; exact hd)) ch hco
      unfold State.coilDrive; rw [hoff]; exact Bool.and_false _
  · have hres : (e.it.get ch).resume = e.it.get ch :=
      Tracker.resume_stopped _ (by rw [hit]; exact hstop)
    have heq : e.ceaseHeld ch = (e.modIt ch Tracker.resume).tryWait ch :=
      Event.ceaseHeld_eq ch e (by rw [hres, hit, hwin]; rfl)
    have hcc' : (e.ceaseHeld ch).cc = a.cc := by
      rw [heq]
      unfold Event.tryWait
      rw [if_neg (show ¬(e.modIt ch Tracker.resume).mayWait ch = true from
        fun h => hna (hcc ▸ State.mayWait_awake (s := (e.modIt ch Tracker.resume).toState) h))]
      exact hcc
    have := (Event.took order (e.ceaseHeld ch)).stays ch (by rw [hcc']; exact hs)
    rw [hcc'] at this; exact this

theorem State.held_iff (s : State) (ch : Ch) : s.held ch = true ↔ s.configured ch = true ∧
    (s.cu.keyFlag.get ch = true ∨ ∃ h ∈ s.cu.holds, h.target = .all ∨ h.target = .channel ch) := by
  have targets : ∀ h : HoldEntry, h.targets ch = true ↔ h.target = .all ∨ h.target = .channel ch := by
    intro h
    unfold HoldEntry.targets
    cases h.target <;> simp
  unfold State.held
  rw [Bool.and_eq_true, Bool.or_eq_true, List.any_eq_true]
  simp only [targets]

/-- Settles O18. -/
theorem holdKeyDebounceSetsTheFlag : Obligations.HoldKeyDebounceSetsTheFlag := by
  unfold Obligations.HoldKeyDebounceSetsTheFlag
  intro m ch s a hd
  set cu : CommandUnit := { a.cu with
    keyFlag := a.cu.keyFlag.set ch (a.pins.keyOn.get ch)
    keyTimer := a.cu.keyTimer.set ch none } with hcu
  have heq : (s.begin m).holdKeyDebounced ch = (s.begin m).changeHolds cu := if_pos hd
  obtain ⟨hw, b, hout⟩ := Event.withHolds_rest cu (s.begin m)
  generalize he : (s.begin m).withHolds cu = e at hw hout
  have ecc : e.cc = a.cc := by rw [hw]; rfl
  have eit : e.it = a.it := by rw [hw]; rfl
  have edu : e.du = a.du := by rw [hw]; rfl
  have emc : e.mc = a.mc := by rw [hw]; rfl
  have epu : e.pu = a.pu := by rw [hw]; rfl
  have ecu : e.cu = cu := by rw [hw]
  have ecf : ∀ k, e.configured k = a.configured k := fun k => by
    unfold State.configured State.record; rw [emc]
  have other : ∀ k, k ≠ ch → e.held k = a.held k := fun k hk => by
    unfold State.held
    rw [ecf, ecu, hcu]
    simp only [PerChannel.get_set_other _ hk]
  have hsingle := Event.changeHolds_single ch cu (s.begin m) (by rw [he]; exact other)
  rw [← heq, he] at hsingle
  have took := Event.took m.order ((s.begin m).holdKeyDebounced ch)
  have htcu : (((s.begin m).holdKeyDebounced ch).settled.flush m.order).cu = cu := by
    rw [took.cu, heq]; exact Event.changeHolds_cu cu _
  have htheld : ∀ k, (((s.begin m).holdKeyDebounced ch).settled.flush m.order).held k = e.held k := by
    intro k
    refine State.held_of_same (htcu.trans ecu.symm) ?_ k
    have hmc : Calm True True (s.begin m) ((s.begin m).holdKeyDebounced ch) :=
      Event.holdKeyDebounced_calm ch _
    rw [took.image, emc]
    rcases hmc.mc with h | ⟨-, -, h⟩ <;> rw [h] <;> rfl
  have hheld : e.held ch = true ↔ a.configured ch = true ∧
      (a.pins.keyOn.get ch = true ∨ ∃ h ∈ a.cu.holds, h.target = .all ∨ h.target = .channel ch) := by
    rw [State.held_iff, ecf, ecu, hcu]
    simp only [PerChannel.get_set_same]
  refine ⟨(((s.begin m).holdKeyDebounced ch).settled.flush m.order).toState, rfl, htcu, ?_,
    fun hnh hcf hkey htr hrun => ?_, fun k hk hnk => ?_⟩
  · rw [htheld]; exact hheld
  · have hb : (s.begin m).holdKeyDebounced ch = e.becomeHeld ch := by
      rw [hsingle, if_pos]
      rw [show (s.begin m).held ch = false from hnh, hheld.2 ⟨hcf, .inl hkey⟩]; rfl
    obtain ⟨hst, hit⟩ := Event.becomeHeld_tracked ch e (by rw [ecc]; exact htr)
    rw [hb] at took ⊢
    have ht := took.tracker ch (by rw [hst]; exact ChState.noConfusion)
    rw [hit, eit, Tracker.pause_running _ hrun] at ht
    rw [ht]
    exact ⟨(took.code_kept ch (by rw [hst]; rfl)).trans hst, rfl, rfl, rfl, rfl⟩
  · rw [htheld] at hnk
    have hkc : k = ch := by
      by_contra hne
      rw [other k hne, hk] at hnk; exact Bool.noConfusion hnk
    subst hkc
    have hc : (s.begin m).holdKeyDebounced k = e.ceaseHeld k := by
      rw [hsingle, if_neg, if_pos]
      · rw [show (s.begin m).held k = true from hk, hnk]; rfl
      · rw [show (s.begin m).held k = true from hk]; exact Bool.noConfusion
    rw [hc]
    exact Event.ceaseHeld_resumes m.order k a e ecc eit edu emc epu hnk (by rw [hout]; rfl)

end Sys2Proof.Machine
end

