-- ==== Sys2Proof/Proofs/Modes.lean ====
section
/-! SUPPORT. The end of the listen interval (R143) and the entry to ISOLATED (R145, R146). -/

namespace Sys2Proof.Machine

/-! ## Channel by channel -/

/-- An operation done for each channel, each on its own channel alone, leaves of a channel what its turn
makes of it. `I` is what holds of the node all along. -/
theorem Event.forChannels_at {f : Ch → Event → Event} {I : Event → Prop}
    {B : Controller → Tracker → Prop} (ch : Ch) (keep : ∀ k e, I e → I (f k e))
    (other : ∀ k e, I e → k ≠ ch →
      (f k e).cc.get ch = e.cc.get ch ∧ (f k e).it.get ch = e.it.get ch)
    (c : Controller) (t : Tracker)
    (here : ∀ e, I e → e.cc.get ch = c → e.it.get ch = t → B ((f ch e).cc.get ch) ((f ch e).it.get ch))
    (e : Event) (hI : I e) (hc : e.cc.get ch = c) (ht : e.it.get ch = t) :
    I (e.forChannels f) ∧ B ((e.forChannels f).cc.get ch) ((e.forChannels f).it.get ch) := by
  -- before its turn the channel is as it was, after it as the turn left it
  have fold : ∀ (l : List Ch) (e : Event), l.Nodup → I e →
      (e.cc.get ch = c ∧ e.it.get ch = t ∧ ch ∈ l ∨ B (e.cc.get ch) (e.it.get ch) ∧ ch ∉ l) →
      I (l.foldl (fun e k => f k e) e) ∧
        B ((l.foldl (fun e k => f k e) e).cc.get ch) ((l.foldl (fun e k => f k e) e).it.get ch) := by
    intro l
    induction l with
    | nil => exact fun e _ hI h => ⟨hI, (h.resolve_left fun h => absurd h.2.2 (by simp)).1⟩
    | cons k rest ih =>
      intro e hn hI h
      obtain ⟨hk, hn⟩ := List.nodup_cons.1 hn
      refine ih (f k e) hn (keep k e hI) ?_
      rcases h with ⟨hc, ht, hm⟩ | ⟨hB, hm⟩
      · by_cases he : ch = k
        · subst he; exact .inr ⟨here e hI hc ht, hk⟩
        · obtain ⟨h1, h2⟩ := other k e hI (fun h => he h.symm)
          exact .inl ⟨h1.trans hc, h2.trans ht, (List.mem_cons.1 hm).resolve_left he⟩
      · obtain ⟨h1, h2⟩ := other k e hI (fun h => hm (h ▸ List.mem_cons_self ..))
        exact .inr ⟨by rw [h1, h2]; exact hB, fun h => hm (List.mem_cons_of_mem _ h)⟩
  exact fold Ch.all e (by decide) hI (.inl ⟨hc, ht, Ch.mem_all ch⟩)

/-! ## Nothing follows where no channel calls, waits or watches -/

/-- No channel has a call to make, a verdict to wait for or a provider to watch, and no call is owed. -/
structure Event.idle (e : Event) : Prop where
  calling : ∀ ch, (e.cc.get ch).state ≠ .pending .calling
  waiting : ∀ ch, (e.cc.get ch).state ≠ .waiting
  watching : ∀ ch, (e.cc.get ch).state.watching = false
  call : e.out.callDue = .all false
  standing : e.out.standingDue = .all []

theorem Event.idle.of_same {e e' : Event} (h : e.idle) (hcc : e'.cc = e.cc)
    (hc : e'.out.callDue = e.out.callDue) (hs : e'.out.standingDue = e.out.standingDue) : e'.idle :=
  ⟨by rw [hcc]; exact h.calling, by rw [hcc]; exact h.waiting, by rw [hcc]; exact h.watching,
    hc.trans h.call, hs.trans h.standing⟩

theorem Event.reportVerdict_idle (due : PerChannel Bool) (ch : Ch) {e : Event} (h : e.idle) :
    e.reportVerdict due ch = e := by
  have h1 := h.calling ch
  have h2 := h.waiting ch
  unfold Event.reportVerdict
  split
  · split
    · rename_i hst; exact absurd hst h1
    · rename_i hst; exact absurd hst h2
    · rfl
  · rfl

theorem Event.watch_idle (ch : Ch) {e : Event} (h : e.idle) :
    (e.watch ch).cc = e.cc ∧ (e.watch ch).idle := by
  have hl : e.lostProviders ch = [] := by
    unfold State.lostProviders
    rw [h.watching ch, if_neg Bool.noConfusion]
  unfold Event.watch
  simp only [hl, List.filter_nil, List.any_nil, List.foldl_nil, Bool.false_eq_true, if_false]
  refine ⟨rfl, h.of_same rfl rfl ?_⟩
  show e.out.standingDue.set ch (e.out.standingDue.get ch ++ []) = e.out.standingDue
  rw [List.append_nil, PerChannel.set_get]

theorem Event.payCalls_idle (ch : Ch) {e : Event} (h : e.idle) :
    (e.payCalls ch).cc = e.cc ∧ (e.payCalls ch).idle := by
  have hp : e.payCall ch = e := by
    unfold Event.payCall
    rw [if_neg]
    rw [h.call, PerChannel.get_all]; exact Bool.noConfusion
  have hs : e.out.standingDue.get ch = [] := by rw [h.standing, PerChannel.get_all]
  have heq : e.payCalls ch = { e with out.standingDue := e.out.standingDue.set ch [] } := by
    unfold Event.payCalls Event.payStanding
    rw [hp, hs]; rfl
  rw [heq]
  refine ⟨rfl, h.of_same rfl rfl ?_⟩
  show e.out.standingDue.set ch [] = _
  rw [← hs, PerChannel.set_get]

theorem Event.forChannels_idle {f : Ch → Event → Event}
    (hf : ∀ k (e : Event), e.idle → (f k e).cc = e.cc ∧ (f k e).idle) (e : Event) (h : e.idle) :
    (e.forChannels f).cc = e.cc ∧ (e.forChannels f).idle :=
  foldl_induct (P := fun e' : Event => e'.cc = e.cc ∧ e'.idle)
    (fun e' k h => ⟨(hf k e' h.2).1.trans h.1, (hf k e' h.2).2⟩) Ch.all e ⟨rfl, h⟩

theorem Event.takeReports_idle (e : Event) (h : e.idle) :
    e.takeReports.cc = e.cc ∧ e.takeReports.idle := by
  unfold Event.takeReports
  exact Event.forChannels_idle
    (fun k e' h => by rw [Event.reportVerdict_idle _ k h]; exact ⟨rfl, h⟩) e h

theorem Event.watchAll_idle (e : Event) (h : e.idle) :
    (e.forChannels Event.watch).cc = e.cc ∧ (e.forChannels Event.watch).idle := by
  have hf : ∀ k (e' : Event), e'.idle → (Event.watch k e').cc = e'.cc ∧ (Event.watch k e').idle :=
    fun k e' h => Event.watch_idle k h
  exact Event.forChannels_idle hf e h

theorem Event.payAll_idle (e : Event) (h : e.idle) :
    (e.forChannels Event.payCalls).cc = e.cc ∧ (e.forChannels Event.payCalls).idle := by
  have hf : ∀ k (e' : Event), e'.idle →
      (Event.payCalls k e').cc = e'.cc ∧ (Event.payCalls k e').idle :=
    fun k e' h => Event.payCalls_idle k h
  exact Event.forChannels_idle hf e h

theorem Event.settle_idle (n : Nat) : ∀ e : Event, e.idle → (e.settle n).cc = e.cc := by
  induction n with
  | zero => exact fun e _ => rfl
  | succ n ih =>
    intro e h
    obtain ⟨h1, h1'⟩ := Event.takeReports_idle e h
    obtain ⟨h2, h2'⟩ := Event.watchAll_idle e.takeReports h1'
    obtain ⟨h3, h3'⟩ := Event.payAll_idle e h
    unfold Event.settle
    split
    · exact (ih _ h2').trans (h2.trans h1)
    · split
      · exact (ih _ h3').trans h3
      · rfl

/-- Channels that neither call nor wait nor watch end as their effect left them, where they are not in
PENDING. -/
theorem Event.follows_idle (order : List Block) (e : Event) (h : e.idle) (ch : Ch)
    (hp : (e.cc.get ch).state.isPending = false) :
    (e.settled.flush order).cc.get ch = e.cc.get ch := by
  have hs : e.settled.cc = e.cc := Event.settle_idle settleRounds e h
  rw [Event.flush_channel order e.settled ch (by rw [hs]; exact hp), hs]

/-! ## The start decision (R14, R143) -/

/-- What the START rule leaves of a channel. -/
def Controller.unstarted (permits : Bool) (c : Controller) : Controller :=
  if permits then { c with origins := { c.origins with start := false } } else c

theorem Event.startRule_spec (ch : Ch) (e : Event) :
    (e.startRule ch).cc = e.cc.set ch ((e.cc.get ch).unstarted
      (e.configured ch && e.pu.phase.permits (e.record ch).rank)) ∧
    (e.startRule ch).it = e.it ∧ (e.startRule ch).out = e.out ∧ NodeKept e (e.startRule ch) ∧
    (e.startRule ch).mc = e.mc := by
  unfold Event.startRule Controller.unstarted
  split
  · exact ⟨rfl, rfl, rfl, Event.modCc_kept ch _ e, rfl⟩
  · exact ⟨(PerChannel.set_get _ _).symm, rfl, rfl, NodeKept.refl e, rfl⟩

theorem Event.actOnOrigins_other (ch k : Ch) (e : Event) (h : k ≠ ch) :
    (e.actOnOrigins ch).cc.get k = e.cc.get k ∧ (e.actOnOrigins ch).it.get k = e.it.get k := by
  unfold Event.actOnOrigins
  split
  · split
    · exact ⟨rfl, rfl⟩
    · exact Event.enterPending_other ch k e h
  · exact ⟨rfl, rfl⟩

theorem Event.actOnOrigins_pending (ch : Ch) (e : Event) (hst : (e.cc.get ch).state = .rest)
    (ho : (e.cc.get ch).origins ≠ {}) : ((e.actOnOrigins ch).cc.get ch).state.isPending = true ∧
      ((e.actOnOrigins ch).cc.get ch).origins = (e.cc.get ch).origins := by
  unfold Event.actOnOrigins
  rw [hst]
  simp only
  rw [if_neg fun h => ho ((OriginSet.isEmpty_iff _).1 h)]
  exact Event.enterPending_channel ch e

/-- The node in OPERATING at the end of the listen interval, before the start decision. -/
def Event.listened (e : Event) : Event := ({ e with mc.listenTimer := none } : Event).setMode .operating

theorem Event.listened_rest (e : Event) : e.listened.cc = e.cc ∧ e.listened.it = e.it ∧
    e.listened.pu = e.pu ∧ e.listened.mc = { e.mc with mode := .operating, listenTimer := none } ∧
    e.listened.out.callDue = e.out.callDue ∧ e.listened.out.standingDue = e.out.standingDue := by
  obtain ⟨h1, h2, -, h4, -, -, h7, -, -⟩ := Event.setMode_rest .operating { e with mc.listenTimer := none }
  refine ⟨h1, h2, h7, h4, ?_, ?_⟩ <;> unfold Event.listened Event.setMode <;> split <;> rfl

/-- The START rule at every channel. -/
theorem Event.startRules_spec (e : Event) :
    (∀ ch, (e.forChannels Event.startRule).cc.get ch = (e.cc.get ch).unstarted
      (e.configured ch && e.pu.phase.permits (e.record ch).rank)) ∧
    (e.forChannels Event.startRule).mc = e.mc ∧ (e.forChannels Event.startRule).out = e.out := by
  have same : (e.forChannels Event.startRule).mc = e.mc ∧ (e.forChannels Event.startRule).out = e.out :=
    foldl_induct (P := fun e' : Event => e'.mc = e.mc ∧ e'.out = e.out) (fun e' k h => by
      obtain ⟨-, -, ho, -, hm⟩ := Event.startRule_spec k e'
      exact ⟨hm.trans h.1, ho.trans h.2⟩) Ch.all e ⟨rfl, rfl⟩
  refine ⟨fun ch => ?_, same⟩
  exact (Event.forChannels_at (f := Event.startRule) (I := fun e' => e'.mc = e.mc ∧ e'.pu = e.pu)
    (B := fun c _ => c = (e.cc.get ch).unstarted
      (e.configured ch && e.pu.phase.permits (e.record ch).rank)) ch
    (fun k e' h => by
      obtain ⟨-, -, -, hk, hm⟩ := Event.startRule_spec k e'
      exact ⟨hm.trans h.1, hk.pu.trans h.2⟩)
    (fun k e' _ hk => by
      obtain ⟨hcc, hit, -⟩ := Event.startRule_spec k e'
      rw [hcc, hit]; exact ⟨PerChannel.get_set_other _ (fun h => hk h.symm) _, rfl⟩)
    (e.cc.get ch) (e.it.get ch)
    (fun e' hI hc _ => by
      obtain ⟨hcc, -⟩ := Event.startRule_spec ch e'
      rw [hcc, PerChannel.get_set_same, hc]
      unfold State.configured State.record
      rw [hI.1, hI.2]) e ⟨rfl, rfl⟩ rfl rfl).2

theorem Event.actOnOrigins_calm {x u : Prop} (ch : Ch) (e : Event) : Calm x u e (e.actOnOrigins ch) := by
  unfold Event.actOnOrigins
  split
  · rename_i hst
    split
    · exact Calm.refl x u e
    · exact Event.enterPending_calm ch e (by rw [hst]; rfl)
  · exact Calm.refl x u e

/-- In OPERATING nothing that is calm touches Mode Control. -/
theorem Calm.mc_same {x u : Prop} {e e' : Event} (h : Calm x u e e') (hm : e.mc.mode = .operating) :
    e'.mc = e.mc := by
  rcases h.mc with h | ⟨-, hmode, -⟩
  · exact h
  · rw [hm] at hmode
    rcases hmode with h | h <;> exact Mode.noConfusion h

/-- Settles O39. -/
theorem listenExpiryMakesTheStartDecision : Obligations.ListenExpiryMakesTheStartDecision := by
  unfold Obligations.ListenExpiryMakesTheStartDecision
  intro m s a hmode hd
  have heq : (s.begin m).listenEnds = (s.begin m).listened.startDecision := if_pos ⟨hmode, hd⟩
  obtain ⟨lcc, -, lpu, lmc, lcall, lst⟩ := Event.listened_rest (s.begin m)
  generalize (s.begin m).listened = e0 at heq lcc lpu lmc lcall lst
  obtain ⟨scc, smc, sout⟩ := Event.startRules_spec e0
  generalize he1 : e0.forChannels Event.startRule = e1 at scc smc sout
  have heq' : (s.begin m).listenEnds = (e1.forChannels Event.actOnOrigins).oweEval := by
    rw [heq, ← he1]; rfl
  have hop : e1.mc.mode = .operating := by rw [smc, lmc]
  have hcalm : Calm True True e1 ((s.begin m).listenEnds.settled.flush m.order) := by
    rw [heq']
    exact ((Event.forChannels_calm Event.actOnOrigins_calm e1).trans (Event.oweEval_calm _)).trans
      (Event.follows_calm m.order _)
  have htmc := hcalm.mc_same hop
  have hrec : ∀ ch, e0.record ch = a.record ch := fun ch => by
    unfold State.record; rw [lmc]; rfl
  have hcf : ∀ ch, e0.configured ch = a.configured ch := fun ch => by
    unfold State.configured; rw [hrec]
  have hch : ∀ ch, e1.cc.get ch = (a.cc.get ch).unstarted
      (a.configured ch && a.pu.phase.permits (a.record ch).rank) := fun ch => by
    rw [scc, lcc, hcf, lpu, hrec]; rfl
  have took := Event.took m.order (s.begin m).listenEnds
  refine ⟨((s.begin m).listenEnds.settled.flush m.order).toState, rfl, by rw [htmc]; exact hop,
    by rw [htmc, smc, lmc], by rw [htmc, smc, lmc]; rfl, fun ch hst ho hph => ?_,
    fun hall hstart ch hst => ?_⟩
  · have hc : e1.cc.get ch = a.cc.get ch := by
      rw [hch, hph, Bool.and_false]; rfl
    have hne : (e1.cc.get ch).origins ≠ {} := by
      rw [hc]; intro h; rw [h] at ho; exact Bool.noConfusion ho
    obtain ⟨-, hpe, hor⟩ := Event.forChannels_at (f := Event.actOnOrigins) (I := fun _ => True)
      (B := fun c _ => c.state.isPending = true ∧ c.origins = (a.cc.get ch).origins) ch
      (fun _ _ _ => trivial) (fun k e' _ hk => Event.actOnOrigins_other k ch e' fun h => hk h.symm)
      (e1.cc.get ch) (e1.it.get ch)
      (fun e' _ hc' _ => by
        obtain ⟨h1, h2⟩ := Event.actOnOrigins_pending ch e' (by rw [hc', hc]; exact hst)
          (by rw [hc']; exact hne)
        exact ⟨h1, by rw [h2, hc', hc]⟩) e1 trivial rfl rfl
    rw [heq'] at took ⊢
    exact ⟨took.pending_kept ch hpe, took.origins ch .start (by
      show ((e1.forChannels Event.actOnOrigins).cc.get ch).origins.has .start = true
      rw [hor]; exact ho)⟩
  · -- no channel has an origin left, and nothing follows
    have hstill : e1.forChannels Event.actOnOrigins = e1 := by
      refine foldl_induct (P := fun e' : Event => e' = e1) (fun e' k h => ?_) Ch.all e1 rfl
      subst h
      unfold Event.actOnOrigins
      split
      · rename_i hr
        have hr' : (a.cc.get k).state = .rest := by
          rw [hch k] at hr; unfold Controller.unstarted at hr; split at hr <;> exact hr
        obtain ⟨h1, h2, h3⟩ := hstart k hr'
        refine if_pos ((OriginSet.isEmpty_iff _).2 ?_)
        rw [hch k, h1, h3]
        unfold Controller.unstarted
        simp only [Bool.and_self, if_true, h2]
      · rfl
    have hstate : ∀ k, (e1.cc.get k).state = (a.cc.get k).state := fun k => by
      rw [hch k]; unfold Controller.unstarted; split <;> rfl
    have hidle : e1.oweEval.idle := by
      have quiet : ∀ k, (e1.cc.get k).state ≠ .pending .calling ∧ (e1.cc.get k).state ≠ .waiting ∧
          (e1.cc.get k).state.watching = false := fun k => by
        rw [hstate k]
        rcases hall k with h | h | h
        · rw [h]; exact ⟨ChState.noConfusion, ChState.noConfusion, rfl⟩
        · cases hk : (a.cc.get k).state <;> rw [hk] at h <;>
            first | exact ⟨ChState.noConfusion, ChState.noConfusion, rfl⟩ | exact Bool.noConfusion h
        · rw [h]; exact ⟨ChState.noConfusion, ChState.noConfusion, rfl⟩
      exact ⟨fun k => (quiet k).1, fun k => (quiet k).2.1, fun k => (quiet k).2.2,
        by rw [Event.oweEval_out, sout]; exact lcall, by rw [Event.oweEval_out, sout]; exact lst⟩
    rw [heq', hstill, Event.follows_idle m.order _ hidle ch (by
      show (e1.cc.get ch).state.isPending = false
      rw [hstate, hst]; rfl)]
    show (e1.cc.get ch).state = .rest ∧ (e1.cc.get ch).origins = {}
    obtain ⟨h1, h2, h3⟩ := hstart ch hst
    refine ⟨(hstate ch).trans hst, ?_⟩
    rw [hch ch, h1, h3]
    unfold Controller.unstarted
    simp only [Bool.and_self, if_true, h2]

end Sys2Proof.Machine
end

