-- ==== Sys2Proof/Proofs/Isolate.lean ====
section
/-! SUPPORT. The entry to ISOLATED: every PROVISIONAL claim is withdrawn, running loads run on and resting ones
are woken (R32, R98, R145, R146). -/

namespace Sys2Proof.Machine

/-- What one step of a loop brings about stands at its end, where every step keeps it. -/
theorem foldl_reaches {α β : Type} {J N : β → Prop} {f : β → α → β} (keep : ∀ b a, J b → J (f b a))
    (stay : ∀ b a, N b → N (f b a)) (a₀ : α) (turn : ∀ b, J b → N (f b a₀)) :
    ∀ (l : List α) (b : β), a₀ ∈ l → J b → N (l.foldl f b) := by
  intro l
  induction l with
  | nil => exact fun b h => absurd h (List.not_mem_nil)
  | cons a rest ih =>
    intro b h hb
    rcases List.mem_cons.1 h with rfl | h
    · exact foldl_induct stay rest _ (turn b hb)
    · exact ih _ h (keep b a hb)

/-! ## Withdrawal of every PROVISIONAL claim (R95, R98, R99) -/

theorem Claim.dropMarks_isProvisional (n : Nat) (c : Claim) :
    (c.dropMarks n).isProvisional = c.isProvisional ∧ (c.dropMarks n).ch = c.ch := by
  unfold Claim.dropMarks Claim.isProvisional; cases hs : c.status <;> simp [hs]

/-- What a withdrawal leaves of the own PROVISIONAL claims: those of another key. -/
theorem Event.withdraw_provisional (x : Claim) (e : Event) (c : Claim) (hp : c.isProvisional = true) :
    c ∈ (e.withdraw x).bu.claims ↔ c ∈ e.bu.claims ∧ ¬c.key = x.key := by
  rw [Event.withdraw_claims]; exact Event.removeProvisional_own x e c (Claim.own_of_provisional hp)

/-- A withdrawal of another key leaves the claim of a channel where it was. -/
theorem Event.withdraw_provisionalOf {ch : Ch} {y : Claim} (x : Claim) (e : Event)
    (h : e.provisionalOf ch = some y) (hne : y.key ≠ x.key) : (e.withdraw x).provisionalOf ch = some y := by
  have hc : (e.withdraw x).bu.claims =
      (e.bu.claims.filter fun c => !c.hasKey x.station x.number).map (Claim.dropMarks x.number) :=
    Event.withdraw_claims x e
  unfold State.provisionalOf at h ⊢
  rw [hc]
  obtain ⟨hy, as, bs, hl, has⟩ := List.find?_eq_some_iff_append.1 h
  have hp : y.isProvisional = true := (Bool.and_eq_true_iff.1 hy).1
  have hk : (!y.hasKey x.station x.number) = true := by
    rw [Bool.not_eq_true', ← Bool.not_eq_true, Claim.hasKey_iff]; exact hne
  refine List.find?_eq_some_iff_append.2 ⟨hy,
    (as.filter fun c => !c.hasKey x.station x.number).map (Claim.dropMarks x.number),
    (bs.filter fun c => !c.hasKey x.station x.number).map (Claim.dropMarks x.number), ?_, ?_⟩
  · rw [hl, List.filter_append, List.filter_cons,
      if_pos hk, List.map_append, List.map_cons,
      Claim.dropMarks_own (Claim.own_of_provisional hp)]
  · intro c hc
    obtain ⟨d, hd, rfl⟩ := List.mem_map.1 hc
    obtain ⟨h1, h2⟩ := Claim.dropMarks_isProvisional x.number d
    rw [h1, h2]; exact has d (List.mem_filter.1 hd).1

/-- The PROVISIONAL claims of a channel have the key of `y`, which is the first of them while any is left. -/
def Event.oneProvisional (ch : Ch) (y : Claim) (e : Event) : Prop :=
  (∀ c ∈ e.bu.claims, c.isProvisional = true → c.ch = ch → c.key = y.key) ∧
    (e.provisionalOf ch = some y ∨ e.provisionalOf ch = none)

theorem State.provisionalOf_eq_none {s : State} {ch : Ch}
    (h : ∀ c ∈ s.bu.claims, c.isProvisional = true → c.ch ≠ ch) : s.provisionalOf ch = none := by
  refine List.find?_eq_none.2 fun c hc hp => ?_
  obtain ⟨h1, h2⟩ := Bool.and_eq_true_iff.1 hp
  exact h c hc h1 (of_decide_eq_true h2)

theorem Event.withdraw_noProvisional {ch : Ch} (x : Claim) (e : Event)
    (h : e.provisionalOf ch = none) : (e.withdraw x).provisionalOf ch = none :=
  State.provisionalOf_eq_none fun c hc hp =>
    State.provisionalOf_none h c ((Event.withdraw_provisional x e c hp).1 hc).1 hp

theorem Event.withdraw_oneProvisional {ch : Ch} {y : Claim} (x : Claim) (e : Event)
    (h : e.oneProvisional ch y) : (e.withdraw x).oneProvisional ch y := by
  refine ⟨fun c hc hp => h.1 c ((Event.withdraw_provisional x e c hp).1 hc).1 hp, ?_⟩
  rcases h.2 with hy | hn
  · by_cases hk : y.key = x.key
    · refine .inr (State.provisionalOf_eq_none fun c hc hp he => ?_)
      obtain ⟨hm, hne⟩ := (Event.withdraw_provisional x e c hp).1 hc
      exact hne ((h.1 c hm hp he).trans hk)
    · exact .inl (Event.withdraw_provisionalOf x e hy hk)
  · exact .inr (Event.withdraw_noProvisional x e hn)

/-- The turn of an own claim in the order of precedence (R84, R95). -/
def Event.turnOf (f : Claim → Event → Event) (e : Event) (p : Nat × Ch) : Event :=
  match e.provisionalOf p.2 with
  | some x => if x.rank = p.1 then f x e else e
  | none => e

theorem Event.turnOf_keeps {P : Event → Prop} {f : Claim → Event → Event}
    (h : ∀ x e, P e → P (f x e)) (e : Event) (p : Nat × Ch) (he : P e) : P (e.turnOf f p) := by
  unfold Event.turnOf
  split
  · split
    · exact h _ e he
    · exact he
  · exact he

theorem Event.withdrawAll_eq (e : Event) :
    e.withdrawAll = byPrecedence.foldl (Event.turnOf Event.withdraw) e := rfl

/-- Every PROVISIONAL claim is withdrawn, where a channel has at most one and its rank is one of the three. -/
theorem Event.withdrawAll_clears (e : Event)
    (hk : ∀ c ∈ e.bu.claims, ∀ d ∈ e.bu.claims, c.isProvisional = true → d.isProvisional = true →
      c.ch = d.ch → c.key = d.key)
    (hr : ∀ c ∈ e.bu.claims, c.isProvisional = true → 1 ≤ c.rank ∧ c.rank ≤ 3) :
    ∀ c ∈ e.withdrawAll.bu.claims, c.isProvisional = false := by
  have none_left : ∀ ch, e.withdrawAll.provisionalOf ch = none := by
    intro ch
    rw [Event.withdrawAll_eq]
    cases hy : e.provisionalOf ch with
    | none =>
      exact foldl_induct (P := fun e : Event => e.provisionalOf ch = none)
        (Event.turnOf_keeps Event.withdraw_noProvisional) _ e hy
    | some y =>
      obtain ⟨hm, hp, hch⟩ := State.provisionalOf_some hy
      refine foldl_reaches (J := Event.oneProvisional ch y)
        (N := fun e => e.provisionalOf ch = none) (Event.turnOf_keeps Event.withdraw_oneProvisional)
        (Event.turnOf_keeps Event.withdraw_noProvisional) (y.rank, ch) (fun e' h => ?_) _ e
        (mem_byPrecedence (hr y hm hp) ch)
        ⟨fun c hc hp' he => hk c hc y hm hp' hp (he.trans hch.symm), .inl hy⟩
      unfold Event.turnOf
      rcases h.2 with h' | h' <;> rw [h']
      · simp only [if_true]
        refine State.provisionalOf_eq_none fun c hc hp' he => ?_
        obtain ⟨hm', hne⟩ := (Event.withdraw_provisional y e' c hp').1 hc
        exact hne (h.1 c hm' hp' he)
      · exact h'
  intro c hc
  by_contra hp
  exact State.provisionalOf_none (none_left c.ch) c hc (by simpa using hp) rfl

/-- Outside OPERATING no claim is created at the end of a command. -/
theorem noProvisional_keptByJoins : KeptByJoins fun e =>
    e.mc.mode ≠ .operating ∧ ∀ c ∈ e.bu.claims, c.isProvisional = false where
  enqueue f e h := by
    rw [(Event.enqueue_rest f e).2.2.2.1, (Event.enqueue_rest f e).2.2.1]; exact h
  out _ _ h := h
  full _ _ h := h
  claim ch e hc h := absurd (State.claimable_iff hc).2.1 h.1

theorem Event.follows_noProvisional (order : List Block) (e : Event) (hm : e.mc.mode ≠ .operating)
    (h : ∀ c ∈ e.bu.claims, c.isProvisional = false) :
    ∀ c ∈ (e.settled.flush order).bu.claims, c.isProvisional = false := by
  refine (noProvisional_keptByJoins.flush order e.settled ⟨?_, ?_⟩).2
  · obtain ⟨u, hu⟩ := (Event.settled_follows e).kept.mc
    rw [hu]; exact hm
  · rw [(Event.settled_follows e).kept.bu]; exact h

/-! ## The cut-off (R32, R145, R146) -/

theorem Event.addIfResting_kept (o : Origin) (ch : Ch) (e : Event) : NodeKept e (e.addIfResting o ch) := by
  unfold Event.addIfResting
  split
  · exact (Event.addOrigin_follows o ch e).kept
  · exact NodeKept.refl e

theorem Event.addIfResting_other (o : Origin) (ch k : Ch) (e : Event) (h : k ≠ ch) :
    (e.addIfResting o ch).cc.get k = e.cc.get k ∧ (e.addIfResting o ch).it.get k = e.it.get k := by
  unfold Event.addIfResting
  split
  · exact Event.addOrigin_other o ch k e h
  · exact ⟨rfl, rfl⟩

theorem Event.forChannels_kept {f : Ch → Event → Event} (h : ∀ k e, NodeKept e (f k e)) (e : Event) :
    NodeKept e (e.forChannels f) :=
  foldl_induct (P := fun e' : Event => NodeKept e e') (fun e' k h' => h'.trans (h k e')) Ch.all e
    (NodeKept.refl e)

/-- The node with its stagger begun, before claims and channels are seen to (R146). -/
def Event.staggered (e : Event) : Event := { e with mc.staggerTimer := some e.staggerStart }

theorem Event.cutOff_eq (e : Event) : e.cutOff =
    (e.staggered.withdrawAll.forChannels Event.returnToAwake).forChannels
      (Event.addIfResting .isolation) := rfl

theorem Event.cutOff_calm {x u : Prop} (e : Event) : Calm x u e.staggered e.cutOff := by
  rw [Event.cutOff_eq]
  exact ((Event.withdrawAll_calm _).trans (Event.forChannels_calm Event.returnToAwake_calm _)).trans
    (Event.forChannels_calm (Event.addIfResting_calm .isolation) _)

theorem Event.cutOff_claims (e : Event) : e.cutOff.bu = e.staggered.withdrawAll.bu := by
  rw [Event.cutOff_eq, (Event.forChannels_kept (Event.addIfResting_kept .isolation) _).bu,
    (Event.forChannels_kept (fun k e => (Event.returnToAwake_spec k e).2.2.2.1) _).bu]

theorem Event.returnToAwake_other (ch k : Ch) (e : Event) (h : k ≠ ch) :
    (e.returnToAwake ch).cc.get k = e.cc.get k ∧ (e.returnToAwake ch).it.get k = e.it.get k := by
  obtain ⟨-, -, hit, -, -, -, -, hcc⟩ := Event.returnToAwake_spec ch e
  rw [hit]; exact ⟨hcc k h, rfl⟩

/-- What the cut-off makes of a channel that is not in PENDING is what its own two turns make of it. -/
theorem Event.cutOff_at {A B : Controller → Tracker → Prop} (ch : Ch) (e : Event)
    (hp : (e.cc.get ch).state.isPending = false)
    (awake : ∀ e' : Event, e'.cc.get ch = e.cc.get ch → e'.it.get ch = e.it.get ch →
      A ((e'.returnToAwake ch).cc.get ch) ((e'.returnToAwake ch).it.get ch))
    (origin : ∀ e' : Event, e'.mc.mode = e.mc.mode → A (e'.cc.get ch) (e'.it.get ch) →
      B ((e'.addIfResting .isolation ch).cc.get ch) ((e'.addIfResting .isolation ch).it.get ch)) :
    B (e.cutOff.cc.get ch) (e.cutOff.it.get ch) := by
  have mode_kept : ∀ {e₁ e₂ : Event}, NodeKept e₁ e₂ → e₁.mc.mode = e.mc.mode →
      e₂.mc.mode = e.mc.mode := fun h hm => h.mode.trans hm
  have hw := Event.withdrawAll_flushes e.staggered
  obtain ⟨hm, hA⟩ := Event.forChannels_at (f := Event.returnToAwake)
    (I := fun e' => e'.mc.mode = e.mc.mode) ch
    (fun k e' => mode_kept (Event.returnToAwake_spec k e').2.2.2.1)
    (fun k e' _ hk => Event.returnToAwake_other k ch e' fun h => hk h.symm) _ _
    (fun e' _ => awake e') e.staggered.withdrawAll (by rw [hw.mc]; rfl) (hw.channel ch hp)
    (congrArg (PerChannel.get · ch) hw.it)
  rw [Event.cutOff_eq]
  exact (Event.forChannels_at (f := Event.addIfResting .isolation)
    (I := fun e' => e'.mc.mode = e.mc.mode) ch
    (fun k e' => mode_kept (Event.addIfResting_kept _ k e'))
    (fun k e' _ hk => Event.addIfResting_other _ k ch e' fun h => hk h.symm) _ _
    (fun e' hI hc ht => origin e' hI (by rw [hc, ht]; exact hA)) _ hm rfl rfl).2

/-- A load that runs is AWAKE after the cut-off, its tracking as it was (R32). -/
theorem Event.cutOff_running (ch : Ch) (e : Event) (h : (e.cc.get ch).state.tracked = true) :
    (e.cutOff.cc.get ch).state = .awake ∧ e.cutOff.it.get ch = e.it.get ch := by
  refine Event.cutOff_at (A := fun c t => c.state = .awake ∧ t = e.it.get ch)
    (B := fun c t => c.state = .awake ∧ t = e.it.get ch) ch e ?_ (fun e' hc ht => ?_)
    (fun e' _ hA => ?_)
  · rcases (ChState.tracked_iff _).1 h with h | h <;> rw [h] <;> rfl
  · obtain ⟨hst, -, hit, -⟩ := Event.returnToAwake_spec ch e'
    exact ⟨hst (by rw [hc]; exact h), by rw [hit, ht]⟩
  · have hi : e'.addIfResting .isolation ch = e' := by
      unfold Event.addIfResting
      rw [hA.1]; rfl
    rw [hi]; exact hA

/-- A load at rest is being woken with origin ISOLATION after the cut-off (R145, R146). -/
theorem Event.cutOff_rest (ch : Ch) (e : Event) (h : (e.cc.get ch).state = .rest)
    (hm : e.mc.mode.wakesAtOnce = true) : (e.cutOff.cc.get ch).state.isPending = true ∧
      (e.cutOff.cc.get ch).origins.has .isolation = true := by
  refine Event.cutOff_at (A := fun c _ => c.state = .rest)
    (B := fun c _ => c.state.isPending = true ∧ c.origins.has .isolation = true) ch e
    (by rw [h]; rfl) (fun e' hc _ => ?_) (fun e' hm' hA => ?_)
  · have hr : (e'.cc.get ch).state = .rest := by rw [hc]; exact h
    rw [(Event.returnToAwake_spec ch e').2.1 (by rw [hr]; exact ChState.noConfusion)]
    exact hr
  · have hi : e'.addIfResting .isolation ch = e'.addOrigin .isolation ch := by
      unfold Event.addIfResting
      rw [hA]; rfl
    rw [hi]
    exact ⟨Event.addOrigin_wakes .isolation ch e' (.inl ⟨hA, by rw [hm']; exact hm⟩),
      Event.addOrigin_has .isolation ch e' (by rw [hA]; rfl)⟩

/-! ## The isolation limit (R144, R145) -/

/-- The node in ISOLATED, its mode timers stopped, before the cut-off. -/
def Event.alone (e : Event) : Event := ((e.noticeNode .isolated).stopModeTimers).setMode .isolated

theorem Event.alone_rest (e : Event) : e.alone.cc = e.cc ∧ e.alone.it = e.it ∧ e.alone.bu = e.bu ∧
    e.alone.mc = { e.mc with mode := .isolated, listenTimer := none, isolationTimer := none } ∧
    (⟨0, .notice .isolated⟩ : Frame) ∈ e.alone.out.nodeNotices := by
  obtain ⟨h1, h2, h3, h4, -, -, -, -, h9⟩ :=
    Event.setMode_rest .isolated ((e.noticeNode .isolated).stopModeTimers)
  refine ⟨h1, h2, h3, h4, ?_⟩
  show _ ∈ (Event.setMode _ _).out.nodeNotices
  rw [h9]; exact List.mem_append_right _ (List.mem_singleton.2 rfl)

/-- Settles O40. -/
theorem isolationExpiryIsolates : Obligations.IsolationExpiryIsolates := by
  unfold Obligations.IsolationExpiryIsolates
  intro m s a hmode hd hprov
  have heq : (s.begin m).isolationEnds = (s.begin m).alone.cutOff := if_pos ⟨hmode, hd⟩
  obtain ⟨hcc, hit, hbu, hmc, hnote⟩ := Event.alone_rest (s.begin m)
  generalize (s.begin m).alone = e0 at heq hcc hit hbu hmc hnote
  have hcalm : Calm True True e0.staggered (e0.cutOff.settled.flush m.order) :=
    (Event.cutOff_calm e0).trans (Event.follows_calm m.order _)
  have htmc : (e0.cutOff.settled.flush m.order).mc = e0.staggered.mc :=
    hcalm.mc.resolve_right fun h => absurd h.1 (Option.some_ne_none _)
  have hcut : e0.cutOff.mc = e0.staggered.mc :=
    (Event.cutOff_calm (x := True) (u := True) e0).mc.resolve_right fun h =>
      absurd h.1 (Option.some_ne_none _)
  have took := Event.took m.order e0.cutOff
  have hone : ∀ c ∈ a.bu.claims, ∀ d ∈ a.bu.claims, c.isProvisional = true →
      d.isProvisional = true → c.ch = d.ch → c.key = d.key := by
    intro c hc d hd hp hq he
    obtain ⟨c', hc', rfl⟩ := List.mem_map.1 hc
    obtain ⟨d', hd', rfl⟩ := List.mem_map.1 hd
    exact hprov.2 c' hc' d' hd' hp hq he
  refine ⟨((s.begin m).isolationEnds.settled.flush m.order).toState, rfl, ?_⟩
  rw [heq, htmc]
  refine ⟨by rw [show e0.staggered.mc.mode = e0.mc.mode from rfl, hmc],
    by rw [show e0.staggered.mc.isolationTimer = e0.mc.isolationTimer from rfl, hmc],
    by rw [show e0.staggered.mc.listenTimer = e0.mc.listenTimer from rfl, hmc], ?_, fun hst => ?_,
    fun ch ht => ?_, fun ch hr => ?_, fun hrank => ?_⟩
  · show some (e0.mc.station * Config.sec 2) = _
    rw [hmc]; rfl
  · refine Event.follows_noticed_node m.order .isolated _ ?_
      ((Event.cutOff_calm (x := True) (u := True) e0).notices _ hnote)
    unfold State.speaks
    rw [hcut, show e0.staggered.mc.mode = e0.mc.mode from rfl,
      show e0.staggered.mc.station = e0.mc.station from rfl, hmc]
    exact ⟨hst, Mode.noConfusion, Mode.noConfusion⟩
  · obtain ⟨h1, h2⟩ := Event.cutOff_running ch e0 (by rw [hcc]; exact ht)
    rw [took.ignored ch (by rw [h1]; rfl) (by rw [h1]; exact ChState.noConfusion),
      took.tracker ch (by rw [h1]; exact ChState.noConfusion)]
    exact ⟨h1, by rw [h2, hit]; rfl⟩
  · obtain ⟨h1, h2⟩ := Event.cutOff_rest ch e0 (by rw [hcc]; exact hr) (by rw [hmc]; rfl)
    exact ⟨took.pending_kept ch h1, took.origins ch .isolation h2⟩
  · refine Event.follows_noProvisional m.order _ (by
      rw [hcut, show e0.staggered.mc.mode = e0.mc.mode from rfl, hmc]; exact Mode.noConfusion) ?_
    rw [Event.cutOff_claims]
    have hb : e0.staggered.bu.claims = a.bu.claims := congrArg BudgetUnit.claims hbu
    exact Event.withdrawAll_clears e0.staggered (by rw [hb]; exact hone) (by rw [hb]; exact hrank)

end Sys2Proof.Machine
end

