-- ==== Sys2Proof/Proofs/Accept.lean ====
section
/-! SUPPORT. The acceptance of an image (R30, R127, R141). -/

namespace Sys2Proof.Machine

theorem passes_of_firstReject {l : List ImageCheck} (h : firstReject l = none) :
    ∀ c ∈ l, firstFailing c.passes = none := by
  induction l with
  | nil => exact fun c hc => absurd hc List.not_mem_nil
  | cons c rest ih =>
    intro d hd
    unfold firstReject at h
    split at h
    · exact absurd h (Option.some_ne_none _)
    · rename_i hc
      rcases List.mem_cons.1 hd with rfl | hd
      · exact hc
      · exact ih h d hd

/-- An image is accepted at a station on the line alone (R139). -/
theorem station_of_accepted {station : Nat} {read : ImageRead} {image : Image}
    (h : judgeImage station read = .accepted image) : station ≠ 0 := by
  unfold judgeImage at h
  split at h
  · exact ImageVerdict.noConfusion h
  · rename_i hn
    have hp := passes_of_firstReject hn ⟨.address, 0, [station != 0]⟩ (by simp [imageChecks])
    intro h0
    subst h0
    exact absurd hp (Option.some_ne_none _)

/-- The node is left as it is but for its channels, their trackers and claims, and its outbox: no call is
owed more, and no notice is dropped. -/
structure Event.Leaves (e e' : Event) : Prop where
  mc : e'.mc = e.mc
  cu : e'.cu = e.cu
  peers : e'.du.peers = e.du.peers
  li : e'.li = e.li
  call : e'.out.callDue = e.out.callDue
  standing : e'.out.standingDue = e.out.standingDue
  node : e'.out.nodeNotices = e.out.nodeNotices
  grows : e.out.grows e'.out

theorem Event.Leaves.refl (e : Event) : e.Leaves e := ⟨rfl, rfl, rfl, rfl, rfl, rfl, rfl, Outbox.grows_of_same rfl⟩

theorem Event.Leaves.trans {a b c : Event} (h : a.Leaves b) (k : b.Leaves c) : a.Leaves c :=
  ⟨k.mc.trans h.mc, k.cu.trans h.cu, k.peers.trans h.peers, k.li.trans h.li, k.call.trans h.call,
    k.standing.trans h.standing, k.node.trans h.node, fun ch f hf => k.grows ch f (h.grows ch f hf)⟩

theorem Event.modCc_leaves (ch : Ch) (f : Controller → Controller) (e : Event) : e.Leaves (e.modCc ch f) :=
  ⟨rfl, rfl, rfl, rfl, rfl, rfl, rfl, Outbox.grows_of_same rfl⟩

theorem Event.setState_leaves (ch : Ch) (st : ChState) (e : Event) : e.Leaves (e.setState ch st) := by
  unfold Event.setState
  split <;> exact ⟨rfl, rfl, rfl, rfl, rfl, rfl, rfl, Outbox.grows_of_same rfl⟩

theorem Event.leavePending_leaves (ch : Ch) (e : Event) : e.Leaves (e.leavePending ch) := by
  unfold Event.leavePending
  simp only
  split <;> exact ⟨rfl, rfl, rfl, rfl, rfl, rfl, rfl, Outbox.grows_of_same rfl⟩

theorem Event.noticeCh_leaves (ch : Ch) (n : Notice) (e : Event) : e.Leaves (e.noticeCh ch n) := by
  refine ⟨rfl, rfl, rfl, rfl, rfl, rfl, rfl, fun k f hf => ?_⟩
  show f ∈ (PerChannel.set _ ch _).get k
  rw [PerChannel.get_set]
  split
  · rename_i h; subst h; exact List.mem_append_left _ hf
  · exact hf

theorem Event.lock_leaves (ch : Ch) (cause : LockCause) (e : Event) : e.Leaves (e.lock ch cause) := by
  have hp : ∀ b : Bool, e.Leaves (if b then e.leavePending ch else e) := by
    intro b; cases b
    · exact Event.Leaves.refl e
    · exact Event.leavePending_leaves ch e
  exact (((hp _).trans (Event.modCc_leaves ch Controller.forLock _)).trans
    (Event.setState_leaves ch (.locked cause) _)).trans (Event.noticeCh_leaves ch _ _)

/-- In LISTENING a channel at rest records the origin and stays (R13). -/
theorem Event.addOrigin_listening (o : Origin) (ch : Ch) (e : Event) (hm : e.mc.mode = .listening)
    (hst : (e.cc.get ch).state = .rest) : e.addOrigin o ch = e.recordOrigin o ch := by
  unfold Event.addOrigin
  rw [hst, hm]; rfl

/-- A channel that leaves OFFLINE with an open contact: at rest, with its start, and held where it is
held (R30, R127). -/
theorem Event.leaveOffline_open (ch : Ch) (e : Event) (hm : e.mc.mode = .listening)
    (hc : e.configured ch = true) (ho : (e.cc.get ch).feedbackClosed = false) :
    e.Leaves (e.leaveOffline ch) ∧ ((e.leaveOffline ch).cc.get ch).state = .rest ∧
      ((e.leaveOffline ch).cc.get ch).origins.has .start = true ∧
      (e.held ch = true → ((e.leaveOffline ch).cc.get ch).origins.has .hold = true) := by
  generalize he1 : e.setState ch .rest = e1
  have l1 : e.Leaves e1 := he1 ▸ Event.setState_leaves ch .rest e
  have h1 : (e1.cc.get ch).state = .rest := by
    rw [← he1, Event.setState_cc, PerChannel.get_set_same]; exact Controller.enter_state _ _ _
  have hs : e1.addOrigin .start ch = e1.recordOrigin .start ch :=
    Event.addOrigin_listening .start ch e1 (by rw [l1.mc]; exact hm) h1
  generalize he2 : e1.recordOrigin .start ch = e2 at hs
  have l2 : e.Leaves e2 := l1.trans (he2 ▸ Event.modCc_leaves ch _ e1)
  have h2 : (e2.cc.get ch).state = .rest := by rw [← he2, Event.recordOrigin_state]; exact h1
  have o2 : (e2.cc.get ch).origins.has .start = true := by rw [← he2]; exact Event.recordOrigin_has .start ch e1
  have hheld : e2.held ch = e.held ch := by
    unfold State.held State.configured State.record; rw [l2.mc, l2.cu]
  have heq : e.leaveOffline ch = if e.held ch then e2.recordOrigin .hold ch else e2 := by
    unfold Event.leaveOffline
    rw [hc, ho, ← Event.addOrigin_listening .hold ch e2 (by rw [l2.mc]; exact hm) h2, ← hheld, ← hs, ← he1]
    rfl
  rw [heq]
  by_cases hh : e.held ch = true
  · rw [if_pos hh]
    refine ⟨l2.trans (Event.modCc_leaves ch _ e2), by rw [Event.recordOrigin_state]; exact h2, ?_,
      fun _ => Event.recordOrigin_has .hold ch e2⟩
    unfold Event.recordOrigin
    rw [Event.modCc_cc, PerChannel.get_set_same]
    exact OriginSet.has_add .hold .start _ o2
  · rw [if_neg hh]
    exact ⟨l2, h2, o2, fun h => absurd h hh⟩

theorem Event.leaveOffline_closed (ch : Ch) (e : Event) (hc : e.configured ch = true)
    (ho : (e.cc.get ch).feedbackClosed = true) : e.leaveOffline ch = e.lock ch .welded := by
  unfold Event.leaveOffline
  rw [if_pos hc, if_pos ho]

theorem Event.leaveOffline_unconfigured (ch : Ch) (e : Event) (hc : e.configured ch = false) :
    e.leaveOffline ch = e := by
  unfold Event.leaveOffline
  rw [hc, if_neg Bool.noConfusion]

theorem Event.leaveOffline_leaves (ch : Ch) (e : Event) (hm : e.mc.mode = .listening) :
    e.Leaves (e.leaveOffline ch) := by
  cases hc : e.configured ch with
  | false => rw [Event.leaveOffline_unconfigured ch e hc]; exact Event.Leaves.refl e
  | true =>
    cases ho : (e.cc.get ch).feedbackClosed with
    | true => rw [Event.leaveOffline_closed ch e hc ho]; exact Event.lock_leaves ch .welded e
    | false => exact (Event.leaveOffline_open ch e hm hc ho).1

/-- All channels leave OFFLINE, and the rest of the node is as it was. -/
theorem Event.leaveAll_leaves (e : Event) (hm : e.mc.mode = .listening) :
    e.Leaves (e.forChannels Event.leaveOffline) :=
  foldl_induct (P := fun e' : Event => e.Leaves e')
    (fun e' k h => h.trans (Event.leaveOffline_leaves k e' (by rw [h.mc]; exact hm))) Ch.all e
    (Event.Leaves.refl e)

/-- What leaving OFFLINE makes of a channel (R30, R127): `c` before, `d` after. -/
def Controller.left (configured held : Bool) (c d : Controller) : Prop :=
  (configured = false → d = c) ∧
  (configured = true → c.feedbackClosed = true → d.state = .locked .welded) ∧
  (configured = true → c.feedbackClosed = false → d.state = .rest ∧ d.origins.has .start = true ∧
    (held = true → d.origins.has .hold = true))

theorem Event.leaveOffline_left (ch : Ch) (e : Event) (hm : e.mc.mode = .listening) :
    Controller.left (e.configured ch) (e.held ch) (e.cc.get ch) ((e.leaveOffline ch).cc.get ch) := by
  refine ⟨fun hc => by rw [Event.leaveOffline_unconfigured ch e hc], fun hc ho => ?_, fun hc ho =>
    (Event.leaveOffline_open ch e hm hc ho).2⟩
  rw [Event.leaveOffline_closed ch e hc ho, (Event.lock_spec ch .welded e).1, PerChannel.get_set_same]
  exact Controller.enter_state _ _ _

theorem Event.Leaves.configured {e e' : Event} (h : e.Leaves e') (ch : Ch) :
    e'.configured ch = e.configured ch ∧ e'.held ch = e.held ch := by
  refine ⟨?_, State.held_of_same h.cu (congrArg ModeControl.image h.mc) ch⟩
  unfold State.configured State.record
  rw [h.mc]

theorem Event.leaveAll_left (ch : Ch) (e : Event) (hm : e.mc.mode = .listening) :
    Controller.left (e.configured ch) (e.held ch) (e.cc.get ch)
      ((e.forChannels Event.leaveOffline).cc.get ch) :=
  (Event.forChannels_at (f := Event.leaveOffline) (I := fun e' => e.Leaves e')
    (B := fun d _ => Controller.left (e.configured ch) (e.held ch) (e.cc.get ch) d) ch
    (fun k e' h => h.trans (Event.leaveOffline_leaves k e' (by rw [h.mc]; exact hm)))
    (fun k e' _ hk => Event.leaveOffline_other k ch e' fun h => hk h.symm) (e.cc.get ch) (e.it.get ch)
    (fun e' h hc _ => by
      have hl := Event.leaveOffline_left ch e' (by rw [h.mc]; exact hm)
      obtain ⟨h1, h2⟩ := h.configured ch
      rw [h1, h2, hc] at hl
      exact hl) e (Event.Leaves.refl e) rfl rfl).2

/-- A configured channel whose contact is closed is noticed as LOCKED (R30, R168). -/
theorem Event.leaveAll_notices (ch : Ch) (e : Event) (hm : e.mc.mode = .listening)
    (hc : e.configured ch = true) (ho : (e.cc.get ch).feedbackClosed = true) :
    (⟨0, .notice (.locked ch .welded)⟩ : Frame) ∈
      (e.forChannels Event.leaveOffline).out.notices.get ch := by
  have keep : ∀ (e' : Event) (k : Ch), e.Leaves e' → e.Leaves (e'.leaveOffline k) := fun e' k h =>
    h.trans (Event.leaveOffline_leaves k e' (by rw [h.mc]; exact hm))
  have grows : ∀ (e' : Event) (k : Ch), e.Leaves e' → e'.out.grows (e'.leaveOffline k).out :=
    fun e' k h => (Event.leaveOffline_leaves k e' (by rw [h.mc]; exact hm)).grows
  have here : ∀ e' : Event, e.Leaves e' → e'.cc.get ch = e.cc.get ch →
      (⟨0, .notice (.locked ch .welded)⟩ : Frame) ∈ (e'.leaveOffline ch).out.notices.get ch := by
    intro e' h hcc
    rw [Event.leaveOffline_closed ch e' ((h.configured ch).1.trans hc) (by rw [hcc]; exact ho)]
    exact (Event.lock_out ch .welded e').1
  refine (foldl_reaches
    (J := fun e' : Event => e.Leaves e' ∧ (e'.cc.get ch = e.cc.get ch ∨
      (⟨0, .notice (.locked ch .welded)⟩ : Frame) ∈ e'.out.notices.get ch))
    (N := fun e' : Event => e.Leaves e' ∧
      (⟨0, .notice (.locked ch .welded)⟩ : Frame) ∈ e'.out.notices.get ch)
    (fun e' k h => ⟨keep e' k h.1, ?_⟩) (fun e' k h => ⟨keep e' k h.1, grows e' k h.1 ch _ h.2⟩) ch
    (fun e' h => ⟨keep e' ch h.1, ?_⟩) Ch.all e (Ch.mem_all ch) ⟨Event.Leaves.refl e, .inl rfl⟩).2
  · rcases h.2 with hcc | hn
    · by_cases hk : ch = k
      · subst hk; exact .inr (here e' h.1 hcc)
      · exact .inl ((Event.leaveOffline_other k ch e' hk).1.trans hcc)
    · exact .inr (grows e' k h.1 ch _ hn)
  · rcases h.2 with hcc | hn
    · exact here e' h.1 hcc
    · exact grows e' ch h.1 ch _ hn

/-- The node in LISTENING with its image, before its channels leave OFFLINE (R141). -/
def Event.accepted (image : Image) (e : Event) : Event :=
  ((e.takeImage image).setMode .listening).noticeNode (.started e.mc.startCause)

theorem Event.accepted_rest (image : Image) (e : Event) :
    (e.accepted image).cc = e.cc ∧
    (e.accepted image).cu = e.cu ∧
    (e.accepted image).mc = { e.mc with
      mode := .listening
      image := some image
      listenTimer := some image.listenInterval
      isolationTimer := some image.isolationLimit } ∧
    (e.accepted image).du.peers = image.peerTable e.mc.station ∧
    (e.accepted image).li.heartbeatTimer = some image.heartbeatPeriod ∧
    (e.accepted image).out.callDue = e.out.callDue ∧
    (e.accepted image).out.standingDue = e.out.standingDue ∧
    (⟨0, .notice (.started e.mc.startCause)⟩ : Frame) ∈ (e.accepted image).out.nodeNotices := by
  obtain ⟨h1, -, -, h4, h5, h6, -, h8, -⟩ := Event.setMode_rest .listening (e.takeImage image)
  refine ⟨h1, h6, h4, congrArg DependencyUnit.peers h5, congrArg LineInterface.heartbeatTimer h8,
    ?_, ?_, List.mem_append_right _ (List.mem_singleton.2 rfl)⟩
  · show ((e.takeImage image).setMode .listening).out.callDue = _
    unfold Event.setMode
    split <;> rfl
  · show ((e.takeImage image).setMode .listening).out.standingDue = _
    unfold Event.setMode
    split <;> rfl

/-- Settles O4: no channel calls, waits or watches after the acceptance, so nothing follows from it. -/
theorem acceptedImageStartsListening : Obligations.AcceptedImageStartsListening := by
  unfold Obligations.AcceptedImageStartsListening
  intro m read image s a hmode hreset _ hoff himg
  have heq : (s.begin m).imageRead read =
      ((s.begin m).accepted image).forChannels Event.leaveOffline := by
    unfold Event.imageRead
    rw [if_pos ⟨hmode, hreset⟩, show judgeImage (s.begin m).mc.station read = .accepted image from himg]
    rfl
  obtain ⟨hcc, hcu, hmc, hpeers, hbeat, hcall, hstand, hnote⟩ := Event.accepted_rest image (s.begin m)
  generalize (s.begin m).accepted image = e0 at heq hcc hcu hmc hpeers hbeat hcall hstand hnote
  have hlis : e0.mc.mode = .listening := by rw [hmc]
  have hl := Event.leaveAll_leaves e0 hlis
  have hleft := fun ch => Event.leaveAll_left ch e0 hlis
  have hwelded := fun ch => Event.leaveAll_notices ch e0 hlis
  generalize e0.forChannels Event.leaveOffline = e at heq hl hleft hwelded
  have hcfg : ∀ ch, e0.configured ch = (image.channels.get ch).used := fun ch => by
    unfold State.configured State.record; rw [hmc]
  have used : ∀ ch, (image.channels.get ch).kind ≠ .none → e0.configured ch = true := fun ch h => by
    rw [hcfg]; exact bne_iff_ne.2 h
  have unused : ∀ ch, (image.channels.get ch).kind = .none → e0.configured ch = false := fun ch h => by
    rw [hcfg]; unfold ChannelRecord.used; rw [h]; rfl
  have hstate : ∀ ch, (e.cc.get ch).state = .offline ∨ (e.cc.get ch).state = .locked .welded ∨
      (e.cc.get ch).state = .rest := fun ch => by
    obtain ⟨h1, h2, h3⟩ := hleft ch
    cases hc : e0.configured ch with
    | false =>
      rw [h1 hc, hcc]
      exact .inl ((State.state_elapse m.elapsed s ch).trans (hoff ch))
    | true =>
      cases ho : (e0.cc.get ch).feedbackClosed with
      | true => exact .inr (.inl (h2 hc ho))
      | false => exact .inr (.inr (h3 hc ho).1)
  have hclosed : ∀ ch, (e0.cc.get ch).feedbackClosed = (s.cc.get ch).feedbackClosed := fun ch => by
    rw [hcc, show (s.begin m).cc = s.cc.map (Controller.elapse m.elapsed) from rfl, PerChannel.get_map]; rfl
  have hidle : e.idle := by
    refine ⟨fun ch => ?_, fun ch => ?_, fun ch => ?_, hl.call.trans hcall, hl.standing.trans hstand⟩ <;>
      rcases hstate ch with h | h | h <;> rw [h] <;> first | exact ChState.noConfusion | rfl
  have hend : ∀ ch, (e.settled.flush m.order).cc.get ch = e.cc.get ch := fun ch =>
    Event.follows_idle m.order e hidle ch (by rcases hstate ch with h | h | h <;> rw [h] <;> rfl)
  have took := Event.took m.order e
  obtain ⟨u, hu⟩ := took.mc
  obtain ⟨q, hq⟩ := took.li
  have hspeaks : e.speaks := by
    unfold State.speaks
    rw [hl.mc, hmc]
    exact ⟨station_of_accepted himg, Mode.noConfusion, Mode.noConfusion⟩
  refine ⟨((s.begin m).imageRead read |>.settled.flush m.order).toState, rfl, ?_⟩
  rw [heq, hu, hq, took.peers]
  refine ⟨?_, ?_, ?_, ?_, ?_, hl.peers.trans hpeers, fun ch hk => ?_, fun ch hk ho => ⟨?_, ?_⟩, ?_,
    fun ch hk ho => ?_⟩
  · show e.mc.mode = _
    rw [hl.mc, hmc]
  · show e.mc.image = _
    rw [hl.mc, hmc]
  · show e.mc.listenTimer = _
    rw [hl.mc, hmc]
  · show e.mc.isolationTimer = _
    rw [hl.mc, hmc]
  · show e.li.heartbeatTimer = _
    rw [hl.li, hbeat]
  · rw [hend, (hleft ch).1 (unused ch hk), hcc]; rfl
  · rw [hend]; exact (hleft ch).2.1 (used ch hk) (by rw [hclosed]; exact ho)
  · exact Event.follows_noticed_channel m.order ch _ e hspeaks
      (Event.duesNeeded_of_none (hl.standing.trans hstand)) (hwelded ch (used ch hk) (by rw [hclosed]; exact ho))
  · exact Event.follows_noticed_node m.order _ e hspeaks (by rw [hl.node]; exact hnote)
  · obtain ⟨h1, h2, h3⟩ := (hleft ch).2.2 (used ch hk) (by rw [hclosed]; exact ho)
    rw [hend]
    refine ⟨h1, h2, fun hh => h3 ?_⟩
    rw [← (hl.configured ch).2, ← took.held ch]; exact hh

end Sys2Proof.Machine
end

