-- ==== Sys2Proof/Proofs/Frame.lean ====
section
/-! SUPPORT. The commands of one channel's own timers leave the rest of the node as it is. -/

namespace Sys2Proof.Machine

/-- Mode Control is as it was, but that an IDLE stagger may have started (R146). -/
def Event.staggers (e e' : Event) : Prop :=
  e'.mc = e.mc ∨ e.mc.staggerTimer = none ∧ (e.mc.mode = .isolated ∨ e.mc.mode = .silent) ∧
    e'.mc = { e.mc with staggerTimer := some e.staggerStart }

theorem Event.staggers.trans {e e' e'' : Event} (h : e.staggers e') (k : e'.staggers e'') :
    e.staggers e'' := by
  rcases h with h | ⟨h1, h2, h3⟩
  · rcases k with k | ⟨k1, k2, k3⟩
    · exact .inl (k.trans h)
    · rw [h] at k1 k2 k3
      exact .inr ⟨k1, k2, by rw [k3]; unfold State.staggerStart; rw [h]⟩
  · refine .inr ⟨h1, h2, ?_⟩
    rcases k with k | ⟨k1, -, -⟩
    · exact k.trans h3
    · rw [h3] at k1; exact absurd k1 (Option.some_ne_none _)

/-- Only the channel, its tracker, its claims and what is owed for it change, but that an IDLE stagger of
an ISOLATED or SILENT node may start (R146). -/
structure Event.AtChannel (ch : Ch) (e e' : Event) : Prop where
  cu : e'.cu = e.cu
  pu : e'.pu = e.pu
  pins : e'.pins = e.pins
  now : e'.now = e.now
  pending : e'.pending = e.pending
  peers : e'.du.peers = e.du.peers
  node : e'.iu.node = e.iu.node
  li : e'.li = e.li
  overflow : e'.bu.overflow = e.bu.overflow
  overflowTimer : e'.bu.overflowTimer = e.bu.overflowTimer
  mc : e.staggers e'
  other : ∀ k, k ≠ ch → e'.cc.get k = e.cc.get k ∧ e'.it.get k = e.it.get k

section
variable {ch : Ch} {e e' e'' : Event}

theorem Event.AtChannel.refl (ch : Ch) (e : Event) : e.AtChannel ch e :=
  ⟨rfl, rfl, rfl, rfl, rfl, rfl, rfl, rfl, rfl, rfl, .inl rfl, fun _ _ => ⟨rfl, rfl⟩⟩

theorem Event.AtChannel.trans (h : e.AtChannel ch e') (k : e'.AtChannel ch e'') : e.AtChannel ch e'' := by
  refine ⟨k.cu.trans h.cu, k.pu.trans h.pu, k.pins.trans h.pins, k.now.trans h.now,
    k.pending.trans h.pending, k.peers.trans h.peers, k.node.trans h.node, k.li.trans h.li,
    k.overflow.trans h.overflow, k.overflowTimer.trans h.overflowTimer, h.mc.trans k.mc,
    fun j hj => ?_⟩
  obtain ⟨h1, h2⟩ := h.other j hj
  obtain ⟨k1, k2⟩ := k.other j hj
  exact ⟨k1.trans h1, k2.trans h2⟩

/-- A step that writes the channel's own parts, claims, lamps and the outbox alone. -/
theorem Event.AtChannel.of_writes (hcc : ∀ k, k ≠ ch → e'.cc.get k = e.cc.get k)
    (hit : ∀ k, k ≠ ch → e'.it.get k = e.it.get k)
    (h : e' = { e with
      cc := e'.cc
      it := e'.it
      bu := { e.bu with claims := e'.bu.claims, retryGap := e'.bu.retryGap }
      du := { e.du with callWait := e'.du.callWait }
      iu := { e.iu with channels := e'.iu.channels }
      out := e'.out }) : e.AtChannel ch e' := by
  generalize e'.bu.claims = claims, e'.bu.retryGap = gap, e'.du.callWait = wait, e'.iu.channels = lamps,
    e'.out = out at h
  generalize e'.cc = cc, e'.it = it at h hcc hit
  subst h
  exact ⟨rfl, rfl, rfl, rfl, rfl, rfl, rfl, rfl, rfl, rfl, .inl rfl, fun k hk => ⟨hcc k hk, hit k hk⟩⟩

end

section
variable (ch : Ch) (e : Event)

theorem Event.modCc_atChannel (f : Controller → Controller) : e.AtChannel ch (e.modCc ch f) :=
  .of_writes (fun _ hk => PerChannel.get_set_other _ hk _) (fun _ _ => rfl) rfl

theorem Event.modIt_atChannel (f : Tracker → Tracker) : e.AtChannel ch (e.modIt ch f) :=
  .of_writes (fun _ _ => rfl) (fun _ hk => PerChannel.get_set_other _ hk _) rfl

theorem Event.setState_atChannel (st : ChState) : e.AtChannel ch (e.setState ch st) := by
  unfold Event.setState
  split
  · exact Event.modCc_atChannel ch e _
  · exact .of_writes (fun _ hk => PerChannel.get_set_other _ hk _) (fun _ _ => rfl) rfl

theorem Event.setCallWait_atChannel (k : Ch) (t : Timer) : e.AtChannel ch (e.setCallWait k t) :=
  .of_writes (fun _ _ => rfl) (fun _ _ => rfl) rfl

theorem Event.setRetryGap_atChannel (k : Ch) (t : Timer) : e.AtChannel ch (e.setRetryGap k t) :=
  .of_writes (fun _ _ => rfl) (fun _ _ => rfl) rfl

theorem Event.writeOut_atChannel (o : Outbox) : e.AtChannel ch { e with out := o } :=
  .of_writes (fun _ _ => rfl) (fun _ _ => rfl) rfl

theorem Event.writeClaims_atChannel (claims : List Claim) :
    e.AtChannel ch { e with bu.claims := claims } :=
  .of_writes (fun _ _ => rfl) (fun _ _ => rfl) rfl

theorem Event.wakeStagger_atChannel : e.AtChannel ch e.wakeStagger := by
  have hmc := Event.wakeStagger_mc e
  obtain ⟨hcc, hit, -⟩ := Event.wakeStagger_rest e
  have hk := Event.wakeStagger_kept e
  exact ⟨hk.cu, hk.pu, hk.pins, hk.now, hk.pending, hk.peers, hk.node, hk.li, by rw [hk.bu],
    by rw [hk.bu], hmc, fun k _ => by rw [hcc, hit]; exact ⟨rfl, rfl⟩⟩

theorem Event.enterPending_atChannel : e.AtChannel ch (e.enterPending ch) := by
  unfold Event.enterPending
  simp only
  have h1 := Event.modCc_atChannel ch e fun c => { c with runDownTimer := none, retryTimer := none }
  generalize e.modCc ch _ = e1 at h1 ⊢
  refine h1.trans (Event.AtChannel.trans ?_ (Event.wakeStagger_atChannel ch _))
  split
  · exact (Event.setState_atChannel ch e1 _).trans (Event.writeOut_atChannel ch _ _)
  · exact ((Event.setState_atChannel ch e1 _).trans (Event.setCallWait_atChannel ch _ ch _)).trans
      (Event.writeOut_atChannel ch _ _)

theorem Event.removeProvisional_atChannel (x : Claim) : e.AtChannel ch (e.removeProvisional x) :=
  .of_writes (fun _ _ => rfl) (fun _ _ => rfl) rfl

theorem Event.leavePending_atChannel : e.AtChannel ch (e.leavePending ch) := by
  unfold Event.leavePending
  simp only
  have h := (Event.setCallWait_atChannel ch e ch none).trans
    (Event.setRetryGap_atChannel ch (e.setCallWait ch none) ch none)
  split
  · exact h.trans (Event.removeProvisional_atChannel ch _ _)
  · exact h

theorem Event.lock_atChannel (cause : LockCause) : e.AtChannel ch (e.lock ch cause) := by
  have hp : ∀ b : Bool, e.AtChannel ch (if b then e.leavePending ch else e) := by
    intro b; cases b
    · exact Event.AtChannel.refl ch e
    · exact Event.leavePending_atChannel ch e
  exact (((hp _).trans (Event.modCc_atChannel ch _ Controller.forLock)).trans
    (Event.setState_atChannel ch _ (.locked cause))).trans (Event.writeOut_atChannel ch _ _)

theorem Event.handOverInrush_atChannel : e.AtChannel ch (e.handOverInrush ch) := by
  have h := Event.modCc_atChannel ch e fun c => { c with inrushTimer := none }
  unfold Event.handOverInrush
  simp only
  split
  · exact h.trans (Event.writeClaims_atChannel ch _ _)
  · exact h

theorem Event.trip_atChannel (cause : TripCause) : e.AtChannel ch (e.trip ch cause) := by
  unfold Event.trip
  exact ((((Event.handOverInrush_atChannel ch e).trans (Event.modIt_atChannel ch _ _)).trans
    (Event.modCc_atChannel ch _ _)).trans (Event.setState_atChannel ch _ _)).trans
    (Event.writeOut_atChannel ch _ _)

theorem Event.releaseClaim_atChannel (x : Claim) : e.AtChannel ch (e.releaseClaim x) :=
  .of_writes (fun _ _ => rfl) (fun _ _ => rfl) rfl

theorem Event.returnToAwake_atChannel : e.AtChannel ch (e.returnToAwake ch) := by
  unfold Event.returnToAwake
  split
  · exact Event.setState_atChannel ch e _
  · exact Event.AtChannel.refl ch e

theorem Event.tryWait_atChannel : e.AtChannel ch (e.tryWait ch) := by
  unfold Event.tryWait
  split
  · exact Event.setState_atChannel ch e _
  · exact Event.AtChannel.refl ch e

theorem Event.enterAwake_atChannel : e.AtChannel ch (e.enterAwake ch) := by
  unfold Event.enterAwake
  have h := (Event.modCc_atChannel ch e fun c => { c with inrushTimer := none, origins := {} }).trans
    (Event.setState_atChannel ch _ .awake)
  generalize Event.setState ch .awake _ = e1 at h ⊢
  exact h.trans (Event.modIt_atChannel ch e1 _)

theorem Event.startClaimed_atChannel : e.AtChannel ch (e.startClaimed ch) := by
  unfold Event.startClaimed
  have h := Event.setState_atChannel ch e (.starting .claimed)
  generalize e.setState ch _ = e1 at h ⊢
  exact h.trans (Event.modCc_atChannel ch e1 _)

/-! ## The ten effects -/

theorem Event.feedbackMismatch_atChannel : e.AtChannel ch (e.feedbackMismatch ch) := by
  unfold Event.feedbackMismatch
  split
  · refine (Event.modCc_atChannel ch e fun c => { c with mark := none, mismatchTimer := none }).trans ?_
    simp only
    split
    · exact Event.trip_atChannel ch _ _
    · exact Event.lock_atChannel ch _ _
  · exact Event.AtChannel.refl ch e

theorem Event.retryEnds_atChannel : e.AtChannel ch (e.retryEnds ch) := by
  unfold Event.retryEnds
  split
  · split
    · exact (Event.modCc_atChannel ch e _).trans (Event.enterPending_atChannel ch _)
    · exact Event.lock_atChannel ch e _
  · exact Event.AtChannel.refl ch e

theorem Event.runDownExpires_atChannel : e.AtChannel ch (e.runDownExpires ch) := by
  unfold Event.runDownExpires
  split
  · unfold Event.runDownEnds
    refine (Event.modCc_atChannel ch e fun c => { c with runDownTimer := none }).trans ?_
    simp only
    split
    · exact Event.setState_atChannel ch _ _
    · exact Event.enterPending_atChannel ch _
  · exact Event.AtChannel.refl ch e

theorem Event.inrushEnds_atChannel : e.AtChannel ch (e.inrushEnds ch) := by
  have h := Event.enterAwake_atChannel ch e
  unfold Event.inrushEnds
  split
  · refine h.trans ?_
    unfold Event.releaseLive
    split
    · exact Event.releaseClaim_atChannel ch _ _
    · exact Event.AtChannel.refl ch _
  · exact h
  · exact Event.AtChannel.refl ch e

theorem Event.inrushHoldEnds_atChannel : e.AtChannel ch (e.inrushHoldEnds ch) := by
  unfold Event.inrushHoldEnds
  split
  · split
    · exact Event.releaseClaim_atChannel ch e _
    · exact Event.AtChannel.refl ch e
  · exact Event.AtChannel.refl ch e

theorem Event.activityDebounced_atChannel : e.AtChannel ch (e.activityDebounced ch) := by
  unfold Event.activityDebounced
  split
  · split
    · exact (Event.modIt_atChannel ch e _).trans (Event.returnToAwake_atChannel ch _)
    · exact Event.modIt_atChannel ch e _
  · exact Event.AtChannel.refl ch e

theorem Event.idleWindowEnds_atChannel : e.AtChannel ch (e.idleWindowEnds ch) := by
  unfold Event.idleWindowEnds
  split
  · unfold Event.windowExpired
    simp only
    have h := Event.modCc_atChannel ch e fun c => { c with tripCount := 0 }
    generalize e.modCc ch _ = e1 at h ⊢
    refine (h.trans (Event.modIt_atChannel ch e1
      (Tracker.windowExpired (e1.record ch).idleWindow (e1.held ch)))).trans ?_
    split
    · exact Event.tryWait_atChannel ch _
    · exact Event.AtChannel.refl ch _
  · exact Event.AtChannel.refl ch e

theorem Event.callWaitEnds_atChannel : e.AtChannel ch (e.callWaitEnds ch) := by
  unfold Event.callWaitEnds
  split
  · have h : e.AtChannel ch (e.noticeUnanswered ch) := by
      unfold Event.noticeUnanswered
      split
      · exact Event.writeOut_atChannel ch e _
      · exact Event.AtChannel.refl ch e
    exact ((h.trans (Event.setCallWait_atChannel ch _ ch none)).trans
      (Event.setState_atChannel ch _ _)).trans (Event.writeOut_atChannel ch _ _)
  · exact Event.AtChannel.refl ch e

theorem Event.settleEnds_atChannel : e.AtChannel ch (e.settleEnds ch) := by
  unfold Event.settleEnds
  split
  · split
    · exact (Event.writeClaims_atChannel ch e _).trans (Event.startClaimed_atChannel ch _)
    · exact Event.AtChannel.refl ch e
  · exact Event.AtChannel.refl ch e

theorem Event.retryGapEnds_atChannel : e.AtChannel ch (e.retryGapEnds ch) := by
  unfold Event.retryGapEnds
  split
  · exact (Event.setRetryGap_atChannel ch e ch none).trans (Event.writeOut_atChannel ch _ _)
  · exact Event.AtChannel.refl ch e

end

/-- A command of a channel's own timers acts at that channel (R4, R10, R11, R26, R38, R72, R86, R88). -/
theorem effectOf_atChannel {m : Moment} {ch : Ch} {c : Instr}
    (hc : c ∈ [Instr.feedbackMismatch m ch, .retryTimerExpiry m ch, .runDownExpiry m ch,
      .inrushExpiry m ch, .inrushHoldExpiry m ch, .activityDebounceExpiry m ch,
      .idleWindowExpiry m ch, .callWaitExpiry m ch, .settleExpiry m ch, .retryGapExpiry m ch])
    (e : Event) : c.moment = m ∧ e.AtChannel ch (effectOf c e) := by
  simp only [List.mem_cons, List.not_mem_nil, or_false] at hc
  rcases hc with rfl | rfl | rfl | rfl | rfl | rfl | rfl | rfl | rfl | rfl
  · exact ⟨rfl, Event.feedbackMismatch_atChannel ch e⟩
  · exact ⟨rfl, Event.retryEnds_atChannel ch e⟩
  · exact ⟨rfl, Event.runDownExpires_atChannel ch e⟩
  · exact ⟨rfl, Event.inrushEnds_atChannel ch e⟩
  · exact ⟨rfl, Event.inrushHoldEnds_atChannel ch e⟩
  · exact ⟨rfl, Event.activityDebounced_atChannel ch e⟩
  · exact ⟨rfl, Event.idleWindowEnds_atChannel ch e⟩
  · exact ⟨rfl, Event.callWaitEnds_atChannel ch e⟩
  · exact ⟨rfl, Event.settleEnds_atChannel ch e⟩
  · exact ⟨rfl, Event.retryGapEnds_atChannel ch e⟩

/-- Settles O53. -/
theorem channelTimerCommandsFrame : Obligations.ChannelTimerCommandsFrame := by
  unfold Obligations.ChannelTimerCommandsFrame
  intro m ch k s c a hc hk
  obtain ⟨hm, hat⟩ := effectOf_atChannel hc (s.begin m)
  have hex : exec c s = .next ((effectOf c (s.begin m)).settled.flush m.order).toState := by
    rw [exec_eq, hm]; rfl
  have took := Event.took m.order (effectOf c (s.begin m))
  have hmc := Event.follows_mc m.order (effectOf c (s.begin m))
  generalize effectOf c (s.begin m) = e at hat hex took hmc
  obtain ⟨hcc, hit⟩ := hat.other k hk
  refine ⟨_, hex, took.cu.trans hat.cu, took.pu.trans hat.pu, took.pins.trans hat.pins,
    took.now.trans hat.now, took.pending.trans hat.pending, took.peers.trans hat.peers,
    took.node.trans hat.node, ?_, ?_, took.overflow.trans hat.overflow,
    took.overflowTimer.trans hat.overflowTimer, ?_, ?_, ?_, fun hst => ⟨?_, ?_⟩⟩
  · exact hat.mc.trans hmc
  · obtain ⟨q, hq⟩ := took.li
    exact ⟨q, by rw [hq, hat.li]; rfl⟩
  · rw [took.closed, hcc]; rfl
  · rw [took.trips, hcc]; rfl
  · rw [took.inrush, hcc]; rfl
  · have h := took.stays k (by rw [hcc]; exact hst)
    rw [hcc] at h; exact h
  · rw [took.tracker k, hit]
    · rfl
    · rw [hcc]
      intro hw
      rw [show (a.cc.get k).state = .waiting from hw] at hst
      exact Bool.noConfusion hst

end Sys2Proof.Machine
end

