-- ==== Sys2Proof/Proofs/Unlock.lean ====
section
/-! SUPPORT. UNLOCK (R9, R133): what it leaves of its channel, and when nothing follows from it. -/

namespace Sys2Proof.Machine

/-! ## A load at rest -/

/-- A load at rest that has been called is in PENDING, and else it rests on. -/
theorem Took.rest_ends {e : Event} {t : State} (h : Took e t) (ch : Ch)
    (hst : (e.cc.get ch).state = .rest) :
    (t.cc.get ch).state = .rest ∨ (t.cc.get ch).state.isPending = true := by
  obtain ⟨st, hf, hg⟩ := h.state ch
  rw [hst] at hf
  by_cases hp : st.isPending = true
  · exact .inr (ChState.isPending_flushes hp hg)
  · have hr : st = .rest := by
      simp only [ChState.follows, Bool.or_eq_true, beq_iff_eq] at hf
      rcases hf with (h | h) | h
      · exact h
      · rw [h] at hp; exact absurd rfl hp
      · rw [h] at hp; exact absurd rfl hp
    rw [hr] at hg
    exact .inl (ChState.flushes_of_ne ChState.noConfusion ChState.noConfusion hg)

/-- In LISTENING nothing that follows wakes a load at rest (R13). -/
theorem rest_keptBySettle (ch : Ch) :
    KeptBySettle fun e => e.mc.mode = .listening ∧ (e.cc.get ch).state = .rest where
  out _ _ _ h := h
  marks _ _ h := h
  call k _ _ e _ _ h := by
    refine ⟨(Event.addOrigin_follows .call k e).kept.mode.trans h.1, ?_⟩
    by_cases hk : ch = k
    · subst hk
      rw [Event.addOrigin_listening .call ch e h.1 h.2, Event.recordOrigin_state]; exact h.2
    · rw [(Event.addOrigin_other .call k ch e hk).1]; exact h.2
  endCalling k e hst h := by
    refine ⟨(Event.setState_kept k _ e).mode.trans h.1, ?_⟩
    have hk : ch ≠ k := fun hk => by rw [← hk, h.2] at hst; exact ChState.noConfusion hst
    rw [show (e.endCalling k).cc = _ from Event.setState_cc k _ e, PerChannel.get_set_other _ hk]
    exact h.2
  coast k e hst h := by
    refine ⟨(Event.enterCoast_follows k e hst).kept.mode.trans h.1, ?_⟩
    have hk : ch ≠ k := fun hk => by rw [← hk, h.2] at hst; exact ChState.noConfusion hst
    rw [(Event.enterCoast_other k ch e hk).1]; exact h.2

theorem Event.follows_restsOn (order : List Block) (ch : Ch) (e : Event) (hd : e.duesNeeded)
    (hm : e.mc.mode = .listening) (hst : (e.cc.get ch).state = .rest) :
    ((e.settled.flush order).cc.get ch).state = .rest := by
  have h := ((rest_keptBySettle ch).settled e ⟨hm, hst⟩ hd).2
  rw [Event.flush_channel order e.settled ch (by rw [h]; rfl)]
  exact h

/-! ## The unlocked channel (R9, R127) -/

/-- A LOCKED channel in REST, before a hold is looked at. -/
def Event.opened (ch : Ch) (e : Event) : Event :=
  (e.modCc ch fun c => { c with tripCount := 0, origins := {} }).setState ch .rest

theorem Event.unlockToRest_eq (ch : Ch) (e : Event) : e.unlockToRest ch =
    if (e.opened ch).held ch then (e.opened ch).addOrigin .hold ch else e.opened ch := rfl

theorem Event.opened_spec (ch : Ch) (e : Event) :
    ((e.opened ch).cc.get ch).state = .rest ∧ ((e.opened ch).cc.get ch).tripCount = 0 ∧
    ((e.opened ch).cc.get ch).origins = {} ∧
    ((e.opened ch).cc.get ch).feedbackClosed = (e.cc.get ch).feedbackClosed ∧
    (∀ k, k ≠ ch → (e.opened ch).cc.get k = e.cc.get k) ∧ (e.opened ch).mc = e.mc ∧
    (e.opened ch).du = e.du ∧ (e.opened ch).cu = e.cu ∧
    ∃ b, (e.opened ch).out = { e.out with stateDue := b } := by
  generalize he : e.modCc ch (fun c => { c with tripCount := 0, origins := {} }) = e1
  have h1 : e1.cc = e.cc.set ch { e.cc.get ch with tripCount := 0, origins := {} } := by rw [← he]; rfl
  have hc : (e1.setState ch .rest).cc.get ch =
      Controller.enter (e1.record ch).feedbackWindow .rest (e1.cc.get ch) := by
    rw [Event.setState_cc, PerChannel.get_set_same]
  obtain ⟨r1, r2, -, r4, -, -⟩ := Controller.enter_rest (e1.record ch).feedbackWindow .rest (e1.cc.get ch)
  have hs := Controller.enter_state (e1.record ch).feedbackWindow .rest (e1.cc.get ch)
  rw [← hc] at r1 r2 r4 hs
  rw [h1, PerChannel.get_set_same] at r1 r2 r4
  unfold Event.opened
  rw [he]
  refine ⟨hs, r2, r4, r1, fun k hk => ?_, ?_, ?_, ?_, ?_⟩
  · rw [Event.setState_cc, PerChannel.get_set_other _ hk, h1, PerChannel.get_set_other _ hk]
  · rw [Event.setState_mc, ← he]; rfl
  · rw [Event.setState_du, ← he]; rfl
  · rw [(Event.setState_kept _ _ _).cu, ← he]; rfl
  · unfold Event.setState
    split
    · exact ⟨_, by rw [← he]; rfl⟩
    · exact ⟨true, by rw [← he]; rfl⟩

/-- The opening of a lock that no running local load needs leaves a settled node settled. -/
theorem Event.opened_settled (ch : Ch) (e : Event) (h : e.toState.settled)
    (hl : (e.cc.get ch).state.isLocked = true) (ho : (e.cc.get ch).feedbackClosed = false)
    (hn : ∀ k, (e.cc.get k).state.watching = true → ∀ r ∈ (e.record k).needs, e.localCh? r ≠ some ch) :
    (e.opened ch).toState.settled := by
  obtain ⟨hst, -, -, hcl, other, hmc, hdu, hcu, -⟩ := Event.opened_spec ch e
  obtain ⟨cause, hlk⟩ : ∃ cause, (e.cc.get ch).state = .locked cause := by
    cases hs : (e.cc.get ch).state <;> rw [hs] at hl <;>
      first | exact ⟨_, rfl⟩ | exact Bool.noConfusion hl
  rw [ho] at hcl
  have hi : (e.opened ch).mc.image = e.mc.image := by rw [hmc]
  have hs : (e.opened ch).mc.station = e.mc.station := by rw [hmc]
  have hp : (e.opened ch).du.peers = e.du.peers := by rw [hdu]
  have hr : (e.opened ch).atRest = e.atRest := State.atRest_of_local hs hp fun k => by
    by_cases hk : k = ch
    · subst hk; rw [hst, hlk, hcl, ho]; rfl
    · rw [other k hk]
  refine State.settled_of_agree h hi (by rw [hdu]) (State.available_of_local hs hp fun k => ?_)
    (fun k hk => ?_) (fun k hk => ?_) fun k => ?_
  · by_cases hk : k = ch
    · subst hk; rw [hst, hlk, hcl, ho]; rfl
    · rw [other k hk]
  · by_cases hk' : k = ch
    · subst hk'; rw [hst] at hk; exact ChState.noConfusion hk
    · rw [← other k hk']; exact hk
  · by_cases hk' : k = ch
    · subst hk'
      unfold State.mayCoast at hk
      simp only [Bool.and_eq_true, decide_eq_true_eq] at hk
      rw [hst] at hk
      exact ChState.noConfusion hk.1.1.1
    · rw [← State.mayCoast_of hi (by rw [hmc]) k (by rw [other k hk'])
        (State.held_of_same hcu hi k) hr]
      exact hk
  · refine State.lostProviders_of hi k ?_ fun hw r hrn => ?_
    · by_cases hk : k = ch
      · subst hk; rw [hst, hlk]; rfl
      · rw [other k hk]
    · refine State.restsBeneath_of_local hs hp r fun c hc => ?_
      have hne : c ≠ ch := fun he => hn k hw r hrn (he ▸ hc)
      rw [other c hne]

theorem Event.carryOutUnlock_open (ch : Ch) (e : Event) (hl : (e.cc.get ch).state.isLocked = true)
    (ho : (e.cc.get ch).feedbackClosed = false) :
    e.carryOutUnlock ch = (.accepted, e.unlockToRest ch) := by
  unfold Event.carryOutUnlock
  rw [hl, ho]; rfl

theorem Event.carryOutUnlock_refused (ch : Ch) (e : Event)
    (h : (e.cc.get ch).state.isLocked = false ∨ (e.cc.get ch).feedbackClosed = true) :
    e.carryOutUnlock ch = (.refusedState, e) := by
  unfold Event.carryOutUnlock
  refine if_neg fun hn => ?_
  rw [Bool.and_eq_true, Bool.not_eq_true'] at hn
  rcases h with h | h
  · rw [h] at hn; exact Bool.noConfusion hn.1
  · rw [h] at hn; exact Bool.noConfusion hn.2

theorem Event.unlockToRest_held (ch : Ch) (e : Event) (h : e.held ch = true) :
    e.unlockToRest ch = (e.opened ch).addOrigin .hold ch := by
  obtain ⟨-, -, -, -, -, hmc, -, hcu, -⟩ := Event.opened_spec ch e
  rw [Event.unlockToRest_eq, State.held_of_same hcu (by rw [hmc]) ch, if_pos h]

theorem Event.unlockToRest_free (ch : Ch) (e : Event) (h : e.held ch = false) :
    e.unlockToRest ch = e.opened ch := by
  obtain ⟨-, -, -, -, -, hmc, -, hcu, -⟩ := Event.opened_spec ch e
  rw [Event.unlockToRest_eq, State.held_of_same hcu (by rw [hmc]) ch, h, if_neg Bool.noConfusion]

/-- The end of an UNLOCK of a held load: its hold is recorded, and wakes it in OPERATING (R9, R14, R127). -/
theorem Event.unlockHeld_ends (order : List Block) (ch : Ch) (e j : Event)
    (hj : j.toState = ((e.opened ch).addOrigin .hold ch).toState) (hd : j.duesNeeded) :
    ((j.settled.flush order).cc.get ch).tripCount = 0 ∧
    ((j.settled.flush order).cc.get ch).origins.has .hold = true ∧
    (e.mc.mode = .listening → ((j.settled.flush order).cc.get ch).state = .rest) ∧
    (e.mc.mode = .operating → ((j.settled.flush order).cc.get ch).state.isPending = true) := by
  obtain ⟨hst, htr, -, -, -, hmc, -⟩ := Event.opened_spec ch e
  have hf := Event.addOrigin_follows .hold ch (e.opened ch)
  have took : Took ((e.opened ch).addOrigin .hold ch) (j.settled.flush order).toState :=
    (Event.took order j).of_state hj.symm
  refine ⟨?_, took.origins ch .hold (Event.addOrigin_has .hold ch _ (by rw [hst]; rfl)), fun hm => ?_,
    fun hm => took.pending_kept ch (Event.addOrigin_wakes .hold ch _ (.inl ⟨hst, by rw [hmc, hm]; rfl⟩))⟩
  · rw [took.trips, (hf.channels ch).trips, htr]
  · have hl : (e.opened ch).mc.mode = .listening := by rw [hmc]; exact hm
    refine Event.follows_restsOn order ch j hd ?_ ?_
    · rw [hj, hf.kept.mode]; exact hl
    · rw [hj, Event.addOrigin_listening .hold ch _ hl hst, Event.recordOrigin_state]; exact hst

/-- The end of an UNLOCK of a load that is not held, in a settled node (R9). -/
theorem Event.unlockFree_ends (order : List Block) (ch : Ch) (e j : Event)
    (hj : j.toState = (e.opened ch).toState) (hout : j.out.callDue = .all false ∧
      j.out.standingDue = .all [] ∧ j.out.budget = [] ∧ j.out.evalDue = false)
    (hs : (e.opened ch).toState.settled) :
    ((j.settled.flush order).cc.get ch).state = .rest ∧
      ((j.settled.flush order).cc.get ch).origins = {} := by
  obtain ⟨hst, -, hor, -⟩ := Event.opened_spec ch e
  obtain ⟨h1, h2, h3, h4⟩ := hout
  obtain ⟨q, hq⟩ := Event.follows_still order j (by rw [hj]; exact hs) h1 h2 h3 h4
  rw [hq, hj]
  exact ⟨hst, hor⟩

theorem Event.unlockToRest_mc (ch : Ch) (e : Event) :
    (e.unlockToRest ch).mc.mode = e.mc.mode ∧ (e.unlockToRest ch).mc.station = e.mc.station := by
  obtain ⟨-, -, -, -, -, hmc, -⟩ := Event.opened_spec ch e
  have hk : NodeKept (e.opened ch) (e.unlockToRest ch) := by
    rw [Event.unlockToRest_eq]
    split
    · exact (Event.addOrigin_follows .hold ch _).kept
    · exact NodeKept.refl _
  obtain ⟨u, hu⟩ := hk.mc
  rw [hu, hmc]
  exact ⟨rfl, rfl⟩

/-- Settles O38. -/
theorem unlockClearsTheLock : Obligations.UnlockClearsTheLock := by
  unfold Obligations.UnlockClearsTheLock
  intro m env channel level ch s a hmode hh ht h0 hl hc hcf hg
  generalize he : s.heardAt m = e
  have hcc : e.cc = a.cc := by rw [← he]; rfl
  have hset : s.settled → e.toState.settled := fun h => by
    rw [← he]; exact State.settled_elapse m.elapsed s h
  have hst : e.mc.station = s.mc.station := by rw [← he]; rfl
  have hm : e.mc.mode = s.mc.mode := by rw [← he]; rfl
  have hout : e.out = {} := by rw [← he]; rfl
  have heq : effectOf (.unlock m env channel level) (s.begin m) =
      Judged.answer env kindUnlock channel 0 (Event.carryOutUnlock ch e) := by
    rw [← he]
    exact command_onLine env kindUnlock channel level 1 Event.carryOutUnlock ch m s hmode hh ht h0 hl hc
      hcf hg
  have hex : exec (.unlock m env channel level) s =
      .next ((Judged.answer env kindUnlock channel 0 (Event.carryOutUnlock ch e)).settled.flush
        m.order).toState := by rw [exec_eq, ← heq]; rfl
  have speaking : ∀ {e' : Event}, e'.mc.mode = e.mc.mode →
      e'.mc.mode ≠ .loading ∧ e'.mc.mode ≠ .silent := fun h => by
    rw [h, hm]
    rcases hmode with h | h <;> rw [h] <;> exact ⟨Mode.noConfusion, Mode.noConfusion⟩
  refine ⟨_, hex, fun hlk ho => ?_, fun hlk ho => ?_, fun haw => ?_, fun hr => ?_⟩
  · rw [← hcc] at hlk ho
    rw [Event.carryOutUnlock_open ch e hlk ho]
    obtain ⟨hum, hus⟩ := Event.unlockToRest_mc ch e
    have hrep := answer_replied m.order env kindUnlock channel 0 (.accepted, e.unlockToRest ch) h0
      ((ht.trans hst.symm).trans hus.symm) (speaking hum)
    obtain ⟨ost, otr, -, -, -, -, -, -, b, oout⟩ := Event.opened_spec ch e
    generalize hj : Judged.answer env kindUnlock channel 0 (.accepted, e.unlockToRest ch) = j at hrep ⊢
    have hjs : j.toState = (e.unlockToRest ch).toState := by rw [← hj]; rfl
    have hjo : j.out = { (e.unlockToRest ch).out with replies := j.out.replies } := by rw [← hj]; rfl
    cases hheld : e.held ch with
    | false =>
      have hfree : a.held ch ≠ true := fun hh => by
        rw [show a.held ch = e.held ch by rw [← he]; rfl, hheld] at hh; exact Bool.noConfusion hh
      rw [Event.unlockToRest_free ch e hheld] at hjs hjo
      have took : Took (e.opened ch) (j.settled.flush m.order).toState :=
        (Event.took m.order j).of_state hjs.symm
      refine ⟨took.rest_ends ch ost, by rw [took.trips]; exact otr, hrep, fun _ hs hn => ?_,
        fun hh => absurd hh hfree⟩
      refine Event.unlockFree_ends m.order ch e j hjs ?_
        (Event.opened_settled ch e (hset hs) hlk ho (by rw [← he]; exact hn))
      rw [hjo, oout, hout]
      exact ⟨rfl, rfl, rfl, rfl⟩
    | true =>
      have hheld' : a.held ch ≠ false := fun hh => by
        rw [show a.held ch = e.held ch by rw [← he]; rfl, hheld] at hh; exact Bool.noConfusion hh
      rw [Event.unlockToRest_held ch e hheld] at hjs hjo
      obtain ⟨h1, h2, h3, h4⟩ := Event.unlockHeld_ends m.order ch e j hjs (Event.duesNeeded_of_none (by
        rw [hjo]
        show ((e.opened ch).addOrigin .hold ch).out.standingDue = _
        rw [(Event.addOrigin_unnoticed .hold ch _).2, oout, hout]))
      rw [hm] at h3 h4
      exact ⟨hmode.imp h3 h4, h1, hrep, fun hh => absurd hh hheld', fun _ => ⟨h2, h3, h4⟩⟩
  · rw [Event.carryOutUnlock_refused ch e (.inr (by rw [hcc]; exact ho))]
    have took : Took e ((Judged.answer env kindUnlock channel 0 (.refusedState, e)).settled.flush
      m.order).toState := (Event.took m.order _).of_state rfl
    obtain ⟨-, hrec, hw⟩ := ChState.locked_ignores (hcc ▸ hlk)
    rw [took.ignored ch hrec hw, hcc]
  · rw [← hcc] at haw
    rw [Event.carryOutUnlock_refused ch e (.inl (by rw [haw]; rfl))]
    have took : Took e ((Judged.answer env kindUnlock channel 0 (.refusedState, e)).settled.flush
      m.order).toState := (Event.took m.order _).of_state rfl
    rw [took.ignored ch (by rw [haw]; rfl) (by rw [haw]; exact ChState.noConfusion), hcc]
  · rw [Event.carryOutUnlock_refused ch e (by rw [hcc]; exact hr)]
    refine ⟨answer_replied m.order env kindUnlock channel 0 (.refusedState, e) h0 (ht.trans hst.symm)
      (speaking rfl), fun hs => ?_⟩
    obtain ⟨q, hq⟩ := Event.follows_still m.order
      (Judged.answer env kindUnlock channel 0 (.refusedState, e)) (hset hs)
      (congrArg Outbox.callDue hout) (congrArg Outbox.standingDue hout)
      (congrArg Outbox.budget hout) (congrArg Outbox.evalDue hout)
    rw [hq]; exact hcc

end Sys2Proof.Machine
end

