-- ==== Sys2Proof/Proofs/Rejoin.lean ====
section
/-! SUPPORT. The return from ISOLATED at the first frame heard (R147). -/

namespace Sys2Proof.Machine

/-! ## The bytes of a frame name its fields (10.1) -/

theorem lineBytes_inj {s₁ k₁ t₁ s₂ k₂ t₂ : Byte} {p₁ p₂ : List Byte}
    (h : lineBytes s₁ k₁ t₁ p₁ = lineBytes s₂ k₂ t₂ p₂) : s₁ = s₂ ∧ k₁ = k₂ ∧ t₁ = t₂ ∧ p₁ = p₂ := by
  unfold lineBytes at h
  simp only [List.cons_append, List.nil_append, List.cons.injEq] at h
  obtain ⟨hs, hk, ht, -, hp⟩ := h
  exact ⟨hs, hk, ht, (List.append_inj' hp rfl).1⟩

/-! ## The return (R147) -/

/-- The node is back in OPERATING with the image's isolation limit to run, its stagger stopped, and its
return noticed. -/
structure Event.returned (image : Image) (station : Nat) (e : Event) : Prop where
  mode : e.mc.mode = .operating
  isolation : e.mc.isolationTimer = some image.isolationLimit
  stagger : e.mc.staggerTimer = none
  station : e.mc.station = station
  notice : (⟨0, .notice .rejoined⟩ : Frame) ∈ e.out.nodeNotices

theorem Event.returned.of_calm {x u : Prop} {image : Image} {station : Nat} {e e' : Event}
    (h : e.returned image station) (k : Calm x u e e') : e'.returned image station := by
  have hm := k.mc_same h.mode
  exact ⟨by rw [hm]; exact h.mode, by rw [hm]; exact h.isolation, by rw [hm]; exact h.stagger,
    by rw [hm]; exact h.station, k.notices _ h.notice⟩

theorem Event.rejoin_returned {image : Image} {station : Nat} (e : Event)
    (hi : e.mc.image = some image) (hs : e.mc.station = station) : e.rejoin.returned image station := by
  obtain ⟨-, -, -, hmc, -⟩ := Event.setMode_rest .operating e
  have h1 : Event.returned image station { (e.setMode .operating).noticeNode .rejoined with
      mc.isolationTimer := some (State.plantTime
        ((e.setMode .operating).noticeNode .rejoined).toState Image.isolationLimit)
      mc.staggerTimer := none } := by
    refine ⟨?_, ?_, rfl, ?_, List.mem_append_right _ (List.mem_singleton.2 rfl)⟩
    · show (e.setMode .operating).mc.mode = _
      rw [hmc]
    · show some (State.plantTime (e.setMode .operating).toState Image.isolationLimit) = _
      unfold State.plantTime
      rw [hmc]
      simp only [hi]
    · show (e.setMode .operating).mc.station = _
      rw [hmc]; exact hs
  exact h1.of_calm ((Event.forChannels_calm (x := True) (u := True) Event.tryWait_calm _).trans
    (Event.oweEval_calm _))

theorem Calm.image {x u : Prop} {e e' : Event} (h : Calm x u e e') : e'.mc.image = e.mc.image := by
  rcases h.mc with hm | ⟨-, -, hm⟩ <;> rw [hm]

theorem Event.staggerEnds_mc (e : Event) : e.staggerEnds.mc.image = e.mc.image ∧
    e.staggerEnds.mc.station = e.mc.station := by
  unfold Event.staggerEnds
  split
  · split
    · rename_i ch hch
      have hc : Calm True True e (e.startUnclaimed ch) :=
        Event.startUnclaimed_calm trivial ch e (State.staggerChoice_pending hch)
      exact ⟨hc.image, hc.station⟩
    · exact ⟨rfl, rfl⟩
  · exact ⟨rfl, rfl⟩

/-- In whatever order the return and the frame's effect are taken, the node is back. -/
theorem Event.rejoinWith_returned {x u : Prop} {image : Image} (order : RejoinOrder)
    (dispatch : Event → Event) (e : Event) (hi : e.mc.image = some image)
    (hd : ∀ f : Event, f.mc.station = e.mc.station → Calm x u f (dispatch f)) :
    (e.rejoinWith order dispatch).returned image e.mc.station := by
  have hr := Event.rejoin_returned e hi rfl
  have hf : Calm x u e (dispatch e).settled := (hd e rfl).trans (Event.settled_calm _)
  unfold Event.rejoinWith
  split
  · exact hr.of_calm (hd _ hr.station)
  · have h1 := hr.of_calm ((Event.settled_calm (x := x) (u := u) e.rejoin).trans
      (Event.drainBudget_calm budgetRounds _))
    exact h1.of_calm (hd _ h1.station)
  · exact Event.rejoin_returned _ (hf.image.trans hi) hf.station
  · have hs : (dispatch e).settled.staggerEnds.mc.image = (dispatch e).settled.mc.image ∧
        (dispatch e).settled.staggerEnds.mc.station = (dispatch e).settled.mc.station :=
      Event.staggerEnds_mc _
    have h3 := Event.settled_calm (x := x) (u := u) (dispatch e).settled.staggerEnds
    exact Event.rejoin_returned _ (h3.image.trans (hs.1.trans (hf.image.trans hi)))
      (h3.station.trans (hs.2.trans hf.station))

/-- Settles O42. -/
theorem firstFrameHeardRejoins : Obligations.FirstFrameHeardRejoins := by
  unfold Obligations.FirstFrameHeardRejoins
  intro c env kind payload image s hm hi hw hb hh
  have hk : ∀ m env kind payload, c = .unknownKindFrame m env kind payload →
      payloadLength? kind.toNat = none ∧ payload.length ≤ 40 := by
    rintro m env kind payload rfl
    simp only [Instr.wellFormed, Bool.and_eq_true, Option.isNone_iff_eq_none, decide_eq_true_eq] at hw
    exact ⟨hw.1.2, hw.2⟩
  obtain ⟨order, env', kind', payload', dispatch, hbytes, heq, hcalm⟩ :=
    effectOf_hears c (s.begin c.moment) _ hb hk
  obtain ⟨hsender, rfl, htarget, rfl⟩ := lineBytes_inj hbytes
  obtain rfl : env = env' := by
    cases env; cases env'; simp only at hsender htarget; rw [hsender, htarget]
  rw [Event.hear_of_hears order env kind payload dispatch _ (State.hears_elapse c.moment.elapsed hh)] at heq
  generalize he : ({ s.begin c.moment with li.inProgress := none } : Event) = e at heq
  have hem : e.mc = (s.elapse c.moment.elapsed).mc := by rw [← he]; rfl
  have hest : e.mc.station = s.mc.station := by rw [hem]; rfl
  have heq' : effectOf c (s.begin c.moment) = e.rejoinWith order dispatch := by
    rw [heq]; unfold Event.heard
    rw [show e.mc.mode = .isolated by rw [hem]; exact hm]
  have hback := Event.rejoinWith_returned order dispatch e (by rw [hem]; exact hi) fun f hf =>
    hcalm f fun hs => hh.2.2.2.1 (hs.trans (hf.trans hest))
  have hsteady := effectOf_steady_of_frame (e := s.begin c.moment) hb hk
  rw [← heq'] at hback
  have hend := hback.of_calm (Event.follows_calm (x := True) (u := True) c.moment.order _)
  have took := Event.took c.moment.order (effectOf c (s.begin c.moment))
  refine ⟨_, exec_eq c s, hend.mode, hend.isolation, hend.stagger, fun hst => ?_,
    fun ch hu hl => ?_⟩
  · refine Event.follows_noticed_node c.moment.order .rejoined _ ?_ hback.notice
    unfold State.speaks
    rw [hback.mode, hback.station, hest]
    exact ⟨hst, Mode.noConfusion, Mode.noConfusion⟩
  · have hst : ((effectOf c (s.begin c.moment)).cc.get ch).state = (s.cc.get ch).state :=
      ((hsteady.channels ch).locked (fun h => by
        cases c <;> first | exact Bool.noConfusion h | exact hu _ _ _ _ rfl)
        ((congrArg ChState.isLocked (State.state_elapse _ s ch)).trans hl)).trans (State.state_elapse _ s ch)
    refine (took.code_kept ch ?_).trans hst
    rw [hst]
    cases h : (s.cc.get ch).state <;> rw [h] at hl <;> first | rfl | exact Bool.noConfusion hl

end Sys2Proof.Machine
end

