-- ==== Sys2Proof/Proofs/PhaseEntry.lean ====
section
/-! SUPPORT. The phase entry (R104 to R110): what it does at each channel, and what follows from it. -/

namespace Sys2Proof.Machine

/-! ## A phase entry at one channel (R108 to R110) -/

theorem Event.tryWait_stays (ch : Ch) (e : Event) (h : e.mayWait ch = false) : e.tryWait ch = e := by
  unfold Event.tryWait
  rw [h, if_neg Bool.noConfusion]

theorem Event.tryWait_other (ch k : Ch) (e : Event) (h : k ≠ ch) :
    (e.tryWait ch).cc.get k = e.cc.get k ∧ (e.tryWait ch).it.get k = e.it.get k := by
  unfold Event.tryWait
  split
  · rw [Event.setState_cc, Event.setState_it]; exact ⟨PerChannel.get_set_other _ h _, rfl⟩
  · exact ⟨rfl, rfl⟩

/-- Nothing of the node but channels and trackers changes, and nothing is noticed. -/
def Event.keptQuietly (e e' : Event) : Prop := NodeKept e e' ∧ e.unnoticed e'

theorem Event.keptQuietly.trans {a b c : Event} (h : a.keptQuietly b) (k : b.keptQuietly c) :
    a.keptQuietly c := ⟨h.1.trans k.1, h.2.trans k.2⟩

theorem Event.tryWait_keptQuietly (ch : Ch) (e : Event) : e.keptQuietly (e.tryWait ch) := by
  unfold Event.tryWait
  split
  · exact ⟨Event.setState_kept _ _ _, Event.setState_unnoticed _ _ _⟩
  · exact ⟨NodeKept.refl e, Event.unnoticed_refl e⟩

theorem Event.addIfResting_keptQuietly (o : Origin) (ch : Ch) (e : Event) :
    e.keptQuietly (e.addIfResting o ch) := by
  refine ⟨Event.addIfResting_kept o ch e, ?_⟩
  unfold Event.addIfResting
  split
  · exact Event.addOrigin_unnoticed o ch e
  · exact Event.unnoticed_refl e

theorem Event.takePhase_waiting (ch : Ch) (e : Event) (h : (e.cc.get ch).state = .waiting) :
    e.takePhase ch = if e.pu.phase.permits (e.record ch).rank then e else e.returnToAwake ch := by
  unfold Event.takePhase
  rw [h]

theorem Event.takePhase_awake (ch : Ch) (e : Event) (h : (e.cc.get ch).state = .awake) :
    e.takePhase ch = e.tryWait ch := by
  unfold Event.takePhase
  rw [h]

theorem Event.takePhase_untracked (ch : Ch) (e : Event) (h : (e.cc.get ch).state.tracked = false) :
    e.takePhase ch = if e.pu.phase = .morning ∧ e.configured ch ∧ (e.record ch).morning then
      e.addIfResting .morning ch else e := by
  unfold Event.takePhase
  split
  · rename_i hs; rw [hs] at h; exact Bool.noConfusion h
  · rename_i hs; rw [hs] at h; exact Bool.noConfusion h
  · rfl

theorem ChState.tracked_cases (st : ChState) :
    st = .waiting ∨ st = .awake ∨ st.tracked = false := by
  cases st <;> simp [ChState.tracked]

theorem Event.takePhase_keptQuietly (ch : Ch) (e : Event) : e.keptQuietly (e.takePhase ch) := by
  have same : e.keptQuietly e := ⟨NodeKept.refl e, Event.unnoticed_refl e⟩
  rcases ChState.tracked_cases (e.cc.get ch).state with h | h | h
  · rw [Event.takePhase_waiting ch e h]
    split
    · exact same
    · obtain ⟨-, -, -, hk, -, -, hu, -⟩ := Event.returnToAwake_spec ch e
      exact ⟨hk, hu⟩
  · rw [Event.takePhase_awake ch e h]; exact Event.tryWait_keptQuietly ch e
  · rw [Event.takePhase_untracked ch e h]
    split
    · exact Event.addIfResting_keptQuietly .morning ch e
    · exact same

theorem Event.takePhase_other (ch k : Ch) (e : Event) (hk : k ≠ ch) :
    (e.takePhase ch).cc.get k = e.cc.get k ∧ (e.takePhase ch).it.get k = e.it.get k := by
  rcases ChState.tracked_cases (e.cc.get ch).state with h | h | h
  · rw [Event.takePhase_waiting ch e h]
    split
    · exact ⟨rfl, rfl⟩
    · exact Event.returnToAwake_other ch k e hk
  · rw [Event.takePhase_awake ch e h]; exact Event.tryWait_other ch k e hk
  · rw [Event.takePhase_untracked ch e h]
    split
    · exact Event.addIfResting_other .morning ch k e hk
    · exact ⟨rfl, rfl⟩

/-- Outside MORNING a phase entry takes no channel to rest and none from it (R108, R109). -/
theorem Event.takePhase_rests (ch : Ch) (e : Event) (hph : e.pu.phase ≠ .morning) :
    countsAtRest ((e.takePhase ch).cc.get ch).state.code ((e.takePhase ch).cc.get ch).feedbackClosed =
      countsAtRest (e.cc.get ch).state.code (e.cc.get ch).feedbackClosed := by
  rcases ChState.tracked_cases (e.cc.get ch).state with h | h | h
  · rw [Event.takePhase_waiting ch e h]
    split
    · rfl
    · rw [(Event.returnToAwake_spec ch e).1 (by rw [h]; rfl), h]; rfl
  · rw [Event.takePhase_awake ch e h]
    cases hw : e.mayWait ch with
    | false => rw [Event.tryWait_stays ch e hw]
    | true => rw [(Event.tryWait_spec ch e hw).1, PerChannel.get_set_same, h]; rfl
  · rw [Event.takePhase_untracked ch e h, if_neg fun hm => hph hm.1]

/-! ## The phase entry (R106) -/

theorem Event.phaseEntry_keptQuietly (e : Event) : e.keptQuietly (e.forChannels Event.takePhase) :=
  foldl_induct (P := fun e' : Event => e.keptQuietly e')
    (fun e' k h => h.trans (Event.takePhase_keptQuietly k e')) Ch.all e
    ⟨NodeKept.refl e, Event.unnoticed_refl e⟩

/-- What a phase entry makes of a channel is what its turn makes of it. -/
theorem Event.phaseEntry_at {B : Controller → Tracker → Prop} (ch : Ch) (e : Event)
    (here : ∀ e' : Event, e.keptQuietly e' → e'.cc.get ch = e.cc.get ch → e'.it.get ch = e.it.get ch →
      B ((e'.takePhase ch).cc.get ch) ((e'.takePhase ch).it.get ch)) :
    B ((e.forChannels Event.takePhase).cc.get ch) ((e.forChannels Event.takePhase).it.get ch) :=
  (Event.forChannels_at (f := Event.takePhase) (I := fun e' => e.keptQuietly e') ch
    (fun k e' h => h.trans (Event.takePhase_keptQuietly k e'))
    (fun k e' _ hk => Event.takePhase_other k ch e' fun h => hk h.symm) (e.cc.get ch) (e.it.get ch)
    here e ⟨NodeKept.refl e, Event.unnoticed_refl e⟩ rfl rfl).2

theorem NodeKept.configured {e e' : Event} (h : NodeKept e e') (ch : Ch) :
    e'.configured ch = e.configured ch := by
  unfold State.configured; rw [h.record]

theorem NodeKept.mayWait {e e' : Event} (h : NodeKept e e') (ch : Ch) (hc : e'.cc.get ch = e.cc.get ch)
    (ht : e'.it.get ch = e.it.get ch) : e'.mayWait ch = e.mayWait ch := by
  unfold State.mayWait State.idleConfirmed
  rw [hc, ht, h.record, h.pu, h.held ch, h.mode]

/-- A WAITING channel whose rank the new phase does not permit is AWAKE (R108). -/
theorem Event.phaseEntry_recalls (ch : Ch) (e : Event) (hst : (e.cc.get ch).state = .waiting)
    (hp : e.pu.phase.permits (e.record ch).rank = false) :
    ((e.forChannels Event.takePhase).cc.get ch).state = .awake := by
  refine Event.phaseEntry_at (B := fun c _ => c.state = .awake) ch e fun e' hk hc _ => ?_
  have hst' : (e'.cc.get ch).state = .waiting := by rw [hc]; exact hst
  rw [Event.takePhase_waiting ch e' hst', hk.1.pu, hk.1.record, hp, if_neg Bool.noConfusion]
  exact (Event.returnToAwake_spec ch e').1 (by rw [hst']; rfl)

/-- An AWAKE channel that may rest waits (R17, R109). -/
theorem Event.phaseEntry_waits (ch : Ch) (e : Event) (h : e.mayWait ch = true) :
    ((e.forChannels Event.takePhase).cc.get ch).state = .waiting := by
  refine Event.phaseEntry_at (B := fun c _ => c.state = .waiting) ch e fun e' hk hc ht => ?_
  have hst : (e'.cc.get ch).state = .awake := by rw [hc]; exact State.mayWait_awake h
  rw [Event.takePhase_awake ch e' hst,
    (Event.tryWait_spec ch e' ((hk.1.mayWait ch hc ht).trans h)).1, PerChannel.get_set_same]

/-- Any other AWAKE channel runs on (R17). -/
theorem Event.phaseEntry_runsOn (ch : Ch) (e : Event) (hst : (e.cc.get ch).state = .awake)
    (h : e.mayWait ch = false) :
    (e.forChannels Event.takePhase).cc.get ch = e.cc.get ch ∧
      (e.forChannels Event.takePhase).it.get ch = e.it.get ch := by
  refine Event.phaseEntry_at (B := fun c t => c = e.cc.get ch ∧ t = e.it.get ch) ch e
    fun e' hk hc ht => ?_
  rw [Event.takePhase_awake ch e' (by rw [hc]; exact hst),
    Event.tryWait_stays ch e' ((hk.1.mayWait ch hc ht).trans h)]
  exact ⟨hc, ht⟩

/-- An entry to MORNING adds MORNING to a resting channel with the morning flag, and wakes it from REST
where origins wake at once (R14, R110). -/
theorem Event.phaseEntry_wakes (ch : Ch) (e : Event) (hph : e.pu.phase = .morning)
    (hcf : e.configured ch = true) (hmo : (e.record ch).morning = true)
    (hst : (e.cc.get ch).state = .coast ∨ (e.cc.get ch).state = .rest ∨
      ∃ cause, (e.cc.get ch).state = .tripped cause) :
    ((e.forChannels Event.takePhase).cc.get ch).origins.has .morning = true ∧
      ((e.cc.get ch).state = .rest → e.mc.mode.wakesAtOnce = true →
        ((e.forChannels Event.takePhase).cc.get ch).state.isPending = true) := by
  have hrest : (e.cc.get ch).state.tracked = false ∧ (e.cc.get ch).state.resting = true ∧
      (e.cc.get ch).state.records = true := by
    rcases hst with h | h | ⟨cause, h⟩ <;> rw [h] <;> exact ⟨rfl, rfl, rfl⟩
  obtain ⟨htr, hre, hrec⟩ := hrest
  refine Event.phaseEntry_at (B := fun c _ => c.origins.has .morning = true ∧
    ((e.cc.get ch).state = .rest → e.mc.mode.wakesAtOnce = true → c.state.isPending = true)) ch e
    fun e' hk hc _ => ?_
  have heq : e'.takePhase ch = e'.addOrigin .morning ch := by
    rw [Event.takePhase_untracked ch e' (by rw [hc]; exact htr), if_pos ⟨by rw [hk.1.pu]; exact hph,
      by rw [hk.1.configured ch]; exact hcf, by rw [hk.1.record]; exact hmo⟩]
    unfold Event.addIfResting
    rw [hc, if_pos hre]
  rw [heq]
  exact ⟨Event.addOrigin_has .morning ch e' (by rw [hc]; exact hrec), fun h hm =>
    Event.addOrigin_wakes .morning ch e' (.inl ⟨by rw [hc]; exact h, by rw [hk.1.mode]; exact hm⟩)⟩

/-- Outside MORNING the consumers of a channel rest after a phase entry as before it. -/
theorem Event.phaseEntry_consumers (ch : Ch) (e : Event) (hph : e.pu.phase ≠ .morning) :
    (e.forChannels Event.takePhase).consumersVerdict ch = e.consumersVerdict ch := by
  obtain ⟨hk, -⟩ := Event.phaseEntry_keptQuietly e
  have hst : (e.forChannels Event.takePhase).mc.station = e.mc.station := by
    obtain ⟨u, hu⟩ := hk.mc
    rw [hu]
  have hrest : (e.forChannels Event.takePhase).atRest = e.atRest :=
    State.atRest_of_local hst hk.peers fun k =>
      Event.phaseEntry_at (B := fun c _ => countsAtRest c.state.code c.feedbackClosed =
        countsAtRest (e.cc.get k).state.code (e.cc.get k).feedbackClosed) k e fun e' hk' hc _ => by
          rw [← hc]; exact Event.takePhase_rests k e' (by rw [hk'.1.pu]; exact hph)
  unfold State.consumersVerdict
  rw [hk.record, hrest]

theorem Event.phaseEntry_mayCoast (ch : Ch) (e : Event) (h : e.mayWait ch = true)
    (hv : e.consumersVerdict ch = true) : (e.forChannels Event.takePhase).mayCoast ch = true := by
  obtain ⟨-, -, hp, hh, hm⟩ := (State.mayWait_iff e.toState ch).1 h
  obtain ⟨hk, -⟩ := Event.phaseEntry_keptQuietly e
  have hph : e.pu.phase ≠ .morning := fun hph => by rw [hph] at hp; exact Bool.noConfusion hp
  unfold State.mayCoast
  rw [Event.phaseEntry_waits ch e h, hk.held ch, hh, hk.mode, hm, Event.phaseEntry_consumers ch e hph, hv]
  rfl

/-- How a phase entry ends for a running load. -/
theorem Event.phaseEntry_ends (order : List Block) (ch : Ch) (e : Event)
    (hd : e.out.standingDue = .all []) (t : State)
    (ht : t = ((e.forChannels Event.takePhase).settled.flush order).toState) :
    ((e.cc.get ch).state = .waiting → e.pu.phase.permits (e.record ch).rank = false →
      (t.cc.get ch).state = .awake) ∧
    (e.mayWait ch = true → (t.cc.get ch).state ≠ .awake ∧
      (e.consumersVerdict ch = true → t.coilDrive ch = false)) ∧
    ((e.cc.get ch).state = .awake → e.mayWait ch = false →
      (t.cc.get ch).state = .awake ∧ t.it.get ch = e.it.get ch) := by
  subst ht
  have took := Event.took order (e.forChannels Event.takePhase)
  refine ⟨fun hst hp => ?_, fun hw => ⟨?_, fun hv => ?_⟩, fun hst hw => ?_⟩
  · have h := Event.phaseEntry_recalls ch e hst hp
    exact (took.code_kept ch (by rw [h]; rfl)).trans h
  · exact took.waiting_leaves ch (Event.phaseEntry_waits ch e hw)
  · have hdues : (e.forChannels Event.takePhase).duesNeeded := Event.duesNeeded_of_none
      ((Event.phaseEntry_keptQuietly e).2.2.trans hd)
    obtain ⟨-, hoff, -⟩ := Event.follows_coasts order _ hdues ch (Event.phaseEntry_mayCoast ch e hw hv)
    unfold State.coilDrive
    rw [hoff]; exact Bool.and_false _
  · obtain ⟨hc, hit⟩ := Event.phaseEntry_runsOn ch e hst hw
    have h : ((e.forChannels Event.takePhase).cc.get ch).state = .awake := by rw [hc]; exact hst
    refine ⟨(took.code_kept ch (by rw [h]; rfl)).trans h, ?_⟩
    rw [took.tracker ch (by rw [h]; exact ChState.noConfusion), hit]

/-- How an entry to MORNING ends for a resting load. -/
theorem Event.phaseEntry_wakes_ends (order : List Block) (ch : Ch) (e : Event) (hph : e.pu.phase = .morning)
    (hcf : e.configured ch = true) (hmo : (e.record ch).morning = true)
    (hst : (e.cc.get ch).state = .coast ∨ (e.cc.get ch).state = .rest ∨
      ∃ cause, (e.cc.get ch).state = .tripped cause) (t : State)
    (ht : t = ((e.forChannels Event.takePhase).settled.flush order).toState) :
    (t.cc.get ch).origins.has .morning = true ∧ ((e.cc.get ch).state = .rest →
      e.mc.mode.wakesAtOnce = true → (t.cc.get ch).state.isPending = true) := by
  subst ht
  have took := Event.took order (e.forChannels Event.takePhase)
  obtain ⟨h1, h2⟩ := Event.phaseEntry_wakes ch e hph hcf hmo hst
  exact ⟨took.origins ch .morning h1, fun hr hm => took.pending_kept ch (h2 hr hm)⟩

/-! ## Adoption (R104, R106, R111) -/

/-- The node with an adopted phase, before a phase entry. -/
def Event.adopted (u : PhaseUnit) (e : Event) : Event := ({ e with pu := u } : Event).oweState

theorem Event.adopt_pu (a : Option PhaseUnit) (e : Event) : (e.adopt a).pu = a.getD e.pu := by
  unfold Event.adopt
  split
  · simp only
    split
    · rfl
    · exact (Event.phaseEntry_keptQuietly _).1.pu
  · rfl

theorem Event.adopt_entry (u : PhaseUnit) (e : Event) (h : e.pu.phase ≠ u.phase) :
    e.adopt (some u) = (e.adopted u).forChannels Event.takePhase := by
  unfold Event.adopt
  simp only
  rw [if_neg h]; rfl

/-- The frame meets the conditions of R104 but for its phase code. -/
def State.admitsPhase (env : Envelope) (epoch : Word32) (level : Byte) (s : State) : Prop :=
  (env.target = 0 ∨ env.target.toNat = s.mc.station) ∧ level.toNat ≤ 3 ∧
    s.effectiveLevel env.sender.toNat level.toNat ≤ 1 ∧ s.pu.epoch < epoch

theorem State.phaseAdoption_some {s : State} {env : Envelope} {code : Byte} {epoch : Word32} {level : Byte}
    {ph : Phase} (hc : Phase.ofNat? code.toNat = some ph) (hm : s.mc.mode.takesAll = true)
    (h : s.admitsPhase env epoch level) :
    s.phaseAdoption env code epoch level = some ⟨ph, epoch, env.sender.toNat⟩ := by
  obtain ⟨ht, hl, he, hep⟩ := h
  unfold State.phaseAdoption
  rw [hc]
  exact if_pos ⟨hm, ht, hl, he, hep⟩

theorem State.phaseAdoption_none {s : State} {env : Envelope} {code : Byte} {epoch : Word32} {level : Byte}
    (h : Phase.ofNat? code.toNat = none ∨ ¬s.admitsPhase env epoch level) :
    s.phaseAdoption env code epoch level = none := by
  unfold State.phaseAdoption
  split
  · rename_i ph hc
    refine if_neg fun ⟨_, hn⟩ => ?_
    rcases h with h | h
    · rw [h] at hc; exact absurd hc.symm (Option.some_ne_none ph)
    · exact h hn
  · rfl

/-- The return leaves what an adoption reads (R147). -/
theorem Event.rejoin_adopts (e : Event) : e.rejoin.pu = e.pu ∧ e.rejoin.mc.image = e.mc.image ∧
    e.rejoin.mc.station = e.mc.station ∧ e.rejoin.mc.mode = .operating := by
  obtain ⟨-, -, -, hmc, -, -, hpu, -⟩ := Event.setMode_rest .operating e
  generalize he : ({ (e.setMode .operating).noticeNode .rejoined with
    mc.isolationTimer := some (State.plantTime
      ((e.setMode .operating).noticeNode .rejoined).toState Image.isolationLimit)
    mc.staggerTimer := none } : Event) = e1
  have hr : e.rejoin = (e1.forChannels Event.tryWait).oweEval := by rw [← he]; rfl
  have hk : NodeKept e1 (e1.forChannels Event.tryWait) := Event.forChannels_kept Event.tryWait_kept e1
  obtain ⟨u, hu⟩ := hk.mc
  have h1 : e1.mc.image = e.mc.image ∧ e1.mc.station = e.mc.station ∧ e1.mc.mode = .operating := by
    have hm : e1.mc = { (e.setMode .operating).mc with
        isolationTimer := e1.mc.isolationTimer
        staggerTimer := none } := by rw [← he]; rfl
    rw [hm, hmc]
    exact ⟨rfl, rfl, rfl⟩
  have hp : e1.pu = e.pu := by rw [← he]; exact hpu
  rw [hr]
  generalize e1.forChannels Event.tryWait = e2 at hk hu
  refine ⟨hk.pu.trans hp, ?_⟩
  show e2.mc.image = _ ∧ e2.mc.station = _ ∧ e2.mc.mode = _
  rw [hu]
  exact h1

theorem State.admitsPhase_of {s t : State} {env : Envelope} {epoch : Word32} {level : Byte}
    (h : s.admitsPhase env epoch level) (hi : t.mc.image = s.mc.image)
    (hs : t.mc.station = s.mc.station) (hp : t.pu = s.pu) : t.admitsPhase env epoch level := by
  unfold State.admitsPhase State.effectiveLevel at h ⊢
  rw [hi, hs, hp]
  exact h

/-- A frame that an ISOLATED node adopts is taken as one with the return, whatever the moment says (R111). -/
theorem phaseReceived_isolated (m : Moment) (env : Envelope) (code : Byte) (epoch : Word32) (level : Byte)
    (ph : Phase) (s : State) (hm : s.mc.mode = .isolated)
    (hh : s.hears env kindPhase ([code] ++ bytes32 epoch ++ [level]))
    (hc : Phase.ofNat? code.toNat = some ph) (hg : s.admitsPhase env epoch level) :
    effectOf (.phaseReceived m env code epoch level) (s.begin m) =
      Event.adopt (some ⟨ph, epoch, env.sender.toNat⟩)
        (Event.rejoin { s.begin m with li.inProgress := none }) := by
  have ha : (s.begin m).phaseAdoption env code epoch level = some ⟨ph, epoch, env.sender.toNat⟩ :=
    State.phaseAdoption_some hc (by rw [show (s.begin m).mc.mode = .isolated from hm]; rfl)
      (State.admitsPhase_of hg rfl rfl rfl)
  show (s.begin m).hear (rejoinOrderOf ((s.begin m).phaseAdoption env code epoch level) m.arrival) env
    kindPhase _ (Event.takePhaseFrame env code epoch level) = _
  rw [ha, Event.hear_of_hears _ env kindPhase _ _ _ (State.hears_elapse m.elapsed hh)]
  generalize he : ({ s.begin m with li.inProgress := none } : Event) = e
  obtain ⟨rpu, rim, rst, rmode⟩ := Event.rejoin_adopts e
  have hb : e.rejoin.phaseAdoption env code epoch level = some ⟨ph, epoch, env.sender.toNat⟩ :=
    State.phaseAdoption_some hc (by rw [rmode]; rfl) (State.admitsPhase_of hg (rim.trans (by rw [← he]; rfl))
      (rst.trans (by rw [← he]; rfl)) (rpu.trans (by rw [← he]; rfl)))
  unfold Event.heard
  rw [show e.mc.mode = .isolated by rw [← he]; exact hm]
  show Event.adopt (e.rejoin.phaseAdoption env code epoch level) e.rejoin = _
  rw [hb]

/-- Settles O31. -/
theorem phaseFrameIsAdopted : Obligations.PhaseFrameIsAdopted := by
  unfold Obligations.PhaseFrameIsAdopted
  intro m env code epoch level s a good hh
  refine ⟨fun hm ph hc hg => ?_, fun ho => ?_⟩
  · -- the effect does not depend on the arrival
    have heq : ∀ order, effectOf (.phaseReceived { m with arrival := order } env code epoch level)
        (s.begin m) = Event.adopt (some ⟨ph, epoch, env.sender.toNat⟩)
          (Event.rejoin { s.begin m with li.inProgress := none }) := fun order =>
      phaseReceived_isolated { m with arrival := order } env code epoch level ph s hm hh hc hg
    generalize he : Event.rejoin { s.begin m with li.inProgress := none } = e at heq
    have hmode : e.mc.mode = .operating := by rw [← he]; exact (Event.rejoin_adopts _).2.2.2
    have took := Event.took m.order (e.adopt (some ⟨ph, epoch, env.sender.toNat⟩))
    refine ⟨((e.adopt (some ⟨ph, epoch, env.sender.toNat⟩)).settled.flush m.order).toState,
      fun order => ?_, ?_, ?_⟩
    · rw [exec_eq, ← heq order]; rfl
    · rw [took.pu, Event.adopt_pu]; rfl
    · rw [took.mode]
      exact ((Event.adopt_calm (x := True) (u := True) _ e).mode).trans hmode
  · generalize he : s.heardAt m = e
    have heq : effectOf (.phaseReceived m env code epoch level) (s.begin m) =
        e.adopt (e.phaseAdoption env code epoch level) := by
      rw [← he]
      exact hear_onLine _ env kindPhase _ (Event.takePhaseFrame env code epoch level) m s ho hh
    have took := Event.took m.order (e.adopt (e.phaseAdoption env code epoch level))
    have hm : e.mc.mode = s.mc.mode := by rw [← he]; rfl
    have hpu : e.pu = s.pu := by rw [← he]; rfl
    have hgood : good ↔ e.admitsPhase env epoch level := by rw [← he]; rfl
    refine ⟨((e.adopt (e.phaseAdoption env code epoch level)).settled.flush m.order).toState, ?_,
      fun ph hc hg => ?_, fun hn => ?_⟩
    · rw [exec_eq, ← heq]; rfl
    · have ha : e.phaseAdoption env code epoch level = some ⟨ph, epoch, env.sender.toNat⟩ :=
        State.phaseAdoption_some hc (by rw [hm]; rcases ho with h | h <;> rw [h] <;> rfl) (hgood.1 hg)
      rw [ha] at took ⊢
      refine ⟨by rw [took.pu, Event.adopt_pu]; rfl, fun ch hph => ?_⟩
      rw [Event.adopt_entry _ e (by rw [hpu]; exact hph)]
      generalize he1 : e.adopted ⟨ph, epoch, env.sender.toNat⟩ = e1
      have hrec : e1.record ch = a.record ch := by rw [← he1, ← he]; rfl
      have hcc : e1.cc = a.cc := by rw [← he1, ← he]; rfl
      have hit : e1.it = a.it := by rw [← he1, ← he]; rfl
      have hph1 : e1.pu.phase = ph := by rw [← he1]; rfl
      have hm1 : e1.mc.mode = s.mc.mode := by rw [← he1]; exact hm
      have hv : e1.consumersVerdict ch = a.consumersVerdict ch := by rw [← he1, ← he]; rfl
      obtain ⟨h1, h2, h3⟩ := Event.phaseEntry_ends m.order ch e1 (by rw [← he1, ← he]; rfl) _ rfl
      have hmay := State.mayWait_iff e1.toState ch
      rw [hrec, hcc, hit, hph1, hm1, show e1.held ch = a.held ch by rw [← he1, ← he]; rfl] at hmay
      rw [hcc, hph1, hrec] at h1
      rw [hv] at h2
      rw [hcc, hit] at h3
      refine ⟨h1, fun hst => ⟨fun hr => h2 (hmay.2 ⟨hst, hr⟩), fun hr => h3 hst ?_⟩,
        fun hmor hcf hmo hst => ?_⟩
      · exact Bool.eq_false_iff.2 fun hw => hr (hmay.1 hw).2
      · have h := Event.phaseEntry_wakes_ends m.order ch e1 (hph1.trans hmor)
          (by rw [← he1, ← he]; exact hcf) (by rw [hrec]; exact hmo) (by rw [hcc]; exact hst) _ rfl
        rw [hcc, hm1] at h
        exact ⟨h.1, fun hr hop => h.2 hr (by rw [hop]; rfl)⟩
    · rw [State.phaseAdoption_none (hn.imp_right fun h hg => h (hgood.2 hg))] at took ⊢
      rw [took.pu, ← he]; rfl

end Sys2Proof.Machine
end

