-- ==== Sys2Proof/Proofs/Undisturbed.lean ====
section
/-! SUPPORT. A load that no local load needs ends as an effect left it (R62); the entry to COAST of a load with
no wake (R19, R20). -/

namespace Sys2Proof.Machine

/-! ## A load that is not needed (R62) -/

theorem State.notNeeded_of {a b : State} {ch : Ch} (h : a.notNeeded ch) (hi : b.mc.image = a.mc.image)
    (hs : b.mc.station = a.mc.station) : b.notNeeded ch := by
  intro k r hr
  rw [State.record_of_image hi] at hr
  rw [State.localCh?_of_station hs]
  exact h k r hr

theorem NodeKept.station {e e' : Event} (h : NodeKept e e') : e'.mc.station = e.mc.station := by
  obtain ⟨u, hu⟩ := h.mc
  rw [hu]

theorem NodeKept.notNeeded {e e' : Event} {ch : Ch} (h : NodeKept e e') (hn : e.notNeeded ch) :
    e'.notNeeded ch := State.notNeeded_of hn h.image h.station

theorem Event.enterPending_callWait (ch k : Ch) (e : Event) (hk : k ≠ ch) :
    (e.enterPending ch).du.callWait.get k = e.du.callWait.get k := by
  unfold Event.enterPending
  simp only
  rw [(Event.wakeStagger_rest _).2.2.2.1]
  split
  · show (Event.setState ch _ _).du.callWait.get k = _
    rw [Event.setState_du]; rfl
  · show PerChannel.get (PerChannel.set _ ch _) k = _
    rw [PerChannel.get_set_other _ hk, Event.setState_du]; rfl

theorem Event.addOrigin_callWait (o : Origin) (ch k : Ch) (e : Event) (hk : k ≠ ch) :
    (e.addOrigin o ch).du.callWait.get k = e.du.callWait.get k := by
  have hp := Event.enterPending_callWait ch k (e.recordOrigin o ch) hk
  unfold Event.addOrigin
  split
  · split
    · exact hp
    · rfl
  · split
    · exact hp
    · rfl
  all_goals rfl

theorem Event.enterCoast_callWait (ch k : Ch) (e : Event) (hk : k ≠ ch) :
    (e.enterCoast ch).du.callWait.get k = e.du.callWait.get k := by
  have hb : (e.beginCoast ch).du = e.du := by
    show (e.setState ch .coast).du = _
    rw [Event.setState_du]
  rw [Event.enterCoast_eq]
  split
  · unfold Event.runDownEnds
    simp only
    split
    · rw [Event.setState_du]; exact congrArg (fun d => d.callWait.get k) hb
    · rw [Event.enterPending_callWait ch k _ hk]; exact congrArg (fun d => d.callWait.get k) hb
  · rw [hb]

/-- What follows does not reach a load that is not needed, and does neither call nor wait. -/
theorem undisturbed_keptBySettle (ch : Ch) (c : Controller) (w : Timer)
    (hc : c.state ≠ .pending .calling) (hw : c.state ≠ .waiting) :
    KeptBySettle fun e => e.notNeeded ch ∧ e.cc.get ch = c ∧ e.du.callWait.get ch = w where
  out _ _ _ h := h
  marks _ _ h := h
  call k j r e hr hl h := by
    obtain ⟨hn, hcc, hcw⟩ := h
    have hk : ch ≠ k := fun hk => hn j r hr (hk ▸ hl)
    refine ⟨(Event.addOrigin_follows .call k e).kept.notNeeded hn, ?_, ?_⟩
    · rw [(Event.addOrigin_other .call k ch e hk).1]; exact hcc
    · rw [Event.addOrigin_callWait .call k ch e hk]; exact hcw
  endCalling k e hst h := by
    obtain ⟨hn, hcc, hcw⟩ := h
    have hk : ch ≠ k := fun hk => hc (by rw [← hcc, hk]; exact hst)
    refine ⟨(Event.setState_kept k (.pending .budget) e).notNeeded hn, ?_, ?_⟩
    · show (e.setState k (.pending .budget)).cc.get ch = c
      rw [Event.setState_cc, PerChannel.get_set_other _ hk]; exact hcc
    · show PerChannel.get (PerChannel.set _ k none) ch = w
      rw [PerChannel.get_set_other _ hk, Event.setState_du]; exact hcw
  coast k e hst h := by
    obtain ⟨hn, hcc, hcw⟩ := h
    have hk : ch ≠ k := fun hk => hw (by rw [← hcc, hk]; exact hst)
    refine ⟨(Event.enterCoast_follows k e hst).kept.notNeeded hn, ?_, ?_⟩
    · rw [(Event.enterCoast_other k ch e hk).1]; exact hcc
    · rw [Event.enterCoast_callWait k ch e hk]; exact hcw

/-- A load that is not needed ends as the effect left it, where it is not in PENDING and does not wait. -/
theorem Event.follows_undisturbed (order : List Block) (ch : Ch) (e : Event) (hd : e.duesNeeded)
    (hn : e.notNeeded ch) (hp : (e.cc.get ch).state.isPending = false)
    (hw : (e.cc.get ch).state ≠ .waiting) :
    (e.settled.flush order).cc.get ch = e.cc.get ch ∧
      (e.settled.flush order).du.callWait.get ch = e.du.callWait.get ch := by
  obtain ⟨-, hcc, hcw⟩ := (undisturbed_keptBySettle ch (e.cc.get ch) (e.du.callWait.get ch)
    (fun h => by rw [h] at hp; exact Bool.noConfusion hp) hw).settled e ⟨hn, rfl, rfl⟩ hd
  rw [Event.flush_channel order e.settled ch (by rw [hcc]; exact hp), hcc,
    (Event.flush_flushes order e.settled).du, hcw]
  exact ⟨rfl, rfl⟩

/-! ## Claims of a load outside PENDING (R76) -/

/-- The load is not in BUDGET, has no PROVISIONAL claim, and no retry gap runs for it. -/
def Event.unclaiming (ch : Ch) (e : Event) : Prop :=
  (e.cc.get ch).state ≠ .pending .budget ∧
    ∀ x ∈ e.bu.claims, x.isProvisional = true → x.ch ≠ ch

theorem unclaiming_keptByJoins (ch : Ch) : KeptByJoins fun e => e.unclaiming ch where
  enqueue f e h := by
    unfold Event.unclaiming
    obtain ⟨hcc, -, -, hbu, -⟩ := Event.enqueue_rest f e
    rw [hcc, hbu]; exact h
  out _ _ h := h
  full _ _ h := h
  claim k e hc h := by
    obtain ⟨hst, -⟩ := State.claimable_iff hc
    have hk : ch ≠ k := fun hk => h.1 (by rw [hk]; exact hst)
    refine ⟨?_, fun x hx hp => ?_⟩
    · rw [(Event.openClaim_rest k e).1, PerChannel.get_set_other _ hk]; exact h.1
    · rcases (Event.openClaim_own k e x (Claim.own_of_provisional hp)).1 hx with hx | rfl
      · exact h.2 x hx hp
      · exact fun h => hk h.symm

theorem Event.openClaim_retryGap (ch : Ch) (e : Event) : (e.openClaim ch).bu.retryGap = e.bu.retryGap := by
  unfold Event.openClaim
  simp only [(Event.setState_kept _ _ _).bu, (Event.enqueue_rest _ _).2.2.2.1]

theorem retryGap_keptByJoins (g : PerChannel Timer) : KeptByJoins fun e => e.bu.retryGap = g where
  enqueue f e h := by rw [(Event.enqueue_rest f e).2.2.2.1]; exact h
  out _ _ h := h
  full _ _ h := h
  claim ch e _ h := by rw [Event.openClaim_retryGap]; exact h

theorem Event.follows_retryGap (order : List Block) (e : Event) :
    (e.settled.flush order).bu.retryGap = e.bu.retryGap :=
  (retryGap_keptByJoins e.bu.retryGap).flush order e.settled (by
    rw [(Event.settled_follows e).kept.bu])

theorem Event.follows_unclaiming (order : List Block) (ch : Ch) (e : Event)
    (hst : (e.settled.cc.get ch).state ≠ .pending .budget)
    (h : ∀ x ∈ e.bu.claims, x.isProvisional = true → x.ch ≠ ch) :
    ∀ x ∈ (e.settled.flush order).bu.claims, x.isProvisional = true → x.ch ≠ ch :=
  ((unclaiming_keptByJoins ch).flush order e.settled ⟨hst, by
    rw [(Event.settled_follows e).kept.bu]; exact h⟩).2

/-! ## COAST without a wake (R19, R20) -/

theorem Event.beginCoast_du (ch : Ch) (e : Event) : (e.beginCoast ch).du = e.du := by
  show (e.setState ch .coast).du = _
  rw [Event.setState_du]

theorem Event.setState_out (ch : Ch) (st : ChState) (e : Event) :
    ∃ b, (e.setState ch st).out = { e.out with stateDue := b } := by
  unfold Event.setState
  split
  · exact ⟨e.out.stateDue, rfl⟩
  · exact ⟨true, rfl⟩

theorem Event.runDownEnds_kept (ch : Ch) (e : Event) : NodeKept e (e.runDownEnds ch) := by
  have h := Event.modCc_kept ch (fun c => { c with runDownTimer := none }) e
  unfold Event.runDownEnds
  simp only
  split
  · exact h.trans (Event.setState_kept ch .rest _)
  · obtain ⟨-, -, -, -, -, hk⟩ := Event.enterPending_spec ch (e.modCc ch fun c => { c with runDownTimer := none })
    exact h.trans hk

/-- An entry to COAST of a load with no wake: it runs down, and rests where its run-down is of 0 s. -/
theorem Event.enterCoast_unwoken (ch : Ch) (e : Event) (ho : (e.cc.get ch).origins = {}) :
    ((e.enterCoast ch).cc.get ch).origins = {} ∧
    ((e.enterCoast ch).cc.get ch).inrushTimer = (e.cc.get ch).inrushTimer ∧
    (if (e.record ch).runDown = 0 then ((e.enterCoast ch).cc.get ch).state = .rest
      else ((e.enterCoast ch).cc.get ch).state = .coast ∧
        ((e.enterCoast ch).cc.get ch).runDownTimer = some (e.record ch).runDown) ∧
    (e.enterCoast ch).du = e.du ∧ NodeKept e (e.enterCoast ch) ∧ (e.enterCoast ch).mc = e.mc ∧
    ∃ b, (e.enterCoast ch).out = { e.out with stateDue := b } := by
  obtain ⟨-, -, hin, hor, -⟩ := Controller.enter_rest (e.record ch).feedbackWindow .coast (e.cc.get ch)
  have hst := Event.beginCoast_state ch e
  have hcc : (e.beginCoast ch).cc.get ch = _ :=
    (congrArg (PerChannel.get · ch) (Event.beginCoast_cc ch e)).trans (PerChannel.get_set_same ..)
  have hor' : ((e.beginCoast ch).cc.get ch).origins = {} := by rw [hcc]; exact hor.trans ho
  have hin' : ((e.beginCoast ch).cc.get ch).inrushTimer = (e.cc.get ch).inrushTimer := by rw [hcc]; exact hin
  obtain ⟨b, hb⟩ := Event.setState_out ch .coast e
  have hout : (e.beginCoast ch).out = { e.out with stateDue := b } := hb
  have hk := Event.beginCoast_kept ch e
  rw [Event.enterCoast_eq]
  by_cases hz : (e.record ch).runDown = 0
  · obtain ⟨rcc, rit, rdu, rcu, rmc, b', rout⟩ := Event.runDownEnds_rest ch (e.beginCoast ch) hor' hst
    have rk := Event.runDownEnds_kept ch (e.beginCoast ch)
    rw [if_pos hz, if_pos hz, rcc, PerChannel.get_set_same]
    exact ⟨hor', hin', rfl, rdu.trans (Event.beginCoast_du ch e), hk.trans rk,
      rmc.trans (Event.beginCoast_mc ch e), b', by rw [rout, hout]⟩
  · rw [if_neg hz, if_neg hz]
    exact ⟨hor', hin', ⟨hst, by rw [hcc]⟩, Event.beginCoast_du ch e, hk, Event.beginCoast_mc ch e, b, hout⟩

end Sys2Proof.Machine
end

