-- ==== Sys2Proof/Proofs/Shed.lean ====
section
/-! SUPPORT. SHED (R48, R131, R132): what it does to a load that is not held, in each of its states. -/

namespace Sys2Proof.Machine

/-! ## What a SHED is answered and leaves, state by state (R131, R132) -/

section
variable {ch : Ch} {e : Event}

theorem Event.carryOutShed_held (h : e.held ch = true) : e.carryOutShed ch = (.refusedHeld, e) :=
  if_pos h

/-- The states in which a SHED leaves the load as it is, and its answer there. -/
def ChState.shedIdles : ChState → Option ReplyCode
  | .waiting => some .accepted
  | .rest => some .accepted
  | .locked _ => some .refusedLocked
  | _ => none

theorem Event.carryOutShed_idles (hh : e.held ch = false) {code : ReplyCode}
    (h : (e.cc.get ch).state.shedIdles = some code) : e.carryOutShed ch = (code, e) := by
  unfold Event.carryOutShed
  rw [hh, if_neg Bool.noConfusion]
  cases hs : (e.cc.get ch).state <;> rw [hs] at h <;>
    first | exact absurd h.symm (Option.some_ne_none code) | exact Prod.ext (Option.some.inj h) rfl

theorem Event.carryOutShed_coast (hh : e.held ch = false) (h : (e.cc.get ch).state = .coast) :
    e.carryOutShed ch = (.accepted, e.clearOrigins ch) := by
  unfold Event.carryOutShed
  rw [hh, if_neg Bool.noConfusion, h]

/-- What a SHED does to a load in PENDING, TRIPPED or STARTING that is not in use (R132). -/
def Event.shedUnused (ch : Ch) (e : Event) : Event :=
  match (e.cc.get ch).state with
  | .pending _ => e.shedPending ch
  | .tripped _ => e.shedTripped ch
  | _ => e.shedStarting ch

/-- PENDING, TRIPPED or STARTING. -/
def ChState.onTheWay (st : ChState) : Prop :=
  st.isPending = true ∨ (∃ k, st = .starting k) ∨ ∃ cause, st = .tripped cause

theorem Event.carryOutShed_onTheWay (hh : e.held ch = false) (hm : e.mc.mode = .operating)
    (h : (e.cc.get ch).state.onTheWay) : e.carryOutShed ch =
      if e.consumersVerdict ch then (.accepted, e.shedUnused ch) else (.refusedInUse, e) := by
  unfold Event.carryOutShed Event.shedUnused Event.shedIfUnused
  rw [hh, if_neg Bool.noConfusion]
  rcases h with h | ⟨k, h⟩ | ⟨cause, h⟩
  · cases hs : (e.cc.get ch).state <;> rw [hs] at h <;> first | rfl | exact Bool.noConfusion h
  · rw [h]; exact if_pos hm
  · rw [h]

theorem Event.carryOutShed_starting_elsewhere (hh : e.held ch = false) (hm : e.mc.mode ≠ .operating)
    {k : StartKind} (h : (e.cc.get ch).state = .starting k) : e.carryOutShed ch = (.refusedMode, e) := by
  unfold Event.carryOutShed
  rw [hh, if_neg Bool.noConfusion, h]
  exact if_neg hm

/-- The count of a load raised to its required count (R48). -/
def Event.counted (ch : Ch) (e : Event) : Event := e.modIt ch (Tracker.shed (e.record ch).requiredCount)

theorem Event.counted_mayWait : (e.counted ch).mayWait ch = true ↔ (e.cc.get ch).state = .awake ∧
    e.pu.phase.permits (e.record ch).rank = true ∧ e.held ch = false ∧ e.mc.mode = .operating := by
  rw [State.mayWait_iff]
  have hcount : ((e.counted ch).it.get ch).count = max (e.it.get ch).count (e.record ch).requiredCount := by
    unfold Event.counted
    rw [Event.modIt_it, PerChannel.get_set_same]; rfl
  rw [hcount]
  exact ⟨fun ⟨h1, _, h2⟩ => ⟨h1, h2⟩, fun ⟨h1, h2⟩ => ⟨h1, Nat.le_max_right _ _, h2⟩⟩

theorem Event.carryOutShed_deferred (hh : e.held ch = false) (h : (e.cc.get ch).state = .awake)
    (hn : e.pu.phase.permits (e.record ch).rank = false ∨ e.mc.mode ≠ .operating) :
    e.carryOutShed ch = (.deferred, e.counted ch) := by
  have hw : (e.counted ch).mayWait ch = false := Bool.eq_false_iff.2 fun hw => by
    obtain ⟨-, hp, -, hm⟩ := Event.counted_mayWait.1 hw
    rcases hn with hn | hn
    · rw [hn] at hp; exact Bool.noConfusion hp
    · exact hn hm
  have heq : e.shedAwake ch = e.counted ch := Event.tryWait_stays ch _ hw
  unfold Event.carryOutShed
  rw [hh, if_neg Bool.noConfusion, h]
  simp only
  rw [heq, if_neg]
  rw [show ((e.counted ch).cc.get ch).state = .awake from h]
  exact ChState.noConfusion

theorem Event.carryOutShed_waits (hh : e.held ch = false) (h : (e.cc.get ch).state = .awake)
    (hp : e.pu.phase.permits (e.record ch).rank = true) (hm : e.mc.mode = .operating) :
    e.carryOutShed ch = (.accepted, (e.counted ch).tryWait ch) := by
  have hw := Event.counted_mayWait.2 ⟨h, hp, hh, hm⟩
  have hst : (((e.counted ch).tryWait ch).cc.get ch).state = .waiting := by
    rw [(Event.tryWait_spec ch _ hw).1, PerChannel.get_set_same]
  unfold Event.carryOutShed
  rw [hh, if_neg Bool.noConfusion, h]
  exact Prod.ext (if_pos hst) rfl

/-! ## A load that is shed into REST or COAST (R29, R132) -/

theorem Event.shedPending_ends : ((e.shedPending ch).cc.get ch).state = .rest ∧
    ((e.shedPending ch).cc.get ch).origins = {} ∧ (e.shedPending ch).du.callWait.get ch = none ∧
    (e.shedPending ch).bu.retryGap.get ch = none ∧
    (e.shedPending ch).out.standingDue = e.out.standingDue := by
  obtain ⟨hcc, -, -, hbu, -⟩ := Event.shedPending_spec ch e
  have hl : (e.leavePending ch).du.callWait.get ch = none ∧ (e.leavePending ch).bu.retryGap.get ch = none := by
    unfold Event.leavePending
    simp only
    split <;> exact ⟨PerChannel.get_set_same _ _ _, PerChannel.get_set_same _ _ _⟩
  rw [hcc, PerChannel.get_set_same, hbu]
  refine ⟨Controller.enter_state _ _ _, (Controller.enter_rest _ _ _).2.2.2.1, ?_, hl.2, ?_⟩
  · unfold Event.shedPending
    rw [Event.setState_du]; exact hl.1
  · unfold Event.shedPending
    rw [(Event.setState_unnoticed _ _ _).2]
    exact (Event.leavePending_unnoticed ch e).2

/-- Its PROVISIONAL claim is withdrawn, where it has at most one (R76, R91). -/
theorem Event.leavePending_unclaims (h : e.provisionalClaiming) :
    ∀ x ∈ (e.leavePending ch).bu.claims, x.isProvisional = true → x.ch ≠ ch := by
  unfold Event.leavePending
  simp only
  cases hp : e.provisionalOf ch with
  | none =>
    rw [show ((e.setCallWait ch none).setRetryGap ch none).provisionalOf ch = e.provisionalOf ch from rfl, hp]
    exact State.provisionalOf_none hp
  | some y =>
    rw [show ((e.setCallWait ch none).setRetryGap ch none).provisionalOf ch = e.provisionalOf ch from rfl, hp]
    obtain ⟨hm, hy, hch⟩ := State.provisionalOf_some hp
    intro x hx hxp he
    obtain ⟨hxm, hk⟩ := (Event.removeProvisional_own y _ x (Claim.own_of_provisional hxp)).1 hx
    exact hk (h.2 x hxm y hm hxp hy (he.trans hch.symm))

theorem Event.shedTripped_ends : ((e.shedTripped ch).cc.get ch).state = .rest ∧
    ((e.shedTripped ch).cc.get ch).origins = {} ∧
    ((e.shedTripped ch).cc.get ch).tripCount = (e.cc.get ch).tripCount ∧
    ((e.shedTripped ch).cc.get ch).retryTimer = none ∧
    (e.shedTripped ch).out.standingDue = e.out.standingDue := by
  generalize he1 : (e.modCc ch fun c => { c with retryTimer := none }).clearOrigins ch = e1
  have heq : e.shedTripped ch = e1.setState ch .rest := by rw [← he1]; rfl
  have h1 : e1.cc.get ch = { e.cc.get ch with retryTimer := none, origins := {} } := by
    rw [← he1, Event.clearOrigins_cc, PerChannel.get_set_same, Event.modCc_cc, PerChannel.get_set_same]
  obtain ⟨-, r2, -, r4, -, r6⟩ := Controller.enter_rest (e1.record ch).feedbackWindow .rest (e1.cc.get ch)
  rw [heq, Event.setState_cc, PerChannel.get_set_same, (Event.setState_unnoticed _ _ _).2]
  refine ⟨Controller.enter_state _ _ _, r4.trans (by rw [h1]), r2.trans (by rw [h1]),
    r6.trans (by rw [h1]), ?_⟩
  rw [← he1]; rfl

/-- A STARTING load with its inrush timer handed over and its wakes dropped, before its run-down. -/
def Event.unstarted (ch : Ch) (e : Event) : Event := (e.handOverInrush ch).clearOrigins ch

theorem Event.unstarted_spec :
    (e.unstarted ch).cc.get ch = { e.cc.get ch with inrushTimer := none, origins := {} } ∧
    (e.unstarted ch).it = e.it ∧ (e.unstarted ch).mc = e.mc ∧ (e.unstarted ch).out = e.out ∧
    (e.unstarted ch).bu = (e.handOverInrush ch).bu := by
  obtain ⟨hcc, hit, hmc, hout⟩ := Event.handOverInrush_rest ch e
  unfold Event.unstarted
  refine ⟨?_, hit, hmc, hout, rfl⟩
  rw [Event.clearOrigins_cc, PerChannel.get_set_same, hcc, PerChannel.get_set_same]

theorem Tracker.stopClear_stopped {t : Tracker} (h : t.status = .stopped) : t.stopClear = t := by
  unfold Tracker.stopClear; rw [h]

theorem Event.shedStarting_ends {k : StartKind} (hst : (e.cc.get ch).state = .starting k) :
    ((e.shedStarting ch).cc.get ch).origins = {} ∧ ((e.shedStarting ch).cc.get ch).inrushTimer = none ∧
    ((e.shedStarting ch).cc.get ch).state.energised = false ∧
    (e.cc.get ch).outputChanged (e.record ch).feedbackWindow ((e.shedStarting ch).cc.get ch) ∧
    (if (e.record ch).runDown = 0 then ((e.shedStarting ch).cc.get ch).state = .rest
      else ((e.shedStarting ch).cc.get ch).state = .coast ∧
        ((e.shedStarting ch).cc.get ch).runDownTimer = some (e.record ch).runDown) ∧
    (e.shedStarting ch).out.standingDue = e.out.standingDue ∧
    (e.shedStarting ch).it.get ch = (e.it.get ch).stopClear ∧
    (e.shedStarting ch).bu = (e.handOverInrush ch).bu := by
  obtain ⟨hcc, hit, hmc, hout, hbu⟩ := Event.unstarted_spec (ch := ch) (e := e)
  have heq : e.shedStarting ch = (e.unstarted ch).enterCoast ch := rfl
  have hrec := State.record_of_mc hmc ch
  obtain ⟨h1, h2, h3, -, hk, -, b, h4⟩ := Event.enterCoast_unwoken ch (e.unstarted ch) (by rw [hcc])
  obtain ⟨-, hoff, hopen, htr⟩ := Event.enterCoast_opens ch (e.unstarted ch) (by
    rw [hcc]; show (e.cc.get ch).state.energised = true; rw [hst]; rfl)
  rw [hrec] at h3 hopen
  rw [heq]
  refine ⟨h1, h2.trans (by rw [hcc]), hoff, hopen.of_was (by rw [hcc]), h3, by rw [h4, hout], ?_,
    hk.bu.trans hbu⟩
  rw [htr, hit]

end

end Sys2Proof.Machine
end

