-- ==== Sys2Proof/Proofs/ShedEnds.lean ====
section
/-! SUPPORT. How a SHED ends in OPERATING, once its reply and what follows have been taken (R118, R131, R132). -/

namespace Sys2Proof.Machine

/-- The node once a SHED of a channel has ended. -/
def shedEnd (order : List Block) (env : Envelope) (channel : Byte) (ch : Ch) (e : Event) : State :=
  ((Judged.answer env kindShed channel 0 (e.carryOutShed ch)).settled.flush order).toState

section
variable {order : List Block} {env : Envelope} {channel : Byte} {ch : Ch} {e : Event}

theorem shedEnd_replied (h0 : env.target ≠ 0) (ht : env.target.toNat = e.mc.station)
    (hm : e.mc.mode ≠ .loading ∧ e.mc.mode ≠ .silent) :
    (shedEnd order env channel ch e).replied env kindShed channel 0 (e.carryOutShed ch).1 := by
  have hc : Calm True True e (e.carryOutShed ch).2 := Event.carryOutShed_calm ch e
  exact answer_replied order env kindShed channel 0 _ h0 (ht.trans hc.station.symm)
    (by rw [hc.mode]; exact hm)

theorem shedEnd_took {code : ReplyCode} {e' : Event} (h : e.carryOutShed ch = (code, e')) :
    Took e' (shedEnd order env channel ch e) := by
  unfold shedEnd
  rw [h]
  exact (Event.took order _).of_state rfl

/-- Where a SHED leaves a settled node with nothing owed, nothing but its reply follows. -/
theorem shedEnd_still {code : ReplyCode} {e' : Event} (h : e.carryOutShed ch = (code, e'))
    (ho : e'.out = {}) (hs : e'.toState.settled) :
    ∃ q, shedEnd order env channel ch e = { e'.toState with li.queue := q } := by
  unfold shedEnd
  rw [h]
  exact Event.follows_still order (Judged.answer env kindShed channel 0 (code, e')) hs
    (congrArg Outbox.callDue ho) (congrArg Outbox.standingDue ho) (congrArg Outbox.budget ho)
    (congrArg Outbox.evalDue ho)

theorem Event.clearOrigins_settled (h : e.toState.settled) : (e.clearOrigins ch).toState.settled := by
  have hst : ∀ k, ((e.clearOrigins ch).cc.get k).state = (e.cc.get k).state ∧
      ((e.clearOrigins ch).cc.get k).feedbackClosed = (e.cc.get k).feedbackClosed := fun k => by
    rw [Event.clearOrigins_cc, PerChannel.get_set]
    split
    · rename_i hk; subst hk; exact ⟨rfl, rfl⟩
    · exact ⟨rfl, rfl⟩
  have hr : (e.clearOrigins ch).atRest = e.atRest :=
    State.atRest_of_local rfl rfl fun k => by rw [(hst k).1, (hst k).2]
  refine State.settled_of_agree h rfl rfl
    (State.available_of_local rfl rfl fun k => by rw [(hst k).1, (hst k).2])
    (fun k hk => by rw [← (hst k).1]; exact hk) (fun k hk => ?_) fun k => ?_
  · rw [← State.mayCoast_of (a := e.toState) (b := (e.clearOrigins ch).toState) rfl rfl k (hst k).1 rfl hr]
    exact hk
  · refine State.lostProviders_of (a := e.toState) (b := (e.clearOrigins ch).toState) rfl k
      (by rw [(hst k).1]) fun _ r _ => ?_
    exact State.restsBeneath_of_local (a := e.toState) (b := (e.clearOrigins ch).toState) rfl rfl r
      fun c _ => by rw [(hst c).1]

/-- A load in COAST loses its wakes, and nothing follows (R132). -/
theorem shedEnd_coast (hh : e.held ch = false) (ho : e.out = {}) (hs : e.toState.settled)
    (hst : (e.cc.get ch).state = .coast) :
    (shedEnd order env channel ch e).cc.get ch = { e.cc.get ch with origins := {} } := by
  obtain ⟨q, hq⟩ := shedEnd_still (order := order) (env := env) (channel := channel)
    (Event.carryOutShed_coast hh hst) ho (Event.clearOrigins_settled hs)
  rw [hq]
  show (e.clearOrigins ch).cc.get ch = _
  rw [Event.clearOrigins_cc, PerChannel.get_set_same]

/-- An AWAKE load that may not rest runs on with its count raised (R48, R131). -/
theorem shedEnd_deferred (hh : e.held ch = false) (hst : (e.cc.get ch).state = .awake)
    (hn : e.pu.phase.permits (e.record ch).rank = false ∨ e.mc.mode ≠ .operating) :
    ((shedEnd order env channel ch e).cc.get ch).state = .awake ∧
      ((shedEnd order env channel ch e).it.get ch).count =
        max (e.it.get ch).count (e.record ch).requiredCount := by
  have took := shedEnd_took (order := order) (env := env) (channel := channel)
    (Event.carryOutShed_deferred hh hst hn)
  have hst' : ((e.counted ch).cc.get ch).state = .awake := hst
  refine ⟨(took.code_kept ch (by rw [hst']; rfl)).trans hst', ?_⟩
  rw [took.tracker ch (by rw [hst']; exact ChState.noConfusion)]
  unfold Event.counted
  rw [Event.modIt_it, PerChannel.get_set_same]; rfl

/-- An AWAKE load that may rest leaves AWAKE, and its contactor opens where its consumers rest. -/
theorem shedEnd_waits (hh : e.held ch = false) (ho : e.out = {}) (hst : (e.cc.get ch).state = .awake)
    (hp : e.pu.phase.permits (e.record ch).rank = true) (hm : e.mc.mode = .operating) :
    ((shedEnd order env channel ch e).cc.get ch).state ≠ .awake ∧ (e.consumersVerdict ch = true →
      (shedEnd order env channel ch e).coilDrive ch = false ∧
      (e.cc.get ch).outputChanged (e.record ch).feedbackWindow
        ((shedEnd order env channel ch e).cc.get ch)) := by
  have heq := Event.carryOutShed_waits hh hst hp hm
  have took := shedEnd_took (order := order) (env := env) (channel := channel) heq
  have hw := Event.counted_mayWait.2 ⟨hst, hp, hh, hm⟩
  obtain ⟨wcc, -, wmc, wdu, wcu, b, wout⟩ := Event.tryWait_spec ch (e.counted ch) hw
  generalize hE : (e.counted ch).tryWait ch = e1 at *
  have hc1 : e1.cc.get ch = { e.cc.get ch with state := .waiting } := by
    rw [wcc, PerChannel.get_set_same]; rfl
  have hrec : e1.record ch = e.record ch := State.record_of_mc wmc ch
  refine ⟨took.waiting_leaves ch (by rw [hc1]), fun hv => ?_⟩
  have hr : e1.atRest = e.atRest := State.atRest_of_local (a := e.toState) (by rw [wmc]; rfl)
    (by rw [wdu]; rfl) fun k => by
      by_cases hk : k = ch
      · subst hk; rw [hc1, hst]; rfl
      · rw [wcc, PerChannel.get_set_other _ hk]; rfl
  have hco : e1.mayCoast ch = true := by
    unfold State.mayCoast State.consumersVerdict
    unfold State.consumersVerdict at hv
    rw [hrec, hr, hv, hc1, State.held_of_same (a := e.toState) wcu (by rw [wmc]; rfl) ch, hh, wmc,
      show (e.counted ch).mc.mode = .operating from hm]
    rfl
  obtain ⟨-, hoff, hopen, -⟩ := Event.follows_coasts order
    (Judged.answer env kindShed channel 0 (.accepted, e1))
    (Event.duesNeeded_of_none (by
      show e1.out.standingDue = _
      rw [wout]; exact congrArg Outbox.standingDue ho)) ch hco
  unfold shedEnd
  rw [heq]
  refine ⟨?_, ?_⟩
  · unfold State.coilDrive; rw [hoff]; exact Bool.and_false _
  · have h : (e1.cc.get ch).outputChanged (e1.record ch).feedbackWindow _ := hopen
    rw [hrec] at h
    exact h.of_was (by rw [hc1])

theorem Event.shedUnused_tracker (h : (e.cc.get ch).state.onTheWay) (hs : (e.it.get ch).status = .stopped) :
    (e.shedUnused ch).it.get ch = e.it.get ch ∧ ((e.shedUnused ch).cc.get ch).state ≠ .waiting := by
  unfold Event.shedUnused
  rcases h with h | ⟨k, h⟩ | ⟨cause, h⟩
  · obtain ⟨sub, hsub⟩ : ∃ sub, (e.cc.get ch).state = .pending sub := by
      cases hs : (e.cc.get ch).state <;> rw [hs] at h <;> first | exact ⟨_, rfl⟩ | exact Bool.noConfusion h
    rw [hsub]
    simp only
    rw [(Event.shedPending_spec ch e).2.1, (Event.shedPending_ends (ch := ch) (e := e)).1]
    exact ⟨rfl, ChState.noConfusion⟩
  · rw [h]
    simp only
    obtain ⟨-, -, hoff, -, -, -, hit, -⟩ := Event.shedStarting_ends h
    rw [hit, Tracker.stopClear_stopped hs]
    exact ⟨rfl, fun hw => by rw [hw] at hoff; exact Bool.noConfusion hoff⟩
  · rw [h]
    simp only
    rw [(Event.shedTripped_ends (ch := ch) (e := e)).1]
    refine ⟨?_, ChState.noConfusion⟩
    unfold Event.shedTripped
    rw [Event.setState_it]; rfl

/-- A SHED does not touch a STOPPED tracker (R34, R46, log 30). -/
theorem Event.carryOutShed_tracker (hm : e.mc.mode = .operating) (ht : (e.cc.get ch).state.tracked = false)
    (hs : (e.it.get ch).status = .stopped) : (e.carryOutShed ch).2.it.get ch = e.it.get ch ∧
      ((e.carryOutShed ch).2.cc.get ch).state ≠ .waiting := by
  have same : e.it.get ch = e.it.get ch ∧ (e.cc.get ch).state ≠ .waiting :=
    ⟨rfl, fun h => by rw [h] at ht; exact Bool.noConfusion ht⟩
  have onTheWay : e.held ch = false → (e.cc.get ch).state.onTheWay →
      (e.carryOutShed ch).2.it.get ch = e.it.get ch ∧
        ((e.carryOutShed ch).2.cc.get ch).state ≠ .waiting := fun hh h => by
    rw [Event.carryOutShed_onTheWay hh hm h]
    split
    · exact Event.shedUnused_tracker h hs
    · exact same
  cases hh : e.held ch with
  | true => rw [Event.carryOutShed_held hh]; exact same
  | false =>
    cases hst : (e.cc.get ch).state with
    | awake => rw [hst] at ht; exact Bool.noConfusion ht
    | waiting => rw [hst] at ht; exact Bool.noConfusion ht
    | rest => rw [Event.carryOutShed_idles hh (by rw [hst]; rfl)]; exact same
    | locked => rw [Event.carryOutShed_idles hh (by rw [hst]; rfl)]; exact same
    | coast =>
      rw [Event.carryOutShed_coast hh hst]
      refine ⟨rfl, ?_⟩
      rw [Event.clearOrigins_cc, PerChannel.get_set_same]
      exact same.2
    | pending => exact onTheWay hh (.inl (by rw [hst]; rfl))
    | starting => exact onTheWay hh (.inr (.inl ⟨_, hst⟩))
    | tripped => exact onTheWay hh (.inr (.inr ⟨_, hst⟩))
    | offline =>
      unfold Event.carryOutShed
      rw [hh, if_neg Bool.noConfusion, hst]; exact same
    | bypass =>
      unfold Event.carryOutShed
      rw [hh, if_neg Bool.noConfusion, hst]; exact same

theorem shedEnd_stopped (hm : e.mc.mode = .operating) (ht : (e.cc.get ch).state.tracked = false)
    (hs : (e.it.get ch).status = .stopped) : (shedEnd order env channel ch e).it.get ch = e.it.get ch := by
  obtain ⟨hit, hw⟩ := Event.carryOutShed_tracker hm ht hs
  have took : Took (e.carryOutShed ch).2 (shedEnd order env channel ch e) :=
    (Event.took order (Judged.answer env kindShed channel 0 (e.carryOutShed ch))).of_state rfl
  exact (took.tracker ch hw).trans hit

/-! ## A load that is shed and not needed (R29, R132) -/

/-- A load that is not needed ends as the SHED left it. -/
theorem shedEnd_undisturbed {code : ReplyCode} {e' : Event} (h : e.carryOutShed ch = (code, e'))
    (ho : e'.out.standingDue = .all []) (hn : e'.notNeeded ch) (hp : (e'.cc.get ch).state.isPending = false)
    (hw : (e'.cc.get ch).state ≠ .waiting) :
    (shedEnd order env channel ch e).cc.get ch = e'.cc.get ch ∧
      (shedEnd order env channel ch e).du.callWait.get ch = e'.du.callWait.get ch := by
  unfold shedEnd
  rw [h]
  exact Event.follows_undisturbed order ch (Judged.answer env kindShed channel 0 (code, e'))
    (Event.duesNeeded_of_none ho) hn hp hw

/-- The SHED of a load in PENDING that is not in use (R91, R132). -/
theorem shedEnd_pending (hh : e.held ch = false) (hm : e.mc.mode = .operating) (ho : e.out = {})
    (hst : (e.cc.get ch).state.isPending = true) (hv : e.consumersVerdict ch = true)
    (hn : e.notNeeded ch) :
    ((shedEnd order env channel ch e).cc.get ch).state = .rest ∧
    ((shedEnd order env channel ch e).cc.get ch).origins = {} ∧
    (shedEnd order env channel ch e).du.callWait.get ch = none ∧
    (shedEnd order env channel ch e).bu.retryGap.get ch = none ∧
    (e.provisionalClaiming → ∀ x ∈ (shedEnd order env channel ch e).bu.claims,
      x.isProvisional = true → x.ch ≠ ch) := by
  have heq : e.carryOutShed ch = (.accepted, e.shedPending ch) := by
    rw [Event.carryOutShed_onTheWay hh hm (.inl hst), if_pos hv]
    unfold Event.shedUnused
    cases hs : (e.cc.get ch).state <;> rw [hs] at hst <;> first | rfl | exact Bool.noConfusion hst
  obtain ⟨h1, h2, h3, h4, h5⟩ := Event.shedPending_ends (ch := ch) (e := e)
  obtain ⟨-, -, hmc, hbu, -⟩ := Event.shedPending_spec ch e
  have hn' : (e.shedPending ch).notNeeded ch :=
    State.notNeeded_of hn (congrArg ModeControl.image hmc) (congrArg ModeControl.station hmc)
  have hd : (e.shedPending ch).out.standingDue = .all [] := h5.trans (congrArg Outbox.standingDue ho)
  obtain ⟨hcc, hcw⟩ := shedEnd_undisturbed (order := order) (env := env) (channel := channel) heq hd hn'
    (by rw [h1]; rfl) (by rw [h1]; exact ChState.noConfusion)
  refine ⟨by rw [hcc]; exact h1, by rw [hcc]; exact h2, hcw.trans h3, ?_, fun hp => ?_⟩
  · unfold shedEnd
    rw [heq, Event.follows_retryGap]
    exact h4
  · unfold shedEnd
    rw [heq]
    refine Event.follows_unclaiming order ch _ ?_ ?_
    · obtain ⟨-, hs, -⟩ := (undisturbed_keptBySettle ch ((e.shedPending ch).cc.get ch)
        ((e.shedPending ch).du.callWait.get ch) (by rw [h1]; exact ChState.noConfusion)
        (by rw [h1]; exact ChState.noConfusion)).settled
        (Judged.answer env kindShed channel 0 (.accepted, e.shedPending ch)) ⟨hn', rfl, rfl⟩
        (Event.duesNeeded_of_none hd)
      rw [hs, h1]; exact ChState.noConfusion
    · show ∀ x ∈ (e.shedPending ch).bu.claims, _
      rw [hbu]; exact Event.leavePending_unclaims hp

/-- The SHED of a TRIPPED load that is not in use (R29, R132). -/
theorem shedEnd_tripped (hh : e.held ch = false) (hm : e.mc.mode = .operating) (ho : e.out = {})
    {cause : TripCause} (hst : (e.cc.get ch).state = .tripped cause) (hv : e.consumersVerdict ch = true)
    (hn : e.notNeeded ch) :
    ((shedEnd order env channel ch e).cc.get ch).state = .rest ∧
    ((shedEnd order env channel ch e).cc.get ch).origins = {} ∧
    ((shedEnd order env channel ch e).cc.get ch).tripCount = (e.cc.get ch).tripCount ∧
    ((shedEnd order env channel ch e).cc.get ch).retryTimer = none := by
  have heq : e.carryOutShed ch = (.accepted, e.shedTripped ch) := by
    rw [Event.carryOutShed_onTheWay hh hm (.inr (.inr ⟨cause, hst⟩)), if_pos hv]
    unfold Event.shedUnused
    rw [hst]
  obtain ⟨h1, h2, h3, h4, h5⟩ := Event.shedTripped_ends (ch := ch) (e := e)
  have hmc : (e.shedTripped ch).mc = e.mc := by
    unfold Event.shedTripped
    rw [Event.setState_mc]; rfl
  obtain ⟨hcc, -⟩ := shedEnd_undisturbed (order := order) (env := env) (channel := channel) heq
    (h5.trans (congrArg Outbox.standingDue ho))
    (State.notNeeded_of hn (congrArg ModeControl.image hmc) (congrArg ModeControl.station hmc))
    (by rw [h1]; rfl) (by rw [h1]; exact ChState.noConfusion)
  rw [hcc]
  exact ⟨h1, h2, h3, h4⟩

/-- The SHED of a STARTING load that is not in use (R4, R27, R90, R132). -/
theorem shedEnd_starting (hh : e.held ch = false) (hm : e.mc.mode = .operating) (ho : e.out = {})
    {k : StartKind} (hst : (e.cc.get ch).state = .starting k) (hv : e.consumersVerdict ch = true)
    (hn : e.notNeeded ch) :
    ((shedEnd order env channel ch e).cc.get ch).origins = {} ∧
    ((shedEnd order env channel ch e).cc.get ch).inrushTimer = none ∧
    (shedEnd order env channel ch e).coilDrive ch = false ∧
    (e.cc.get ch).outputChanged (e.record ch).feedbackWindow
      ((shedEnd order env channel ch e).cc.get ch) ∧
    (if (e.record ch).runDown = 0 then ((shedEnd order env channel ch e).cc.get ch).state = .rest
      else ((shedEnd order env channel ch e).cc.get ch).state = .coast ∧
        ((shedEnd order env channel ch e).cc.get ch).runDownTimer = some (e.record ch).runDown) ∧
    ∀ x, (e.bu.claims.map Claim.key).Nodup → k = .claimed → e.liveOf ch = some x →
      { x with timer := (e.cc.get ch).inrushTimer } ∈ (shedEnd order env channel ch e).bu.claims := by
  have heq : e.carryOutShed ch = (.accepted, e.shedStarting ch) := by
    rw [Event.carryOutShed_onTheWay hh hm (.inr (.inl ⟨k, hst⟩)), if_pos hv]
    unfold Event.shedUnused
    rw [hst]
  obtain ⟨h1, h2, h3, h4, h5, h6, -, h8⟩ := Event.shedStarting_ends hst
  have hmc : Calm True True e (e.shedStarting ch) := Event.shedStarting_calm ch e k hst
  have hout : ((e.shedStarting ch).cc.get ch).state = .rest ∨
      ((e.shedStarting ch).cc.get ch).state = .coast := by
    split at h5
    · exact .inl h5
    · exact .inr h5.1
  obtain ⟨hcc, -⟩ := shedEnd_undisturbed (order := order) (env := env) (channel := channel) heq
    (h6.trans (congrArg Outbox.standingDue ho))
    (State.notNeeded_of hn hmc.image hmc.station)
    (by rcases hout with h | h <;> rw [h] <;> rfl)
    (by rcases hout with h | h <;> rw [h] <;> exact ChState.noConfusion)
  refine ⟨by rw [hcc]; exact h1, by rw [hcc]; exact h2, ?_, by rw [hcc]; exact h4, by rw [hcc]; exact h5,
    fun x hk hcl hx => ?_⟩
  · unfold State.coilDrive
    rw [hcc, h3]; exact Bool.and_false _
  · subst hcl
    have hlive := Event.handOverInrush_standsLive ch e x hk hst hx
    unfold shedEnd
    rw [heq]
    refine (Event.follows_standsLive order (Judged.answer env kindShed channel 0
      (.accepted, e.shedStarting ch)) ?_).1
    unfold State.standsLive at hlive ⊢
    rw [show (Judged.answer env kindShed channel 0 (.accepted, e.shedStarting ch)).bu =
      (e.shedStarting ch).bu from rfl, h8]
    exact hlive

end

end Sys2Proof.Machine
end

