-- ==== Sys2Proof/Proofs/ShedOps.lean ====
section
/-! SUPPORT. SHED, settled for each mode (R117, R131, R132). -/

namespace Sys2Proof.Machine

/-- Nothing but the isolation timer and the line side differs. -/
def State.onlyAnswered (a t : State) : Prop :=
  t = { a with mc.isolationTimer := t.mc.isolationTimer, li := t.li }

/-- A SHED that names a configured channel, at a level that its gate admits, is carried out there. -/
theorem Event.command_shed (env : Envelope) (channel level : Byte) (ch : Ch) (e : Event)
    (hm : e.mc.mode = .operating ∨ e.mc.mode = .isolated) (ht : env.target.toNat = e.mc.station)
    (h0 : env.target ≠ 0) (hl : level.toNat ≤ 3) (hc : channel.toNat = ch.toNat)
    (hcf : e.configured ch = true) (hg : e.effectiveLevel env.sender.toNat level.toNat ≤ 2) :
    e.command env kindShed channel 0 (Event.judgeShed env channel level) =
      Judged.answer env kindShed channel 0 (e.carryOutShed ch) := by
  rw [Event.command_eq env kindShed channel 0 _ e ht h0 (hm.imp_left Or.inr)]
  refine congrArg _ ?_
  unfold Event.judgeShed
  rw [if_neg (by rcases hm with h | h <;> rw [h] <;> exact Mode.noConfusion)]
  exact Event.judgeChannel_eq env channel level 2 Event.carryOutShed ch e hl hc hcf hg

theorem shed_onLine (m : Moment) (env : Envelope) (channel level : Byte) (ch : Ch) (s : State)
    (hop : s.mc.mode = .operating) (hh : s.hears env kindShed [channel, level])
    (ht : env.target.toNat = s.mc.station) (h0 : env.target ≠ 0) (hl : level.toNat ≤ 3)
    (hc : channel.toNat = ch.toNat) (hcf : (s.elapse m.elapsed).configured ch = true)
    (hg : (s.elapse m.elapsed).effectiveLevel env.sender.toNat level.toNat ≤ 2) :
    exec (.shed m env channel level) s = .next (shedEnd m.order env channel ch (s.heardAt m)) := by
  have heq : effectOf (.shed m env channel level) (s.begin m) =
      Judged.answer env kindShed channel 0 (Event.carryOutShed ch (s.heardAt m)) := by
    show (s.begin m).hear (.inTurn m.arrival) env kindShed [channel, level]
      (Event.command env kindShed channel 0 (Event.judgeShed env channel level)) = _
    rw [hear_onLine _ env kindShed _ _ m s (.inr hop) hh]
    exact Event.command_shed env channel level ch (s.heardAt m) (.inl hop) ht h0 hl hc hcf hg
  rw [exec_eq, shedEnd, ← heq]; rfl

/-- A SHED of a load that is not held, in OPERATING. -/
theorem shed_operating (m : Moment) (env : Envelope) (channel : Byte) (ch : Ch) (s : State)
    (hop : s.mc.mode = .operating) (ht : env.target.toNat = s.mc.station) (h0 : env.target ≠ 0)
    (hheld : (s.elapse m.elapsed).held ch = false) :
    let a := s.elapse m.elapsed
    let c := a.cc.get ch
    let t := shedEnd m.order env channel ch (s.heardAt m)
    (c.state = .awake →
      (a.pu.phase.permits (a.record ch).rank = false →
        (t.cc.get ch).state = .awake ∧ t.replied env kindShed channel 0 .deferred ∧
        (t.it.get ch).count = max (a.it.get ch).count (a.record ch).requiredCount) ∧
      (a.pu.phase.permits (a.record ch).rank = true → (t.cc.get ch).state ≠ .awake ∧
        t.replied env kindShed channel 0 .accepted ∧
        (a.consumersVerdict ch = true → t.coilDrive ch = false ∧
          c.outputChanged (a.record ch).feedbackWindow (t.cc.get ch)))) ∧
    (c.state.tracked = false → (a.it.get ch).status = .stopped → t.it.get ch = a.it.get ch) ∧
    (s.settled → c.state = .coast → t.cc.get ch = { c with origins := {} }) ∧
    (c.state = .coast ∨ c.state = .waiting ∨ c.state = .rest →
      t.replied env kindShed channel 0 .accepted) ∧
    (c.state.isLocked = true → t.replied env kindShed channel 0 .refusedLocked) ∧
    (s.settled → c.state = .waiting ∨ c.state = .rest ∨ c.state.isLocked = true → t.cc = a.cc) ∧
    (c.state.onTheWay → t.replied env kindShed channel 0
        (if a.consumersVerdict ch = true then .accepted else .refusedInUse) ∧
      (s.settled → a.consumersVerdict ch = false → t.cc = a.cc)) := by
  intro a c t
  have he : ∀ h : s.settled, (s.heardAt m).toState.settled := State.settled_elapse m.elapsed s
  have hout : (s.heardAt m).out = {} := rfl
  have hrep := shedEnd_replied (order := m.order) (channel := channel) (ch := ch) (e := s.heardAt m) h0 ht
    (by rw [show (s.heardAt m).mc.mode = .operating from hop]; exact ⟨Mode.noConfusion, Mode.noConfusion⟩)
  have replied : ∀ {code : ReplyCode} {e' : Event}, (s.heardAt m).carryOutShed ch = (code, e') →
      t.replied env kindShed channel 0 code := fun h => by rw [h] at hrep; exact hrep
  have idle : ∀ {code : ReplyCode}, (s.heardAt m).carryOutShed ch = (code, s.heardAt m) → s.settled →
      t.cc = a.cc := fun h hs => by
    obtain ⟨q, hq⟩ := shedEnd_still (order := m.order) (env := env) (channel := channel) h hout (he hs)
    show (shedEnd _ _ _ _ _).cc = _
    rw [hq]; rfl
  have locked : c.state.isLocked = true → c.state.shedIdles = some .refusedLocked := fun h => by
    cases hs : c.state <;> rw [hs] at h <;> first | rfl | exact Bool.noConfusion h
  refine ⟨fun hst => ⟨fun hp => ?_, fun hp => ?_⟩, shedEnd_stopped (e := s.heardAt m) hop, fun hs =>
    shedEnd_coast (e := s.heardAt m) hheld hout (he hs), fun hst => ?_, fun hst => ?_,
    fun hs hst => ?_, fun hst => ?_⟩
  · obtain ⟨h1, h2⟩ := shedEnd_deferred (order := m.order) (env := env) (channel := channel)
      (e := s.heardAt m) hheld hst (.inl hp)
    exact ⟨h1, replied (Event.carryOutShed_deferred hheld hst (.inl hp)), h2⟩
  · obtain ⟨h1, h2⟩ := shedEnd_waits (order := m.order) (env := env) (channel := channel)
      (e := s.heardAt m) hheld hout hst hp hop
    exact ⟨h1, replied (Event.carryOutShed_waits hheld hst hp hop), h2⟩
  · rcases hst with h | h | h
    · exact replied (Event.carryOutShed_coast hheld h)
    · exact replied (Event.carryOutShed_idles hheld (congrArg ChState.shedIdles h))
    · exact replied (Event.carryOutShed_idles hheld (congrArg ChState.shedIdles h))
  · exact replied (Event.carryOutShed_idles hheld (locked hst))
  · rcases hst with h | h | h
    · exact idle (Event.carryOutShed_idles hheld (congrArg ChState.shedIdles h)) hs
    · exact idle (Event.carryOutShed_idles hheld (congrArg ChState.shedIdles h)) hs
    · exact idle (Event.carryOutShed_idles hheld (locked h)) hs
  · have heq := Event.carryOutShed_onTheWay (e := s.heardAt m) hheld hop hst
    cases hv : a.consumersVerdict ch with
    | true =>
      rw [show (s.heardAt m).consumersVerdict ch = true from hv, if_pos rfl] at heq
      exact ⟨replied heq, fun _ h => Bool.noConfusion h⟩
    | false =>
      rw [show (s.heardAt m).consumersVerdict ch = false from hv, if_neg Bool.noConfusion] at heq
      exact ⟨replied heq, fun hs _ => idle heq hs⟩

end Sys2Proof.Machine
end

