-- ==== Sys2Proof/Proofs/Lone.lean ====
section
/-! SUPPORT. A node in which one load alone may move: what follows concerns no other load and queues no notice
and no call; and a queue with room for all that an event queues (R156). -/

namespace Sys2Proof.Machine

/-! ## One load alone -/

/-- No notice of a channel, no call and no frame of the Budget Unit is owed. -/
structure Outbox.bare (o : Outbox) : Prop where
  notices : o.notices = .all []
  calls : o.calls = .all []
  call : o.callDue = .all false
  standing : o.standingDue = .all []
  holds : o.expiredHolds = []
  budget : o.budget = []

/-- One load, that no other needs, may leave AWAKE with no wake; the others move by no verdict and no call,
and no provider's loss is news. -/
structure Event.lone (ch : Ch) (e : Event) : Prop where
  needs : e.notNeeded ch
  here : (e.cc.get ch).state.isPending = false
  wakes : (e.cc.get ch).state.tracked = true → (e.cc.get ch).origins = {}
  others : ∀ k, k ≠ ch → (e.cc.get k).state.stays = true ∧ (e.cc.get k).state ≠ .awake
  marks : ∀ k, ∀ r ∈ e.lostProviders k, r ∈ e.du.marks.get k
  out : e.out.bare

section
variable {ch : Ch} {e e' : Event}

/-- A change of the load alone, that begins no watch of its providers. -/
theorem Event.lone.of (h : e.lone ch) (hi : e'.mc.image = e.mc.image)
    (hs : e'.mc.station = e.mc.station) (hp : e'.du.peers = e.du.peers) (hm : e'.du.marks = e.du.marks)
    (others : ∀ k, k ≠ ch → e'.cc.get k = e.cc.get k) (here : (e'.cc.get ch).state.isPending = false)
    (wakes : (e'.cc.get ch).state.tracked = true → (e'.cc.get ch).origins = {})
    (hw : (e'.cc.get ch).state.watching = true → (e.cc.get ch).state.watching = true)
    (hout : e'.out.bare) : e'.lone ch := by
  refine ⟨State.notNeeded_of h.needs hi hs, here, wakes, fun k hk => by
    rw [others k hk]; exact h.others k hk, fun k r hr => ?_, hout⟩
  rw [hm]
  have hbeneath : ∀ r ∈ (e.record k).needs, e'.restsBeneath r = e.restsBeneath r := fun r hr =>
    State.restsBeneath_of_local hs hp r fun c hc => by
      rw [others c fun he => h.needs k r hr (he ▸ hc)]
  have hwatch : (e'.cc.get k).state.watching = true := by
    by_contra hn
    unfold State.lostProviders at hr
    rw [if_neg hn] at hr
    exact absurd hr List.not_mem_nil
  have hwatch' : (e.cc.get k).state.watching = true := by
    by_cases hk : k = ch
    · subst hk; exact hw hwatch
    · rw [← others k hk]; exact hwatch
  rw [State.lostProviders_of hi k (hwatch.trans hwatch'.symm) fun _ => hbeneath] at hr
  exact h.marks k r hr

theorem Event.lone.not_waiting (h : e.lone ch) {k : Ch} (hk : k ≠ ch) : (e.cc.get k).state ≠ .waiting :=
  fun hw => by
    have := (h.others k hk).1
    rw [hw] at this; exact Bool.noConfusion this

theorem Event.lone.not_pending (h : e.lone ch) (k : Ch) : (e.cc.get k).state.isPending = false := by
  by_cases hk : k = ch
  · subst hk; exact h.here
  · have := (h.others k hk).1
    cases hs : (e.cc.get k).state <;> rw [hs] at this <;> first | rfl | exact Bool.noConfusion this

theorem Outbox.bare.withState {o : Outbox} (h : o.bare) (b : Bool) : ({ o with stateDue := b } : Outbox).bare :=
  ⟨h.notices, h.calls, h.call, h.standing, h.holds, h.budget⟩

theorem Event.lone.enterCoast (h : e.lone ch) (hst : (e.cc.get ch).state = .waiting) :
    (e.enterCoast ch).lone ch := by
  obtain ⟨-, -, hrun, hdu, hk, hmc, b, hout⟩ := Event.enterCoast_unwoken ch e (h.wakes (by rw [hst]; rfl))
  have hafter : ((e.enterCoast ch).cc.get ch).state = .rest ∨ ((e.enterCoast ch).cc.get ch).state = .coast := by
    split at hrun
    · exact .inl hrun
    · exact .inr hrun.1
  refine h.of hk.image hk.station hk.peers (by rw [hdu]) (fun k hk => (Event.enterCoast_other ch k e hk).1)
    ?_ ?_ ?_ (by rw [hout]; exact h.out.withState b) <;>
  · rcases hafter with h | h <;> rw [h] <;> first | rfl | exact fun h => Bool.noConfusion h

theorem Event.lone.reportVerdict (due : PerChannel Bool) (k : Ch) (h : e.lone ch) :
    (e.reportVerdict due k).lone ch := by
  unfold Event.reportVerdict
  split
  · split <;> rename_i hst
    · have := h.not_pending k
      rw [hst] at this; exact Bool.noConfusion this
    · by_cases hk : k = ch
      · subst hk; exact h.enterCoast hst
      · exact absurd hst (h.not_waiting hk)
    · exact h
  · exact h

theorem Event.lone.watch (k : Ch) (h : e.lone ch) : (e.watch k).lone ch := by
  have hfresh : ((e.lostProviders k).filter fun r => !(e.du.marks.get k).contains r) = [] := by
    refine List.filter_eq_nil_iff.2 fun r hr => ?_
    simp [h.marks k r hr]
  have heq : e.watch k = { e with
      du.marks := e.du.marks.set k (e.lostProviders k)
      out.standingDue := e.out.standingDue.set k (e.out.standingDue.get k ++ []) } := by
    unfold Event.watch
    simp only
    rw [hfresh]
    rfl
  rw [heq, h.out.standing, List.append_nil, PerChannel.set_get]
  refine ⟨h.needs, h.here, h.wakes, h.others, fun j r hr => ?_, ⟨h.out.notices, h.out.calls, h.out.call, rfl,
    h.out.holds, h.out.budget⟩⟩
  have hr' : r ∈ e.lostProviders j := hr
  show r ∈ (e.du.marks.set k (e.lostProviders k)).get j
  rw [PerChannel.get_set]
  split
  · rename_i hj; subst hj; exact hr'
  · exact h.marks j r hr'

theorem Event.lone.payCalls (k : Ch) (h : e.lone ch) : (e.payCalls k).lone ch := by
  have hp : e.payCall k = e := by
    unfold Event.payCall
    rw [if_neg]
    rw [h.out.call, PerChannel.get_all]; exact Bool.noConfusion
  have hs : e.out.standingDue.get k = [] := by rw [h.out.standing, PerChannel.get_all]
  have heq : e.payCalls k = { e with out.standingDue := e.out.standingDue.set k [] } := by
    unfold Event.payCalls Event.payStanding
    rw [hp, hs]; rfl
  rw [heq]
  have hset := PerChannel.set_get e.out.standingDue k
  rw [hs] at hset
  exact ⟨h.needs, h.here, h.wakes, h.others, h.marks, ⟨h.out.notices, h.out.calls, h.out.call,
    hset.trans h.out.standing, h.out.holds, h.out.budget⟩⟩

theorem Event.lone.forChannels {f : Ch → Event → Event} (hf : ∀ k (e : Event), e.lone ch → (f k e).lone ch)
    (h : e.lone ch) : (e.forChannels f).lone ch :=
  foldl_induct (P := fun e : Event => e.lone ch) (fun e k => hf k e) Ch.all e h

theorem Event.lone.takeReports (h : e.lone ch) : e.takeReports.lone ch := by
  unfold Event.takeReports
  exact h.forChannels fun k _ h => h.reportVerdict _ k

theorem Event.lone.watchAll (h : e.lone ch) : (e.forChannels Event.watch).lone ch := by
  have hf : ∀ k (e : Event), e.lone ch → (Event.watch k e).lone ch := fun k _ h => h.watch k
  exact h.forChannels hf

theorem Event.lone.payAll (h : e.lone ch) : (e.forChannels Event.payCalls).lone ch := by
  have hf : ∀ k (e : Event), e.lone ch → (Event.payCalls k e).lone ch := fun k _ h => h.payCalls k
  exact h.forChannels hf

theorem Event.lone.settle (n : Nat) : ∀ e : Event, e.lone ch → (e.settle n).lone ch := by
  induction n with
  | zero => exact fun _ h => h
  | succ n ih =>
    intro e h
    have h1 := ih _ h.takeReports.watchAll
    have h2 := ih _ h.payAll
    unfold Event.settle
    split
    · exact h1
    · split
      · exact h2
      · exact h

theorem Event.lone.settled (h : e.lone ch) : e.settled.lone ch := Event.lone.settle settleRounds e h

theorem Event.lone.tryWait (k : Ch) (h : e.lone ch) : (e.tryWait k).lone ch := by
  cases hw : e.mayWait k with
  | false => rw [Event.tryWait_stays k e hw]; exact h
  | true =>
    have hst := State.mayWait_awake hw
    have hk : k = ch := by
      by_contra hk
      exact (h.others k hk).2 hst
    subst hk
    obtain ⟨hcc, -, hmc, hdu, -, b, hout⟩ := Event.tryWait_spec k e hw
    refine h.of (by rw [hmc]) (by rw [hmc]) (by rw [hdu]) (by rw [hdu])
      (fun j hj => (Event.tryWait_other k j e hj).1) ?_ ?_ ?_ (by rw [hout]; exact h.out.withState b)
    · rw [hcc, PerChannel.get_set_same]; rfl
    · rw [hcc, PerChannel.get_set_same]; exact fun _ => h.wakes (by rw [hst]; rfl)
    · rw [hst]; exact fun _ => rfl

/-- The stagger finds no load to start. -/
theorem Event.lone.staggerEnds (h : e.lone ch) : e.staggerEnds.lone ch := by
  have hc : e.staggerChoice = none := by
    unfold State.staggerChoice
    rw [Option.map_eq_none_iff]
    refine List.find?_eq_none.2 fun p _ hp => ?_
    have hpe := (Bool.and_eq_true_iff.1 hp).2
    rw [h.not_pending p.2] at hpe
    exact Bool.noConfusion hpe
  unfold Event.staggerEnds
  split
  · rw [hc]
    exact h.of rfl rfl rfl rfl (fun _ _ => rfl) h.here h.wakes id h.out
  · exact h

theorem Event.lone.rejoin (h : e.lone ch) : e.rejoin.lone ch := by
  obtain ⟨hcc, -, -, hmc, hdu, -⟩ := Event.setMode_rest .operating e
  have hout : ∃ b, (e.setMode .operating).out = { e.out with stateDue := b } := by
    unfold Event.setMode
    split
    · exact ⟨e.out.stateDue, rfl⟩
    · exact ⟨true, rfl⟩
  obtain ⟨b, hout⟩ := hout
  have h1 : Event.lone ch { (e.setMode .operating).noticeNode .rejoined with
      mc.isolationTimer := some (State.plantTime
        ((e.setMode .operating).noticeNode .rejoined).toState Image.isolationLimit)
      mc.staggerTimer := none } := by
    refine h.of ?_ ?_ ?_ ?_ (fun k _ => ?_) ?_ ?_ ?_ ?_
    · show (e.setMode .operating).mc.image = _; rw [hmc]
    · show (e.setMode .operating).mc.station = _; rw [hmc]
    · show (e.setMode .operating).du.peers = _; rw [hdu]
    · show (e.setMode .operating).du.marks = _; rw [hdu]
    · show (e.setMode .operating).cc.get k = _; rw [hcc]
    · show ((e.setMode .operating).cc.get ch).state.isPending = false; rw [hcc]; exact h.here
    · show ((e.setMode .operating).cc.get ch).state.tracked = true →
        ((e.setMode .operating).cc.get ch).origins = {}
      rw [hcc]; exact h.wakes
    · show ((e.setMode .operating).cc.get ch).state.watching = true → _; rw [hcc]; exact id
    · have ho := h.out.withState b
      rw [← hout] at ho
      exact ⟨ho.notices, ho.calls, ho.call, ho.standing, ho.holds, ho.budget⟩
  unfold Event.rejoin
  have h2 := h1.forChannels (f := Event.tryWait) fun k _ h => h.tryWait k
  simp only
  generalize Event.forChannels Event.tryWait _ = e2 at h2 ⊢
  exact ⟨h2.needs, h2.here, h2.wakes, h2.others, h2.marks, ⟨h2.out.notices, h2.out.calls, h2.out.call,
    h2.out.standing, h2.out.holds, h2.out.budget⟩⟩

end

/-! ## A queue with room (R156, R157) -/

theorem joinQueue_room {q : List Frame} (g : Frame) (h : q.length < 16) :
    (joinQueue g q).length ≤ q.length + 1 ∧ ∀ f : Frame, f.isState = false →
      (f ∈ q ∨ f = g → f ∈ joinQueue g q) := by
  unfold joinQueue
  split
  · rename_i hg
    have hgs := (Bool.and_eq_true_iff.1 hg).1
    unfold replaceState
    refine ⟨by rw [List.length_map]; omega, fun f hf hm => ?_⟩
    rcases hm with hm | rfl
    · exact List.mem_map.2 ⟨f, hm, by rw [hf]; rfl⟩
    · rw [hf] at hgs; exact Bool.noConfusion hgs
  · rw [if_pos (show q.length < Config.queueCapacity from h)]
    refine ⟨by rw [List.length_append]; exact Nat.le_refl _, fun f _ hm => ?_⟩
    rcases hm with hm | rfl
    · exact List.mem_append_left _ hm
    · exact List.mem_append_right _ (List.mem_singleton.2 rfl)

/-- Frames to come, and the STATE frame where one is owed, find room in the queue, and the Budget Unit
has none. -/
structure Event.hasRoom (n : Nat) (e : Event) : Prop where
  room : e.li.queue.length + (if e.out.stateDue then 1 else 0) + n ≤ 16
  budget : e.out.budget = []
  none : ∀ ch, (e.cc.get ch).state ≠ .pending .budget

section
variable {f : Frame} (hf : f.isState = false)

include hf

/-- A frame that joins a queue with room leaves the frames in it, and is in it where the mode takes it. -/
theorem Event.enqueue_room (g : Frame) (n : Nat) (e : Event) (h : e.hasRoom (n + 1)) :
    (e.enqueue g).hasRoom n ∧ (f ∈ e.li.queue ∨ f = g ∧ e.queueTakes g.body = true →
      f ∈ (e.enqueue g).li.queue) := by
  obtain ⟨hroom, hb, hn⟩ := h
  obtain ⟨hlen, hmem⟩ := joinQueue_room (q := e.li.queue) g (by omega)
  obtain ⟨hcc, -, -, -, hout⟩ := Event.enqueue_rest g e
  refine ⟨⟨?_, by rw [hout]; exact hb, by rw [hcc]; exact hn⟩, ?_⟩
  · rw [hout]
    unfold Event.enqueue
    split
    · show (joinQueue g e.li.queue).length + _ + n ≤ 16
      omega
    · omega
  · unfold Event.enqueue
    split
    · exact fun h => hmem f hf (h.imp_right And.left)
    · rename_i ht
      exact fun h => h.elim id fun h => absurd h.2 ht

theorem Event.enqueueAll_room (fs : List Frame) (n : Nat) (e : Event) (h : e.hasRoom (n + fs.length)) :
    (e.enqueueAll fs).hasRoom n ∧ (e.enqueueAll fs).mc = e.mc ∧
      (f ∈ e.li.queue ∨ f ∈ fs ∧ e.queueTakes f.body = true → f ∈ (e.enqueueAll fs).li.queue) := by
  induction fs generalizing e with
  | nil => exact ⟨h, rfl, fun hm => hm.elim id fun h => absurd h.1 List.not_mem_nil⟩
  | cons g rest ih =>
    obtain ⟨h1, h2⟩ := Event.enqueue_room hf g (n + rest.length) e h
    have hmc := (Event.enqueue_rest g e).2.2.1
    obtain ⟨i1, i2, i3⟩ := ih (e.enqueue g) h1
    refine ⟨i1, i2.trans hmc, fun hm => i3 ?_⟩
    rcases hm with hm | ⟨hm, ht⟩
    · exact .inl (h2 (.inl hm))
    · rcases List.mem_cons.1 hm with rfl | hm
      · exact .inl (h2 (.inr ⟨rfl, ht⟩))
      · exact .inr ⟨hm, (State.queueTakes_of_mc hmc f.body).trans ht⟩

theorem Event.payState_room (n : Nat) (e : Event) (h : e.hasRoom n) :
    e.payState.hasRoom n ∧ (f ∈ e.li.queue → f ∈ e.payState.li.queue) := by
  unfold Event.payState
  by_cases hs : e.out.stateDue = true
  · rw [if_pos hs]
    have h1 : Event.hasRoom (n + 1) { e with out.stateDue := false } := by
      refine ⟨?_, h.budget, h.none⟩
      have := h.room
      rw [if_pos hs] at this
      show e.li.queue.length + (if false = true then 1 else 0) + (n + 1) ≤ 16
      rw [if_neg Bool.noConfusion]; omega
    obtain ⟨h2, h3⟩ := Event.enqueue_room hf ⟨0, .state e.report⟩ n _ h1
    exact ⟨h2, fun hm => h3 (.inl hm)⟩
  · rw [if_neg hs]; exact ⟨h, id⟩

omit hf in
/-- Where no load is in BUDGET an evaluation creates no claim. -/
theorem Event.evaluateBudget_idle (e : Event) (h : ∀ ch, (e.cc.get ch).state ≠ .pending .budget) :
    e.evaluateBudget = { e with
      out.evalDue := false
      bu.fullAtEval := decide (Config.queueCapacity ≤ e.li.queue.length) } := by
  have hfold : byPrecedence.foldl (fun (e : Event) p =>
      if (e.record p.2).rank = p.1 ∧ e.claimable p.2 then e.createClaim p.2 else e)
      { e with out.evalDue := false } = { e with out.evalDue := false } := by
    refine foldl_induct (P := fun e' : Event => e' = { e with out.evalDue := false })
      (fun e' p he => ?_) _ _ rfl
    subst he
    exact if_neg fun hc => h p.2 (State.claimable_iff hc.2).1
  unfold Event.evaluateBudget
  simp only
  rw [hfold]

omit hf in
theorem Event.evaluateBudget_room (n : Nat) (e : Event) (h : e.hasRoom n) :
    e.evaluateBudget.hasRoom n ∧ e.evaluateBudget.li = e.li ∧ e.evaluateBudget.mc = e.mc := by
  rw [Event.evaluateBudget_idle e h.none]
  exact ⟨⟨h.room, h.budget, h.none⟩, rfl, rfl⟩

omit hf in
theorem Event.drainBudget_room (n rounds : Nat) (e : Event) (h : e.hasRoom n) :
    (e.drainBudget rounds).hasRoom n ∧ (e.drainBudget rounds).li = e.li ∧
      (e.drainBudget rounds).mc = e.mc := by
  induction rounds generalizing e with
  | zero => exact ⟨h, rfl, rfl⟩
  | succ rounds ih =>
    unfold Event.drainBudget
    split
    · exact ⟨h, rfl, rfl⟩
    · have h1 : Event.hasRoom n { e with out.budget := [] } := ⟨h.room, rfl, h.none⟩
      have hall : Event.enqueueAll e.out.budget { e with out.budget := [] } =
          { e with out.budget := [] } := by rw [h.budget]; rfl
      simp only
      rw [hall]
      generalize hE : ({ e with out.budget := [] } : Event) = e1 at h1 ⊢
      have hsame : e1.li = e.li ∧ e1.mc = e.mc := by rw [← hE]; exact ⟨rfl, rfl⟩
      split
      · obtain ⟨h2, h3, h4⟩ := Event.evaluateBudget_room n e1 h1
        obtain ⟨i1, i2, i3⟩ := ih _ h2
        exact ⟨i1, i2.trans (h3.trans hsame.1), i3.trans (h4.trans hsame.2)⟩
      · obtain ⟨i1, i2, i3⟩ := ih e1 h1
        exact ⟨i1, i2.trans hsame.1, i3.trans hsame.2⟩

/-- Of an ending: every frame still to join finds room, and the reply is in the queue or to come. -/
def Ending.roomy (f : Frame) (d : Ending) : Prop :=
  d.ev.hasRoom (d.notices.length + d.calls.length + d.replies.length) ∧ d.ev.queueTakes f.body = true ∧
    (f ∈ d.ev.li.queue ∨ f ∈ d.replies)

theorem Ending.next_roomy (d : Ending) (b : Block) (h : d.roomy f) : (d.next b).roomy f := by
  obtain ⟨hr, ht, hm⟩ := h
  have takes : ∀ {e' : Event}, e'.mc = d.ev.mc → e'.queueTakes f.body = true := fun h =>
    (State.queueTakes_of_mc h f.body).trans ht
  cases b <;> unfold Ending.next <;> simp only
  case iu =>
    split
    · rename_i g rest hn
      obtain ⟨h1, h2⟩ := Event.enqueue_room hf g (rest.length + d.calls.length + d.replies.length) d.ev (by
        rw [hn, List.length_cons, show rest.length + 1 + d.calls.length + d.replies.length =
          rest.length + d.calls.length + d.replies.length + 1 by omega] at hr
        exact hr)
      exact ⟨h1, takes (Event.enqueue_rest g d.ev).2.2.1, hm.imp_left fun h => h2 (.inl h)⟩
    · exact ⟨hr, ht, hm⟩
  case du =>
    split
    · rename_i g rest hn
      obtain ⟨h1, h2⟩ := Event.enqueue_room hf g (d.notices.length + rest.length + d.replies.length) d.ev (by
        rw [hn, List.length_cons, show d.notices.length + (rest.length + 1) + d.replies.length =
          d.notices.length + rest.length + d.replies.length + 1 by omega] at hr
        exact hr)
      exact ⟨h1, takes (Event.enqueue_rest g d.ev).2.2.1, hm.imp_left fun h => h2 (.inl h)⟩
    · exact ⟨hr, ht, hm⟩
  case cu =>
    split
    · rename_i g rest hn
      obtain ⟨h1, h2⟩ := Event.enqueue_room hf g (d.notices.length + d.calls.length + rest.length) d.ev (by
        rw [hn, List.length_cons, ← Nat.add_assoc] at hr
        exact hr)
      refine ⟨h1, takes (Event.enqueue_rest g d.ev).2.2.1, ?_⟩
      rcases hm with hm | hm
      · exact .inl (h2 (.inl hm))
      · rw [hn] at hm
        rcases List.mem_cons.1 hm with rfl | hm
        · exact .inl (h2 (.inr ⟨rfl, ht⟩))
        · exact .inr hm
    · exact ⟨hr, ht, hm⟩
  case bu =>
    unfold Event.payBudget
    rw [hr.budget]
    simp only
    split
    · obtain ⟨h1, h2, h3⟩ := Event.evaluateBudget_room _ d.ev hr
      exact ⟨h1, takes h3, by rw [h2]; exact hm⟩
    · exact ⟨hr, ht, hm⟩
  case li =>
    obtain ⟨h1, h2⟩ := Event.payState_room hf _ d.ev hr
    refine ⟨h1, takes ?_, hm.imp_left h2⟩
    unfold Event.payState
    split
    · exact (Event.enqueue_rest _ _).2.2.1
    · rfl

/-- A reply for which there is room stands in the queue. -/
theorem Event.flush_room (order : List Block) (e : Event)
    (h : e.hasRoom (e.out.allNotices.length + e.out.allCalls.length + e.out.replies.length))
    (ht : e.queueTakes f.body = true) (hm : f ∈ e.out.replies) : f ∈ (e.flush order).li.queue := by
  have h1 : (order.foldl Ending.next ⟨e, e.out.allNotices, e.out.allCalls, e.out.replies⟩).roomy f :=
    foldl_induct (P := fun d : Ending => d.roomy f) (fun d b => Ending.next_roomy hf d b) order _
      ⟨h, ht, .inr hm⟩
  unfold Event.flush
  simp only
  generalize order.foldl Ending.next _ = d at h1 ⊢
  obtain ⟨hr, ht', hm'⟩ := h1
  obtain ⟨r1, m1, q1⟩ := Event.enqueueAll_room hf d.notices (d.calls.length + d.replies.length) d.ev (by
    rw [show d.calls.length + d.replies.length + d.notices.length =
      d.notices.length + d.calls.length + d.replies.length by omega]
    exact hr)
  generalize d.ev.enqueueAll d.notices = e1 at r1 m1 q1 ⊢
  obtain ⟨r2, m2, q2⟩ := Event.enqueueAll_room hf d.calls d.replies.length e1 (by
    rw [Nat.add_comm]; exact r1)
  generalize e1.enqueueAll d.calls = e2 at r2 m2 q2 ⊢
  obtain ⟨r3, l3, m3⟩ := Event.drainBudget_room d.replies.length budgetRounds e2 r2
  generalize e2.drainBudget budgetRounds = e3 at r3 l3 m3 ⊢
  obtain ⟨r4, -, q4⟩ := Event.enqueueAll_room hf d.replies 0 e3 (by rw [Nat.zero_add]; exact r3)
  refine (Event.payState_room hf 0 _ r4).2 (q4 ?_)
  have hmc : e3.mc = d.ev.mc := m3.trans (m2.trans m1)
  exact hm'.imp (fun h => by rw [l3]; exact q2 (.inl (q1 (.inl h))))
    fun h => ⟨h, (State.queueTakes_of_mc hmc f.body).trans ht'⟩

end

end Sys2Proof.Machine
end

