-- ==== Sys2Proof/Proofs/Return.lean ====
section
/-! SUPPORT. A frame that is taken before the return from ISOLATED (R147, log 11), and its reply. -/

namespace Sys2Proof.Machine

/-- What follows a frame's effect that is taken before the return: what follows from it, the stagger where
it expires between the two, and the return. -/
def Event.thenReturns (stagger : Bool) (e : Event) : Event :=
  (if stagger then e.settled.staggerEnds.settled else e.settled).rejoin

theorem rejoinWith_frameFirst {arrival : ArrivalOrder} (h : arrival ≠ .returnFirst) :
    ∃ b, ∀ (dispatch : Event → Event) (e : Event),
      e.rejoinWith (.inTurn arrival) dispatch = (dispatch e).thenReturns b := by
  cases arrival with
  | returnFirst => exact absurd rfl h
  | frameFirst => exact ⟨false, fun _ _ => rfl⟩
  | frameThenStagger => exact ⟨true, fun _ _ => rfl⟩

/-! ## The line side (R118, R168) -/

/-- The frames queued and answered are as they were. -/
def Event.sameLine (e e' : Event) : Prop := e'.li = e.li ∧ e'.out.replies = e.out.replies

theorem Event.sameLine.trans {a b c : Event} (h : a.sameLine b) (k : b.sameLine c) : a.sameLine c :=
  ⟨k.1.trans h.1, k.2.trans h.2⟩

theorem NodeKept.sameLine {e e' : Event} (h : NodeKept e e') : e.sameLine e' := ⟨h.li, h.replies⟩

theorem Event.leavePending_line (ch : Ch) (e : Event) : e.sameLine (e.leavePending ch) ∧
    (e.leavePending ch).out.nodeNotices = e.out.nodeNotices := by
  unfold Event.leavePending
  simp only
  split <;> exact ⟨⟨rfl, rfl⟩, rfl⟩

theorem Event.staggerEnds_line (e : Event) : e.sameLine e.staggerEnds ∧
    e.staggerEnds.out.nodeNotices = e.out.nodeNotices := by
  unfold Event.staggerEnds
  split
  · split
    · rename_i ch _
      obtain ⟨h1, h2⟩ := Event.leavePending_line ch e
      have hk := Event.setState_kept ch (.starting .unclaimed) (e.leavePending ch)
      exact ⟨h1.trans hk.sameLine, hk.nodeNotices.trans h2⟩
    · exact ⟨⟨rfl, rfl⟩, rfl⟩
  · exact ⟨⟨rfl, rfl⟩, rfl⟩

theorem Event.rejoin_line (e : Event) : e.sameLine e.rejoin ∧
    e.rejoin.out.nodeNotices = e.out.nodeNotices ++ [⟨0, .notice .rejoined⟩] ∧ e.rejoin.cu = e.cu := by
  obtain ⟨-, -, -, -, -, hcu, -, hli, hno⟩ := Event.setMode_rest .operating e
  have hre : (e.setMode .operating).out.replies = e.out.replies := by
    unfold Event.setMode; split <;> rfl
  generalize he : ({ (e.setMode .operating).noticeNode .rejoined with
    mc.isolationTimer := some (State.plantTime
      ((e.setMode .operating).noticeNode .rejoined).toState Image.isolationLimit)
    mc.staggerTimer := none } : Event) = e1
  have hr : e.rejoin = (e1.forChannels Event.tryWait).oweEval := by rw [← he]; rfl
  have h1 : e.sameLine e1 ∧ e1.out.nodeNotices = e.out.nodeNotices ++ [⟨0, .notice .rejoined⟩] ∧
      e1.cu = e.cu := by
    rw [← he]
    refine ⟨⟨hli, hre⟩, ?_, hcu⟩
    show (e.setMode .operating).out.nodeNotices ++ _ = _
    rw [hno]
  have hk : NodeKept e1 (e1.forChannels Event.tryWait) := Event.forChannels_kept Event.tryWait_kept e1
  rw [hr]
  generalize e1.forChannels Event.tryWait = e2 at hk
  obtain ⟨h1, h2, h3⟩ := h1
  exact ⟨h1.trans hk.sameLine, hk.nodeNotices.trans h2, hk.cu.trans h3⟩

theorem Event.thenReturns_line (b : Bool) (e : Event) : e.sameLine (e.thenReturns b) ∧
    (e.thenReturns b).out.nodeNotices = e.out.nodeNotices ++ [⟨0, .notice .rejoined⟩] := by
  have hs : ∀ e : Event, e.sameLine e.settled ∧ e.settled.out.nodeNotices = e.out.nodeNotices := fun e =>
    ⟨(Event.settled_follows e).kept.sameLine, (Event.settled_follows e).kept.nodeNotices⟩
  have returns : ∀ e' : Event, e.sameLine e' ∧ e'.out.nodeNotices = e.out.nodeNotices →
      e.sameLine e'.rejoin ∧
        e'.rejoin.out.nodeNotices = e.out.nodeNotices ++ [⟨0, .notice .rejoined⟩] := fun e' h => by
    obtain ⟨h1, h2, -⟩ := Event.rejoin_line e'
    exact ⟨h.1.trans h1, by rw [h2, h.2]⟩
  unfold Event.thenReturns
  cases b with
  | false => exact returns _ (hs e)
  | true =>
    obtain ⟨h1, h1'⟩ := hs e
    obtain ⟨h2, h2'⟩ := Event.staggerEnds_line e.settled
    obtain ⟨h3, h3'⟩ := hs e.settled.staggerEnds
    exact returns _ ⟨(h1.trans h2).trans h3, h3'.trans (h2'.trans h1')⟩

theorem Event.lone.thenReturns {ch : Ch} {e : Event} (b : Bool) (h : e.lone ch) :
    (e.thenReturns b).lone ch := by
  unfold Event.thenReturns
  cases b with
  | false => exact h.settled.rejoin
  | true => exact h.settled.staggerEnds.settled.rejoin

/-! ## A load that starts (R29, R146) -/

/-- The channel is as it was but for its origins. -/
def Controller.alike (c d : Controller) : Prop := { d with origins := c.origins } = c

theorem Controller.alike.trans {a b c : Controller} (h : a.alike b) (k : b.alike c) : a.alike c := by
  unfold Controller.alike at h k ⊢
  rw [← k] at h
  exact h

theorem Controller.alike.state {a b : Controller} (h : a.alike b) : b.state = a.state := by
  unfold Controller.alike at h
  rw [← h]

theorem Event.settled_alike {ch : Ch} (e : Event) (h : (e.cc.get ch).state.stays = true) :
    (e.cc.get ch).alike (e.settled.cc.get ch) := ((Event.settled_follows e).channels ch).stays h

theorem Event.staggerEnds_starting {ch : Ch} {k : StartKind} (e : Event)
    (h : (e.cc.get ch).state = .starting k) : e.staggerEnds.cc.get ch = e.cc.get ch := by
  unfold Event.staggerEnds
  split
  · split
    · rename_i j hj
      have hne : ch ≠ j := fun hne => by
        have := State.staggerChoice_pending hj
        rw [← hne, h] at this; exact Bool.noConfusion this
      show (e.startUnclaimed j).cc.get ch = _
      rw [(Event.startUnclaimed_spec j e).1]
      exact PerChannel.get_set_other _ hne _
    · rfl
  · rfl

theorem Event.tryWaits_starting {ch : Ch} {k : StartKind} (e : Event)
    (h : (e.cc.get ch).state = .starting k) :
    (e.forChannels Event.tryWait).cc.get ch = e.cc.get ch := by
  unfold Event.forChannels
  refine foldl_induct (P := fun e' : Event => e'.cc.get ch = e.cc.get ch) (fun e' j h' => ?_) _ e rfl
  by_cases hj : ch = j
  · subst hj
    have hw : e'.mayWait ch = false := Bool.eq_false_iff.2 fun hw => by
      have := State.mayWait_awake hw
      rw [h', h] at this; exact ChState.noConfusion this
    show (e'.tryWait ch).cc.get ch = _
    rw [Event.tryWait_stays ch e' hw]; exact h'
  · exact (Event.tryWait_other j ch e' hj).1.trans h'

theorem Event.rejoin_starting {ch : Ch} {k : StartKind} (e : Event)
    (h : (e.cc.get ch).state = .starting k) : e.rejoin.cc.get ch = e.cc.get ch := by
  obtain ⟨hcc, -⟩ := Event.setMode_rest .operating e
  generalize he : ({ (e.setMode .operating).noticeNode .rejoined with
    mc.isolationTimer := some (State.plantTime
      ((e.setMode .operating).noticeNode .rejoined).toState Image.isolationLimit)
    mc.staggerTimer := none } : Event) = e1
  have hr : e.rejoin = (e1.forChannels Event.tryWait).oweEval := by rw [← he]; rfl
  have h1 : e1.cc = e.cc := by rw [← he]; exact hcc
  have h2 := Event.tryWaits_starting e1 (by rw [h1]; exact h)
  rw [hr]
  generalize e1.forChannels Event.tryWait = e2 at h2 ⊢
  exact h2.trans (by rw [h1])

theorem Event.thenReturns_starting {ch : Ch} {k : StartKind} (b : Bool) (e : Event)
    (h : (e.cc.get ch).state = .starting k) : (e.cc.get ch).alike ((e.thenReturns b).cc.get ch) := by
  have settled : ∀ e' : Event, (e.cc.get ch).alike (e'.cc.get ch) →
      (e.cc.get ch).alike (e'.settled.cc.get ch) := fun e' h' =>
    h'.trans (Event.settled_alike e' (by rw [h'.state, h]; rfl))
  have h1 := settled e (rfl : { e.cc.get ch with origins := (e.cc.get ch).origins } = e.cc.get ch)
  unfold Event.thenReturns
  cases b with
  | false =>
    rw [if_neg Bool.noConfusion, Event.rejoin_starting (k := k) _ (h1.state.trans h)]; exact h1
  | true =>
    have h2 : (e.cc.get ch).alike (e.settled.staggerEnds.cc.get ch) := by
      rw [Event.staggerEnds_starting e.settled (h1.state.trans h)]; exact h1
    have h3 := settled _ h2
    rw [if_pos rfl, Event.rejoin_starting (k := k) _ (h3.state.trans h)]; exact h3

/-! ## The reply (R118, R147) -/

/-- The reply of a frame taken before the return stands in the queue, where the queue had room for it, for
REJOINED and for a STATE, and one load alone could move (R156). -/
theorem Event.thenReturns_answered (order : List Block) (b : Bool) (ch : Ch) (f : Frame) (e : Event)
    (hf : f.isState = false) (hl : e.lone ch) (hq : e.li.queue.length ≤ 13) (hn : e.out.nodeNotices = [])
    (hr : e.out.replies = [f]) (ht : (e.thenReturns b).queueTakes f.body = true) :
    f ∈ ((e.thenReturns b).settled.flush order).li.queue := by
  obtain ⟨⟨hli, hre⟩, hno⟩ := Event.thenReturns_line b e
  have hl := (hl.thenReturns b).settled
  have hk := (Event.settled_follows (e.thenReturns b)).kept
  have ht' := (Event.settled_queueTakes (e.thenReturns b) f.body).trans ht
  have h1 : (e.thenReturns b).settled.out.replies = [f] := hk.replies.trans (hre.trans hr)
  have h2 : (e.thenReturns b).settled.out.nodeNotices = [⟨0, .notice .rejoined⟩] := by
    rw [hk.nodeNotices, hno, hn]; rfl
  have h3 : (e.thenReturns b).settled.li.queue.length ≤ 13 := by rw [hk.li, hli]; exact hq
  generalize (e.thenReturns b).settled = e1 at hl ht' h1 h2 h3 ⊢
  have hnotices : e1.out.allNotices.length = 1 := by
    unfold Outbox.allNotices
    rw [h2, hl.out.notices, hl.out.holds]; rfl
  have hcalls : e1.out.allCalls.length = 0 := by
    unfold Outbox.allCalls
    rw [hl.out.calls]; rfl
  refine Event.flush_room hf order e1 ⟨?_, hl.out.budget, fun k h => ?_⟩ ht' (by
    rw [h1]; exact List.mem_singleton.2 rfl)
  · rw [hnotices, hcalls, h1, List.length_singleton]
    split <;> omega
  · have := hl.not_pending k
    rw [h] at this; exact Bool.noConfusion this

end Sys2Proof.Machine
end

