-- ==== Sys2Proof/Proofs/ShedModes.lean ====
section
/-! SUPPORT. SHED in ISOLATED and LISTENING, and the whole of it (R117, R131, R132, R147). -/

namespace Sys2Proof.Machine

/-- The node as a heard frame finds it in ISOLATED, before the return. -/
def State.aloneAt (m : Moment) (s : State) : Event := { s.begin m with li.inProgress := none }

theorem hear_isolated (order : RejoinOrder) (env : Envelope) (kind : Byte) (payload : List Byte)
    (dispatch : Event → Event) (m : Moment) (s : State) (hm : s.mc.mode = .isolated)
    (h : s.hears env kind payload) :
    (s.begin m).hear order env kind payload dispatch = (s.aloneAt m).rejoinWith order dispatch := by
  rw [Event.hear_of_hears order env kind payload dispatch (s.begin m) (State.hears_elapse m.elapsed h)]
  unfold Event.heard
  rw [show (({ s.begin m with li.inProgress := none } : Event)).mc.mode = .isolated from hm]
  rfl

/-! ## A held load (R117, R131) -/

/-- What a SHED of a held load reads is the same before the return and after it. -/
theorem Event.returned_reads (e : Event) :
    ((e.rejoin.settled).drainBudget budgetRounds).mc.mode = .operating ∧
    ((e.rejoin.settled).drainBudget budgetRounds).mc.image = e.mc.image ∧
    ((e.rejoin.settled).drainBudget budgetRounds).mc.station = e.mc.station ∧
    ((e.rejoin.settled).drainBudget budgetRounds).cu = e.cu := by
  obtain ⟨-, him, hst, hm⟩ := Event.rejoin_adopts e
  obtain ⟨-, -, hcu⟩ := Event.rejoin_line e
  have hk := (Event.settled_follows e.rejoin).kept
  have hf := Event.drainBudget_flushes budgetRounds e.rejoin.settled
  rw [hf.mc, hf.cu]
  exact ⟨hk.mode.trans hm, hk.image.trans him, hk.station.trans hst, hk.cu.trans hcu⟩

/-- In whatever order the return and the frame are taken, an answer that both give is given. -/
theorem rejoinWith_replies {f : Frame} (arrival : ArrivalOrder) (dispatch : Event → Event) (e : Event)
    (before : f ∈ (dispatch e).out.replies)
    (after : f ∈ (dispatch ((e.rejoin.settled).drainBudget budgetRounds)).out.replies) :
    f ∈ (e.rejoinWith (.inTurn arrival) dispatch).out.replies := by
  by_cases h : arrival = .returnFirst
  · subst h; exact after
  · obtain ⟨b, hb⟩ := rejoinWith_frameFirst h
    rw [hb, (Event.thenReturns_line b (dispatch e)).1.2]
    exact before

theorem State.image_of_configured {s : State} {ch : Ch} (h : s.configured ch = true) :
    ∃ image, s.mc.image = some image := by
  cases hi : s.mc.image with
  | some image => exact ⟨image, rfl⟩
  | none =>
    unfold State.configured State.record at h
    rw [hi] at h
    exact Bool.noConfusion h

theorem State.configured_of_image {a b : State} (hi : b.mc.image = a.mc.image) (ch : Ch) :
    b.configured ch = a.configured ch := by
  unfold State.configured; rw [State.record_of_image hi]

theorem State.effectiveLevel_of_image {a b : State} (hi : b.mc.image = a.mc.image) (station level : Nat) :
    b.effectiveLevel station level = a.effectiveLevel station level := by
  unfold State.effectiveLevel; rw [hi]

/-- What a SHED of a channel that is carried out there presupposes (R115, R116). -/
structure State.shedReaches (m : Moment) (env : Envelope) (channel level : Byte) (ch : Ch) (s : State) :
    Prop where
  heard : s.hears env kindShed [channel, level]
  target : env.target.toNat = s.mc.station
  aimed : env.target ≠ 0
  form : level.toNat ≤ 3
  names : channel.toNat = ch.toNat
  configured : (s.elapse m.elapsed).configured ch = true
  gate : (s.elapse m.elapsed).effectiveLevel env.sender.toNat level.toNat ≤ 2

section
variable {m : Moment} {env : Envelope} {channel level : Byte} {ch : Ch} {s : State}

theorem State.shedReaches.station (h : s.shedReaches m env channel level ch) : s.mc.station ≠ 0 := fun hz =>
  h.aimed (BitVec.eq_of_toNat_eq (by rw [h.target, hz]; rfl))

/-- It is carried out wherever the node has kept its image and its station. -/
theorem State.shedReaches.command (h : s.shedReaches m env channel level ch) (e : Event)
    (hm : e.mc.mode = .operating ∨ e.mc.mode = .isolated)
    (hi : e.mc.image = (s.elapse m.elapsed).mc.image) (hs : e.mc.station = s.mc.station) :
    e.command env kindShed channel 0 (Event.judgeShed env channel level) =
      Judged.answer env kindShed channel 0 (e.carryOutShed ch) :=
  Event.command_shed env channel level ch e hm (h.target.trans hs.symm) h.aimed h.form h.names
    ((State.configured_of_image hi ch).trans h.configured)
    (by rw [State.effectiveLevel_of_image (a := s.elapse m.elapsed) hi]; exact h.gate)

/-- In ISOLATED the node returns about the frame. -/
theorem State.shedReaches.returns (h : s.shedReaches m env channel level ch) (hm : s.mc.mode = .isolated) :
    effectOf (.shed m env channel level) (s.begin m) =
      (s.aloneAt m).rejoinWith (.inTurn m.arrival)
        (Event.command env kindShed channel 0 (Event.judgeShed env channel level)) :=
  hear_isolated _ env kindShed [channel, level] _ m s hm h.heard

theorem State.shedReaches.returned (h : s.shedReaches m env channel level ch) (hm : s.mc.mode = .isolated) :
    ∃ image, (effectOf (.shed m env channel level) (s.begin m)).returned image s.mc.station := by
  obtain ⟨image, hi⟩ := State.image_of_configured h.configured
  rw [h.returns hm]
  exact ⟨image, Event.rejoinWith_returned (x := True) (u := True) _ _ (s.aloneAt m) hi fun f _ =>
    Event.command_calm env _ _ _ _ f (Event.judgeShed_calm env channel level f)⟩

/-- An answer that stands among the replies of the effect is given. -/
theorem State.shedReaches.replied (h : s.shedReaches m env channel level ch) (hm : s.mc.mode = .isolated)
    {code : ReplyCode} (hr : (⟨env.sender, .reply kindShed channel 0 code⟩ : Frame) ∈
      (effectOf (.shed m env channel level) (s.begin m)).out.replies) :
    ((effectOf (.shed m env channel level) (s.begin m)).settled.flush m.order).replied env kindShed
      channel 0 code := by
  obtain ⟨image, hback⟩ := h.returned hm
  refine Event.follows_replied m.order env kindShed channel 0 code _ ?_ hr
  refine State.queueTakes_reply ?_ ?_ kindShed channel 0 code
  · rw [hback.station]; exact h.station
  · rw [hback.mode]; exact ⟨Mode.noConfusion, Mode.noConfusion⟩

theorem answer_replies (env : Envelope) (channel : Byte) (j : Judged) :
    (⟨env.sender, .reply kindShed channel 0 j.1⟩ : Frame) ∈
      (Judged.answer env kindShed channel 0 j).out.replies :=
  List.mem_append_right _ (List.mem_singleton.2 rfl)

/-- A SHED of a held load is refused, in OPERATING and in ISOLATED, whenever the return is taken. -/
theorem State.shedReaches.held (h : s.shedReaches m env channel level ch)
    (hheld : (s.elapse m.elapsed).held ch = true) (hm : s.mc.mode = .operating ∨ s.mc.mode = .isolated) :
    ∃ t, exec (.shed m env channel level) s = .next t ∧
      t.replied env kindShed channel 0 .refusedHeld ∧
      (s.mc.mode = .operating → s.settled → (s.elapse m.elapsed).onlyAnswered t) := by
  rcases hm with hm | hm
  · have heq := Event.carryOutShed_held (e := s.heardAt m) hheld
    refine ⟨_, shed_onLine m env channel level ch s hm h.heard h.target h.aimed h.form h.names h.configured
      h.gate, ?_, fun _ hs => ?_⟩
    · have hrep := shedEnd_replied (order := m.order) (channel := channel) (ch := ch) (e := s.heardAt m)
        h.aimed h.target (by
          rw [show (s.heardAt m).mc.mode = .operating from hm]; exact ⟨Mode.noConfusion, Mode.noConfusion⟩)
      rw [heq] at hrep
      exact hrep
    · obtain ⟨q, hq⟩ := shedEnd_still (order := m.order) (env := env) (channel := channel) heq rfl
        (State.settled_elapse m.elapsed s hs)
      rw [hq]; rfl
  · have refused : ∀ e : Event, e.mc.mode = .operating ∨ e.mc.mode = .isolated →
        e.mc.image = (s.elapse m.elapsed).mc.image → e.mc.station = s.mc.station →
        e.cu = (s.elapse m.elapsed).cu →
        (⟨env.sender, .reply kindShed channel 0 .refusedHeld⟩ : Frame) ∈
          (e.command env kindShed channel 0 (Event.judgeShed env channel level)).out.replies :=
      fun e hm hi hs hcu => by
        rw [h.command e hm hi hs, Event.carryOutShed_held
          ((State.held_of_same (a := s.elapse m.elapsed) hcu hi ch).trans hheld)]
        exact answer_replies env channel (.refusedHeld, e)
    refine ⟨_, exec_eq _ s, h.replied hm ?_, fun ho => ?_⟩
    · obtain ⟨rm, ri, rs, rcu⟩ := Event.returned_reads (s.aloneAt m)
      rw [h.returns hm]
      exact rejoinWith_replies m.arrival _ _ (refused _ (.inr hm) rfl rfl rfl) (refused _ (.inl rm) ri rs rcu)
    · rw [hm] at ho; exact Mode.noConfusion ho

/-- A SHED in LISTENING is refused (R117). -/
theorem State.shedReaches.listening (h : s.shedReaches m env channel level ch)
    (hm : s.mc.mode = .listening) :
    ∃ t, exec (.shed m env channel level) s = .next t ∧
      t.replied env kindShed channel 0 .refusedMode ∧
      (s.settled → (s.elapse m.elapsed).onlyAnswered t) := by
  have hmode : (s.heardAt m).mc.mode = .listening := hm
  have heq : effectOf (.shed m env channel level) (s.begin m) =
      Judged.answer env kindShed channel 0 (.refusedMode, s.heardAt m) := by
    show (s.begin m).hear (.inTurn m.arrival) env kindShed [channel, level]
      (Event.command env kindShed channel 0 (Event.judgeShed env channel level)) = _
    rw [hear_onLine _ env kindShed _ _ m s (.inl hm) h.heard,
      Event.command_eq env kindShed channel 0 _ (s.heardAt m) h.target h.aimed (.inl (.inl hmode))]
    exact congrArg _ (if_pos hmode)
  refine ⟨_, exec_eq _ s, ?_, fun hs => ?_⟩
  · show ((effectOf (.shed m env channel level) (s.begin m)).settled.flush m.order).replied _ _ _ _ _
    rw [heq]
    exact answer_replied m.order env kindShed channel 0 (.refusedMode, s.heardAt m) h.aimed h.target
      (by rw [hmode]; exact ⟨Mode.noConfusion, Mode.noConfusion⟩)
  · obtain ⟨q, hq⟩ := Event.follows_still m.order
      (Judged.answer env kindShed channel 0 (.refusedMode, s.heardAt m))
      (State.settled_elapse m.elapsed s hs) rfl rfl rfl rfl
    show (s.elapse m.elapsed).onlyAnswered
      ((effectOf (.shed m env channel level) (s.begin m)).settled.flush m.order).toState
    rw [heq, hq]; rfl

end

end Sys2Proof.Machine
end

