-- ==== Sys2Proof/Proofs/ShedReturn.lean ====
section
/-! SUPPORT. A SHED in ISOLATED that is taken before the return, and the whole of SHED (R117, R131, R132, R147). -/

namespace Sys2Proof.Machine

section
variable {m : Moment} {env : Envelope} {channel level : Byte} {ch : Ch} {s : State}

/-- What a SHED taken before the return leaves, before what follows. -/
theorem State.shedReaches.frameFirst (h : s.shedReaches m env channel level ch) (hm : s.mc.mode = .isolated)
    (hr : m.arrival ≠ .returnFirst) : ∃ b, ∀ j : Judged, (s.aloneAt m).carryOutShed ch = j →
      effectOf (.shed m env channel level) (s.begin m) =
        (Judged.answer env kindShed channel 0 j).thenReturns b := by
  obtain ⟨b, hb⟩ := rejoinWith_frameFirst hr
  refine ⟨b, fun j hj => ?_⟩
  rw [h.returns hm, hb, h.command (s.aloneAt m) (.inr hm) rfl rfl, hj]

/-- The other loads move by no verdict and no call, none needs this one, and the queue has room for what the
return and the SHED queue. -/
def State.aloneFor (m : Moment) (ch : Ch) (s : State) : Prop :=
  s.settled ∧ s.li.queue.length ≤ 13 ∧ (s.elapse m.elapsed).notNeeded ch ∧
    ∀ k, k ≠ ch → ((s.elapse m.elapsed).cc.get k).state.stays = true ∧
      ((s.elapse m.elapsed).cc.get k).state ≠ .awake

theorem State.aloneFor.lone (h : s.aloneFor m ch)
    (here : ((s.elapse m.elapsed).cc.get ch).state.isPending = false)
    (wakes : ((s.elapse m.elapsed).cc.get ch).state.tracked = true →
      ((s.elapse m.elapsed).cc.get ch).origins = {}) : (s.aloneAt m).lone ch := by
  obtain ⟨hset, -, hneeds, hothers⟩ := h
  refine ⟨hneeds, here, wakes, hothers, fun k r hr => ?_, ⟨rfl, rfl, rfl, rfl, rfl, rfl⟩⟩
  obtain ⟨-, -, hmarks⟩ := State.settled_elapse m.elapsed s hset k
  have : (s.elapse m.elapsed).du.marks.get k = (s.elapse m.elapsed).lostProviders k := hmarks
  show r ∈ (s.elapse m.elapsed).du.marks.get k
  rw [this]; exact hr

/-- The answer to a lone load's SHED stands in the queue. -/
theorem State.shedReaches.answered (h : s.shedReaches m env channel level ch) (hm : s.mc.mode = .isolated)
    (ha : s.aloneFor m ch) {b : Bool} {j : Judged} (hl : j.2.lone ch) (hli : j.2.li.queue = s.li.queue)
    (ho : j.2.out = {})
    (heq : effectOf (.shed m env channel level) (s.begin m) =
      (Judged.answer env kindShed channel 0 j).thenReturns b) :
    (⟨env.sender, .reply kindShed channel 0 j.1⟩ : Frame) ∈
      ((effectOf (.shed m env channel level) (s.begin m)).settled.flush m.order).li.queue := by
  obtain ⟨image, hback⟩ := h.returned hm
  obtain ⟨-, hq, -⟩ := ha
  have hout := hl.out
  rw [heq] at hback ⊢
  refine Event.thenReturns_answered m.order b ch _ _ rfl ?_ ?_ ?_ ?_ ?_
  · exact ⟨hl.needs, hl.here, hl.wakes, hl.others, hl.marks,
      ⟨hout.notices, hout.calls, hout.call, hout.standing, hout.holds, hout.budget⟩⟩
  · show j.2.li.queue.length ≤ 13
    rw [hli]; exact hq
  · exact congrArg Outbox.nodeNotices ho
  · exact congrArg (· ++ _) (congrArg Outbox.replies ho)
  · refine State.queueTakes_reply ?_ ?_ kindShed channel 0 j.1
    · rw [hback.station]; exact h.station
    · rw [hback.mode]; exact ⟨Mode.noConfusion, Mode.noConfusion⟩

/-- A SHED of a load that is not held, in ISOLATED, taken before the return. -/
theorem State.shedReaches.isolated (h : s.shedReaches m env channel level ch)
    (hheld : (s.elapse m.elapsed).held ch = false) (hm : s.mc.mode = .isolated)
    (hr : m.arrival ≠ .returnFirst) :
    ∃ t, exec (.shed m env channel level) s = .next t ∧ t.mc.mode = .operating ∧
      (∀ kind, ((s.elapse m.elapsed).cc.get ch).state = .starting kind →
        ((s.elapse m.elapsed).cc.get ch).alike (t.cc.get ch) ∧
        (s.aloneFor m ch →
          (⟨env.sender, .reply kindShed channel 0 .refusedMode⟩ : Frame) ∈ t.li.queue) ∧
        t.replied env kindShed channel 0 .refusedMode) ∧
      (((s.elapse m.elapsed).cc.get ch).state = .awake →
        t.replied env kindShed channel 0 .deferred ∧
        (((s.elapse m.elapsed).cc.get ch).origins = {} → s.aloneFor m ch →
          (⟨env.sender, .reply kindShed channel 0 .deferred⟩ : Frame) ∈ t.li.queue)) := by
  obtain ⟨b, hb⟩ := h.frameFirst hm hr
  obtain ⟨image, hback⟩ := h.returned hm
  have took := Event.took m.order (effectOf (.shed m env channel level) (s.begin m))
  have elsewhere : (s.aloneAt m).mc.mode ≠ .operating := by
    rw [show (s.aloneAt m).mc.mode = .isolated from hm]; exact Mode.noConfusion
  have replied : ∀ j : Judged, (s.aloneAt m).carryOutShed ch = j →
      ((effectOf (.shed m env channel level) (s.begin m)).settled.flush m.order).replied env kindShed
        channel 0 j.1 := fun j hj => by
    refine h.replied hm ?_
    rw [hb j hj, (Event.thenReturns_line b _).1.2]
    exact answer_replies env channel j
  refine ⟨_, exec_eq _ s, ?_, fun kind hst => ?_, fun hst => ?_⟩
  · exact (hback.of_calm (Event.follows_calm (x := True) (u := True) m.order _)).mode
  · have hj := Event.carryOutShed_starting_elsewhere (e := s.aloneAt m) hheld elsewhere hst
    refine ⟨?_, fun ha => h.answered hm ha
      (ha.lone (by rw [hst]; rfl) fun ht => by rw [hst] at ht; exact Bool.noConfusion ht) rfl rfl (hb _ hj),
      replied _ hj⟩
    have h1 : ((s.elapse m.elapsed).cc.get ch).alike
        ((effectOf (.shed m env channel level) (s.begin m)).cc.get ch) := by
      rw [hb _ hj]
      exact Event.thenReturns_starting b
        (Judged.answer env kindShed channel 0 (.refusedMode, s.aloneAt m)) hst
    exact h1.trans (took.stays ch (by rw [h1.state, hst]; rfl))
  · have hj := Event.carryOutShed_deferred (e := s.aloneAt m) hheld hst (.inr elsewhere)
    refine ⟨replied _ hj, fun hw ha => ?_⟩
    have hl := ha.lone (by rw [hst]; rfl) fun _ => hw
    exact h.answered hm ha (j := (.deferred, (s.aloneAt m).counted ch))
      ⟨hl.needs, hl.here, hl.wakes, hl.others, hl.marks, hl.out⟩ rfl rfl (hb _ hj)

theorem State.provisionalClaiming_elapse (d : Micros) {s : State} (h : s.provisionalClaiming) :
    (s.elapse d).provisionalClaiming := by
  have of_mem : ∀ x ∈ (s.elapse d).bu.claims, ∃ y ∈ s.bu.claims, Claim.elapse d y = x := fun _ hx =>
    List.mem_map.1 hx
  obtain ⟨hstate, hkey⟩ := h
  refine ⟨fun x hx hp => ?_, fun x hx y hy hpx hpy hch => ?_⟩
  · obtain ⟨x', hx', rfl⟩ := of_mem x hx
    exact (State.state_elapse d s x'.ch).trans (hstate x' hx' hp)
  · obtain ⟨x', hx', rfl⟩ := of_mem x hx
    obtain ⟨y', hy', rfl⟩ := of_mem y hy
    exact hkey x' hx' y' hy' hpx hpy hch

/-- What a SHED does to a load on the way to AWAKE that is neither in use nor needed, in OPERATING. -/
theorem shed_unneeded (m : Moment) (env : Envelope) (channel : Byte) (ch : Ch) (s : State)
    (hop : s.mc.mode = .operating) (hheld : (s.elapse m.elapsed).held ch = false)
    (hv : (s.elapse m.elapsed).consumersVerdict ch = true) (hn : (s.elapse m.elapsed).notNeeded ch) :
    let a := s.elapse m.elapsed
    let c := a.cc.get ch
    let t := shedEnd m.order env channel ch (s.heardAt m)
    (c.state.isPending = true →
      (t.cc.get ch).state = .rest ∧ (t.cc.get ch).origins = {} ∧
      t.du.callWait.get ch = none ∧ t.bu.retryGap.get ch = none ∧
      (s.provisionalClaiming → ∀ x ∈ t.bu.claims, x.isProvisional = true → x.ch ≠ ch)) ∧
    (∀ cause, c.state = .tripped cause →
      (t.cc.get ch).state = .rest ∧ (t.cc.get ch).origins = {} ∧
      (t.cc.get ch).tripCount = c.tripCount ∧ (t.cc.get ch).retryTimer = none) ∧
    (∀ kind, c.state = .starting kind →
      (t.cc.get ch).origins = {} ∧ (t.cc.get ch).inrushTimer = none ∧
      t.coilDrive ch = false ∧
      c.outputChanged (a.record ch).feedbackWindow (t.cc.get ch) ∧
      (if (a.record ch).runDown = 0 then (t.cc.get ch).state = .rest
      else (t.cc.get ch).state = .coast ∧
        (t.cc.get ch).runDownTimer = some (a.record ch).runDown) ∧
      ∀ x, s.claimTableSound → kind = .claimed → a.liveOf ch = some x →
        { x with timer := c.inrushTimer } ∈ t.bu.claims) := by
  intro a c t
  refine ⟨fun hst => ?_, fun cause hst =>
    shedEnd_tripped (e := s.heardAt m) hheld hop rfl hst hv hn, fun kind hst => ?_⟩
  · obtain ⟨h1, h2, h3, h4, h5⟩ := shedEnd_pending (order := m.order) (env := env) (channel := channel)
      (e := s.heardAt m) hheld hop rfl hst hv hn
    refine ⟨h1, h2, h3, h4, fun hp => h5 (State.provisionalClaiming_elapse m.elapsed hp)⟩
  · obtain ⟨h1, h2, h3, h4, h5, h6⟩ := shedEnd_starting (order := m.order) (env := env) (channel := channel)
      (e := s.heardAt m) hheld hop rfl hst hv hn
    refine ⟨h1, h2, h3, h4, h5, fun x hcl hk hx => h6 x ?_ hk hx⟩
    have hnd : (s.bu.claims.map Claim.key).Nodup := hcl.2.1
    rw [← elapse_keys m.elapsed s] at hnd
    exact hnd

end

/-- Settles O34. -/
theorem shedRaisesTheCount : Obligations.ShedRaisesTheCount := by
  unfold Obligations.ShedRaisesTheCount
  intro m env channel level ch s a c hh ht h0 hl hc hcf hg onlyAnswered
  have h : s.shedReaches m env channel level ch := ⟨hh, ht, h0, hl, hc, hcf, hg⟩
  refine ⟨h.held, h.listening, fun hheld hop => ?_, h.isolated⟩
  obtain ⟨awake, stopped, coast, accepted, locked, idle, onTheWay⟩ :=
    shed_operating m env channel ch s hop ht h0 hheld
  exact ⟨_, shed_onLine m env channel level ch s hop hh ht h0 hl hc hcf hg, awake, stopped, coast, accepted,
    locked, idle, onTheWay, shed_unneeded m env channel ch s hop hheld⟩

end Sys2Proof.Machine
end

