-- ==== Sys2Proof/Proofs/Inputs.lean ====
section
/-! SUPPORT. A change of an activity sense, a hold key or a wake button: its debounce starts or stops (R34, R35,
R123, R130). -/

namespace Sys2Proof.Machine

/-- A STOPPED tracker takes no notice of its sense; another debounces toward a level that is new (R34, R35). -/
theorem Tracker.senseChange_eq (full : Micros) (now : Bool) (u : Tracker) : u.senseChange full now =
    if u.status = .stopped then u
    else { u with debounceTimer := if now = u.active then none else some full } := by
  unfold Tracker.senseChange
  cases u.status <;> rfl

theorem Event.activitySenseChange_eq (ch : Ch) (now : Bool) (e : Event)
    (h : e.pins.senseActive.get ch ≠ now) : e.activitySenseChange ch now =
      { e with
        pins.senseActive := e.pins.senseActive.set ch now
        it := e.it.set ch ((e.it.get ch).senseChange (e.record ch).debounce now) } := by
  unfold Event.activitySenseChange; exact if_neg h

theorem Event.holdKeyChange_eq (ch : Ch) (now : Bool) (e : Event) (h : e.pins.keyOn.get ch ≠ now)
    (hr : e.mc.inReset = false) : e.holdKeyChange ch now =
      { e with
        pins.keyOn := e.pins.keyOn.set ch now
        cu.keyTimer := e.cu.keyTimer.set ch
          (debounceAfter (e.cu.keyFlag.get ch) now Config.keyDebounce) } := by
  unfold Event.holdKeyChange
  rw [if_neg h]
  exact if_neg (by rw [hr]; exact Bool.noConfusion)

theorem Event.wakeButtonChange_eq (ch : Ch) (now : Bool) (e : Event)
    (h : e.pins.buttonPressed.get ch ≠ now) (hr : e.mc.inReset = false) : e.wakeButtonChange ch now =
      { e with
        pins.buttonPressed := e.pins.buttonPressed.set ch now
        cu.buttonTimer := e.cu.buttonTimer.set ch
          (debounceAfter (e.cu.button.get ch) now Config.keyDebounce) } := by
  unfold Event.wakeButtonChange
  rw [if_neg h]
  exact if_neg (by rw [hr]; exact Bool.noConfusion)

/-- Settles O17. -/
theorem inputChangesDebounce : Obligations.InputChangesDebounce := by
  unfold Obligations.InputChangesDebounce
  intro m ch now s a hs
  refine ⟨fun h => ?_, fun h hr => ?_, fun h hr => ?_⟩
  · refine take_settled m (Event.activitySenseChange ch now) s _ hs ?_ (fun _ => rfl) (fun _ => rfl)
      rfl rfl rfl rfl rfl fun _ => rfl
    rw [Event.activitySenseChange_eq ch now (s.begin m) h, Tracker.senseChange_eq]
    by_cases hst : (a.it.get ch).status = .stopped
    · rw [if_pos hst, if_pos (show ((s.begin m).it.get ch).status = .stopped from hst),
        PerChannel.set_get]
      rfl
    · rw [if_neg hst, if_neg (show ¬((s.begin m).it.get ch).status = .stopped from hst)]
      rfl
  · refine take_settled m (Event.holdKeyChange ch now) s _ hs ?_ (fun _ => rfl) (fun _ => rfl)
      rfl rfl rfl rfl rfl fun _ => rfl
    rw [Event.holdKeyChange_eq ch now (s.begin m) h hr]; rfl
  · refine take_settled m (Event.wakeButtonChange ch now) s _ hs ?_ (fun _ => rfl) (fun _ => rfl)
      rfl rfl rfl rfl rfl fun _ => rfl
    rw [Event.wakeButtonChange_eq ch now (s.begin m) h hr]; rfl

end Sys2Proof.Machine
end

