-- ==== Sys2Proof/Proofs/HoldExpiry.lean ====
section
/-! SUPPORT. Entries leave the Hold List, and any number of channels cease to be held at one event (R45, R124,
R126): each does what its own turn makes of it, and no turn changes what another reads. -/

namespace Sys2Proof.Machine

/-! ## What the verdict on rest reads -/

/-- An operation that leaves the node, the standing calls owed and every channel's count as a resting
consumer as they were (R56, R57). -/
structure Event.Unread (e e' : Event) : Prop where
  kept : NodeKept e e'
  mc : e'.mc = e.mc
  unnoticed : e.unnoticed e'
  rests : ∀ k, countsAtRest (e'.cc.get k).state.code (e'.cc.get k).feedbackClosed =
    countsAtRest (e.cc.get k).state.code (e.cc.get k).feedbackClosed

theorem Event.Unread.refl (e : Event) : e.Unread e :=
  ⟨NodeKept.refl e, rfl, Event.unnoticed_refl e, fun _ => rfl⟩

theorem Event.Unread.trans {a b c : Event} (h : a.Unread b) (k : b.Unread c) : a.Unread c :=
  ⟨h.kept.trans k.kept, k.mc.trans h.mc, h.unnoticed.trans k.unnoticed,
    fun ch => (k.rests ch).trans (h.rests ch)⟩

theorem Event.Unread.consumersVerdict {e e' : Event} (h : e.Unread e') (ch : Ch) :
    e'.consumersVerdict ch = e.consumersVerdict ch := by
  unfold State.consumersVerdict
  rw [h.kept.record, State.atRest_of_local (congrArg _ h.mc) h.kept.peers h.rests]

theorem Event.modIt_unread (ch : Ch) (f : Tracker → Tracker) (e : Event) : e.Unread (e.modIt ch f) :=
  ⟨Event.modIt_kept ch f e, rfl, Event.unnoticed_refl e, fun _ => rfl⟩

/-- An AWAKE load and a WAITING one alike are not at rest. -/
theorem Event.tryWait_unread (ch : Ch) (e : Event) : e.Unread (e.tryWait ch) := by
  by_cases h : e.mayWait ch = true
  · obtain ⟨hcc, -, hmc, -, -, b, hout⟩ := Event.tryWait_spec ch e h
    refine ⟨Event.tryWait_kept ch e, hmc, ⟨by rw [hout], by rw [hout]⟩, fun k => ?_⟩
    rw [hcc, PerChannel.get_set]
    split
    · rename_i hk; subst hk; rw [State.mayWait_awake h]; rfl
    · rfl
  · unfold Event.tryWait; rw [if_neg h]; exact Event.Unread.refl e

theorem Event.judgeWindow_unread (ch : Ch) (e : Event) : e.Unread (e.judgeWindow ch) := by
  refine ⟨Event.judgeWindow_kept ch e, rfl, Event.unnoticed_refl e, fun k => ?_⟩
  by_cases hk : k = ch
  · subst hk; rw [Event.judgeWindow_controller]
  · exact congrArg (fun c : Controller => countsAtRest c.state.code c.feedbackClosed)
      (PerChannel.get_set_other _ hk _)

theorem Event.windowExpired_unread (ch : Ch) (e : Event) : e.Unread (e.windowExpired ch) := by
  rw [Event.windowExpired_eq]
  split
  · exact (Event.judgeWindow_unread ch e).trans (Event.tryWait_unread ch _)
  · exact Event.judgeWindow_unread ch e

theorem Event.ceaseHeld_unread (ch : Ch) (e : Event) : e.Unread (e.ceaseHeld ch) := by
  have h1 := Event.modIt_unread ch Tracker.resume e
  unfold Event.ceaseHeld
  simp only
  refine Event.Unread.trans ?_ (Event.tryWait_unread ch _)
  split
  · exact h1.trans (Event.windowExpired_unread ch _)
  · exact h1

/-! ## The other channels -/

/-- The controller and the tracker of a channel are as they were. -/
def Event.sameAt (k : Ch) (e e' : Event) : Prop := e'.cc.get k = e.cc.get k ∧ e'.it.get k = e.it.get k

theorem Event.sameAt.trans {k : Ch} {a b c : Event} (h : a.sameAt k b) (g : b.sameAt k c) :
    a.sameAt k c := ⟨g.1.trans h.1, g.2.trans h.2⟩

section
variable {ch k : Ch} (e : Event) (h : k ≠ ch)

include h

theorem Event.modIt_sameAt (f : Tracker → Tracker) : e.sameAt k (e.modIt ch f) :=
  ⟨rfl, PerChannel.get_set_other _ h _⟩

theorem Event.tryWait_sameAt : e.sameAt k (e.tryWait ch) := by
  unfold Event.tryWait
  split
  · exact ⟨by rw [Event.setState_cc]; exact PerChannel.get_set_other _ h _,
      by rw [Event.setState_it]⟩
  · exact ⟨rfl, rfl⟩

theorem Event.windowExpired_sameAt : e.sameAt k (e.windowExpired ch) := by
  have hj : e.sameAt k (e.judgeWindow ch) :=
    ⟨PerChannel.get_set_other _ h _, PerChannel.get_set_other _ h _⟩
  rw [Event.windowExpired_eq]
  split
  · exact hj.trans (Event.tryWait_sameAt _ h)
  · exact hj

theorem Event.ceaseHeld_sameAt : e.sameAt k (e.ceaseHeld ch) := by
  have h1 := Event.modIt_sameAt e h Tracker.resume
  unfold Event.ceaseHeld
  simp only
  refine Event.sameAt.trans ?_ (Event.tryWait_sameAt _ h)
  split
  · exact h1.trans (Event.windowExpired_sameAt _ h)
  · exact h1

end

/-! ## The channel that ceases to be held -/

/-- A load that ceases to be held may rest: it is idle-confirmed, of a permitted rank, in OPERATING (R17). -/
def State.restsUnheld (a : State) (ch : Ch) : Prop :=
  (a.record ch).requiredCount ≤ (a.it.get ch).count ∧
    a.pu.phase.permits (a.record ch).rank = true ∧ a.mc.mode = .operating

/-- The controller and the tracker of a channel after its turn to cease to be held, from those in `a`
(R45, R126). -/
structure State.Ceased (a : State) (ch : Ch) (c : Controller) (t : Tracker) : Prop where
  runsOn : (a.cc.get ch).state = .awake → (a.it.get ch).status = .paused →
    (a.it.get ch).remaining ≠ some 0 → ¬a.restsUnheld ch →
      c = a.cc.get ch ∧ t = { a.it.get ch with
        status := .running
        windowTimer := (a.it.get ch).remaining
        remaining := none }
  waits : (a.cc.get ch).state = .awake → (a.it.get ch).status = .paused →
    (a.it.get ch).remaining ≠ some 0 → a.restsUnheld ch →
      c = { a.cc.get ch with state := .waiting }
  stays : (a.cc.get ch).state ≠ .awake → (a.it.get ch).status = .stopped →
    (a.it.get ch).windowTimer = none → c = a.cc.get ch

theorem Event.ceaseHeld_ceased (ch : Ch) (a : State) (e : Event) (hcc : e.cc.get ch = a.cc.get ch)
    (hit : e.it.get ch = a.it.get ch) (hmc : e.mc = a.mc) (hpu : e.pu = a.pu)
    (hh : e.held ch = false) :
    a.Ceased ch ((e.ceaseHeld ch).cc.get ch) ((e.ceaseHeld ch).it.get ch) := by
  have paused (hp : (a.it.get ch).status = .paused) : (e.it.get ch).resume = { a.it.get ch with
      status := .running
      windowTimer := (a.it.get ch).remaining
      remaining := none } := by rw [hit]; exact Tracker.resume_paused _ hp
  have resumed (hp : (a.it.get ch).status = .paused) (hr : (a.it.get ch).remaining ≠ some 0) :
      e.ceaseHeld ch = (e.modIt ch Tracker.resume).tryWait ch :=
    Event.ceaseHeld_eq ch e (by rw [paused hp]; exact Timer.due_eq_false hr)
  have mayWait (hst : (a.cc.get ch).state = .awake) (hp : (a.it.get ch).status = .paused) :
      (e.modIt ch Tracker.resume).mayWait ch = true ↔ a.restsUnheld ch := by
    have hrec : (e.modIt ch Tracker.resume).record ch = a.record ch :=
      State.record_of_image (b := (e.modIt ch Tracker.resume).toState) (congrArg _ hmc) ch
    rw [State.mayWait_iff, hrec, Event.modIt_it, PerChannel.get_set_same, paused hp]
    show (e.cc.get ch).state = .awake ∧ _ ∧ e.pu.phase.permits _ = true ∧ e.held ch = false ∧
      e.mc.mode = .operating ↔ _
    rw [hcc, hst, hpu, hh, hmc]
    simp [State.restsUnheld]
  refine ⟨fun hst hp hr hn => ?_, fun hst hp hr hw => ?_, fun hna hstop hwin => ?_⟩
  · have heq : e.ceaseHeld ch = e.modIt ch Tracker.resume :=
      (resumed hp hr).trans (if_neg fun h => hn ((mayWait hst hp).1 h))
    rw [heq, Event.modIt_cc, Event.modIt_it, PerChannel.get_set_same, paused hp]
    exact ⟨hcc, rfl⟩
  · obtain ⟨wcc, -⟩ := Event.tryWait_spec ch _ ((mayWait hst hp).2 hw)
    rw [resumed hp hr, wcc, PerChannel.get_set_same, Event.modIt_cc, hcc]
  · have hres : (e.it.get ch).resume = a.it.get ch := by
      rw [hit]; exact Tracker.resume_stopped _ hstop
    have heq : e.ceaseHeld ch = e.modIt ch Tracker.resume :=
      (Event.ceaseHeld_eq ch e (by rw [hres, hwin]; rfl)).trans
        (if_neg fun h => hna (hcc ▸ State.mayWait_awake (s := (e.modIt ch Tracker.resume).toState) h))
    rw [heq, Event.modIt_cc]; exact hcc

/-- How a channel ends that has had its turn, once what follows has been taken: `e` is the node after every
turn, and for what the verdicts read it is as `a`. -/
theorem State.Ceased.resumes {a : State} {ch : Ch} {e : Event} (order : List Block)
    (h : a.Ceased ch (e.cc.get ch) (e.it.get ch)) (hmc : e.mc = a.mc)
    (hv : e.consumersVerdict ch = a.consumersVerdict ch) (hh : e.held ch = false)
    (hd : e.out.standingDue = .all []) : a.resumes (e.settled.flush order).toState ch := by
  have took := Event.took order e
  refine ⟨fun hst hp hr => ⟨fun hn => ?_, fun hw => ?_⟩, fun hs hna hstop hwin => ?_⟩
  · obtain ⟨hc, ht⟩ := h.runsOn hst hp hr hn
    have hst' : (e.cc.get ch).state = .awake := by rw [hc]; exact hst
    exact ⟨(took.code_kept ch (by rw [hst']; rfl)).trans hst',
      (took.tracker ch (by rw [hst']; exact ChState.noConfusion)).trans ht⟩
  · have hst' : (e.cc.get ch).state = .waiting := by rw [h.waits hst hp hr hw]
    refine ⟨took.waiting_leaves ch hst', fun hcv => ?_⟩
    have hco : e.mayCoast ch = true := by
      unfold State.mayCoast
      rw [hst', hh, hmc, show a.mc.mode = .operating from hw.2.2, hv, hcv]; rfl
    obtain ⟨-, hoff, -⟩ := Event.follows_coasts order e (Event.duesNeeded_of_none hd) ch hco
    unfold State.coilDrive; rw [hoff]; exact Bool.and_false _
  · have hc := h.stays hna hstop hwin
    have := took.stays ch (by rw [hc]; exact hs)
    rw [hc] at this; exact this

/-! ## Entries leave the Hold List -/

/-- The entries that `p` does not keep leave the Hold List. -/
def Event.keepHolds (p : HoldEntry → Bool) (e : Event) : Event :=
  e.changeHolds { e.cu with holds := e.cu.holds.filter p }

theorem Event.keepHolds_cu (p : HoldEntry → Bool) (e : Event) :
    (e.keepHolds p).cu = { e.cu with holds := e.cu.holds.filter p } := Event.changeHolds_cu _ e

/-- The node without the entries, before its channels have taken notice. -/
def Event.withoutHolds (p : HoldEntry → Bool) (e : Event) : Event :=
  e.withHolds { e.cu with holds := e.cu.holds.filter p }

theorem Event.withoutHolds_rest (p : HoldEntry → Bool) (e : Event) :
    (e.withoutHolds p).toState = { e.toState with cu.holds := e.cu.holds.filter p } ∧
      ∃ b, (e.withoutHolds p).out = { e.out with stateDue := b } :=
  Event.withHolds_rest _ e

/-- No channel becomes held where entries leave the list. -/
theorem Event.held_of_withoutHolds {p : HoldEntry → Bool} {e : Event} {k : Ch}
    (h : (e.withoutHolds p).held k = true) : e.held k = true := by
  rw [State.held_iff, (Event.withoutHolds_rest p e).1] at h
  rw [State.held_iff]
  obtain ⟨hcf, hk⟩ := h
  refine ⟨hcf, hk.imp_right fun ⟨x, hx, ht⟩ => ⟨x, List.mem_of_mem_filter hx, ht⟩⟩

/-- The turn of a channel: it ceases to be held where the list no longer holds it. -/
def Event.unholdTurn (p : HoldEntry → Bool) (e : Event) (k : Ch) (acc : Event) : Event :=
  if e.held k = true ∧ (e.withoutHolds p).held k = false then acc.ceaseHeld k else acc

theorem Event.keepHolds_eq (p : HoldEntry → Bool) (e : Event) :
    e.keepHolds p = (e.withoutHolds p).forChannels (e.unholdTurn p) := by
  show (e.withoutHolds p).forChannels (fun k acc =>
    if !e.held k && (e.withoutHolds p).held k then acc.becomeHeld k
    else if e.held k && !(e.withoutHolds p).held k then acc.ceaseHeld k else acc) = _
  refine congrArg (fun f => (e.withoutHolds p).forChannels f) (funext fun k => funext fun acc => ?_)
  have h := Event.held_of_withoutHolds (p := p) (e := e) (k := k)
  unfold Event.unholdTurn
  cases hb : e.held k <;> cases hc : (e.withoutHolds p).held k
  case false.true => exact absurd (h hc) (by rw [hb]; exact Bool.noConfusion)
  all_goals rfl

theorem Event.unholdTurn_unread (p : HoldEntry → Bool) (e : Event) (k : Ch) (acc : Event) :
    acc.Unread (e.unholdTurn p k acc) := by
  unfold Event.unholdTurn
  split
  · exact Event.ceaseHeld_unread k acc
  · exact Event.Unread.refl acc

theorem Event.keepHolds_unread (p : HoldEntry → Bool) (e : Event) :
    (e.withoutHolds p).Unread (e.keepHolds p) := by
  rw [Event.keepHolds_eq]
  exact foldl_induct (P := fun acc => (e.withoutHolds p).Unread acc)
    (fun acc k h => h.trans (Event.unholdTurn_unread p e k acc)) Ch.all _ (Event.Unread.refl _)

/-- What the departure of the entries leaves of the node, but for its channels. -/
theorem Event.keepHolds_rest (p : HoldEntry → Bool) (e : Event) :
    (e.keepHolds p).mc = e.mc ∧ (e.keepHolds p).out.standingDue = e.out.standingDue ∧
      (e.keepHolds p).out.expiredHolds = e.out.expiredHolds ∧
      ∀ ch, (e.keepHolds p).consumersVerdict ch = e.consumersVerdict ch := by
  obtain ⟨hs, b, ho⟩ := Event.withoutHolds_rest p e
  have hu := Event.keepHolds_unread p e
  exact ⟨hu.mc.trans (by rw [hs]), hu.unnoticed.2.trans (by rw [ho]),
    hu.kept.expiredHolds.trans (by rw [ho]),
    fun ch => (hu.consumersVerdict ch).trans (by rw [hs]; rfl)⟩

/-- A channel that the list no longer holds has had its turn. -/
theorem Event.keepHolds_ceased (p : HoldEntry → Bool) (e : Event) (ch : Ch) (hk : e.held ch = true)
    (hn : (e.withoutHolds p).held ch = false) :
    e.toState.Ceased ch ((e.keepHolds p).cc.get ch) ((e.keepHolds p).it.get ch) := by
  obtain ⟨hs, -⟩ := Event.withoutHolds_rest p e
  rw [Event.keepHolds_eq]
  refine (Event.forChannels_at (I := fun acc => (e.withoutHolds p).Unread acc) ch
    (fun k acc h => h.trans (Event.unholdTurn_unread p e k acc)) (fun k acc _ hne => ?_)
    (e.cc.get ch) (e.it.get ch) (fun acc h hc ht => ?_) (e.withoutHolds p) (Event.Unread.refl _)
    (by rw [hs]) (by rw [hs])).2
  · unfold Event.unholdTurn
    split
    · exact Event.ceaseHeld_sameAt acc (Ne.symm hne)
    · exact ⟨rfl, rfl⟩
  · rw [show e.unholdTurn p ch acc = acc.ceaseHeld ch from if_pos ⟨hk, hn⟩]
    exact Event.ceaseHeld_ceased ch e.toState acc hc ht (h.mc.trans (by rw [hs]))
      (h.kept.pu.trans (by rw [hs])) ((h.kept.held ch).trans hn)

/-- A channel that ceases to be held by the departure of entries resumes, whatever the command has queued
beside (R45, R126). -/
theorem Event.keepHolds_resumes (order : List Block) (p : HoldEntry → Bool) (e e' : Event) (ch : Ch)
    (hs : e'.toState = (e.keepHolds p).toState) (hd : e'.out.standingDue = .all [])
    (hk : e.held ch = true) (hn : (e'.settled.flush order).held ch = false) :
    e.toState.resumes (e'.settled.flush order).toState ch := by
  obtain ⟨hmc, -, -, hv⟩ := Event.keepHolds_rest p e
  have hh : (e.keepHolds p).held ch = false := by
    rw [← hs, ← (Event.took order e').held ch]; exact hn
  have hc := Event.keepHolds_ceased p e ch hk
    (((Event.keepHolds_unread p e).kept.held ch).symm.trans hh)
  rw [← hs] at hc hmc hh
  exact hc.resumes order hmc (by rw [hs]; exact hv ch) hh hd

/-! ## Expired holds are noticed (R122, R168) -/

theorem mem_mergeNotices_of_hold {notices : PerChannel (List Frame)} {x : Target × Nat}
    (chs : List Ch) {holds : List (Target × Nat)} (h : x ∈ holds) :
    expiryNotice x ∈ mergeNotices notices chs holds := by
  induction chs generalizing holds with
  | nil => exact List.mem_map_of_mem h
  | cons ch rest ih =>
    unfold mergeNotices
    rw [← List.takeWhile_append_dropWhile (p := fun y => !holdAbove ch y) (l := holds)] at h
    rcases List.mem_append.1 h with h | h
    · exact List.mem_append_left _ (List.mem_append_left _ (List.mem_map_of_mem h))
    · exact List.mem_append_right _ (ih h)

theorem Event.follows_noticed_hold (order : List Block) (target : Target) (tag : Nat) (e : Event)
    (hs : e.speaks) (h : (target, tag) ∈ e.out.expiredHolds) :
    (e.settled.flush order).noticed (.holdExpired target tag) := by
  refine Event.flush_queued rfl order _
    ((Event.settled_queueTakes e _).trans (State.speaks_queueTakes hs _)) (.inr (.inl ?_))
  refine List.mem_append_right _ (mem_mergeNotices_of_hold Ch.all (x := (target, tag)) ?_)
  rw [(Event.settled_follows e).kept.expiredHolds]; exact h

theorem Event.noticeHolds_eq (gone : List HoldEntry) (e : Event) :
    gone.foldl (fun e h => e.noticeHold h.target h.tag) e =
      { e with out.expiredHolds := e.out.expiredHolds ++ gone.map fun h => (h.target, h.tag) } := by
  induction gone generalizing e with
  | nil => simp
  | cons h rest ih => rw [List.foldl_cons, ih]; simp [Event.noticeHold]

/-- The node with the expired entries noted, before they leave the list. -/
def Event.notingHolds (keys : List HoldKey) (e : Event) : Event :=
  { e with out.expiredHolds := e.out.expiredHolds ++
      (e.cu.holds.filter fun h => h.expiresAmong keys).map fun h => (h.target, h.tag) }

theorem Event.holdEntriesExpire_eq (keys : List HoldKey) (e : Event) : e.holdEntriesExpire keys =
    (e.notingHolds keys).keepHolds fun h => !h.expiresAmong keys := by
  unfold Event.holdEntriesExpire
  simp only
  rw [Event.noticeHolds_eq]; rfl

/-- Settles O20. -/
theorem holdEntryExpiryRemovesTheEntries : Obligations.HoldEntryExpiryRemovesTheEntries := by
  unfold Obligations.HoldEntryExpiryRemovesTheEntries
  intro m keys s a
  have heq := Event.holdEntriesExpire_eq keys (s.begin m)
  generalize he : (s.begin m).notingHolds keys = e at heq
  have hst : e.toState = a := by rw [← he]; rfl
  obtain ⟨hmc, hdue, hgone, -⟩ := Event.keepHolds_rest (fun h => !h.expiresAmong keys) e
  refine ⟨((e.keepHolds fun h => !h.expiresAmong keys).settled.flush m.order).toState, ?_, ?_,
    fun hs h hh hd hk => ?_, fun ch hk hn => ?_⟩
  · rw [exec_eq, ← heq]; rfl
  · rw [(Event.took m.order _).cu, Event.keepHolds_cu, hst]; rfl
  · refine Event.follows_noticed_hold m.order h.target h.tag _ ?_ ?_
    · unfold State.speaks; rw [hmc, hst]; exact hs
    · rw [hgone, ← he]
      refine List.mem_append_right _ (List.mem_map.2 ⟨h, List.mem_filter.2 ⟨hh, ?_⟩, rfl⟩)
      unfold HoldEntry.expiresAmong
      rw [hd, List.contains_iff_mem.2 hk]; rfl
  · rw [← hst] at hk ⊢
    exact Event.keepHolds_resumes m.order _ e _ ch rfl (hdue.trans (by rw [← he]; rfl)) hk hn

end Sys2Proof.Machine
end

