-- ==== Sys2Proof/Proofs/Unhold.lean ====
section
/-! SUPPORT. UNHOLD (R121): how it is answered and what it leaves of the Hold List. -/

namespace Sys2Proof.Machine

theorem HoldEntry.matchedBy_iff (target : Target) (tag : Nat) (x : HoldEntry) :
    x.matchedBy target tag = true ↔ x.target = target ∧ x.tag = tag := by
  unfold HoldEntry.matchedBy
  rw [Bool.and_eq_true, decide_eq_true_eq, beq_iff_eq]

/-! ## The three answers (R121) -/

section
variable {target : Target} {tag level : Nat} {e : Event}

theorem Event.carryOutUnhold_noSuch (h : ∀ x ∈ e.cu.holds, ¬(x.target = target ∧ x.tag = tag)) :
    e.carryOutUnhold target tag level = (.noSuch, e) := by
  unfold Event.carryOutUnhold
  exact if_pos (List.filter_eq_nil_iff.2 fun x hx hm => h x hx ((HoldEntry.matchedBy_iff _ _ x).1 hm))

theorem Event.filter_matchedBy_ne_nil (h : ∃ x ∈ e.cu.holds, x.target = target ∧ x.tag = tag) :
    e.cu.holds.filter (HoldEntry.matchedBy target tag) ≠ [] := by
  obtain ⟨x, hx, hm⟩ := h
  exact List.ne_nil_of_mem (List.mem_filter.2 ⟨hx, (HoldEntry.matchedBy_iff _ _ x).2 hm⟩)

theorem Event.carryOutUnhold_refused
    (h : ∃ x ∈ e.cu.holds, (x.target = target ∧ x.tag = tag) ∧ x.level < level) :
    e.carryOutUnhold target tag level = (.refusedLevel, e) := by
  obtain ⟨x, hx, hm, hl⟩ := h
  unfold Event.carryOutUnhold
  simp only
  rw [if_neg (Event.filter_matchedBy_ne_nil ⟨x, hx, hm⟩), if_pos]
  exact List.any_eq_true.2 ⟨x, List.mem_filter.2 ⟨hx, (HoldEntry.matchedBy_iff _ _ x).2 hm⟩,
    decide_eq_true hl⟩

theorem Event.carryOutUnhold_accepted (h : ∃ x ∈ e.cu.holds, x.target = target ∧ x.tag = tag)
    (hl : ∀ x ∈ e.cu.holds, x.target = target ∧ x.tag = tag → level ≤ x.level) :
    e.carryOutUnhold target tag level =
      (.accepted, e.keepHolds fun x => !x.matchedBy target tag) := by
  unfold Event.carryOutUnhold
  simp only
  rw [if_neg (Event.filter_matchedBy_ne_nil h), if_neg]
  · rfl
  · intro hany
    obtain ⟨x, hx, hlt⟩ := List.any_eq_true.1 hany
    obtain ⟨hx, hm⟩ := List.mem_filter.1 hx
    exact absurd (of_decide_eq_true hlt)
      (Nat.not_lt.2 (hl x hx ((HoldEntry.matchedBy_iff _ _ x).1 hm)))

/-- The three answers are all that there are. -/
theorem Event.carryOutUnhold_cases (target : Target) (tag level : Nat) (e : Event) :
    e.carryOutUnhold target tag level = (.noSuch, e) ∨
      e.carryOutUnhold target tag level = (.refusedLevel, e) ∨
      e.carryOutUnhold target tag level =
        (.accepted, e.keepHolds fun x => !x.matchedBy target tag) := by
  unfold Event.carryOutUnhold
  simp only
  split_ifs
  · exact .inl rfl
  · exact .inr (.inl rfl)
  · exact .inr (.inr rfl)

end

/-! ## The command (R116, R118) -/

/-- An UNHOLD that passes the checks of its form and names a target is carried out. -/
theorem Event.judgeUnhold_eq (env : Envelope) (target tag level : Byte) (t₀ : Target) (e : Event)
    (hl : level.toNat ≤ 3) (htag : tag ≠ 0) (ht : e.commandTarget? target = some t₀) :
    e.judgeUnhold env target tag level =
      e.carryOutUnhold t₀ tag.toNat (e.effectiveLevel env.sender.toNat level.toNat) := by
  unfold Event.judgeUnhold
  rw [if_neg (by rintro (h | h) <;> [omega; exact htag h]), ht]

/-- The node at the end of an UNHOLD that is carried out. -/
def unholdEnd (order : List Block) (env : Envelope) (target tag : Byte) (t₀ : Target) (level : Nat)
    (e : Event) : State :=
  ((Judged.answer env kindUnhold target tag (e.carryOutUnhold t₀ tag.toNat level)).settled.flush
    order).toState

section
variable (order : List Block) (env : Envelope) (target tag : Byte) (t₀ : Target) (level : Nat)
  (e : Event)

theorem unholdEnd_took : Took (e.carryOutUnhold t₀ tag.toNat level).2
    (unholdEnd order env target tag t₀ level e) := (Event.took order _).of_state rfl

theorem unholdEnd_replied (h0 : env.target ≠ 0) (ht : env.target.toNat = e.mc.station)
    (hm : e.mc.mode ≠ .loading ∧ e.mc.mode ≠ .silent) :
    (unholdEnd order env target tag t₀ level e).replied env kindUnhold target tag
      (e.carryOutUnhold t₀ tag.toNat level).1 := by
  have hmc : (e.carryOutUnhold t₀ tag.toNat level).2.mc = e.mc := by
    rcases Event.carryOutUnhold_cases t₀ tag.toNat level e with h | h | h <;> rw [h]
    exact (Event.keepHolds_rest _ e).1
  exact answer_replied order env kindUnhold target tag _ h0 (by rw [hmc]; exact ht)
    (by rw [hmc]; exact hm)

/-- A channel that ceases to be held by an UNHOLD resumes (R45, R126). -/
theorem unholdEnd_resumes (ch : Ch) (hd : e.out.standingDue = .all []) (hk : e.held ch = true)
    (hn : (unholdEnd order env target tag t₀ level e).held ch = false) :
    e.toState.resumes (unholdEnd order env target tag t₀ level e) ch := by
  have unchanged (h : (e.carryOutUnhold t₀ tag.toNat level).2 = e) : False := by
    have took := unholdEnd_took order env target tag t₀ level e
    rw [took.held ch, h, hk] at hn
    exact Bool.noConfusion hn
  rcases Event.carryOutUnhold_cases t₀ tag.toNat level e with h | h | h
  · exact (unchanged (by rw [h])).elim
  · exact (unchanged (by rw [h])).elim
  · unfold unholdEnd at hn ⊢
    rw [h] at hn ⊢
    exact Event.keepHolds_resumes order _ e _ ch rfl ((Event.keepHolds_rest _ e).2.1.trans hd) hk hn

end

/-- Settles O37. -/
theorem unholdRemovesMatchingEntries : Obligations.UnholdRemovesMatchingEntries := by
  unfold Obligations.UnholdRemovesMatchingEntries
  intro m env target tag level t₀ s a named ho hh ht h0 hl htag htarget
  set eff := a.effectiveLevel env.sender.toNat level.toNat
  have heq : effectOf (.unhold m env target tag level) (s.begin m) =
      Judged.answer env kindUnhold target tag ((s.heardAt m).carryOutUnhold t₀ tag.toNat eff) :=
    (hear_onLine _ env kindUnhold _ _ m s ho hh).trans
      ((Event.command_eq env kindUnhold target tag _ (s.heardAt m) ht h0 (.inl ho)).trans
        (congrArg _ (Event.judgeUnhold_eq env target tag level t₀ (s.heardAt m) hl htag htarget)))
  have hcu := (unholdEnd_took m.order env target tag t₀ eff (s.heardAt m)).cu
  have hrep := unholdEnd_replied m.order env target tag t₀ eff (s.heardAt m) h0 ht
    (by rcases ho with h | h <;> exact ⟨fun h' => Mode.noConfusion (h.symm.trans h'),
      fun h' => Mode.noConfusion (h.symm.trans h')⟩)
  refine ⟨unholdEnd m.order env target tag t₀ eff (s.heardAt m), ?_, fun hle => ?_, fun hlt => ?_,
    fun hno => ?_, fun ch hk hn => ?_⟩
  · rw [exec_eq]
    exact congrArg (fun e : Event => Host.Outcome.next (e.settled.flush m.order).toState) heq
  · by_cases hex : ∃ x ∈ a.cu.holds, named x
    · have h := Event.carryOutUnhold_accepted (e := s.heardAt m) hex hle
      rw [h] at hcu hrep
      exact ⟨hcu.trans (Event.keepHolds_cu _ _), fun _ => hrep⟩
    · have hno : ∀ x ∈ a.cu.holds, ¬named x := fun x hx hm => hex ⟨x, hx, hm⟩
      rw [Event.carryOutUnhold_noSuch (e := s.heardAt m) hno] at hcu
      refine ⟨hcu.trans ?_, fun h => absurd h hex⟩
      show a.cu = { a.cu with holds := a.cu.holds.filter fun x => !x.matchedBy t₀ tag.toNat }
      rw [List.filter_eq_self.2 fun x hx => ?_]
      rw [Bool.not_eq_true', Bool.eq_false_iff]
      exact fun hm => hno x hx ((HoldEntry.matchedBy_iff _ _ x).1 hm)
  · rw [Event.carryOutUnhold_refused (e := s.heardAt m) hlt] at hcu hrep
    exact ⟨hcu, hrep⟩
  · rw [Event.carryOutUnhold_noSuch (e := s.heardAt m) hno] at hcu hrep
    exact ⟨hcu, hrep⟩
  · exact unholdEnd_resumes m.order env target tag t₀ eff (s.heardAt m) ch rfl hk hn

end Sys2Proof.Machine
end

