-- ==== Sys2Proof/Proofs/Rounds.lean ====
section
/-! SUPPORT. What follows from an event comes to an end (R57 to R70, log 9): each round of `settle` leaves less
to follow, and 96 rounds are more than any event needs. -/

namespace Sys2Proof.Machine

/-! ## One operation for each channel -/

/-- What every turn keeps stands at the end. -/
theorem Event.forChannels_keeps {P : Event → Prop} {f : Ch → Event → Event}
    (h : ∀ b k, P b → P (f k b)) (e : Event) (he : P e) : P (e.forChannels f) :=
  foldl_induct h Ch.all e he

/-- What the turn of one channel brings about stands at the end, where every turn keeps it. -/
theorem Event.forChannels_reaches {J N : Event → Prop} {f : Ch → Event → Event}
    (keep : ∀ b k, J b → J (f k b)) (stay : ∀ b k, N b → N (f k b)) (ch : Ch)
    (turn : ∀ b, J b → N (f ch b)) (e : Event) (he : J e) : N (e.forChannels f) :=
  foldl_reaches keep stay ch turn Ch.all e (Ch.mem_all ch) he

/-! ## The moves left to the channels (log 9) -/

/-- The most moves that verdicts and calls can still make of a channel. -/
def ChState.movesLeft : ChState → Nat
  | .waiting => 4
  | .coast => 3
  | .rest => 2
  | .pending .calling => 1
  | _ => 0

theorem ChState.movesLeft_le (st : ChState) : st.movesLeft ≤ 4 := by
  unfold ChState.movesLeft
  split <;> omega

/-- A channel that verdicts and calls have moved has fewer moves left. -/
theorem ChState.movesLeft_of_follows {a b : ChState} (h : a.follows b = true) :
    b = a ∨ b.movesLeft < a.movesLeft := by
  by_cases hs : a.stays = true
  · exact .inl (ChState.follows_of_stays hs h)
  · cases a with
    | waiting =>
      cases b with
      | waiting => exact .inl rfl
      | coast | rest => exact .inr (by decide)
      | pending sub => exact .inr (by cases sub <;> decide)
      | _ => exact Bool.noConfusion h
    | coast | rest =>
      simp only [ChState.follows, Bool.or_eq_true, beq_iff_eq] at h
      rcases h with (rfl | rfl) | rfl
      · exact .inl rfl
      · exact .inr (by decide)
      · exact .inr (by decide)
    | pending sub =>
      cases sub with
      | calling =>
        simp only [ChState.follows, Bool.or_eq_true, beq_iff_eq] at h
        rcases h with rfl | rfl
        · exact .inl rfl
        · exact .inr (by decide)
      | budget | claiming => exact .inl (eq_of_beq h).symm
    | _ => exact absurd rfl hs

/-- The moves left to the six channels together. -/
def State.movesLeft (s : State) : Nat := (Ch.all.map fun ch => (s.cc.get ch).state.movesLeft).sum

theorem State.movesLeft_le (s : State) : s.movesLeft ≤ 24 := by
  have h := List.sum_le_card_nsmul (Ch.all.map fun ch => (s.cc.get ch).state.movesLeft) 4 fun n hn => by
    obtain ⟨ch, -, rfl⟩ := List.mem_map.1 hn
    exact ChState.movesLeft_le _
  exact h

/-- The channel has been moved on. -/
def Event.moved (e e' : Event) (ch : Ch) : Prop :=
  (e'.cc.get ch).state.movesLeft < (e.cc.get ch).state.movesLeft

section
variable {e e' e'' : Event}

theorem Follows.same_or_moved (h : Follows e e') (ch : Ch) :
    (e'.cc.get ch).state = (e.cc.get ch).state ∨ e.moved e' ch :=
  ChState.movesLeft_of_follows (h.channels ch).state

theorem Follows.movesLeft_channel (h : Follows e e') (ch : Ch) :
    (e'.cc.get ch).state.movesLeft ≤ (e.cc.get ch).state.movesLeft := by
  rcases h.same_or_moved ch with hs | hm
  · rw [hs]
  · exact Nat.le_of_lt hm

theorem Event.moved.of_follows {ch : Ch} (h : e.moved e' ch) (k : Follows e' e'') : e.moved e'' ch :=
  Nat.lt_of_le_of_lt (k.movesLeft_channel ch) h

theorem Event.moved.of_earlier {ch : Ch} (h : Follows e e') (k : e'.moved e'' ch) : e.moved e'' ch :=
  Nat.lt_of_lt_of_le k (h.movesLeft_channel ch)

theorem Follows.movesLeft_le (h : Follows e e') : e'.movesLeft ≤ e.movesLeft :=
  List.sum_le_sum fun ch _ => h.movesLeft_channel ch

theorem Follows.movesLeft_lt (h : Follows e e') {ch : Ch} (hm : e.moved e' ch) :
    e'.movesLeft < e.movesLeft :=
  List.sum_lt_sum _ _ (fun ch _ => h.movesLeft_channel ch) ⟨ch, Ch.mem_all ch, hm⟩

end

/-! ## What is left to follow -/

/-- A verdict waits to be acted on, or a watch mark differs from its lost condition. -/
def State.unsettled (s : State) : Bool := Ch.all.any s.reportDue || Ch.all.any s.watchStale

theorem State.mayCoast_iff (s : State) (ch : Ch) : s.mayCoast ch = true ↔ (s.cc.get ch).state = .waiting ∧
    s.held ch = false ∧ s.mc.mode = .operating ∧ s.consumersVerdict ch = true := by
  unfold State.mayCoast
  simp only [Bool.and_eq_true, Bool.not_eq_true', decide_eq_true_eq, and_assoc]

theorem State.reportDue_iff (s : State) (ch : Ch) : s.reportDue ch = true ↔
    (s.cc.get ch).state = .pending .calling ∧ s.providersVerdict ch = true ∨ s.mayCoast ch = true := by
  unfold State.reportDue
  rw [Bool.or_eq_true, Bool.and_eq_true, decide_eq_true_eq]

theorem State.unsettled_iff (s : State) : s.unsettled = true ↔ ¬s.settled := by
  unfold State.unsettled State.settled
  rw [Bool.or_eq_true, List.any_eq_true, List.any_eq_true]
  constructor
  · rintro (⟨ch, -, h⟩ | ⟨ch, -, h⟩) hs <;> obtain ⟨hp, hc, hm⟩ := hs ch
    · rcases (State.reportDue_iff s ch).1 h with h | h
      · exact hp h
      · rw [hc] at h; exact Bool.noConfusion h
    · exact (of_decide_eq_true h) hm
  · intro h
    by_contra hn
    obtain ⟨hr, hw⟩ := not_or.1 hn
    refine h fun ch => ?_
    have hdue : ¬s.reportDue ch = true := fun h => hr ⟨ch, Ch.mem_all ch, h⟩
    rw [State.reportDue_iff, not_or] at hdue
    refine ⟨hdue.1, Bool.eq_false_iff.2 hdue.2, ?_⟩
    by_contra hm
    exact hw ⟨ch, Ch.mem_all ch, decide_eq_true hm⟩

theorem State.settled_iff (s : State) : s.settled ↔ s.unsettled = false := by
  rw [← Bool.not_eq_true, State.unsettled_iff, not_not]

/-- The most rounds that what is left to follow takes: a move may leave a watch to bring up to date and a
call to make. -/
def Event.roundsLeft (e : Event) : Nat :=
  3 * e.movesLeft + if e.unsettled then 2 else if Ch.all.any e.owesCall then 1 else 0

theorem Event.roundsLeft_le (e : Event) : e.roundsLeft ≤ 3 * e.movesLeft + 2 := by
  unfold Event.roundsLeft
  split
  · omega
  · split <;> omega

/-- A round in which a channel moves leaves less to follow. -/
theorem Event.roundsLeft_of_moved {e e' : Event} (h : Follows e e') {ch : Ch} (hm : e.moved e' ch) :
    e'.roundsLeft < 3 * e.movesLeft := by
  have h1 := h.movesLeft_lt hm
  have h2 := Event.roundsLeft_le e'
  omega

/-! ## The reports (R57 to R59) -/

theorem State.reportDue_states {s : State} {ch : Ch} (h : s.reportDue ch = true) :
    (s.cc.get ch).state = .pending .calling ∨ (s.cc.get ch).state = .waiting := by
  rcases (State.reportDue_iff s ch).1 h with ⟨h, -⟩ | h
  · exact .inl h
  · exact .inr ((State.mayCoast_iff s ch).1 h).1

/-- A verdict that is reported moves its channel. -/
theorem Event.reportVerdict_moves (due : PerChannel Bool) (ch : Ch) (e : Event) (hd : due.get ch = true)
    (hs : (e.cc.get ch).state = .pending .calling ∨ (e.cc.get ch).state = .waiting) :
    e.moved (e.reportVerdict due ch) ch := by
  refine ((Event.reportVerdict_follows due ch e).same_or_moved ch).resolve_left fun hsame => ?_
  unfold Event.reportVerdict at hsame
  rw [if_pos hd] at hsame
  rcases hs with h | h <;> rw [h] at hsame
  · have hb : (((e.setState ch (.pending .budget)).setCallWait ch none).oweEval.cc.get ch).state =
        .pending .budget := by
      rw [Event.oweEval_cc, Event.setCallWait_cc, Event.setState_cc, PerChannel.get_set_same,
        Controller.enter_state]
    exact absurd (hb.symm.trans hsame) (by decide)
  · exact (Event.enterCoast_opens ch e (by rw [h]; rfl)).1 hsame

/-- Every channel that a verdict concerns is moved by the reports. -/
theorem Event.takeReports_moves (e : Event) (ch : Ch) (h : e.reportDue ch = true) :
    e.moved e.takeReports ch := by
  have hdue : (PerChannel.tabulate e.reportDue).get ch = true := by rw [PerChannel.get_tabulate]; exact h
  refine Event.forChannels_reaches
    (J := fun b => (b.cc.get ch).state = (e.cc.get ch).state ∨ e.moved b ch)
    (N := fun b => e.moved b ch) (fun b k hb => ?_)
    (fun b k hb => hb.of_follows (Event.reportVerdict_follows _ k b)) ch (fun b hb => ?_) e (.inl rfl)
  · have hf := Event.reportVerdict_follows (.tabulate e.reportDue) k b
    rcases hb with hb | hb
    · rcases hf.same_or_moved ch with hs | hm
      · exact .inl (hs.trans hb)
      · unfold Event.moved at hm ⊢; rw [hb] at hm; exact .inr hm
    · exact .inr (hb.of_follows hf)
  · rcases hb with hb | hb
    · have hm := Event.reportVerdict_moves (.tabulate e.reportDue) ch b hdue (by
        rw [hb]; exact State.reportDue_states h)
      unfold Event.moved at hm ⊢; rw [hb] at hm; exact hm
    · exact hb.of_follows (Event.reportVerdict_follows _ ch b)

/-- Where no verdict concerns a channel nothing is reported. -/
theorem Event.takeReports_of_none (e : Event) (h : ∀ ch, e.reportDue ch = false) : e.takeReports = e :=
  Event.forChannels_keeps (P := fun b => b = e) (fun b ch hb => by
    unfold Event.reportVerdict
    rw [PerChannel.get_tabulate, h ch, if_neg Bool.noConfusion]; exact hb) e rfl

/-! ## The watch (R69) -/

theorem Event.callFrame_toState (ch : Ch) (targets : List Ref) (e : Event) :
    (e.callFrame ch targets).toState = e.toState := by
  unfold Event.callFrame
  split <;> rfl

/-- A watch that is brought up to date changes its own marks and nothing else of the node. -/
theorem Event.watch_toState (ch : Ch) (e : Event) :
    (e.watch ch).toState = { e.toState with du.marks := e.du.marks.set ch (e.lostProviders ch) } := by
  have notices : ∀ (refs : List Ref) (b : Event),
      (refs.foldl (fun e r => e.noticeCh ch (.providerLost ch r)) b).toState = b.toState := fun refs b =>
    foldl_induct (P := fun b' : Event => b'.toState = b.toState)
      (f := fun (e : Event) r => e.noticeCh ch (.providerLost ch r)) (fun _ _ h => h) refs b rfl
  have framed : ∀ (p : Bool) (b : Event),
      (if p then b.standingFrame ch else b).toState = b.toState := fun p b => by
    cases p
    · rfl
    · exact Event.callFrame_toState ch _ b
  unfold Event.watch
  exact (framed _ _).trans (notices _ _)

/-- When every watch has been brought up to date the marks are the lost conditions. -/
theorem Event.watchAll_toState (e : Event) : (e.forChannels Event.watch).toState =
    { e.toState with du.marks := .tabulate e.lostProviders } := by
  have marked : ∀ {b : Event} {m : PerChannel (List Ref)}, b.toState = { e.toState with du.marks := m } →
      ∀ k, (b.watch k).toState = { e.toState with du.marks := m.set k (e.lostProviders k) } := by
    intro b m h k
    rw [Event.watch_toState, h]
    rfl
  have reach : ∀ ch, ∃ m, (e.forChannels Event.watch).toState = { e.toState with du.marks := m } ∧
      m.get ch = e.lostProviders ch := fun ch => by
    refine Event.forChannels_reaches (J := fun b => ∃ m, b.toState = { e.toState with du.marks := m })
      (N := fun b => ∃ m, b.toState = { e.toState with du.marks := m } ∧ m.get ch = e.lostProviders ch)
      (fun b k ⟨m, h⟩ => ⟨_, marked h k⟩) (fun b k ⟨m, h, hm⟩ => ⟨_, marked h k, ?_⟩) ch
      (fun b ⟨m, h⟩ => ⟨_, marked h ch, PerChannel.get_set_same _ _ _⟩) e ⟨_, rfl⟩
    rw [PerChannel.get_set]
    split
    · rename_i hk; rw [hk]
    · exact hm
  obtain ⟨m, h, -⟩ := reach .c0
  rw [h]
  refine congrArg (fun m => { e.toState with du.marks := m }) (PerChannel.ext_get fun ch => ?_)
  obtain ⟨m', h', hm'⟩ := reach ch
  have hmm : m = m' := congrArg (fun s : State => s.du.marks) (h.symm.trans h')
  rw [PerChannel.get_tabulate, hmm, hm']

/-- A round of reports and watches leaves less to follow. -/
theorem Event.roundsLeft_reports (e : Event) (h : e.unsettled = true) :
    (e.takeReports.forChannels Event.watch).roundsLeft < e.roundsLeft := by
  have hround : e.roundsLeft = 3 * e.movesLeft + 2 := by unfold Event.roundsLeft; rw [if_pos h]
  by_cases hdue : ∃ ch, e.reportDue ch = true
  · obtain ⟨ch, hch⟩ := hdue
    have hw := Event.forChannels_follows Event.watch_follows e.takeReports
    have := Event.roundsLeft_of_moved ((Event.takeReports_follows e).trans hw)
      ((Event.takeReports_moves e ch hch).of_follows hw)
    omega
  · have hnone : ∀ ch, e.reportDue ch = false := fun ch => Bool.eq_false_iff.2 fun hc => hdue ⟨ch, hc⟩
    rw [Event.takeReports_of_none e hnone]
    have hs := Event.watchAll_toState e
    -- the marks agree, and no verdict has come to hold
    have hsettled : (e.forChannels Event.watch).toState.settled := by
      rw [hs]
      intro ch
      have hn := hnone ch
      rw [← Bool.not_eq_true, State.reportDue_iff, not_or] at hn
      refine ⟨hn.1, Bool.eq_false_iff.2 hn.2, ?_⟩
      exact PerChannel.get_tabulate _ ch
    have hmoves : (e.forChannels Event.watch).movesLeft = e.movesLeft := by rw [hs]; rfl
    unfold Event.roundsLeft at hround ⊢
    rw [hround, hmoves, (State.settled_iff _).1 hsettled, if_neg Bool.noConfusion]
    split <;> omega

/-! ## The calls (R61, R62, R70) -/

/-- What the making of calls may do: the marks and the standing calls owed stay as they are, and a channel
that comes to owe a call has moved. -/
structure Event.Calls (e e' : Event) : Prop where
  follows : Follows e e'
  marks : e'.du.marks = e.du.marks
  standing : e'.out.standingDue = e.out.standingDue
  owed : ∀ ch, e'.out.callDue.get ch = true → e.out.callDue.get ch = true ∨ e.moved e' ch

theorem Event.Calls.refl (e : Event) : e.Calls e := ⟨Follows.refl e, rfl, rfl, fun _ h => .inl h⟩

theorem Event.Calls.trans {a b c : Event} (h : a.Calls b) (k : b.Calls c) : a.Calls c where
  follows := h.follows.trans k.follows
  marks := k.marks.trans h.marks
  standing := k.standing.trans h.standing
  owed ch hc := by
    rcases k.owed ch hc with hb | hm
    · exact (h.owed ch hb).imp_right fun hm => hm.of_follows k.follows
    · exact .inr (hm.of_earlier h.follows)

theorem Event.setState_callDue (ch : Ch) (st : ChState) (e : Event) :
    (e.setState ch st).out.callDue = e.out.callDue := by
  unfold Event.setState
  split <;> rfl

theorem Event.enterPending_marks (ch : Ch) (e : Event) : (e.enterPending ch).du.marks = e.du.marks := by
  unfold Event.enterPending
  simp only
  rw [(Event.wakeStagger_rest _).2.2.2.1]
  split
  · rw [Event.oweEval_du, Event.setState_du]; rfl
  · show (Event.setState ch _ _).du.marks = _
    rw [Event.setState_du]; rfl

theorem Event.enterPending_callDue (ch k : Ch) (e : Event) (hk : k ≠ ch) :
    (e.enterPending ch).out.callDue.get k = e.out.callDue.get k := by
  unfold Event.enterPending
  simp only
  rw [(Event.wakeStagger_rest _).2.2.2.2]
  split
  · show (Event.setState ch _ _).out.callDue.get k = _
    rw [Event.setState_callDue]; rfl
  · show PerChannel.get (PerChannel.set (Event.setState ch _ _).out.callDue ch true) k = _
    rw [PerChannel.get_set_other _ hk, Event.setState_callDue]; rfl

/-- A load that is woken may owe a call, and has moved. -/
theorem Event.addOrigin_calls (o : Origin) (ch : Ch) (e : Event) : e.Calls (e.addOrigin o ch) := by
  have hf := Event.addOrigin_follows o ch e
  have recorded : (e.recordOrigin o ch).du.marks = e.du.marks ∧
      ∀ k, (e.recordOrigin o ch).out.callDue.get k = true →
        e.out.callDue.get k = true ∨ e.moved (e.recordOrigin o ch) k := ⟨rfl, fun _ h => .inl h⟩
  have woken : (e.cc.get ch).state = .coast ∨ (e.cc.get ch).state = .rest →
      ((e.recordOrigin o ch).enterPending ch).du.marks = e.du.marks ∧
      ∀ k, ((e.recordOrigin o ch).enterPending ch).out.callDue.get k = true →
        e.out.callDue.get k = true ∨ e.moved ((e.recordOrigin o ch).enterPending ch) k := fun hst => by
    refine ⟨Event.enterPending_marks ch (e.recordOrigin o ch), fun k hk => ?_⟩
    by_cases hch : k = ch
    · subst hch
      obtain ⟨sub, hsub, hcc, -⟩ := Event.enterPending_spec k (e.recordOrigin o k)
      right
      unfold Event.moved
      rw [hcc, PerChannel.get_set_same, Controller.enter_state]
      rcases hst with h | h <;> rcases hsub with rfl | rfl <;> rw [h] <;> decide
    · rw [Event.enterPending_callDue ch k _ hch] at hk; exact .inl hk
  suffices h : (e.addOrigin o ch).du.marks = e.du.marks ∧
      ∀ k, (e.addOrigin o ch).out.callDue.get k = true →
        e.out.callDue.get k = true ∨ e.moved (e.addOrigin o ch) k from
    ⟨hf, h.1, (Event.addOrigin_unnoticed o ch e).2, h.2⟩
  unfold Event.addOrigin
  split
  case h_1 hst =>
    split
    · exact woken (.inl hst)
    · exact recorded
  case h_2 hst =>
    split
    · exact woken (.inr hst)
    · exact recorded
  all_goals exact ⟨rfl, fun _ h => .inl h⟩

theorem Event.localCalls_calls (refs : List Ref) (e : Event) : e.Calls (e.localCalls refs) :=
  foldl_induct (P := fun b : Event => e.Calls b) (fun b r h => h.trans (by
    unfold Event.localCall
    split
    · exact Event.addOrigin_calls .call _ b
    · exact Event.Calls.refl b)) refs e (Event.Calls.refl e)

theorem Event.callFrame_calls (ch : Ch) (targets : List Ref) (e : Event) :
    e.Calls (e.callFrame ch targets) := by
  refine ⟨Event.callFrame_follows ch targets e, ?_, ?_, ?_⟩ <;> unfold Event.callFrame <;> split <;>
    first | rfl | exact fun _ h => .inl h

theorem Event.makeCall_calls (ch : Ch) (e : Event) : e.Calls (e.makeCall ch) :=
  (Event.callFrame_calls ch _ e).trans (Event.localCalls_calls _ _)

/-- A channel whose calls have been made owes a call only where it has moved; the others owe what they owed,
or have moved. -/
theorem Event.payCalls_spec (ch : Ch) (e : Event) :
    (e.payCalls ch).du.marks = e.du.marks ∧
    (e.payCalls ch).out.standingDue = e.out.standingDue.set ch [] ∧
    ∀ k, (e.payCalls ch).out.callDue.get k = true →
      (k ≠ ch ∧ e.out.callDue.get k = true) ∨ e.moved (e.payCalls ch) k := by
  obtain ⟨hm, hs, hc⟩ : (e.payCall ch).du.marks = e.du.marks ∧
      (e.payCall ch).out.standingDue = e.out.standingDue ∧ ∀ k, (e.payCall ch).out.callDue.get k = true →
        (k ≠ ch ∧ e.out.callDue.get k = true) ∨ e.moved (e.payCall ch) k := by
    unfold Event.payCall
    by_cases hd : e.out.callDue.get ch = true
    · rw [if_pos hd]
      have paid : ∀ b : Event, Event.Calls { e with out.callDue := e.out.callDue.set ch false } b →
          b.du.marks = e.du.marks ∧ b.out.standingDue = e.out.standingDue ∧
            ∀ k, b.out.callDue.get k = true → (k ≠ ch ∧ e.out.callDue.get k = true) ∨ e.moved b k :=
        fun b h => ⟨h.marks, h.standing, fun k hk => (h.owed k hk).imp_left fun hk' => by
          have hk' : (e.out.callDue.set ch false).get k = true := hk'
          rw [PerChannel.get_set] at hk'
          split at hk'
          · exact Bool.noConfusion hk'
          · rename_i hne; exact ⟨hne, hk'⟩⟩
      simp only
      split
      · exact paid _ (Event.makeCall_calls ch _)
      · exact paid _ (Event.Calls.refl _)
    · rw [if_neg hd]
      exact ⟨rfl, rfl, fun k hk => .inl ⟨fun he => hd (he ▸ hk), hk⟩⟩
  have h := Event.localCalls_calls ((e.payCall ch).out.standingDue.get ch)
    { e.payCall ch with out.standingDue := (e.payCall ch).out.standingDue.set ch [] }
  refine ⟨h.marks.trans hm, h.standing.trans (congrArg (PerChannel.set · ch []) hs), fun k hk => ?_⟩
  rcases h.owed k hk with hk' | hmv
  · exact (hc k hk').imp_right fun hmv => hmv.of_follows (Event.payStanding_follows ch _)
  · exact .inr (Event.moved.of_earlier (Event.payCall_follows ch e) hmv)

theorem Event.payAll_marks (e : Event) : (e.forChannels Event.payCalls).du.marks = e.du.marks :=
  Event.forChannels_keeps (P := fun b => b.du.marks = e.du.marks)
    (fun b ch h => (Event.payCalls_spec ch b).1.trans h) e rfl

/-- When all calls have been made a channel owes one only where it has moved. -/
theorem Event.payAll_owes (e : Event) (ch : Ch) (h : (e.forChannels Event.payCalls).owesCall ch = true) :
    e.moved (e.forChannels Event.payCalls) ch := by
  have turn : ∀ (b : Event) (k : Ch), Follows e b →
      (k = ch ∨ b.out.standingDue.get ch = [] ∧ (b.out.callDue.get ch = true → e.moved b ch)) →
      Follows e (b.payCalls k) ∧ (b.payCalls k).out.standingDue.get ch = [] ∧
        ((b.payCalls k).out.callDue.get ch = true → e.moved (b.payCalls k) ch) := by
    intro b k hb hk
    obtain ⟨-, hs, hc⟩ := Event.payCalls_spec k b
    have hf := Event.payCalls_follows k b
    refine ⟨hb.trans hf, ?_, fun hd => ?_⟩
    · rw [hs, PerChannel.get_set]
      split
      · rfl
      · rename_i hne; exact (hk.resolve_left fun h => hne h.symm).1
    · rcases hc ch hd with ⟨hne, hd'⟩ | hm
      · exact ((hk.resolve_left fun h => hne h.symm).2 hd').of_follows hf
      · exact hm.of_earlier hb
  obtain ⟨-, hs, hc⟩ := Event.forChannels_reaches (J := fun b => Follows e b)
    (N := fun b => Follows e b ∧ b.out.standingDue.get ch = [] ∧
      (b.out.callDue.get ch = true → e.moved b ch))
    (fun b k hb => hb.trans (Event.payCalls_follows k b))
    (fun b k hb => turn b k hb.1 (.inr hb.2)) ch (fun b hb => turn b ch hb (.inl rfl)) e
    (Follows.refl e)
  unfold Event.owesCall at h
  rcases Bool.or_eq_true_iff.1 h with h | h
  · exact hc h
  · rw [show (e.forChannels Event.payCalls).out.standingDue.get ch = [] from hs] at h
    exact absurd h (by decide)

/-- A round of calls leaves less to follow. -/
theorem Event.roundsLeft_calls (e : Event) (hs : e.unsettled = false) (ho : Ch.all.any e.owesCall = true) :
    (e.forChannels Event.payCalls).roundsLeft < e.roundsLeft := by
  have hround : e.roundsLeft = 3 * e.movesLeft + 1 := by
    unfold Event.roundsLeft
    rw [hs, if_neg Bool.noConfusion, if_pos ho]
  have hf := Event.forChannels_follows Event.payCalls_follows e
  by_cases hmoved : ∃ ch, e.moved (e.forChannels Event.payCalls) ch
  · obtain ⟨ch, hm⟩ := hmoved
    have := Event.roundsLeft_of_moved hf hm
    omega
  · -- no channel has moved: the node stays settled, and no call is owed
    have hsettled : (e.forChannels Event.payCalls).toState.settled :=
      State.settled_of_same ((State.settled_iff _).2 hs)
        (fun ch => (hf.same_or_moved ch).resolve_right fun hm => hmoved ⟨ch, hm⟩)
        (fun ch => (hf.channels ch).closed) hf.kept.peers (Event.payAll_marks e) hf.kept.image
        hf.kept.station hf.kept.mode hf.kept.held
    have hnone : Ch.all.any (e.forChannels Event.payCalls).owesCall = false :=
      List.any_eq_false.2 fun ch _ hc => hmoved ⟨ch, Event.payAll_owes e ch hc⟩
    have hle := hf.movesLeft_le
    rw [hround]
    unfold Event.roundsLeft
    rw [(State.settled_iff _).1 hsettled, hnone, if_neg Bool.noConfusion, if_neg Bool.noConfusion]
    omega

/-! ## The end -/

/-- Rounds enough for what is left to follow leave the node settled. -/
theorem Event.settle_settled (n : Nat) (e : Event) (h : e.roundsLeft ≤ n) :
    (e.settle n).toState.settled := by
  induction n generalizing e with
  | zero =>
    refine (State.settled_iff e.toState).2 (Bool.eq_false_iff.2 fun hu => ?_)
    unfold Event.roundsLeft at h
    rw [if_pos hu] at h
    omega
  | succ n ih =>
    unfold Event.settle
    split
    · rename_i hu
      exact ih _ (by have := Event.roundsLeft_reports e hu; omega)
    · rename_i hu
      have hu : e.unsettled = false := Bool.eq_false_iff.2 hu
      split
      · rename_i ho
        exact ih _ (by have := Event.roundsLeft_calls e hu ho; omega)
      · exact (State.settled_iff _).2 hu

/-- Whatever an effect has left, the node is settled when all that follows has been taken. -/
theorem Event.settled_settled (e : Event) : e.settled.toState.settled := by
  refine Event.settle_settled settleRounds e ?_
  have h1 := Event.roundsLeft_le e
  have h2 := State.movesLeft_le e.toState
  unfold settleRounds
  omega

/-! ## The joining of frames -/

/-- The joining of frames moves no channel that a verdict or a watch concerns. -/
theorem Flushes.settled {e e' : Event} (k : Flushes e e') (h : e.toState.settled) : e'.toState.settled := by
  have hst : e'.mc.station = e.mc.station := by rw [k.mc]
  have hp : e'.du.peers = e.du.peers := by rw [k.du]
  have hi : e'.mc.image = e.mc.image := by rw [k.mc]
  have hcode : ∀ ch, (e'.cc.get ch).state.code = (e.cc.get ch).state.code := fun ch =>
    ChState.flushes_code (k.state ch)
  have hclosed : ∀ ch, (e'.cc.get ch).feedbackClosed = (e.cc.get ch).feedbackClosed := fun ch =>
    (Controller.withState _ _ (k.rest ch)).1
  have hrest : e'.atRest = e.atRest := State.atRest_of_local hst hp fun ch => by rw [hcode, hclosed]
  -- a channel outside PENDING is as it was; one in PENDING neither waits nor watches
  have outside : ∀ ch, (e.cc.get ch).state.isPending = true ∧ (e'.cc.get ch).state.isPending = true ∨
      e'.cc.get ch = e.cc.get ch := fun ch => by
    cases hpe : (e.cc.get ch).state.isPending with
    | true => exact .inl ⟨rfl, ChState.isPending_flushes hpe (k.state ch)⟩
    | false => exact .inr (k.channel ch hpe)
  have unwatched : ∀ st : ChState, st.isPending = true → st.watching = false ∧ st ≠ .waiting := by
    intro st h
    cases st <;> first | exact ⟨rfl, ChState.noConfusion⟩ | exact Bool.noConfusion h
  refine State.settled_of_agree h hi (by rw [k.du])
    (State.available_of_local hst hp fun ch => by rw [hcode, hclosed]) (fun ch hc => ?_) (fun ch hc => ?_)
    fun ch => State.lostProviders_of hi ch ?_ fun _ r _ => State.restsBeneath_of_local hst hp r fun c _ => by
      rw [hcode]
  · have back : ∀ st : ChState, st.flushes (.pending .calling) = true → st = .pending .calling := by
      intro st h
      by_cases hb : st = .pending .budget ∨ st = .pending .claiming
      · rcases hb with rfl | rfl <;> exact Bool.noConfusion h
      · rw [not_or] at hb; exact (ChState.flushes_of_ne hb.1 hb.2 h).symm
    exact back _ (hc ▸ k.state ch)
  · rcases outside ch with ⟨-, hpe⟩ | hsame
    · exact absurd ((State.mayCoast_iff _ ch).1 hc).1 (unwatched _ hpe).2
    · rw [← hc]
      exact (State.mayCoast_of hi (by rw [k.mc]) ch (by rw [hsame]) (State.held_of_same k.cu hi ch)
        hrest).symm
  · rcases outside ch with ⟨h1, h2⟩ | hsame
    · rw [(unwatched _ h1).1, (unwatched _ h2).1]
    · rw [hsame]

/-- Every command leaves the node settled. -/
theorem Event.follows_settled (order : List Block) (e : Event) :
    (e.settled.flush order).toState.settled :=
  (Event.flush_flushes order e.settled).settled (Event.settled_settled e)

/-- Settles O58. A step that takes a command ends in a settled node, whatever it began in; one that takes none
leaves the node as it is. -/
theorem everyStepSettles : Obligations.EveryStepSettles := by
  unfold Obligations.EveryStepSettles
  intro s t hs ht
  cases hp : s.pending with
  | nil =>
    unfold step at ht
    rw [hp] at ht
    injection ht with ht
    rw [← ht]; exact hs
  | cons c rest =>
    rw [step_cons s c rest hp, exec_eq] at ht
    injection ht with ht
    rw [← ht]; exact Event.follows_settled _ _

end Sys2Proof.Machine
end

