-- ==== Sys2Proof/Proofs/ImageBounds.lean ====
section
/-! SUPPORT. What an accepted image holds (R139, R172): the thirteen checks, each read as what it says of the
records, and the ranges of the fields. -/

namespace Sys2Proof.Machine

/-! ## Bytes and ranges -/

theorem inRange_iff (v lo hi : Nat) : inRange v lo hi = true ↔ lo ≤ v ∧ v ≤ hi := decide_eq_true_iff

theorem answered_of_isSome {n : Nat} {r : Option (List Byte)} (h : (answered n r).isSome = true) :
    r = some ((answered n r).getD []) ∧ ((answered n r).getD []).length = n := by
  unfold answered at h ⊢
  split at h
  · split at h
    · rename_i hl
      rw [if_pos hl]
      exact ⟨rfl, hl⟩
    · exact Bool.noConfusion h
  · exact Bool.noConfusion h

theorem sumCorrect_mod {r : List Byte} (h : sumCorrect r = true) : (r.map BitVec.toNat).sum % 256 = 0 := by
  have sum : ∀ (l : List Byte) (a : Byte),
      (l.foldl (· + ·) a).toNat = (a.toNat + (l.map BitVec.toNat).sum) % 256 := by
    intro l
    induction l with
    | nil => intro a; exact (Nat.mod_eq_of_lt a.isLt).symm
    | cons b rest ih =>
      intro a
      rw [List.foldl_cons, ih, BitVec.toNat_add, List.map_cons, List.sum_cons]
      omega
  have h0 := sum r 0
  rw [eq_of_beq h, show (0 : Byte).toNat = 0 from rfl, Nat.zero_add] at h0
  exact h0.symm

theorem firstFailing_none {l : List Bool} (h : firstFailing l = none) : ∀ b ∈ l, b = true := by
  induction l with
  | nil => exact fun b hb => absurd hb List.not_mem_nil
  | cons a rest ih =>
    cases a with
    | false => exact absurd h (Option.some_ne_none _)
    | true =>
      intro b hb
      rcases List.mem_cons.1 hb with rfl | hb
      · rfl
      · exact ih (Option.map_eq_none_iff.1 h) b hb

theorem noDuplicates_nodup {l : List Ref} (h : noDuplicates l = true) : l.Nodup := by
  induction l with
  | nil => exact List.nodup_nil
  | cons r rest ih =>
    unfold noDuplicates at h
    obtain ⟨hr, hrest⟩ := Bool.and_eq_true_iff.1 h
    refine List.nodup_cons.2 ⟨fun hm => ?_, ih hrest⟩
    rw [List.contains_iff_mem.2 hm] at hr
    exact Bool.noConfusion hr

theorem PerChannel.get_mem_toList {α : Type} (p : PerChannel α) (ch : Ch) : p.get ch ∈ p.toList := by
  cases ch <;> simp [PerChannel.get, PerChannel.toList]

/-- The references of a list are the slots in use, each in its range. -/
theorem refsAt_length (r : List Byte) (offset count : Nat) : (refsAt r offset count).length = count := by
  unfold refsAt slotsAt
  rw [List.length_map, List.length_map, List.length_range]

theorem refsAt_inRange {r : List Byte} {offset count : Nat}
    (h : (slotsAt r offset count).all slotInRange = true) :
    ∀ x ∈ refsAt r offset count, x.station ≤ 63 ∧ x.channel ≤ 5 := by
  intro x hx
  obtain ⟨s, hs, rfl⟩ := List.mem_map.1 hx
  obtain ⟨h1, h2⟩ := Bool.and_eq_true_iff.1 (List.all_eq_true.1 h s hs)
  exact ⟨((inRange_iff _ _ _).1 h1).2, ((inRange_iff _ _ _).1 h2).2⟩

/-- A time of the image grows with its count of steps. -/
theorem Config.sec_le {a b : Nat} (h : a ≤ b) : Config.sec a ≤ Config.sec b := Nat.mul_le_mul_right _ h

theorem Config.ms_le {a b : Nat} (h : a ≤ b) : Config.ms a ≤ Config.ms b := Nat.mul_le_mul_right _ h

theorem Config.minutes_le {a b : Nat} (h : a ≤ b) : Config.minutes a ≤ Config.minutes b :=
  Nat.mul_le_mul_right _ h

/-! ## The checks (R139) -/

/-- The header that the memory answered, empty where it did not answer whole. -/
def headerBytes (read : ImageRead) : List Byte := (answered 16 read.header).getD []

/-- A channel record that the memory answered, empty where it did not answer whole. -/
def channelBytes (read : ImageRead) (ch : Ch) : List Byte :=
  (answered 43 (read.channels.get ch)).getD []

/-- The console record that the memory answered, empty where it did not answer whole. -/
def consoleBytes (read : ImageRead) : List Byte := (answered 18 read.console).getD []

theorem imageOf_channel (read : ImageRead) (ch : Ch) :
    (imageOf read).channels.get ch = parseChannel (channelBytes read ch) := by
  show ((read.channels.map _).map parseChannel).get ch = _
  rw [PerChannel.get_map, PerChannel.get_map]
  rfl

/-- Every check of R139 passes. -/
structure ImagePasses (station : Nat) (read : ImageRead) : Prop where
  headerWhole : (answered 16 read.header).isSome = true
  headerSum : sumCorrect (headerBytes read) = true
  version : byteAt (headerBytes read) 0 = 1
  imageLength : wordAt (headerBytes read) 1 = 292
  channelWhole : ∀ ch, (answered 43 (read.channels.get ch)).isSome = true
  consoleWhole : (answered 18 read.console).isSome = true
  channelSum : ∀ ch, sumCorrect (channelBytes read ch) = true
  consoleSum : sumCorrect (consoleBytes read) = true
  headerRange : headerInRange (headerBytes read) = true
  channelRange : ∀ ch, channelInRange (channelBytes read ch) = true
  consoleRange : consoleInRange (consoleBytes read) = true
  weight : ∀ ch, ((imageOf read).channels.get ch).used = true →
    ((imageOf read).channels.get ch).weight ≤ (imageOf read).plantBudget
  reference : ∀ ch, referencesGood station ch.toNat ((imageOf read).channels.get ch) = true
  duplicate : ∀ ch, noDuplicates ((imageOf read).channels.get ch).needs = true ∧
    noDuplicates ((imageOf read).channels.get ch).serves = true
  peers : (remoteRefs station (imageOf read).channels.toList).length ≤ 32
  holdLimit : ∀ ch, ((imageOf read).channels.get ch).used = true →
    ((imageOf read).channels.get ch).inrushWindow ≤ (imageOf read).claimHoldLimit
  address : station ≠ 0

/-- An item that is judged only for a configured channel. -/
theorem ChannelRecord.judged {r : ChannelRecord} {p : Prop} [Decidable p]
    (h : (!r.used || decide p) = true) (hu : r.used = true) : p := by
  rw [hu] at h
  exact of_decide_eq_true h

/-- An image is accepted only where every check passes, and it is then the one that the records spell. -/
theorem passes_of_accepted {station : Nat} {read : ImageRead} {image : Image}
    (h : judgeImage station read = .accepted image) :
    image = imageOf read ∧ ImagePasses station read := by
  unfold judgeImage at h
  split at h
  · exact ImageVerdict.noConfusion h
  · rename_i hn
    injection h with h
    refine ⟨h.symm, ?_⟩
    have hp := passes_of_firstReject hn
    simp only [imageChecks, List.forall_mem_cons] at hp
    obtain ⟨c1, c2, c3, c4, c5, c6, c7, c8, c9, c10, c11, c12, c13, -⟩ := hp
    have item {l : List Bool} (hl : firstFailing l = none) {b : Bool} (hb : b ∈ l) : b = true :=
      firstFailing_none hl b hb
    have channel {α : Type} (p : PerChannel α) (f : α → Bool) (ch : Ch) :
        f (p.get ch) ∈ p.toList.map f := List.mem_map_of_mem (PerChannel.get_mem_toList p ch)
    have bytes (ch : Ch) : (imageBytes read).2.1.get ch = channelBytes read ch := PerChannel.get_map _ _ ch
    exact {
      headerWhole := item c1 (List.mem_singleton.2 rfl)
      headerSum := item c2 (List.mem_singleton.2 rfl)
      version := eq_of_beq (item c3 (List.mem_singleton.2 rfl))
      imageLength := eq_of_beq (item c4 (List.mem_singleton.2 rfl))
      channelWhole := fun ch => item c5 (List.mem_append_left _ (by
        have hm := PerChannel.get_mem_toList (read.channels.map fun r => (answered 43 r).isSome) ch
        rw [PerChannel.get_map] at hm
        exact hm))
      consoleWhole := item c5 (List.mem_append_right _ (List.mem_singleton.2 rfl))
      channelSum := fun ch => item c6 (List.mem_map.2 ⟨_, List.mem_append_left _
        (PerChannel.get_mem_toList _ ch), congrArg sumCorrect (bytes ch)⟩)
      consoleSum := item c6 (List.mem_map_of_mem (List.mem_append_right _ (List.mem_singleton.2 rfl)))
      headerRange := item c7 (List.mem_cons_self ..)
      channelRange := fun ch => item c7 (List.mem_append_left _ (List.mem_append_right _
        (bytes ch ▸ channel _ channelInRange ch)))
      consoleRange := item c7 (List.mem_append_right _ (List.mem_singleton.2 rfl))
      weight := fun ch => ChannelRecord.judged (item c8 (channel (imageOf read).channels
        (fun r => !r.used || decide (r.weight ≤ (imageOf read).plantBudget)) ch))
      reference := fun ch => item c9 (List.mem_map_of_mem (Ch.mem_all ch))
      duplicate := fun ch => Bool.and_eq_true_iff.1 (item c10 (channel (imageOf read).channels
        (fun r => noDuplicates r.needs && noDuplicates r.serves) ch))
      peers := of_decide_eq_true (item c11 (List.mem_map_of_mem (Ch.mem_all .c5)))
      holdLimit := fun ch => ChannelRecord.judged (item c12 (channel (imageOf read).channels
        (fun r => !r.used || decide (r.inrushWindow ≤ (imageOf read).claimHoldLimit)) ch))
      address := station_of_accepted (by unfold judgeImage; rw [hn]) }

/-! ## The ranges of the fields (10.4) -/

theorem headerInRange_iff (h : List Byte) : headerInRange h = true ↔
    (1 ≤ byteAt h 3 ∧ byteAt h 3 ≤ 63) ∧ (1 ≤ byteAt h 4 ∧ byteAt h 4 ≤ 10) ∧
    (3 ≤ byteAt h 5 ∧ byteAt h 5 ≤ 120) ∧ (5 ≤ wordAt h 6 ∧ wordAt h 6 ≤ 600) ∧
    (2 ≤ byteAt h 8 ∧ byteAt h 8 ≤ 60) ∧ (10 ≤ wordAt h 9 ∧ wordAt h 9 ≤ 500) ∧
    (5 ≤ wordAt h 11 ∧ wordAt h 11 ≤ 600) ∧ (1 ≤ byteAt h 13 ∧ byteAt h 13 ≤ 60) ∧
    (0 ≤ byteAt h 14 ∧ byteAt h 14 ≤ 31) := by
  unfold headerInRange
  simp only [Bool.and_eq_true, inRange_iff, and_assoc]

theorem channelInRange_iff (r : List Byte) : channelInRange r = true ↔
    (0 ≤ byteAt r 0 ∧ byteAt r 0 ≤ 6) ∧ (1 ≤ byteAt r 1 ∧ byteAt r 1 ≤ 3) ∧
    (1 ≤ byteAt r 2 ∧ byteAt r 2 ≤ 63) ∧ (1 ≤ byteAt r 3 ∧ byteAt r 3 ≤ 120) ∧
    (1 ≤ byteAt r 4 ∧ byteAt r 4 ≤ 15) ∧ (1 ≤ byteAt r 5 ∧ byteAt r 5 ≤ 255) ∧
    (0 ≤ wordAt r 6 ∧ wordAt r 6 ≤ 1800) ∧ (1 ≤ byteAt r 8 ∧ byteAt r 8 ≤ 120) ∧
    (5 ≤ byteAt r 9 ∧ byteAt r 9 ≤ 255) ∧ (10 ≤ wordAt r 10 ∧ wordAt r 10 ≤ 3600) ∧
    (0 ≤ byteAt r 12 ∧ byteAt r 12 ≤ 3) ∧ (10 ≤ wordAt r 13 ∧ wordAt r 13 ≤ 1800) ∧
    (0 ≤ byteAt r 15 ∧ byteAt r 15 ≤ 1) ∧ (0 ≤ byteAt r 16 ∧ byteAt r 16 ≤ 4) ∧
    (0 ≤ byteAt r 25 ∧ byteAt r 25 ≤ 8) ∧ (slotsAt r 17 (byteAt r 16)).all slotInRange = true ∧
    (slotsAt r 26 (byteAt r 25)).all slotInRange = true ∧
    (byteAt r 0 ≠ 0 ∨ byteAt r 16 = 0 ∧ byteAt r 25 = 0) := by
  unfold channelInRange
  simp only [Bool.and_eq_true, Bool.or_eq_true, inRange_iff, and_assoc, bne_iff_ne, beq_iff_eq]

/-- A kind byte of the table's names NONE only where it is 0. -/
theorem parseChannel_kind {r : List Byte} (h : byteAt r 0 ≤ 6) (hk : (parseChannel r).kind = .none) :
    byteAt r 0 = 0 := by
  have hk : (Kind.ofNat? (byteAt r 0)).getD .none = .none := hk
  generalize byteAt r 0 = n at h hk
  interval_cases n <;> first | rfl | exact Kind.noConfusion hk

theorem ChannelRecord.used_iff (r : ChannelRecord) : r.used = true ↔ r.kind ≠ .none := by
  unfold ChannelRecord.used
  rw [bne_iff_ne]

/-- The references of a record name other loads, of stations 1 to 63. -/
theorem referencesGood_spec {station : Nat} {ch : Ch} {r : ChannelRecord}
    (h : referencesGood station ch.toNat r = true) :
    ∀ x ∈ r.needs ++ r.serves, 1 ≤ x.station ∧ x ≠ ⟨station, ch.toNat⟩ := by
  intro x hx
  have hx := List.all_eq_true.1 h x hx
  obtain ⟨h1, h2⟩ := Bool.and_eq_true_iff.1 hx
  refine ⟨Nat.one_le_iff_ne_zero.2 (by simpa using h1), fun he => ?_⟩
  rw [he] at h2
  simp at h2

/-- Settles O6. -/
theorem acceptedImageIsInBounds : Obligations.AcceptedImageIsInBounds := by
  unfold Obligations.AcceptedImageIsInBounds
  intro station read image hacc sound
  obtain ⟨rfl, hp⟩ := passes_of_accepted hacc
  obtain ⟨hh, hhl⟩ := answered_of_isSome hp.headerWhole
  obtain ⟨hc, hcl⟩ := answered_of_isSome hp.consoleWhole
  obtain ⟨b3, b4, b5, w6, b8, w9, w11, b13, b14⟩ := (headerInRange_iff _).1 hp.headerRange
  obtain ⟨hcon, hslots⟩ := Bool.and_eq_true_iff.1 hp.consoleRange
  refine ⟨hp.address, rfl, ⟨_, hh, ⟨hhl, sumCorrect_mod hp.headerSum⟩, hp.version, hp.imageLength,
      Nat.lt_succ_of_le b14.2⟩, fun ch => ?_, ⟨_, hc, hcl, sumCorrect_mod hp.consoleSum⟩, b3,
    ⟨Config.sec_le b4.1, Config.sec_le b4.2⟩, ⟨Config.sec_le b5.1, Config.sec_le b5.2⟩,
    ⟨Config.sec_le w6.1, Config.sec_le w6.2⟩, ⟨Config.sec_le b8.1, Config.sec_le b8.2⟩,
    ⟨Config.ms_le (Nat.mul_le_mul_left 10 w9.1), Config.ms_le (Nat.mul_le_mul_left 10 w9.2)⟩,
    ⟨Config.sec_le w11.1, Config.sec_le w11.2⟩, ⟨Config.sec_le b13.1, Config.sec_le b13.2⟩, ?_,
    fun c hc => ?_, hp.peers, fun ch => ?_⟩
  · obtain ⟨hr, hrl⟩ := answered_of_isSome (hp.channelWhole ch)
    have hrange := (channelInRange_iff _).1 (hp.channelRange ch)
    obtain ⟨r0, -, -, -, -, -, -, -, -, -, -, -, r15, -⟩ := hrange
    exact ⟨_, hr, ⟨hrl, sumCorrect_mod (hp.channelSum ch)⟩, r0.2,
      Nat.le_one_iff_eq_zero_or_eq_one.1 r15.2⟩
  · show ((slotsAt _ 1 (byteAt (consoleBytes read) 0)).map _).length ≤ 8
    unfold slotsAt
    rw [List.length_map, List.length_map, List.length_range]
    exact ((inRange_iff _ _ _).1 hcon).2
  · obtain ⟨x, hx, rfl⟩ := List.mem_map.1 hc
    obtain ⟨h1, h2⟩ := Bool.and_eq_true_iff.1 (List.all_eq_true.1 hslots x hx)
    obtain ⟨hlo, hhi⟩ := (inRange_iff _ _ _).1 h1
    exact ⟨hlo, hhi, ((inRange_iff _ _ _).1 h2).2⟩
  · obtain ⟨r0, r1, r2, r3, r4, r5, w6, r8, r9, w10, r12, w13, r15, r16, r25, hneeds, hserves, hnone⟩ :=
      (channelInRange_iff _).1 (hp.channelRange ch)
    have hgood := referencesGood_spec (hp.reference ch)
    have hdup := hp.duplicate ch
    have hweight := hp.weight ch
    have hhold := hp.holdLimit ch
    rw [ChannelRecord.used_iff] at hweight hhold
    rw [imageOf_channel] at hgood hdup hweight hhold ⊢
    refine ⟨r1, r2, ⟨Config.minutes_le r3.1, Config.minutes_le r3.2⟩, r4,
      ⟨Config.ms_le (Nat.mul_le_mul_left 100 r5.1), Config.ms_le (Nat.mul_le_mul_left 100 r5.2)⟩,
      Config.sec_le w6.2, ⟨Config.sec_le r8.1, Config.sec_le r8.2⟩,
      ⟨Config.ms_le (Nat.mul_le_mul_left 10 r9.1), Config.ms_le (Nat.mul_le_mul_left 10 r9.2)⟩,
      ⟨Config.sec_le w10.1, Config.sec_le w10.2⟩, r12.2, ⟨Config.sec_le w13.1, Config.sec_le w13.2⟩,
      (refsAt_length _ 17 _).trans_le r16.2, (refsAt_length _ 26 _).trans_le r25.2,
      noDuplicates_nodup hdup.1, noDuplicates_nodup hdup.2, fun x hx => ?_, fun hk => ?_,
      fun hk => ⟨hweight hk, hhold hk⟩⟩
    · obtain ⟨hst, hne⟩ := hgood x hx
      obtain ⟨hst', hch⟩ := (List.mem_append.1 hx).elim (refsAt_inRange hneeds x) (refsAt_inRange hserves x)
      exact ⟨hst, hst', hch, hne⟩
    · obtain ⟨hn, hs⟩ := hnone.resolve_left (not_not.2 (parseChannel_kind r0.2 hk))
      exact ⟨List.length_eq_zero_iff.1 ((refsAt_length _ 17 _).trans hn),
        List.length_eq_zero_iff.1 ((refsAt_length _ 26 _).trans hs)⟩

end Sys2Proof.Machine
end

