-- ==== Sys2Proof/Proofs/PeerTimers.lean ====
section
/-! SUPPORT. The call wait and the age timers (R54, R65), and what a load's state says of the verdicts (R51,
R56, R57). -/

namespace Sys2Proof.Machine

/-! ## The call wait (R65) -/

theorem Event.noticeUnanswered_toState (ch : Ch) (e : Event) :
    (e.noticeUnanswered ch).toState = e.toState := by
  unfold Event.noticeUnanswered
  split <;> rfl

theorem Event.noticeUnanswered_standing (ch : Ch) (e : Event) :
    (e.noticeUnanswered ch).out.standingDue = e.out.standingDue := by
  unfold Event.noticeUnanswered
  split <;> rfl

/-- The first unavailable provider of the needs list is noticed. -/
theorem Event.noticeUnanswered_first (ch : Ch) (r : Ref) (e : Event)
    (h : (e.record ch).needs.find? (fun r => !e.available r) = some r) :
    (⟨0, .notice (.callUnanswered ch r)⟩ : Frame) ∈ (e.noticeUnanswered ch).out.notices.get ch := by
  have hhead : (e.unavailable ch).head? = some r := List.head?_filter.trans h
  obtain ⟨rest, hrest⟩ := List.head?_eq_some_iff.1 hhead
  unfold Event.noticeUnanswered
  rw [hrest]
  show _ ∈ (e.out.notices.set ch _).get ch
  rw [PerChannel.get_set_same]
  exact List.mem_append_right _ (List.mem_singleton.2 rfl)

/-- The channel goes on to BUDGET without the missing providers. -/
def Event.goesOn (ch : Ch) (e : Event) : Event :=
  (((e.noticeUnanswered ch).setCallWait ch none).setState ch (.pending .budget)).oweEval

theorem Event.callWaitEnds_eq (ch : Ch) (e : Event) (hs : (e.cc.get ch).state = .pending .calling)
    (hd : Timer.due (e.du.callWait.get ch) = true) : e.callWaitEnds ch = e.goesOn ch := by
  unfold Event.callWaitEnds
  rw [if_pos ⟨hs, hd⟩]
  rfl

theorem Event.goesOn_cc (ch : Ch) (e : Event) : (e.goesOn ch).cc =
    e.cc.set ch (Controller.enter (e.record ch).feedbackWindow (.pending .budget) (e.cc.get ch)) := by
  have hs := Event.noticeUnanswered_toState ch e
  have hcc : (e.noticeUnanswered ch).cc = e.cc := congrArg State.cc hs
  have hrec : (e.noticeUnanswered ch).record ch = e.record ch := congrArg (State.record · ch) hs
  have h : (e.goesOn ch).cc = (e.noticeUnanswered ch).cc.set ch
      (Controller.enter ((e.noticeUnanswered ch).record ch).feedbackWindow (.pending .budget)
        ((e.noticeUnanswered ch).cc.get ch)) :=
    Event.setState_cc ch (.pending .budget) ((e.noticeUnanswered ch).setCallWait ch none)
  rw [h, hcc, hrec]

theorem Event.goesOn_out (ch : Ch) (e : Event) :
    (e.goesOn ch).out.notices = (e.noticeUnanswered ch).out.notices ∧
      (e.goesOn ch).out.standingDue = e.out.standingDue := by
  obtain ⟨hn, hd⟩ := Event.setState_unnoticed ch (.pending .budget)
    ((e.noticeUnanswered ch).setCallWait ch none)
  exact ⟨hn, hd.trans (Event.noticeUnanswered_standing ch e)⟩

theorem Event.goesOn_mc (ch : Ch) (e : Event) : (e.goesOn ch).mc = e.mc := by
  have hmc : (e.noticeUnanswered ch).mc = e.mc := congrArg State.mc (Event.noticeUnanswered_toState ch e)
  rw [← hmc]
  exact Event.setState_mc ch (.pending .budget) ((e.noticeUnanswered ch).setCallWait ch none)

/-- Settles O21. -/
theorem callWaitExpiryEndsCalling : Obligations.CallWaitExpiryEndsCalling := by
  unfold Obligations.CallWaitExpiryEndsCalling
  intro m ch s a hst hdue
  generalize he : s.begin m = e
  have ha : a = e.toState := by rw [← he]; rfl
  rw [ha] at hst hdue ⊢
  have heff : effectOf (.callWaitExpiry m ch) (s.begin m) = e.goesOn ch := by
    rw [he]; exact Event.callWaitEnds_eq ch e hst hdue
  have took := Event.took m.order (e.goesOn ch)
  have hcc : (e.goesOn ch).cc.get ch =
      Controller.enter (e.record ch).feedbackWindow (.pending .budget) (e.cc.get ch) := by
    rw [Event.goesOn_cc, PerChannel.get_set_same]
  refine ⟨((e.goesOn ch).settled.flush m.order).toState, by rw [exec_eq, ← heff]; rfl, ?_,
    fun r hr hsp => ?_, fun o ho => took.origins ch o ?_⟩
  · obtain ⟨st, hf, hg⟩ := took.state ch
    rw [hcc, Controller.enter_state] at hf
    rw [show st = .pending .budget from (eq_of_beq hf).symm] at hg
    simp only [ChState.flushes, Bool.or_eq_true, beq_iff_eq] at hg
    exact hg
  · obtain ⟨hn, hd⟩ := Event.goesOn_out ch e
    refine Event.follows_noticed_channel m.order ch _ _ ?_
      (Event.duesNeeded_of_none (hd.trans (by rw [← he]; rfl))) ?_
    · unfold State.speaks
      rw [Event.goesOn_mc, ← he]
      exact hsp
    · rw [hn]; exact Event.noticeUnanswered_first ch r e hr
  · rw [hcc, (Controller.enter_rest _ _ _).2.2.2.1]; exact ho

/-! ## The age timers (R54) -/

theorem mem_distinct (n : Nat) (l : List Nat) : n ∈ distinct l ↔ n ∈ l := by
  induction l with
  | nil => rfl
  | cons k rest ih =>
    show n ∈ k :: (distinct rest).filter _ ↔ _
    rw [List.mem_cons, List.mem_cons, List.mem_filter, ih, bne_iff_ne]
    by_cases h : n = k <;> simp [h]

theorem PeerEntry.agesOut_iff (stations : List Nat) (p : PeerEntry) :
    p.agesOut stations = true ↔ Timer.due p.ageTimer = true ∧ p.ref.station ∈ stations := by
  unfold PeerEntry.agesOut
  rw [Bool.and_eq_true, List.contains_iff_mem]

theorem Event.noticeAbsent_toState (gone : List Nat) (e : Event) :
    (gone.foldl (fun e n => e.noticeNode (.peerAbsent n)) e).toState = e.toState :=
  foldl_induct (P := fun b : Event => b.toState = e.toState)
    (f := fun (e : Event) n => e.noticeNode (.peerAbsent n)) (fun _ _ h => h) gone e rfl

theorem Event.noticeAbsent_mem {n : Nat} {gone : List Nat} (e : Event) (h : n ∈ gone) :
    (⟨0, .notice (.peerAbsent n)⟩ : Frame) ∈
      (gone.foldl (fun e n => e.noticeNode (.peerAbsent n)) e).out.nodeNotices :=
  foldl_reaches (J := fun _ => True)
    (N := fun b : Event => (⟨0, .notice (.peerAbsent n)⟩ : Frame) ∈ b.out.nodeNotices)
    (fun _ _ _ => trivial) (fun _ _ h => List.mem_append_left _ h) n
    (fun _ _ => List.mem_append_right _ (List.mem_singleton.2 rfl)) gone e h trivial

theorem Event.ageOut_toState (stations : List Nat) (e : Event) : (e.ageOut stations).toState =
    { e.toState with du.peers := e.du.peers.map (PeerEntry.aged stations) } :=
  Event.noticeAbsent_toState _ _

theorem Event.ageOut_notices (stations : List Nat) (e : Event) (p : PeerEntry) (hp : p ∈ e.du.peers)
    (h : p.agesOut stations = true) :
    (⟨0, .notice (.peerAbsent p.ref.station)⟩ : Frame) ∈ (e.ageOut stations).out.nodeNotices :=
  Event.noticeAbsent_mem _ ((mem_distinct _ _).2
    (List.mem_map.2 ⟨p, List.mem_filter.2 ⟨hp, h⟩, rfl⟩))

/-! ## What a load's state says (R51, R56) -/

theorem ChState.countsAtRest_code_iff (st : ChState) (closed : Bool) :
    countsAtRest st.code closed = true ↔
      st = .offline ∨ st = .rest ∨ (st.isLocked = true ∧ closed = false) := by
  cases st <;> simp [ChState.code, countsAtRest, ChState.isLocked]

theorem ChState.countsAvailable_code_iff (st : ChState) (closed : Bool) :
    countsAvailable st.code closed = true ↔
      st = .awake ∨ st = .waiting ∨ st = .bypass ∨ (st.isLocked = true ∧ closed = true) := by
  cases st <;> simp [ChState.code, countsAvailable, ChState.isLocked]

theorem countsAtRest_iff (st : StateCode) (closed : Bool) :
    countsAtRest st closed = true ↔ st = .offline ∨ st = .rest ∨ (st = .locked ∧ closed = false) := by
  cases st <;> simp [countsAtRest]

theorem countsAvailable_iff (st : StateCode) (closed : Bool) : countsAvailable st closed = true ↔
    st = .awake ∨ st = .waiting ∨ st = .bypass ∨ (st = .locked ∧ closed = true) := by
  cases st <;> simp [countsAvailable]

section
variable {s : State} {r : Ref}

theorem State.localCh?_own {k : Ch} (h : r.station = s.mc.station) (hk : r.channel = k.toNat) :
    s.localCh? r = some k := by
  unfold State.localCh? State.isLocal
  rw [if_pos (beq_iff_eq.2 h), hk, Ch.ofNat?_toNat]

theorem State.localCh?_remote (h : r.station ≠ s.mc.station) : s.localCh? r = none := by
  unfold State.localCh? State.isLocal
  rw [if_neg (fun hb => h (eq_of_beq hb))]

theorem State.known_own {k : Ch} (h : r.station = s.mc.station) (hk : r.channel = k.toNat) :
    s.known r = some ((s.cc.get k).state.code, (s.cc.get k).feedbackClosed) := by
  unfold State.known
  rw [State.localCh?_own h hk]

theorem State.known_present (h : r.station ≠ s.mc.station) {p : PeerEntry} {st : StateCode}
    (hp : s.peer? r = some p) (hpr : p.isPresent = true) (hst : p.state = some st) :
    s.known r = some (st, p.feedbackClosed) := by
  unfold State.known
  rw [State.localCh?_remote h, hp]
  simp only [hpr, hst]
  rfl

theorem State.known_absent (h : r.station ≠ s.mc.station)
    (hp : ∀ p, s.peer? r = some p → p.isPresent = false ∨ p.state = none) : s.known r = none := by
  unfold State.known
  rw [State.localCh?_remote h]
  cases hr : s.peer? r with
  | none => rfl
  | some p =>
    rcases hp p hr with hpr | hst
    · simp only [hpr]; rfl
    · simp only [hst, Option.map_none, ite_self]

end

/-- Settles O22. -/
theorem ageTimerExpiryMakesTheEntriesAbsent : Obligations.AgeTimerExpiryMakesTheEntriesAbsent := by
  unfold Obligations.AgeTimerExpiryMakesTheEntriesAbsent
  refine ⟨?_, fun s => ⟨?_, fun r hr => ⟨fun p st hp hpr hst => ?_, fun hp => ?_⟩,
    fun ch => ⟨List.all_eq_true, List.all_eq_true⟩⟩⟩
  · intro m stations s a
    have took := Event.took m.order ((s.begin m).ageOut stations)
    have hs := Event.ageOut_toState stations (s.begin m)
    refine ⟨(((s.begin m).ageOut stations).settled.flush m.order).toState, by rw [exec_eq]; rfl, ?_,
      fun hsp p hp hd hst => ?_, took.cu.trans (by rw [hs]; rfl), took.pu.trans (by rw [hs]; rfl),
      took.pins.trans (by rw [hs]; rfl)⟩
    · rw [took.peers, hs]
      refine List.map_congr_left fun p _ => ?_
      unfold PeerEntry.aged
      simp only [PeerEntry.agesOut_iff]
    · refine Event.follows_noticed_node m.order _ _ ?_
        (Event.ageOut_notices stations (s.begin m) p hp ((PeerEntry.agesOut_iff _ _).2 ⟨hd, hst⟩))
      rw [hs]; exact hsp
  · intro r k hr hk c
    unfold State.atRest State.available
    rw [State.known_own hr hk]
    exact ⟨ChState.countsAtRest_code_iff _ _, ChState.countsAvailable_code_iff _ _⟩
  · unfold State.atRest State.available
    rw [State.known_present hr hp hpr hst]
    exact ⟨countsAtRest_iff _ _, countsAvailable_iff _ _⟩
  · unfold State.atRest State.available
    rw [State.known_absent hr hp]
    exact ⟨rfl, rfl⟩

end Sys2Proof.Machine
end

