-- ==== Sys2Proof/Proofs/Called.lean ====
section
/-! SUPPORT. Loads that are called (R62, R67, R68): a load at rest is woken, and where no WAITING load may enter
COAST none does, whatever is called. -/

namespace Sys2Proof.Machine

/-! ## A load that is called has the origin -/

/-- What follows leaves a channel that does not wait as it is, or in PENDING. -/
theorem ChState.follows_cases {a b : ChState} (f : a.follows b = true) (hw : a ≠ .waiting) :
    b = a ∨ b.isPending = true := by
  cases a with
  | waiting => exact absurd rfl hw
  | coast | rest =>
    simp only [ChState.follows, Bool.or_eq_true, beq_iff_eq] at f
    rcases f with (rfl | rfl) | rfl
    · exact .inl rfl
    · exact .inr rfl
    · exact .inr rfl
  | pending sub => exact .inr (ChState.isPending_follows (a := .pending sub) rfl f)
  | _ => exact .inl (eq_of_beq f).symm

theorem ChState.records_follows {a b : ChState} (h : a.records = true) (f : a.follows b = true) :
    b.records = true := by
  rcases ChState.follows_cases f (fun hw => by rw [hw] at h; exact Bool.noConfusion h) with rfl | hb
  · exact h
  · cases b <;> first | rfl | exact Bool.noConfusion hb

theorem ChState.code_of_isPending {st : ChState} (h : st.isPending = true) : st.code = .pending := by
  cases st <;> first | rfl | exact Bool.noConfusion h

/-- A channel has been called since `e`: it has origin CALL, and is in PENDING where it was at rest and the
mode wakes it. -/
def Event.calledAt (e : Event) (ch : Ch) (b : Event) : Prop :=
  Follows e b ∧ (b.cc.get ch).origins.has .call = true ∧
    ((e.cc.get ch).state = .rest → e.mc.mode.wakesAtOnce = true → (b.cc.get ch).state.isPending = true)

theorem Event.calledAt.of_follows {e b b' : Event} {ch : Ch} (h : e.calledAt ch b) (k : Follows b b') :
    e.calledAt ch b' := by
  obtain ⟨hf, ho, hp⟩ := h
  exact ⟨hf.trans k, (k.channels ch).origins _ ho, fun hr hm =>
    ChState.isPending_follows (hp hr hm) (k.channels ch).state⟩

/-- A call to a channel that records origins reaches it, whatever has followed before. -/
theorem Event.calledAt_addOrigin {e b : Event} (ch : Ch) (hf : Follows e b)
    (h : (e.cc.get ch).state.records = true) : e.calledAt ch (b.addOrigin .call ch) := by
  have hstep := Event.addOrigin_follows .call ch b
  refine ⟨hf.trans hstep,
    Event.addOrigin_has .call ch b (ChState.records_follows h (hf.channels ch).state), fun hr hm => ?_⟩
  have hst := (hf.channels ch).state
  rw [hr] at hst
  rcases ChState.follows_cases hst ChState.noConfusion with hb | hb
  · exact Event.addOrigin_wakes .call ch b (.inl ⟨hb, by rw [hf.kept.mode]; exact hm⟩)
  · exact ChState.isPending_follows hb (hstep.channels ch).state

/-- What a call has reached stands when its command has ended. -/
theorem Event.calledAt.ends {e b : Event} {ch : Ch} {t : State} (h : e.calledAt ch b) (took : Took b t) :
    (t.cc.get ch).origins.has .call = true ∧
      ((e.cc.get ch).state = .rest → e.mc.mode.wakesAtOnce = true →
        (t.cc.get ch).state.isPending = true) := by
  obtain ⟨-, ho, hp⟩ := h
  exact ⟨took.origins ch _ ho, fun hr hm => took.pending_kept ch (hp hr hm)⟩

/-! ## No WAITING load coasts -/

/-- What follows leaves every WAITING channel as it is. -/
def Event.leavesWaiting (e e' : Event) : Prop :=
  Follows e e' ∧ ∀ ch, (e.cc.get ch).state = .waiting → e'.cc.get ch = e.cc.get ch

theorem Event.leavesWaiting.refl (e : Event) : e.leavesWaiting e := ⟨Follows.refl e, fun _ _ => rfl⟩

theorem Event.leavesWaiting.trans {a b c : Event} (h : a.leavesWaiting b) (k : b.leavesWaiting c) :
    a.leavesWaiting c :=
  ⟨h.1.trans k.1, fun ch hw => by
    have hb := h.2 ch hw
    exact (k.2 ch (by rw [hb]; exact hw)).trans hb⟩

/-- No WAITING channel may enter COAST. -/
def Event.noneCoasts (e : Event) : Prop := ∀ ch, e.mayCoast ch = false

/-- Where every WAITING load stays as it is no further load comes to rest. -/
theorem Event.leavesWaiting.atRest {e e' : Event} (h : e.leavesWaiting e') (r : Ref)
    (hr : e'.atRest r = true) : e.atRest r = true := by
  unfold State.atRest at hr ⊢
  rcases State.known_cases h.1.kept.station h.1.kept.peers r with hk | ⟨ch, -, ha, hb⟩
  · rw [← hk]; exact hr
  · rw [ha]
    rw [hb] at hr
    have hc := h.1.channels ch
    rw [hc.closed] at hr
    by_cases hw : (e.cc.get ch).state = .waiting
    · rw [h.2 ch hw] at hr; exact hr
    · rcases ChState.follows_cases hc.state hw with hs | hp
      · rw [hs] at hr; exact hr
      · rw [ChState.code_of_isPending hp] at hr; exact Bool.noConfusion hr

theorem Event.leavesWaiting.noneCoasts {e e' : Event} (h : e.leavesWaiting e') (hn : e.noneCoasts) :
    e'.noneCoasts := fun ch => Bool.eq_false_iff.2 fun hm => by
  obtain ⟨hst, hheld, hmode, hv⟩ := (State.mayCoast_iff _ ch).1 hm
  have hw : (e.cc.get ch).state = .waiting := by
    by_contra hne
    exact ChState.follows_waiting (h.1.channels ch).state hne hst
  refine Bool.eq_false_iff.1 (hn ch) ((State.mayCoast_iff _ ch).2
    ⟨hw, by rw [← h.1.kept.held]; exact hheld, by rw [← h.1.kept.mode]; exact hmode, ?_⟩)
  refine List.all_eq_true.2 fun r hr => h.atRest r (List.all_eq_true.1 hv r ?_)
  rw [h.1.kept.record]; exact hr

theorem Event.addOrigin_leavesWaiting (o : Origin) (ch : Ch) (e : Event) :
    e.leavesWaiting (e.addOrigin o ch) := by
  refine ⟨Event.addOrigin_follows o ch e, fun k hk => ?_⟩
  by_cases h : k = ch
  · subst h
    rw [Event.addOrigin_ignored o k e (by rw [hk]; rfl)]
  · exact (Event.addOrigin_other o ch k e h).1

theorem Event.leavesWaiting_of_cc {e e' : Event} (h : Follows e e') (hc : e'.cc = e.cc) :
    e.leavesWaiting e' := ⟨h, fun ch _ => by rw [hc]⟩

theorem Event.localCalls_leavesWaiting (refs : List Ref) (e : Event) :
    e.leavesWaiting (e.localCalls refs) :=
  foldl_induct (P := fun b : Event => e.leavesWaiting b) (fun b r h => h.trans (by
    unfold Event.localCall
    split
    · exact Event.addOrigin_leavesWaiting .call _ b
    · exact Event.leavesWaiting.refl b)) refs e (Event.leavesWaiting.refl e)

theorem Event.makeCall_leavesWaiting (ch : Ch) (e : Event) : e.leavesWaiting (e.makeCall ch) := by
  have h : e.leavesWaiting (e.callFrame ch ((e.unavailable ch).filter fun r => !e.isLocal r)) :=
    Event.leavesWaiting_of_cc (Event.callFrame_follows ch _ e)
      (congrArg State.cc (Event.callFrame_toState ch _ e))
  exact h.trans (Event.localCalls_leavesWaiting _ _)

/-- What is owed may change. -/
theorem Event.owed_follows (d : PerChannel Bool) (l : PerChannel (List Ref)) (e : Event) :
    Follows e { e with out.callDue := d, out.standingDue := l } :=
  Follows.of_kept (by constructor <;> first | rfl | exact ⟨_, rfl⟩) rfl rfl rfl

theorem Event.payCalls_leavesWaiting (ch : Ch) (e : Event) : e.leavesWaiting (e.payCalls ch) := by
  have owes : ∀ (b : Event) (d : PerChannel Bool) (l : PerChannel (List Ref)),
      b.leavesWaiting { b with out.callDue := d, out.standingDue := l } := fun b d l =>
    Event.leavesWaiting_of_cc (Event.owed_follows d l b) rfl
  have hpay : e.leavesWaiting (e.payCall ch) := by
    unfold Event.payCall
    split
    · have hpaid := owes e (e.out.callDue.set ch false) e.out.standingDue
      simp only
      split
      · exact hpaid.trans (Event.makeCall_leavesWaiting ch _)
      · exact hpaid
    · exact Event.leavesWaiting.refl e
  have hstand := owes (e.payCall ch) (e.payCall ch).out.callDue ((e.payCall ch).out.standingDue.set ch [])
  exact (hpay.trans hstand).trans (Event.localCalls_leavesWaiting _ _)

/-- Where no WAITING channel may enter COAST the reports move none. -/
theorem Event.takeReports_leavesWaiting (e : Event) (hn : e.noneCoasts) : e.leavesWaiting e.takeReports := by
  refine Event.forChannels_keeps (P := fun b => e.leavesWaiting b) (fun b ch hb => ?_) e
    (Event.leavesWaiting.refl e)
  refine hb.trans ⟨Event.reportVerdict_follows _ ch b, fun k hk => ?_⟩
  unfold Event.reportVerdict
  split
  · rename_i hd
    rw [PerChannel.get_tabulate, State.reportDue_iff, hn ch] at hd
    obtain ⟨hcall, -⟩ := hd.resolve_right Bool.noConfusion
    have hpend := ChState.isPending_follows (by rw [hcall]; rfl) (hb.1.channels ch).state
    split
    · have hkc : k ≠ ch := fun h => by rw [h] at hk; rw [hk] at hpend; exact Bool.noConfusion hpend
      show ((b.setState ch (.pending .budget)).cc).get k = _
      rw [Event.setState_cc, PerChannel.get_set_other _ hkc]
    · rename_i hst
      rw [hst] at hpend
      exact Bool.noConfusion hpend
    · rfl
  · rfl

theorem Event.watchAll_cc (e : Event) : (e.forChannels Event.watch).cc = e.cc :=
  (congrArg State.cc (Event.watchAll_toState e)).trans rfl

theorem Event.settle_leavesWaiting (n : Nat) (e : Event) (hn : e.noneCoasts) :
    e.leavesWaiting (e.settle n) := by
  induction n generalizing e with
  | zero => exact Event.leavesWaiting.refl e
  | succ n ih =>
    unfold Event.settle
    split
    · have h := (Event.takeReports_leavesWaiting e hn).trans (Event.leavesWaiting_of_cc
        (Event.forChannels_follows Event.watch_follows e.takeReports) (Event.watchAll_cc _))
      exact h.trans (ih _ (h.noneCoasts hn))
    · split
      · have h : e.leavesWaiting (e.forChannels Event.payCalls) :=
          Event.forChannels_keeps (P := fun b => e.leavesWaiting b)
            (fun b ch hb => hb.trans (Event.payCalls_leavesWaiting ch b)) e (Event.leavesWaiting.refl e)
        exact h.trans (ih _ (h.noneCoasts hn))
      · exact Event.leavesWaiting.refl e

/-- Where no WAITING channel may enter COAST every one ends its command as it is. -/
theorem Event.follows_waits (order : List Block) (e : Event) (hn : e.noneCoasts) (ch : Ch)
    (hw : (e.cc.get ch).state = .waiting) : (e.settled.flush order).cc.get ch = e.cc.get ch := by
  have hs : e.settled.cc.get ch = e.cc.get ch := (Event.settle_leavesWaiting settleRounds e hn).2 ch hw
  rw [Event.flush_channel order e.settled ch (by rw [hs, hw]; rfl), hs]

/-! ## A CALL frame (R67, R68) -/

theorem Event.callTarget_leavesWaiting (r : Ref) (e : Event) : e.leavesWaiting (e.callTarget r) := by
  unfold Event.callTarget
  split
  · split
    · exact Event.addOrigin_leavesWaiting .call _ e
    · exact Event.leavesWaiting.refl e
  · exact Event.leavesWaiting.refl e

theorem Event.callTargets_leavesWaiting (refs : List Ref) (e : Event) :
    e.leavesWaiting (refs.foldl (fun e r => e.callTarget r) e) :=
  foldl_induct (P := fun b : Event => e.leavesWaiting b)
    (f := fun (e : Event) r => e.callTarget r)
    (fun b r h => h.trans (Event.callTarget_leavesWaiting r b)) refs e (Event.leavesWaiting.refl e)

/-- A channel that a CALL names is called. -/
theorem Event.callTargets_calledAt {r : Ref} {refs : List Ref} {ch : Ch} {e : Event} (hr : r ∈ refs)
    (hl : e.localCh? r = some ch) (hc : e.configured ch = true)
    (h : (e.cc.get ch).state.records = true) :
    e.calledAt ch (refs.foldl (fun e r => e.callTarget r) e) := by
  refine foldl_reaches (J := fun b : Event => Follows e b) (N := e.calledAt ch)
    (f := fun (e : Event) r => e.callTarget r)
    (fun b q hb => hb.trans (Event.callTarget_leavesWaiting q b).1)
    (fun b q hb => hb.of_follows (Event.callTarget_leavesWaiting q b).1) r (fun b hb => ?_) refs e hr
    (Follows.refl e)
  have heq : b.callTarget r = b.addOrigin .call ch := by
    unfold Event.callTarget
    rw [State.localCh?_of_station hb.kept.station, hl]
    exact if_pos (by unfold State.configured; rw [hb.kept.record]; exact hc)
  show e.calledAt ch (b.callTarget r)
  rw [heq]
  exact Event.calledAt_addOrigin ch hb h

/-- Settles O24. -/
theorem callFrameWakesTheNamedLoad : Obligations.CallFrameWakesTheNamedLoad := by
  unfold Obligations.CallFrameWakesTheNamedLoad
  intro m env p r ch s a hm hh hr hst hch hc
  generalize he : s.heardAt m = e
  have hcc : e.cc = a.cc := by rw [← he]; rfl
  have hmode : e.mc.mode = .operating := by rw [← he]; exact hm
  have hl : e.localCh? r = some ch := State.localCh?_own (hst.trans (by rw [← he]; rfl)) hch
  have hconf : e.configured ch = true := by rw [← he]; exact hc
  have heq : effectOf (.callReceived m env p) (s.begin m) =
      (callTargets p).foldl (fun e r => e.callTarget r) e := by
    have h : effectOf (.callReceived m env p) (s.begin m) = Event.takeCall p e := by
      rw [← he]; exact hear_onLine _ env kindCall _ (Event.takeCall p) m s (.inr hm) hh
    rw [h]
    unfold Event.takeCall
    rw [if_pos (by rw [hmode]; rfl)]
  generalize hb : (callTargets p).foldl (fun e r => e.callTarget r) e = b at heq
  have hwaits : e.leavesWaiting b := by rw [← hb]; exact Event.callTargets_leavesWaiting _ e
  have took := Event.took m.order b
  have called : (e.cc.get ch).state.records = true → e.calledAt ch b := fun h => by
    rw [← hb]; exact Event.callTargets_calledAt hr hl hconf h
  rw [← hcc]
  refine ⟨(b.settled.flush m.order).toState, by rw [exec_eq, ← heq]; rfl, fun hrest => ?_, fun hrec => ?_,
    fun hig => ?_, fun hs hw => ?_⟩
  · obtain ⟨ho, hp⟩ := (called (by rw [hrest]; rfl)).ends took
    exact ⟨hp hrest (by rw [hmode]; rfl), ho⟩
  · refine ((called ?_).ends took).1
    rcases hrec with h | h | ⟨k, h⟩ | ⟨k, h⟩
    · rw [h]; rfl
    · cases hp : (e.cc.get ch).state <;> rw [hp] at h <;> first | rfl | exact Bool.noConfusion h
    · rw [h]; rfl
    · rw [h]; rfl
  · obtain ⟨hrec, hw⟩ : (e.cc.get ch).state.records = false ∧ (e.cc.get ch).state ≠ .waiting := by
      rcases hig with h | h | h
      · rw [h]; exact ⟨rfl, ChState.noConfusion⟩
      · exact (ChState.locked_ignores h).2
      · rw [h]; exact ⟨rfl, ChState.noConfusion⟩
    have hsame := (hwaits.1.channels ch).ignores hrec hw
    rw [took.ignored ch (by rw [hsame]; exact hrec) (by rw [hsame]; exact hw), hsame]
  · have hnone : e.noneCoasts := fun k => by
      rw [← he]
      exact (State.settled_elapse m.elapsed s hs k).2.1
    have hsame := hwaits.2 ch hw
    rw [Event.follows_waits m.order b (hwaits.noneCoasts hnone) ch (by rw [hsame]; exact hw), hsame]

end Sys2Proof.Machine
end

