-- ==== Sys2Proof/Proofs/LossNotices.lean ====
section
/-! SUPPORT. A watch mark that an event sets is noticed in it (R69, R168); what most operations leave of the
marks and of the outbox. -/

namespace Sys2Proof.Machine

/-! ## What leaves the marks and the notices of channels alone -/

/-- Neither a watch mark nor a notice of a channel changes, a STATE frame owed stays owed, and no STATE frame
is put among the calls. -/
structure Event.Unmarked (e e' : Event) : Prop where
  marks : e'.du.marks = e.du.marks
  notices : e'.out.notices = e.out.notices
  owed : e.out.stateDue = true → e'.out.stateDue = true
  calls : ∀ ch, ∀ f ∈ e'.out.calls.get ch, f ∈ e.out.calls.get ch ∨ f.isState = false

theorem Event.Unmarked.of_same {e e' : Event} (hm : e'.du.marks = e.du.marks)
    (hn : e'.out.notices = e.out.notices) (ho : e'.out.stateDue = e.out.stateDue)
    (hc : e'.out.calls = e.out.calls) : e.Unmarked e' :=
  ⟨hm, hn, fun h => ho.trans h, fun _ _ hf => .inl (hc ▸ hf)⟩

theorem Event.Unmarked.refl (e : Event) : e.Unmarked e := .of_same rfl rfl rfl rfl

theorem Event.Unmarked.trans {a b c : Event} (h : a.Unmarked b) (k : b.Unmarked c) : a.Unmarked c where
  marks := k.marks.trans h.marks
  notices := k.notices.trans h.notices
  owed ha := k.owed (h.owed ha)
  calls ch f hf := (k.calls ch f hf).elim (h.calls ch f) .inr

theorem Event.setState_unmarked (ch : Ch) (st : ChState) (e : Event) : e.Unmarked (e.setState ch st) := by
  unfold Event.setState
  split
  · exact .of_same rfl rfl rfl rfl
  · exact ⟨rfl, rfl, fun _ => rfl, fun _ _ hf => .inl hf⟩

theorem Event.modCc_unmarked (ch : Ch) (f : Controller → Controller) (e : Event) :
    e.Unmarked (e.modCc ch f) := .of_same rfl rfl rfl rfl

theorem Event.enterPending_unmarked (ch : Ch) (e : Event) : e.Unmarked (e.enterPending ch) := by
  have stagger : ∀ b : Event, b.Unmarked b.wakeStagger := fun b => by
    obtain ⟨-, -, -, hdu, hout⟩ := Event.wakeStagger_rest b
    exact .of_same (by rw [hdu]) (by rw [hout]) (by rw [hout]) (by rw [hout])
  unfold Event.enterPending
  simp only
  refine Event.Unmarked.trans ((Event.modCc_unmarked ch Controller.forPending e).trans ?_) (stagger _)
  split
  · exact (Event.setState_unmarked ch _ _).trans (.of_same rfl rfl rfl rfl)
  · exact (Event.setState_unmarked ch _ _).trans (.of_same rfl rfl rfl rfl)

theorem Event.addOrigin_unmarked (o : Origin) (ch : Ch) (e : Event) : e.Unmarked (e.addOrigin o ch) := by
  have hrec : e.Unmarked (e.recordOrigin o ch) := Event.modCc_unmarked ch _ e
  have hpend := hrec.trans (Event.enterPending_unmarked ch (e.recordOrigin o ch))
  unfold Event.addOrigin
  split
  case h_1 | h_2 =>
    split
    · exact hpend
    · exact hrec
  case h_3 | h_4 | h_5 => exact hrec
  all_goals exact Event.Unmarked.refl e

theorem Event.tryWait_unmarked (ch : Ch) (e : Event) : e.Unmarked (e.tryWait ch) := by
  unfold Event.tryWait
  split
  · exact Event.setState_unmarked ch .waiting e
  · exact Event.Unmarked.refl e

theorem Event.returnToAwake_unmarked (ch : Ch) (e : Event) : e.Unmarked (e.returnToAwake ch) := by
  unfold Event.returnToAwake
  split
  · exact Event.setState_unmarked ch .awake e
  · exact Event.Unmarked.refl e

theorem Event.takePhase_unmarked (ch : Ch) (e : Event) : e.Unmarked (e.takePhase ch) := by
  rcases ChState.tracked_cases (e.cc.get ch).state with h | h | h
  · rw [Event.takePhase_waiting ch e h]
    split
    · exact Event.Unmarked.refl e
    · exact Event.returnToAwake_unmarked ch e
  · rw [Event.takePhase_awake ch e h]; exact Event.tryWait_unmarked ch e
  · rw [Event.takePhase_untracked ch e h]
    split
    · unfold Event.addIfResting
      split
      · exact Event.addOrigin_unmarked .morning ch e
      · exact Event.Unmarked.refl e
    · exact Event.Unmarked.refl e

theorem Event.runDownEnds_unmarked (ch : Ch) (e : Event) : e.Unmarked (e.runDownEnds ch) := by
  unfold Event.runDownEnds
  simp only
  split
  · exact (Event.modCc_unmarked ch _ e).trans (Event.setState_unmarked ch .rest _)
  · exact (Event.modCc_unmarked ch _ e).trans (Event.enterPending_unmarked ch _)

theorem Event.enterCoast_unmarked (ch : Ch) (e : Event) : e.Unmarked (e.enterCoast ch) := by
  have h : e.Unmarked (e.beginCoast ch) :=
    (Event.setState_unmarked ch .coast e).trans (.of_same rfl rfl rfl rfl)
  rw [Event.enterCoast_eq]
  split
  · exact h.trans (Event.runDownEnds_unmarked ch _)
  · exact h

theorem Event.reportVerdict_unmarked (due : PerChannel Bool) (ch : Ch) (e : Event) :
    e.Unmarked (e.reportVerdict due ch) := by
  unfold Event.reportVerdict
  split
  · split
    · exact (Event.setState_unmarked ch (.pending .budget) e).trans (.of_same rfl rfl rfl rfl)
    · exact Event.enterCoast_unmarked ch e
    · exact Event.Unmarked.refl e
  · exact Event.Unmarked.refl e

theorem Event.localCalls_unmarked (refs : List Ref) (e : Event) : e.Unmarked (e.localCalls refs) :=
  foldl_induct (P := fun b : Event => e.Unmarked b) (fun b r h => h.trans (by
    unfold Event.localCall
    split
    · exact Event.addOrigin_unmarked .call _ b
    · exact Event.Unmarked.refl b)) refs e (Event.Unmarked.refl e)

theorem Event.callFrame_unmarked (ch : Ch) (targets : List Ref) (e : Event) :
    e.Unmarked (e.callFrame ch targets) := by
  unfold Event.callFrame
  split
  · exact Event.Unmarked.refl e
  · refine ⟨rfl, rfl, id, fun k f hf => ?_⟩
    have hf : f ∈ (e.out.calls.set ch (e.out.calls.get ch ++ [⟨0, .call ch targets⟩])).get k := hf
    rw [PerChannel.get_set] at hf
    split at hf
    · rename_i hk
      rw [hk]
      exact (List.mem_append.1 hf).imp_right fun h => by rw [List.mem_singleton.1 h]; rfl
    · exact .inl hf

theorem Event.payCalls_unmarked (ch : Ch) (e : Event) : e.Unmarked (e.payCalls ch) := by
  have hpay : e.Unmarked (e.payCall ch) := by
    unfold Event.payCall
    split
    · generalize hb : ({ e with out.callDue := e.out.callDue.set ch false } : Event) = b
      have h : e.Unmarked b := by rw [← hb]; exact .of_same rfl rfl rfl rfl
      simp only
      split
      · exact (h.trans (Event.callFrame_unmarked ch _ b)).trans (Event.localCalls_unmarked _ _)
      · exact h
    · exact Event.Unmarked.refl e
  have hpaid : (e.payCall ch).Unmarked
      { e.payCall ch with out.standingDue := (e.payCall ch).out.standingDue.set ch [] } :=
    .of_same rfl rfl rfl rfl
  exact (hpay.trans hpaid).trans (Event.localCalls_unmarked _ _)

/-! ## The watch -/

/-- The notices of lost providers that begin together. -/
def Event.noticeLost (ch : Ch) (refs : List Ref) (e : Event) : Event :=
  refs.foldl (fun e r => e.noticeCh ch (.providerLost ch r)) e

theorem Event.noticeCh_has (ch k : Ch) (n : Notice) (f : Frame) (e : Event) (h : f ∈ e.out.notices.get k) :
    f ∈ (e.noticeCh ch n).out.notices.get k := by
  show f ∈ (e.out.notices.set ch _).get k
  rw [PerChannel.get_set]
  split
  · rename_i hk; rw [hk] at h; exact List.mem_append_left _ h
  · exact h

theorem Event.noticeLost_has (ch k : Ch) (refs : List Ref) (f : Frame) (e : Event)
    (h : f ∈ e.out.notices.get k) : f ∈ (e.noticeLost ch refs).out.notices.get k :=
  foldl_induct (P := fun b : Event => f ∈ b.out.notices.get k)
    (f := fun (e : Event) r => e.noticeCh ch (.providerLost ch r))
    (fun b _ hb => Event.noticeCh_has ch k _ f b hb) refs e h

theorem Event.noticeLost_mem (ch : Ch) {r : Ref} {refs : List Ref} (e : Event) (h : r ∈ refs) :
    (⟨0, .notice (.providerLost ch r)⟩ : Frame) ∈ (e.noticeLost ch refs).out.notices.get ch :=
  foldl_reaches (J := fun _ => True)
    (N := fun b : Event => (⟨0, .notice (.providerLost ch r)⟩ : Frame) ∈ b.out.notices.get ch)
    (f := fun (e : Event) r => e.noticeCh ch (.providerLost ch r)) (fun _ _ _ => trivial)
    (fun b _ hb => Event.noticeCh_has ch ch _ _ b hb) r (fun b _ => by
      show _ ∈ (b.out.notices.set ch _).get ch
      rw [PerChannel.get_set_same]
      exact List.mem_append_right _ (List.mem_singleton.2 rfl)) refs e h trivial

/-- The marks that a watch sets anew. -/
def State.begun (s : State) (ch : Ch) : List Ref :=
  (s.lostProviders ch).filter fun r => !(s.du.marks.get ch).contains r

theorem Event.watch_notices (ch : Ch) (e : Event) :
    (e.watch ch).out.notices = (e.noticeLost ch (e.begun ch)).out.notices := by
  have same : ∀ (refs : List Ref) (b b' : Event), b.out.notices = b'.out.notices →
      (b.noticeLost ch refs).out.notices = (b'.noticeLost ch refs).out.notices := by
    intro refs
    induction refs with
    | nil => exact fun _ _ h => h
    | cons r rest ih =>
      intro b b' h
      refine ih _ _ ?_
      show b.out.notices.set ch _ = b'.out.notices.set ch _
      rw [h]
  have framed : ∀ (p : Bool) (b : Event),
      (if p then b.standingFrame ch else b).out.notices = b.out.notices := fun p b => by
    cases p
    · rfl
    · exact (Event.callFrame_unmarked ch _ b).notices
  unfold Event.watch
  exact (framed _ _).trans (same _ _ _ rfl)

/-- The loss that the channel's mark of the provider stands for is noticed in the event. -/
def Event.lossNoticed (ch : Ch) (r : Ref) (e : Event) : Prop :=
  r ∈ e.du.marks.get ch → (⟨0, .notice (.providerLost ch r)⟩ : Frame) ∈ e.out.notices.get ch

theorem Event.lossNoticed.of_unmarked {ch : Ch} {r : Ref} {e e' : Event} (h : e.lossNoticed ch r)
    (k : e.Unmarked e') : e'.lossNoticed ch r := by
  unfold Event.lossNoticed
  rw [k.marks, k.notices]
  exact h

theorem Event.watch_lossNoticed (ch k : Ch) (r : Ref) (e : Event) (h : e.lossNoticed ch r) :
    (e.watch k).lossNoticed ch r := by
  have hmarks : (e.watch k).du.marks = e.du.marks.set k (e.lostProviders k) :=
    congrArg (fun s : State => s.du.marks) (Event.watch_toState k e)
  unfold Event.lossNoticed
  rw [hmarks, Event.watch_notices]
  intro hr
  by_cases hm : r ∈ e.du.marks.get ch
  · exact Event.noticeLost_has k ch _ _ e (h hm)
  · by_cases hk : ch = k
    · subst hk
      rw [PerChannel.get_set_same] at hr
      exact Event.noticeLost_mem ch e (List.mem_filter.2 ⟨hr, by simpa using hm⟩)
    · rw [PerChannel.get_set_other _ hk] at hr
      exact absurd hr hm

/-- Every mark that what follows from an event sets is noticed. -/
theorem Event.settle_lossNoticed (ch : Ch) (r : Ref) (n : Nat) (e : Event) (h : e.lossNoticed ch r) :
    (e.settle n).lossNoticed ch r := by
  have reported : ∀ b : Event, b.lossNoticed ch r → b.takeReports.lossNoticed ch r := fun b hb =>
    Event.forChannels_keeps (P := Event.lossNoticed ch r)
      (fun c k hc => hc.of_unmarked (Event.reportVerdict_unmarked _ k c)) b hb
  induction n generalizing e with
  | zero => exact h
  | succ n ih =>
    unfold Event.settle
    split
    · exact ih _ (Event.forChannels_keeps (P := Event.lossNoticed ch r)
        (fun b k hb => Event.watch_lossNoticed ch k r b hb) _ (reported e h))
    · split
      · exact ih _ (Event.forChannels_keeps (P := Event.lossNoticed ch r)
          (fun b k hb => hb.of_unmarked (Event.payCalls_unmarked k b)) e h)
      · exact h

/-- A mark that stands when a command has ended, and was noticed or not set before, is noticed. -/
theorem Event.follows_lossNoticed (order : List Block) (ch : Ch) (r : Ref) (e : Event) (hs : e.speaks)
    (h : e.lossNoticed ch r) (hr : r ∈ (e.settled.flush order).du.marks.get ch) :
    (e.settled.flush order).noticed (.providerLost ch r) := by
  rw [(Event.flush_flushes order e.settled).du] at hr
  exact Event.flush_queued rfl order _
    ((Event.settled_queueTakes e _).trans (State.speaks_queueTakes hs _))
    (.inr (.inl (Outbox.mem_allNotices_of_channel
      (Event.settle_lossNoticed ch r settleRounds e h hr))))

end Sys2Proof.Machine
end

