-- ==== Sys2Proof/Proofs/StateFrames.lean ====
section
/-! SUPPORT. STATE frames: the Peer Table takes the report, the Phase Unit adopts, and the watch of a running
load finds its provider lost (R53, R69, R105, R111). -/

namespace Sys2Proof.Machine

/-! ## The Peer Table (R53) -/

/-- An entry when a STATE frame of the station has been taken. -/
def PeerEntry.updated (station : Nat) (limit : Micros) (reports : PerChannel Byte) (p : PeerEntry) :
    PeerEntry :=
  if p.ref.station = station then p.report limit reports else p

theorem Event.updatePeers_eq (station : Nat) (reports : PerChannel Byte) (e : Event)
    (h : e.mc.mode.takesReports = true) : e.updatePeers station reports =
      { e with
        du.peers := e.du.peers.map
          (PeerEntry.updated station (e.plantTime Image.stalenessLimit) reports) } := by
  unfold Event.updatePeers
  rw [if_pos h]
  rfl

section
variable (station : Nat) (limit : Micros) (reports : PerChannel Byte) (p : PeerEntry)

theorem PeerEntry.updated_ref : (p.updated station limit reports).ref = p.ref := by
  unfold PeerEntry.updated PeerEntry.report
  split
  · split <;> rfl
  · rfl

theorem PeerEntry.updated_other (h : p.ref.station ≠ station) : p.updated station limit reports = p :=
  if_neg h

/-- What the entry of a reported channel is then. -/
theorem PeerEntry.updated_report (ch : Ch) (hs : p.ref.station = station) (hc : p.ref.channel = ch.toNat) :
    p.updated station limit reports = { p with
      state := reportState (reports.get ch)
      feedbackClosed := reportClosed (reports.get ch)
      held := reportHeld (reports.get ch)
      isPresent := true
      ageTimer := some limit } := by
  unfold PeerEntry.updated PeerEntry.report
  rw [if_pos hs, hc, Ch.ofNat?_toNat]

end

theorem reportState_eq (b : Byte) : reportState b = StateCode.ofNat? (b.toNat % 16) := by
  unfold reportState
  rw [BitVec.extractLsb'_toNat, Nat.shiftRight_zero]

/-! ## Adoption (R105, R106) -/

section
variable {s : State} {p : StatePayload}

theorem State.stateAdoption_some {ph : Phase} (hc : Phase.ofNat? p.phase.toNat = some ph)
    (hm : s.mc.mode.takesAll = true) (hop : p.mode.toNat = 3) (hs : p.source.toNat ≤ 63)
    (he : s.pu.epoch < p.epoch) : s.stateAdoption p = some ⟨ph, p.epoch, p.source.toNat⟩ := by
  unfold State.stateAdoption
  rw [hc]
  exact if_pos ⟨hm, hop, hs, he⟩

theorem State.stateAdoption_none (h : Phase.ofNat? p.phase.toNat = none ∨ p.mode.toNat ≠ 3 ∨
    63 < p.source.toNat ∨ p.epoch ≤ s.pu.epoch) : s.stateAdoption p = none := by
  unfold State.stateAdoption
  split
  · rename_i ph hc
    refine if_neg fun ⟨_, hop, hs, he⟩ => ?_
    rcases h with h | h | h | h
    · rw [h] at hc; exact absurd hc.symm (Option.some_ne_none ph)
    · exact h hop
    · exact absurd hs (Nat.not_le_of_lt h)
    · exact absurd he (BitVec.not_lt.2 h)
  · rfl

end

theorem Event.phaseEntry_unmarked (e : Event) : e.Unmarked (e.forChannels Event.takePhase) :=
  Event.forChannels_keeps (P := fun b => e.Unmarked b)
    (fun b k h => h.trans (Event.takePhase_unmarked k b)) e (Event.Unmarked.refl e)

theorem Event.adopted_unmarked (u : PhaseUnit) (e : Event) : e.Unmarked (e.adopted u) :=
  ⟨rfl, rfl, fun _ => rfl, fun _ _ hf => .inl hf⟩

/-- An adoption leaves the Peer Table and the watch marks, and Mode Control but for the stagger. -/
theorem Event.adopt_rest (a : Option PhaseUnit) (e : Event) : (e.adopt a).du.peers = e.du.peers ∧
    e.Unmarked (e.adopt a) ∧ ∃ t, (e.adopt a).mc = { e.mc with staggerTimer := t } := by
  cases a with
  | none => exact ⟨rfl, Event.Unmarked.refl e, _, rfl⟩
  | some u =>
    by_cases h : e.pu.phase = u.phase
    · have heq : e.adopt (some u) = e.adopted u := if_pos h
      rw [heq]
      exact ⟨rfl, Event.adopted_unmarked u e, _, rfl⟩
    · rw [Event.adopt_entry u e h]
      obtain ⟨hk, -⟩ := Event.phaseEntry_keptQuietly (e.adopted u)
      exact ⟨hk.peers, (Event.adopted_unmarked u e).trans (Event.phaseEntry_unmarked _), hk.mc⟩

/-- A phase entry leaves a STARTING channel as it is. -/
theorem Event.phaseEntry_starting (ch : Ch) (kind : StartKind) (e : Event)
    (h : (e.cc.get ch).state = .starting kind) :
    (e.forChannels Event.takePhase).cc.get ch = e.cc.get ch := by
  refine Event.phaseEntry_at (B := fun c _ => c = e.cc.get ch) ch e fun e' _ hc _ => ?_
  have hst : (e'.cc.get ch).state = .starting kind := by rw [hc]; exact h
  rw [Event.takePhase_untracked ch e' (by rw [hst]; rfl)]
  split
  · unfold Event.addIfResting
    rw [hst, if_neg Bool.noConfusion]; exact hc
  · exact hc

theorem Event.adopt_starting (a : Option PhaseUnit) (ch : Ch) (kind : StartKind) (e : Event)
    (h : (e.cc.get ch).state = .starting kind) : (e.adopt a).cc.get ch = e.cc.get ch := by
  cases a with
  | none => rfl
  | some u =>
    by_cases hp : e.pu.phase = u.phase
    · have heq : e.adopt (some u) = e.adopted u := if_pos hp
      rw [heq]; rfl
    · rw [Event.adopt_entry u e hp]
      exact Event.phaseEntry_starting ch kind (e.adopted u) h

/-! ## What a STATE frame leaves (R162) -/

/-- The event when a STATE frame has been dispatched and nothing of it has followed in the watch. -/
theorem Event.takeState_eq (env : Envelope) (p : StatePayload) (e : Event)
    (hm : e.mc.mode.takesReports = true) : e.takeState env p =
      { (e.adopt (e.stateAdoption p)).settled with
        du.peers := e.du.peers.map
          (PeerEntry.updated env.sender.toNat (e.plantTime Image.stalenessLimit) p.reports) } := by
  obtain ⟨hp, -, u, hu⟩ := Event.adopt_rest (e.stateAdoption p) e
  have hk := (Event.settled_follows (e.adopt (e.stateAdoption p))).kept
  have hmode : (e.adopt (e.stateAdoption p)).settled.mc.mode = e.mc.mode := by rw [hk.mode, hu]
  have himg : (e.adopt (e.stateAdoption p)).settled.mc.image = e.mc.image := by rw [hk.image, hu]
  have hlimit : (e.adopt (e.stateAdoption p)).settled.plantTime Image.stalenessLimit =
      e.plantTime Image.stalenessLimit := by unfold State.plantTime; rw [himg]
  unfold Event.takeState
  rw [Event.updatePeers_eq _ _ _ (by rw [hmode]; exact hm), hlimit, hk.peers, hp]

theorem Event.takeState_mc (env : Envelope) (p : StatePayload) (e : Event)
    (hm : e.mc.mode.takesReports = true) :
    ∃ t, (e.takeState env p).mc = { e.mc with staggerTimer := t } := by
  obtain ⟨-, -, u, hu⟩ := Event.adopt_rest (e.stateAdoption p) e
  obtain ⟨v, hv⟩ := (Event.settled_follows (e.adopt (e.stateAdoption p))).kept.mc
  rw [Event.takeState_eq env p e hm]
  exact ⟨v, hv.trans (by rw [hu])⟩

theorem Event.takeState_pu (env : Envelope) (p : StatePayload) (e : Event)
    (hm : e.mc.mode.takesReports = true) :
    (e.takeState env p).pu = (e.stateAdoption p).getD e.pu := by
  rw [Event.takeState_eq env p e hm]
  exact (Event.settled_follows _).kept.pu.trans (Event.adopt_pu _ e)

/-- A running channel that no phase entry concerns runs on. -/
theorem Event.takeState_running (env : Envelope) (p : StatePayload) (ch : Ch) (e : Event)
    (hm : e.mc.mode.takesReports = true) (h : (∃ kind, (e.cc.get ch).state = .starting kind) ∨
      ((e.cc.get ch).state = .awake ∧ p.epoch ≤ e.pu.epoch)) :
    ((e.takeState env p).cc.get ch).state = (e.cc.get ch).state := by
  have hadopt : (e.adopt (e.stateAdoption p)).cc.get ch = e.cc.get ch := by
    rcases h with ⟨kind, hst⟩ | ⟨-, hep⟩
    · exact Event.adopt_starting _ ch kind e hst
    · rw [State.stateAdoption_none (.inr (.inr (.inr hep)))]; rfl
  have hstays : (e.cc.get ch).state.stays = true := by
    rcases h with ⟨kind, hst⟩ | ⟨hst, -⟩ <;> rw [hst] <;> rfl
  have hf := ((Event.settled_follows (e.adopt (e.stateAdoption p))).channels ch).state
  rw [hadopt] at hf
  rw [Event.takeState_eq env p e hm]
  exact ChState.follows_of_stays hstays hf

/-- A mark that was not set before is noticed where the frame's dispatch has set it. -/
theorem Event.takeState_lossNoticed (env : Envelope) (p : StatePayload) (ch : Ch) (r : Ref) (e : Event)
    (hm : e.mc.mode.takesReports = true) (hr : r ∉ e.du.marks.get ch) :
    (e.takeState env p).lossNoticed ch r := by
  obtain ⟨-, hu, -⟩ := Event.adopt_rest (e.stateAdoption p) e
  have h : (e.adopt (e.stateAdoption p)).lossNoticed ch r :=
    Event.lossNoticed.of_unmarked (fun h => absurd h hr) hu
  rw [Event.takeState_eq env p e hm]
  exact Event.settle_lossNoticed ch r settleRounds _ h

/-- A frame that an ISOLATED node adopts is taken as one with the return, whatever the moment says (R111). -/
theorem stateReceived_isolated (m : Moment) (env : Envelope) (p : StatePayload) (ph : Phase) (s : State)
    (hm : s.mc.mode = .isolated) (hh : s.hears env kindState (statePayloadBytes p))
    (hc : Phase.ofNat? p.phase.toNat = some ph) (hop : p.mode.toNat = 3) (hs : p.source.toNat ≤ 63)
    (he : s.pu.epoch < p.epoch) : effectOf (.stateReceived m env p) (s.begin m) =
      Event.takeState env p (Event.rejoin { s.begin m with li.inProgress := none }) := by
  have ha : (s.begin m).stateAdoption p = some ⟨ph, p.epoch, p.source.toNat⟩ :=
    State.stateAdoption_some hc (by rw [show (s.begin m).mc.mode = .isolated from hm]; rfl) hop hs he
  show (s.begin m).hear (rejoinOrderOf ((s.begin m).stateAdoption p) m.arrival) env kindState _
    (Event.takeState env p) = _
  rw [ha, Event.hear_of_hears _ env kindState _ _ _ (State.hears_elapse m.elapsed hh)]
  unfold Event.heard
  rw [show ({ s.begin m with li.inProgress := none } : Event).mc.mode = .isolated from hm]
  rfl

/-- A reference of another station whose entry is in the table rests beneath its consumer where every such
entry is present in COAST or REST. -/
theorem State.restsBeneath_of_entry {t : State} {r : Ref} {st : StateCode} (hr : r.station ≠ t.mc.station)
    (hm : r ∈ t.du.peers.map PeerEntry.ref)
    (h : ∀ q ∈ t.du.peers, q.ref = r → q.state = some st ∧ q.isPresent = true)
    (hl : countsLost st = true) : t.restsBeneath r = true := by
  obtain ⟨q, hq, hqr⟩ := List.mem_map.1 hm
  cases hf : t.peer? r with
  | none =>
    have hne := List.find?_eq_none.1 hf q hq
    rw [hqr] at hne
    exact absurd (beq_self_eq_true r) hne
  | some q' =>
    have hmatch : (q'.ref == r) = true := List.find?_some (p := fun p : PeerEntry => p.ref == r) hf
    obtain ⟨hst, hpr⟩ := h q' (List.mem_of_find?_eq_some hf) (eq_of_beq hmatch)
    unfold State.restsBeneath
    rw [State.known_present hr hf hpr hst]
    exact hl

/-! ## The node when the command has ended -/

/-- The node when the command has ended whose STATE frame found it as `e`. -/
def Event.afterState (order : List Block) (env : Envelope) (p : StatePayload) (e : Event) : State :=
  ((e.takeState env p).settled.flush order).toState

section
variable (order : List Block) (env : Envelope) (p : StatePayload) (e : Event)

theorem Event.afterState_took : Took (e.takeState env p) (e.afterState order env p) :=
  Event.took order (e.takeState env p)

variable (hm : e.mc.mode.takesReports = true)

include hm

theorem Event.afterState_peers : (e.afterState order env p).du.peers = e.du.peers.map
    (PeerEntry.updated env.sender.toNat (e.plantTime Image.stalenessLimit) p.reports) := by
  rw [(e.afterState_took order env p).peers, Event.takeState_eq env p e hm]

theorem Event.afterState_refs :
    (e.afterState order env p).du.peers.map PeerEntry.ref = e.du.peers.map PeerEntry.ref := by
  rw [e.afterState_peers order env p hm, List.map_map]
  exact List.map_congr_left fun q _ => PeerEntry.updated_ref _ _ _ q

/-- Every entry of the sender holds its channel's report. -/
theorem Event.afterState_report (q : PeerEntry) (hq : q ∈ (e.afterState order env p).du.peers) (ch : Ch)
    (hs : q.ref.station = env.sender.toNat) (hc : q.ref.channel = ch.toNat) :
    q.state = StateCode.ofNat? ((p.reports.get ch).toNat % 16) ∧
      q.feedbackClosed = (p.reports.get ch).getLsbD 4 ∧ q.held = (p.reports.get ch).getLsbD 5 ∧
      q.isPresent = true ∧ q.ageTimer = some (e.plantTime Image.stalenessLimit) := by
  rw [e.afterState_peers order env p hm] at hq
  obtain ⟨q0, -, rfl⟩ := List.mem_map.1 hq
  rw [PeerEntry.updated_ref] at hs hc
  rw [PeerEntry.updated_report _ _ _ q0 ch hs hc]
  exact ⟨reportState_eq _, rfl, rfl, rfl, rfl⟩

theorem Event.afterState_pu : (e.afterState order env p).pu = (e.stateAdoption p).getD e.pu :=
  (e.afterState_took order env p).pu.trans (Event.takeState_pu env p e hm)

theorem Event.afterState_mc : ∃ t, (e.afterState order env p).mc = { e.mc with staggerTimer := t } := by
  obtain ⟨u, hu⟩ := Event.takeState_mc env p e hm
  obtain ⟨v, hv⟩ := (e.afterState_took order env p).mc
  exact ⟨v, hv.trans (by rw [hu])⟩

theorem Event.afterState_running (ch : Ch) (h : (∃ kind, (e.cc.get ch).state = .starting kind) ∨
    ((e.cc.get ch).state = .awake ∧ p.epoch ≤ e.pu.epoch)) :
    ((e.afterState order env p).cc.get ch).state.watching = true := by
  have hstate := Event.takeState_running env p ch e hm h
  have hst : (e.cc.get ch).state.stays = true ∧ (e.cc.get ch).state.watching = true := by
    rcases h with ⟨kind, hst⟩ | ⟨hst, -⟩ <;> rw [hst] <;> exact ⟨rfl, rfl⟩
  rw [(e.afterState_took order env p).code_kept ch (by rw [hstate]; exact hst.1), hstate]
  exact hst.2

/-- A provider that the frame reports in COAST or REST rests beneath its consumer. -/
theorem Event.afterState_rests (k : Ch) (r : Ref) (hown : env.sender.toNat ≠ e.mc.station)
    (hr : r ∈ e.du.peers.map PeerEntry.ref) (hs : r.station = env.sender.toNat)
    (hk : r.channel = k.toNat)
    (hl : StateCode.ofNat? ((p.reports.get k).toNat % 16) = some .coast ∨
      StateCode.ofNat? ((p.reports.get k).toNat % 16) = some .rest) :
    (e.afterState order env p).restsBeneath r = true := by
  obtain ⟨u, hu⟩ := e.afterState_mc order env p hm
  have hentry : ∀ st, StateCode.ofNat? ((p.reports.get k).toNat % 16) = some st →
      ∀ q ∈ (e.afterState order env p).du.peers, q.ref = r →
        q.state = some st ∧ q.isPresent = true := by
    intro st hst q hq hqr
    obtain ⟨h1, -, -, h2, -⟩ := e.afterState_report order env p hm q hq k (by rw [hqr]; exact hs)
      (by rw [hqr]; exact hk)
    exact ⟨h1.trans hst, h2⟩
  have hremote : r.station ≠ (e.afterState order env p).mc.station := by rw [hu, hs]; exact hown
  rw [← e.afterState_refs order env p hm] at hr
  rcases hl with h | h
  · exact State.restsBeneath_of_entry hremote hr (hentry _ h) rfl
  · exact State.restsBeneath_of_entry hremote hr (hentry _ h) rfl

/-- A running load's provider that rests beneath it is marked. -/
theorem Event.afterState_marked (ch : Ch) (r : Ref) (hr : r ∈ (e.record ch).needs)
    (hw : ((e.afterState order env p).cc.get ch).state.watching = true)
    (hb : (e.afterState order env p).restsBeneath r = true) :
    r ∈ (e.afterState order env p).du.marks.get ch := by
  have hsettled : (e.afterState order env p).settled := Event.follows_settled order _
  obtain ⟨u, hu⟩ := e.afterState_mc order env p hm
  rw [(hsettled ch).2.2]
  unfold State.lostProviders
  rw [if_pos hw, State.record_of_image (a := e.toState) (by rw [hu]) ch]
  exact List.mem_filter.2 ⟨hr, hb⟩

end

/-- Settles O23. -/
theorem stateFrameUpdatesPeersAndPhase : Obligations.StateFrameUpdatesPeersAndPhase := by
  unfold Obligations.StateFrameUpdatesPeersAndPhase
  intro m env p image s a hh himg
  refine ⟨fun hm ph hc hop hsrc hep => ?_, fun ho => ?_⟩
  · -- the effect does not depend on the arrival
    have heq : ∀ order, effectOf (.stateReceived { m with arrival := order } env p) (s.begin m) =
        Event.takeState env p (Event.rejoin { s.begin m with li.inProgress := none }) := fun order =>
      stateReceived_isolated { m with arrival := order } env p ph s hm hh hc hop hsrc hep
    obtain ⟨rpu, -, -, rmode⟩ := Event.rejoin_adopts { s.begin m with li.inProgress := none }
    generalize Event.rejoin { s.begin m with li.inProgress := none } = e at heq rpu rmode
    have hmode : e.mc.mode.takesReports = true := by rw [rmode]; rfl
    refine ⟨e.afterState m.order env p, fun order => ?_, ?_, ?_⟩
    · rw [exec_eq]
      exact congrArg (fun e : Event => Host.Outcome.next (e.settled.flush m.order).toState) (heq order)
    · rw [e.afterState_pu m.order env p hmode, State.stateAdoption_some hc (by rw [rmode]; rfl) hop hsrc
        (by rw [rpu]; exact hep)]
      rfl
    · obtain ⟨u, hu⟩ := e.afterState_mc m.order env p hmode
      rw [hu]
      exact rmode
  · generalize he : s.heardAt m = e
    have heq : effectOf (.stateReceived m env p) (s.begin m) = e.takeState env p := by
      rw [← he]; exact hear_onLine _ env kindState _ (Event.takeState env p) m s ho hh
    have hmc : e.mc.mode = s.mc.mode ∧ e.mc.station = s.mc.station ∧ e.mc.image = some image := by
      rw [← he]; exact ⟨rfl, rfl, himg⟩
    obtain ⟨hms, hst, himg'⟩ := hmc
    have hea : a.cc = e.cc ∧ a.du = e.du ∧ a.pu = e.pu ∧ a.record = e.record := by
      rw [← he]; exact ⟨rfl, rfl, rfl, rfl⟩
    obtain ⟨hcc, hdu, hpu, hrec⟩ := hea
    rw [hcc, hdu, hpu, hrec]
    have hall : e.mc.mode.takesReports = true ∧ e.mc.mode.takesAll = true := by
      rw [hms]; rcases ho with h | h <;> rw [h] <;> exact ⟨rfl, rfl⟩
    obtain ⟨hmode, htakes⟩ := hall
    have hlimit : e.plantTime Image.stalenessLimit = image.stalenessLimit := by
      unfold State.plantTime; rw [himg']
    refine ⟨e.afterState m.order env p, ?_, e.afterState_refs m.order env p hmode, fun q hq hne => ?_,
      fun q hq ch hs hc => ?_, fun ph hc hop hsrc hep => ?_, fun hn => ?_,
      fun ch k r hr hm hs hk hmark hrun hlost => ?_⟩
    · rw [exec_eq]
      exact congrArg (fun e : Event => Host.Outcome.next (e.settled.flush m.order).toState) heq
    · rw [e.afterState_peers m.order env p hmode]
      exact List.mem_map.2 ⟨q, hq, PeerEntry.updated_other _ _ _ q hne⟩
    · rw [← hlimit]
      exact e.afterState_report m.order env p hmode q hq ch hs hc
    · rw [e.afterState_pu m.order env p hmode, State.stateAdoption_some hc htakes hop hsrc hep]
      rfl
    · rw [e.afterState_pu m.order env p hmode, State.stateAdoption_none hn]
      rfl
    · have hown : env.sender.toNat ≠ e.mc.station := by rw [hst]; exact hh.2.2.2.1
      have hmarked := e.afterState_marked m.order env p hmode ch r hr
        (e.afterState_running m.order env p hmode ch hrun)
        (e.afterState_rests m.order env p hmode k r hown hm hs hk hlost)
      refine ⟨hmarked, fun h0 => Event.follows_lossNoticed m.order ch r _ ?_
        (Event.takeState_lossNoticed env p ch r e hmode hmark) hmarked⟩
      obtain ⟨u, hu⟩ := Event.takeState_mc env p e hmode
      unfold State.speaks
      rw [hu]
      show e.mc.station ≠ 0 ∧ e.mc.mode ≠ _ ∧ e.mc.mode ≠ _
      rw [hms, hst]
      rcases ho with h | h <;> rw [h] <;> exact ⟨h0, Mode.noConfusion, Mode.noConfusion⟩

end Sys2Proof.Machine
end

