-- ==== Sys2Proof/Proofs/StateReports.lean ====
section
/-! SUPPORT. A STATE frame that an event owes joins the queue, unless the queue is full of frames that make no
room for it, and reports the node as the event leaves it (R156, R157, R159). -/

namespace Sys2Proof.Machine

/-! ## What is owed until the event settles -/

/-- A STATE frame is owed, and none is among the notices and calls of the channels. -/
structure Event.OwesReport (e : Event) : Prop where
  owed : e.out.stateDue = true
  notices : ∀ ch, ∀ f ∈ e.out.notices.get ch, f.isState = false
  calls : ∀ ch, ∀ f ∈ e.out.calls.get ch, f.isState = false

theorem Event.OwesReport.of_unmarked {e e' : Event} (h : e.OwesReport) (k : e.Unmarked e') :
    e'.OwesReport where
  owed := k.owed h.owed
  notices := by rw [k.notices]; exact h.notices
  calls ch f hf := (k.calls ch f hf).elim (h.calls ch f) id

theorem Event.OwesReport.noticeLost {e : Event} (ch : Ch) (refs : List Ref) (h : e.OwesReport) :
    (e.noticeLost ch refs).OwesReport := by
  refine foldl_induct (P := Event.OwesReport)
    (f := fun (e : Event) r => e.noticeCh ch (.providerLost ch r))
    (fun b r hb => ⟨hb.owed, fun k f hf => ?_, hb.calls⟩) refs e h
  have hf : f ∈ (b.out.notices.set ch _).get k := hf
  rw [PerChannel.get_set] at hf
  split at hf
  · rcases List.mem_append.1 hf with hf | hf
    · exact hb.notices ch f hf
    · rw [List.mem_singleton.1 hf]; rfl
  · exact hb.notices k f hf

theorem Event.OwesReport.watch {e : Event} (ch : Ch) (h : e.OwesReport) : (e.watch ch).OwesReport := by
  have framed : ∀ (p : Bool) (b : Event), b.OwesReport →
      (if p then b.standingFrame ch else b).OwesReport := fun p b hb => by
    cases p
    · exact hb
    · exact hb.of_unmarked (Event.callFrame_unmarked ch _ b)
  have hmarked : Event.OwesReport { e with du.marks := e.du.marks.set ch (e.lostProviders ch) } :=
    ⟨h.owed, h.notices, h.calls⟩
  unfold Event.watch
  exact Event.OwesReport.of_unmarked (framed _ _ (hmarked.noticeLost ch (e.begun ch)))
    (.of_same rfl rfl rfl rfl)

theorem Event.OwesReport.settle (n : Nat) {e : Event} (h : e.OwesReport) : (e.settle n).OwesReport := by
  have each {f : Ch → Event → Event} (hf : ∀ b k, b.OwesReport → (f k b).OwesReport) {b : Event}
      (hb : b.OwesReport) : (b.forChannels f).OwesReport := Event.forChannels_keeps hf b hb
  induction n generalizing e with
  | zero => exact h
  | succ n ih =>
    unfold Event.settle
    split
    · exact ih (each (fun b k hb => hb.watch k)
        (each (fun b k hb => hb.of_unmarked (Event.reportVerdict_unmarked _ k b)) h))
    · split
      · exact ih (each (fun b k hb => hb.of_unmarked (Event.payCalls_unmarked k b)) h)
      · exact h

/-! ## The queue (R156, R157) -/

/-- The frame stands in the queue, or the queue is full of frames that make no room for a STATE frame. -/
def standsOrShut (f : Frame) (q : List Frame) : Prop :=
  f ∈ q ∨ 16 ≤ q.length ∧ ∀ g ∈ q, g.isState = false ∧ g.isReport = false

theorem Frame.not_report_of_state {f : Frame} (h : f.isState = true) : f.isReport = false := by
  unfold Frame.isState at h
  unfold Frame.isReport
  split at h
  · rename_i hb; rw [hb]
  · exact Bool.noConfusion h

theorem Frame.displaces_of_state {f : Frame} (h : f.isState = true) : f.displaces = true := by
  unfold Frame.isState at h
  unfold Frame.displaces
  split at h
  · rename_i hb; rw [hb]
  · exact Bool.noConfusion h

section
variable {f g : Frame} {q : List Frame}

/-- What another frame does not displace stays where it joins. -/
theorem joinQueue_standsOrShut (hf : f.isState = true) (hg : g.isState = false)
    (h : standsOrShut f q) : standsOrShut f (joinQueue g q) := by
  unfold joinQueue
  rw [hg, Bool.false_and, if_neg Bool.noConfusion]
  by_cases hroom : q.length < Config.queueCapacity
  · rw [if_pos hroom]
    rcases h with h | ⟨hlen, -⟩
    · exact .inl (List.mem_append_left _ h)
    · exact absurd hlen (Nat.not_le_of_lt hroom)
  · rw [if_neg hroom]
    split
    · split
      · rename_i r hr
        rcases h with h | ⟨-, hshut⟩
        · exact .inl (List.mem_append_left _ (dropOldestReport_mem hr h (Frame.not_report_of_state hf)))
        · obtain ⟨x, hx, hrep⟩ := dropOldestReport_subset hr
          rw [(hshut x hx).2] at hrep
          exact Bool.noConfusion hrep
      · exact h
    · exact h

/-- A STATE frame joins, unless the queue is full of frames that make no room for it. -/
theorem joinQueue_state (hf : f.isState = true) : standsOrShut f (joinQueue f q) := by
  unfold joinQueue
  rw [hf, Bool.true_and]
  by_cases hany : q.any Frame.isState = true
  · rw [if_pos hany]
    obtain ⟨x, hx, hxs⟩ := List.any_eq_true.1 hany
    exact .inl (List.mem_map.2 ⟨x, hx, if_pos hxs⟩)
  · rw [if_neg hany]
    by_cases hroom : q.length < Config.queueCapacity
    · rw [if_pos hroom]
      exact .inl (List.mem_append_right _ (List.mem_singleton.2 rfl))
    · rw [if_neg hroom, if_pos (Frame.displaces_of_state hf)]
      split
      · exact .inl (List.mem_append_right _ (List.mem_singleton.2 rfl))
      · rename_i hnone
        refine .inr ⟨Nat.le_of_not_lt hroom, fun x hx => ⟨?_, dropOldestReport_none hnone x hx⟩⟩
        exact Bool.eq_false_iff.2 fun hs => hany (List.any_eq_true.2 ⟨x, hx, hs⟩)

end

/-! ## The joining of frames -/

/-- The STATE frame that reports the node as it stands. -/
def State.stateFrame (s : State) : Frame := ⟨0, .state s.report⟩

/-- The joining of frames changes nothing that a STATE frame reports. -/
theorem Flushes.report {e e' : Event} (h : Flushes e e') : e'.report = e.report := by
  have himage : e'.mc.image = e.mc.image := by rw [h.mc]
  have hheld : ∀ ch, e'.reportedHeld ch = e.reportedHeld ch := fun ch => by
    unfold State.reportedHeld
    rw [himage, State.held_of_same h.cu himage ch, h.cu]
  have hchannel : e'.channelReport = e.channelReport := by
    funext ch
    unfold State.channelReport
    rw [ChState.flushes_code (h.state ch), (Controller.withState _ _ (h.rest ch)).1, hheld ch]
  unfold State.report
  rw [hchannel, h.mc, h.pu]

theorem Flushes.stateFrame {e e' : Event} (h : Flushes e e') : e'.stateFrame = e.stateFrame := by
  unfold State.stateFrame
  rw [h.report]

/-- The Budget Unit queues nothing, the mode takes STATE frames, and the node's own is still owed, or has
joined, or found no place. -/
structure Event.Reporting (e : Event) : Prop where
  budget : e.out.budget = []
  takes : e.queueTakes e.stateFrame.body = true
  report : e.out.stateDue = true ∨ standsOrShut e.stateFrame e.li.queue

theorem Event.Reporting.of_flushes {e e' : Event} (h : e.Reporting) (k : Flushes e e')
    (hout : e'.out.budget = e.out.budget ∧ e'.out.stateDue = e.out.stateDue) (hli : e'.li = e.li) :
    e'.Reporting where
  budget := hout.1.trans h.budget
  takes := by rw [k.stateFrame, State.queueTakes_of_mc k.mc]; exact h.takes
  report := by rw [hout.2, k.stateFrame, hli]; exact h.report

theorem Event.Reporting.enqueue {e : Event} (g : Frame) (hg : g.isState = false) (h : e.Reporting) :
    (e.enqueue g).Reporting := by
  have k := Event.enqueue_flushes g e
  have hout := (Event.enqueue_rest g e).2.2.2.2
  refine ⟨by rw [hout]; exact h.budget, by
    rw [k.stateFrame, State.queueTakes_of_mc k.mc]; exact h.takes, ?_⟩
  rw [hout, k.stateFrame]
  refine h.report.imp_right fun hs => ?_
  unfold Event.enqueue
  split
  · exact joinQueue_standsOrShut rfl hg hs
  · exact hs

theorem Event.Reporting.enqueueAll {e : Event} (fs : List Frame) (hfs : ∀ f ∈ fs, f.isState = false)
    (h : e.Reporting) : (e.enqueueAll fs).Reporting := by
  induction fs generalizing e with
  | nil => exact h
  | cons g rest ih =>
    exact ih (fun f hf => hfs f (List.mem_cons_of_mem _ hf)) (h.enqueue g (hfs g (List.mem_cons_self ..)))

theorem Event.enqueue_queue (f : Frame) (e : Event) (h : e.queueTakes f.body = true) :
    (e.enqueue f).li.queue = joinQueue f e.li.queue := by
  unfold Event.enqueue
  rw [if_pos h]

/-- The STATE frame that is owed joins. -/
theorem Event.Reporting.payState {e : Event} (h : e.Reporting) :
    e.payState.Reporting ∧ standsOrShut e.payState.stateFrame e.payState.li.queue := by
  have k := Event.payState_flushes e
  suffices hp : e.payState.out.budget = [] ∧ standsOrShut e.stateFrame e.payState.li.queue by
    refine ⟨⟨hp.1, ?_, .inr ?_⟩, ?_⟩
    · rw [k.stateFrame, State.queueTakes_of_mc k.mc]; exact h.takes
    · rw [k.stateFrame]; exact hp.2
    · rw [k.stateFrame]; exact hp.2
  unfold Event.payState
  split
  · refine ⟨?_, ?_⟩
    · rw [(Event.enqueue_rest _ _).2.2.2.2]; exact h.budget
    · have hq := Event.enqueue_queue e.stateFrame { e with out.stateDue := false } h.takes
      exact hq.symm ▸ joinQueue_state rfl
  · rename_i hd
    exact ⟨h.budget, h.report.resolve_left hd⟩

theorem Event.Reporting.openClaim {e : Event} (ch : Ch) (h : e.Reporting) (hc : e.claimable ch = true) :
    (e.openClaim ch).Reporting := by
  have hst := (State.claimable_iff hc).1
  unfold Event.openClaim
  simp only
  generalize hb : ({ e with
    bu.counter := nextNumber (e.newClaim ch).number
    bu.claims := e.bu.claims.map (Claim.addMark (e.newClaim ch).number .before) ++
      [e.newClaim ch] } : Event) = b
  have hbr : b.Reporting := by rw [← hb]; exact ⟨h.budget, h.takes, h.report⟩
  have h1 := hbr.enqueue ⟨0, .claim (e.newClaim ch).number ch (e.newClaim ch).weight (e.newClaim ch).rank⟩
    rfl
  generalize hE : b.enqueue _ = e1 at h1
  have hst1 : (e1.cc.get ch).state = .pending .budget := by
    rw [← hE, (Event.enqueue_rest _ b).1, ← hb]; exact hst
  refine h1.of_flushes (Event.setState_flushes ch .budget .claiming e1 hst1 (.inl rfl) (.inr rfl))
    ?_ (Event.setState_kept ch _ e1).li
  unfold Event.setState
  rw [hst1]
  exact ⟨rfl, rfl⟩

theorem Event.Reporting.evaluateBudget {e : Event} (h : e.Reporting) : e.evaluateBudget.Reporting := by
  have hfold : (byPrecedence.foldl (fun (e : Event) p =>
      if (e.record p.2).rank = p.1 ∧ e.claimable p.2 then e.createClaim p.2 else e)
      { e with out.evalDue := false }).Reporting := by
    refine foldl_induct (P := Event.Reporting) (fun b p hb => ?_) _ _ ⟨h.budget, h.takes, h.report⟩
    split
    · rename_i hc
      rw [Event.createClaim_of_claimable hc.2]
      exact hb.openClaim p.2 hc.2
    · exact hb
  unfold Event.evaluateBudget
  simp only
  generalize byPrecedence.foldl _ _ = b at hfold ⊢
  exact ⟨hfold.budget, hfold.takes, hfold.report⟩

theorem Event.Reporting.payBudget {e : Event} (h : e.Reporting) : e.payBudget.Reporting := by
  unfold Event.payBudget
  rw [h.budget]
  simp only
  split
  · exact h.evaluateBudget
  · exact h

theorem Event.Reporting.drainBudget (n : Nat) {e : Event} (h : e.Reporting) :
    (e.drainBudget n).Reporting := by
  induction n generalizing e with
  | zero => exact h
  | succ n ih =>
    unfold Event.drainBudget
    split
    · exact h
    · have h1 : Event.Reporting { e with out.budget := [] } := ⟨rfl, h.takes, h.report⟩
      rw [h.budget]
      simp only
      split
      · exact ih (Event.Reporting.evaluateBudget h1)
      · exact ih h1

/-- An ending that is reporting, with no STATE frame among those to come. -/
def Ending.Reporting (d : Ending) : Prop :=
  d.ev.Reporting ∧ (∀ f ∈ d.notices, f.isState = false) ∧ (∀ f ∈ d.calls, f.isState = false) ∧
    ∀ f ∈ d.replies, f.isState = false

theorem Ending.Reporting.next {d : Ending} (b : Block) (h : d.Reporting) : (d.next b).Reporting := by
  obtain ⟨he, hn, hc, hr⟩ := h
  have head {f : Frame} {rest l : List Frame} (hl : l = f :: rest) (h : ∀ g ∈ l, g.isState = false) :
      f.isState = false ∧ ∀ g ∈ rest, g.isState = false := by
    subst hl
    exact ⟨h f (List.mem_cons_self ..), fun g hg => h g (List.mem_cons_of_mem _ hg)⟩
  cases b <;> unfold Ending.next <;> simp only
  case iu =>
    split
    · rename_i f rest hl
      obtain ⟨hf, hrest⟩ := head hl hn
      exact ⟨he.enqueue f hf, hrest, hc, hr⟩
    · exact ⟨he, hn, hc, hr⟩
  case du =>
    split
    · rename_i f rest hl
      obtain ⟨hf, hrest⟩ := head hl hc
      exact ⟨he.enqueue f hf, hn, hrest, hr⟩
    · exact ⟨he, hn, hc, hr⟩
  case cu =>
    split
    · rename_i f rest hl
      obtain ⟨hf, hrest⟩ := head hl hr
      exact ⟨he.enqueue f hf, hn, hc, hrest⟩
    · exact ⟨he, hn, hc, hr⟩
  case bu => exact ⟨he.payBudget, hn, hc, hr⟩
  case li => exact ⟨he.payState.1, hn, hc, hr⟩

/-- The STATE frame that an event owes is in the queue at its end, or found no place. -/
theorem Event.flush_reports (order : List Block) (e : Event) (h : e.Reporting)
    (hn : ∀ f ∈ e.out.allNotices, f.isState = false) (hc : ∀ f ∈ e.out.allCalls, f.isState = false)
    (hr : ∀ f ∈ e.out.replies, f.isState = false) :
    standsOrShut (e.flush order).stateFrame (e.flush order).li.queue := by
  have hd : (order.foldl Ending.next ⟨e, e.out.allNotices, e.out.allCalls, e.out.replies⟩).Reporting :=
    foldl_induct (P := Ending.Reporting) (fun d b => Ending.Reporting.next b) order _ ⟨h, hn, hc, hr⟩
  unfold Event.flush
  simp only
  generalize order.foldl Ending.next _ = d at hd ⊢
  obtain ⟨he, hn', hc', hr'⟩ := hd
  exact (((((he.enqueueAll d.notices hn').enqueueAll d.calls hc').drainBudget budgetRounds).enqueueAll
    d.replies hr').payState).2

theorem State.queueTakes_state {s : State} (h : s.speaks) (r : StateReport) :
    s.queueTakes (.state r) = true := by
  obtain ⟨h1, h2, h3⟩ := h
  unfold State.queueTakes
  cases hm : s.mc.mode <;> simp_all

/-- A command that owes a STATE frame, and no frame of another block but notices and calls of channels, ends
with it in the queue, or with no place for it. -/
theorem Event.follows_reports (order : List Block) (e : Event) (hs : e.speaks) (h : e.OwesReport)
    (hb : e.out.budget = []) (hr : e.out.replies = []) (hn : e.out.nodeNotices = [])
    (hx : e.out.expiredHolds = []) :
    standsOrShut (e.settled.flush order).stateFrame (e.settled.flush order).li.queue := by
  have k := (Event.settled_follows e).kept
  have h' : e.settled.OwesReport := h.settle settleRounds
  refine Event.flush_reports order e.settled ⟨k.budget.trans hb, ?_, .inl h'.owed⟩ (fun f hf => ?_)
    (fun f hf => ?_) fun f hf => ?_
  · rw [Event.settled_queueTakes]; exact State.queueTakes_state hs _
  · unfold Outbox.allNotices at hf
    rw [k.nodeNotices, k.expiredHolds, hn, hx, mergeNotices_nil, List.nil_append] at hf
    obtain ⟨l, hl, hf⟩ := List.mem_flatten.1 hf
    obtain ⟨ch, -, rfl⟩ := List.mem_map.1 hl
    exact h'.notices ch f hf
  · obtain ⟨l, hl, hf⟩ := List.mem_flatten.1 hf
    have hmem : ∀ (p : PerChannel (List Frame)), l ∈ p.toList → ∃ ch, p.get ch = l := fun p hp => by
      simp only [PerChannel.toList, List.mem_cons, List.not_mem_nil, or_false] at hp
      rcases hp with h | h | h | h | h | h
      exacts [⟨.c0, h.symm⟩, ⟨.c1, h.symm⟩, ⟨.c2, h.symm⟩, ⟨.c3, h.symm⟩, ⟨.c4, h.symm⟩,
        ⟨.c5, h.symm⟩]
    obtain ⟨ch, rfl⟩ := hmem _ hl
    exact h'.calls ch f hf
  · rw [k.replies, hr] at hf
    exact absurd hf List.not_mem_nil

end Sys2Proof.Machine
end

