-- ==== Sys2Proof/Proofs/QueueRoom.lean ====
section
/-! SUPPORT. An event that owes a STATE frame and CALL frames alone, with room in the queue for all of them:
every one of them joins (R156, R157, log 4). -/

namespace Sys2Proof.Machine

/-! ## The queue -/

theorem joinQueue_append {g : Frame} {q : List Frame} (hg : g.isState = false) (h : q.length < 16) :
    joinQueue g q = q ++ [g] := by
  unfold joinQueue
  rw [hg, Bool.false_and, if_neg Bool.noConfusion, if_pos (show q.length < Config.queueCapacity from h)]

theorem joinQueue_state_room {f : Frame} {q : List Frame} (hf : f.isState = true) (h : q.length < 16) :
    f ∈ joinQueue f q := by
  unfold joinQueue
  rw [hf, Bool.true_and]
  split
  · rename_i hany
    obtain ⟨x, hx, hxs⟩ := List.any_eq_true.1 hany
    exact List.mem_map.2 ⟨x, hx, if_pos hxs⟩
  · rw [if_pos (show q.length < Config.queueCapacity from h)]
    exact List.mem_append_right _ (List.mem_singleton.2 rfl)

/-! ## The joining -/

/-- No budget work is owed, the STATE frame `F` is owed or in the queue, and `n` further frames and what is owed
of it find room. -/
structure Event.Fits (F : Frame) (n : Nat) (e : Event) : Prop where
  budget : e.out.budget = []
  eval : e.out.evalDue = false
  frame : e.stateFrame = F
  takes : e.queueTakes F.body = true
  state : e.out.stateDue = true ∨ F ∈ e.li.queue
  room : e.li.queue.length + (if e.out.stateDue then 1 else 0) + n ≤ 16

section
variable {F : Frame} {n : Nat} {e : Event}

/-- A frame that joins a queue with room leaves what is in it, and is in it where the mode takes it. -/
theorem Event.Fits.enqueue {g : Frame} (hg : g.isState = false) (h : e.Fits F (n + 1)) :
    (e.enqueue g).Fits F n ∧ (∀ f ∈ e.li.queue, f ∈ (e.enqueue g).li.queue) ∧
      (e.queueTakes g.body = true → g ∈ (e.enqueue g).li.queue) := by
  have k := Event.enqueue_flushes g e
  have hout := (Event.enqueue_rest g e).2.2.2.2
  have hroom := h.room
  have hq : (e.enqueue g).li.queue = if e.queueTakes g.body then e.li.queue ++ [g] else e.li.queue := by
    split
    · rename_i ht
      rw [Event.enqueue_queue g e ht, joinQueue_append hg (by omega)]
    · rename_i ht
      unfold Event.enqueue
      rw [if_neg ht]
  have hlen : (e.enqueue g).li.queue.length ≤ e.li.queue.length + 1 := by
    rw [hq]
    split
    · rw [List.length_append, List.length_singleton]
    · omega
  have hkeep : ∀ f ∈ e.li.queue, f ∈ (e.enqueue g).li.queue := fun f hf => by
    rw [hq]
    split
    · exact List.mem_append_left _ hf
    · exact hf
  refine ⟨⟨by rw [hout]; exact h.budget, by rw [hout]; exact h.eval, k.stateFrame.trans h.frame,
    (State.queueTakes_of_mc k.mc _).trans h.takes, ?_, ?_⟩, hkeep, fun ht => ?_⟩
  · rw [hout]; exact h.state.imp_right (hkeep F)
  · rw [hout]; omega
  · rw [hq, if_pos ht]; exact List.mem_append_right _ (List.mem_singleton.2 rfl)

/-- The STATE frame joins, and displaces no other frame. -/
theorem Event.Fits.payState (h : e.Fits F n) : e.payState.Fits F n ∧ F ∈ e.payState.li.queue ∧
    ∀ f ∈ e.li.queue, f.isState = false → f ∈ e.payState.li.queue := by
  have k := Event.payState_flushes e
  suffices hp : e.payState.out.budget = [] ∧ e.payState.out.evalDue = false ∧
      e.payState.out.stateDue = false ∧ F ∈ e.payState.li.queue ∧
      e.payState.li.queue.length + n ≤ 16 ∧
      ∀ f ∈ e.li.queue, f.isState = false → f ∈ e.payState.li.queue by
    obtain ⟨hb, he, hd, hF, hroom, hkeep⟩ := hp
    exact ⟨⟨hb, he, k.stateFrame.trans h.frame, (State.queueTakes_of_mc k.mc _).trans h.takes, .inr hF,
      by rw [hd]; exact hroom⟩, hF, hkeep⟩
  have hroom := h.room
  unfold Event.payState
  split
  · rename_i hd
    rw [if_pos hd] at hroom
    have hout := (Event.enqueue_rest F { e with out.stateDue := false }).2.2.2.2
    have hq : (Event.enqueue F { e with out.stateDue := false }).li.queue = joinQueue F e.li.queue :=
      Event.enqueue_queue F { e with out.stateDue := false } h.takes
    have hF : (⟨0, .state ({ e with out.stateDue := false } : Event).report⟩ : Frame) = F := h.frame
    obtain ⟨hlen, hmem⟩ := joinQueue_room (q := e.li.queue) F (by omega)
    rw [hF, hout, hq]
    exact ⟨h.budget, h.eval, rfl, joinQueue_state_room (by rw [← h.frame]; rfl) (by omega), by omega,
      fun f hf hs => hmem f hs (.inl hf)⟩
  · rename_i hd
    rw [if_neg hd] at hroom
    exact ⟨h.budget, h.eval, Bool.eq_false_iff.2 hd, h.state.resolve_left hd, hroom, fun _ hf _ => hf⟩

theorem Event.Fits.payBudget (h : e.Fits F n) : e.payBudget = e := by
  unfold Event.payBudget
  rw [h.budget]
  simp only
  rw [h.eval, if_neg Bool.noConfusion]

theorem Event.Fits.drainBudget (rounds : Nat) (h : e.Fits F n) : e.drainBudget rounds = e := by
  cases rounds with
  | zero => rfl
  | succ rounds =>
    unfold Event.drainBudget
    exact if_pos ⟨h.budget, h.eval⟩

end

/-- An ending of an event of CALL frames `fs` and a STATE frame `F`, all of which have joined or find room. -/
structure Ending.Fits (F : Frame) (fs : List Frame) (d : Ending) : Prop where
  notices : d.notices = []
  replies : d.replies = []
  fits : d.ev.Fits F d.calls.length
  plain : ∀ f ∈ d.calls, f.isState = false
  takes : ∀ f ∈ fs, f.isState = false ∧ d.ev.queueTakes f.body = true
  joined : ∀ f ∈ fs, f ∈ d.ev.li.queue ∨ f ∈ d.calls

section
variable {F : Frame} {fs : List Frame}

/-- The next CALL frame joins. -/
theorem Ending.Fits.call {e : Event} {g : Frame} {rest : List Frame}
    (h : Ending.Fits F fs ⟨e, [], g :: rest, []⟩) : Ending.Fits F fs ⟨e.enqueue g, [], rest, []⟩ := by
  obtain ⟨hfit, hkeep, hself⟩ := Event.Fits.enqueue (h.plain g (List.mem_cons_self ..)) h.fits
  refine ⟨rfl, rfl, hfit, fun f hf => h.plain f (List.mem_cons_of_mem _ hf), fun f hf => ?_,
    fun f hf => ?_⟩
  · rw [State.queueTakes_of_mc (Event.enqueue_flushes g e).mc]
    exact h.takes f hf
  · rcases h.joined f hf with hq | hc
    · exact .inl (hkeep f hq)
    · rcases List.mem_cons.1 hc with rfl | hc
      · exact .inl (hself (h.takes f hf).2)
      · exact .inr hc

theorem Ending.Fits.next {d : Ending} (b : Block) (h : d.Fits F fs) : (d.next b).Fits F fs := by
  obtain ⟨e, notices, calls, replies⟩ := d
  obtain rfl : notices = [] := h.notices
  obtain rfl : replies = [] := h.replies
  cases b with
  | iu => exact h
  | cu => exact h
  | du =>
    cases calls with
    | nil => exact h
    | cons g rest => exact h.call
  | bu =>
    have hb := h.fits.payBudget
    unfold Ending.next
    simp only
    rw [hb]
    exact h
  | li =>
    obtain ⟨hfit, -, hkeep⟩ := h.fits.payState
    refine ⟨rfl, rfl, hfit, h.plain, fun f hf => ?_, fun f hf => ?_⟩
    · obtain ⟨hs, ht⟩ := h.takes f hf
      exact ⟨hs, (State.queueTakes_of_mc (Event.payState_flushes e).mc _).trans ht⟩
    · exact (h.joined f hf).imp_left fun hq => hkeep f hq (h.takes f hf).1

theorem Ending.Fits.enqueueAll {e : Event} {calls : List Frame}
    (h : Ending.Fits F fs ⟨e, [], calls, []⟩) : Ending.Fits F fs ⟨e.enqueueAll calls, [], [], []⟩ := by
  induction calls generalizing e with
  | nil => exact h
  | cons g rest ih => exact ih h.call

/-- With room for all of them the STATE frame and the CALL frames of an event are in the queue at its end. -/
theorem Event.flush_fits (order : List Block) (e : Event) (hn : e.out.allNotices = [])
    (hr : e.out.replies = []) (hfit : e.Fits F e.out.allCalls.length)
    (hc : ∀ f ∈ e.out.allCalls, f.isState = false ∧ e.queueTakes f.body = true) :
    F ∈ (e.flush order).li.queue ∧ ∀ f ∈ e.out.allCalls, f ∈ (e.flush order).li.queue := by
  have hd : (order.foldl Ending.next ⟨e, e.out.allNotices, e.out.allCalls, e.out.replies⟩).Fits F
      e.out.allCalls := by
    refine foldl_induct (P := fun d : Ending => d.Fits F e.out.allCalls)
      (fun d b => Ending.Fits.next b) order _ ?_
    exact ⟨hn, hr, hfit, fun f hf => (hc f hf).1, hc, fun f hf => .inr hf⟩
  unfold Event.flush
  simp only
  generalize order.foldl Ending.next _ = d at hd ⊢
  obtain ⟨b, notices, calls, replies⟩ := d
  obtain rfl : notices = [] := hd.notices
  obtain rfl : replies = [] := hd.replies
  have h := hd.enqueueAll
  simp only [Event.enqueueAll, List.foldl_nil] at h ⊢
  rw [h.fits.drainBudget]
  obtain ⟨-, hF, hkeep⟩ := h.fits.payState
  exact ⟨hF, fun f hf => hkeep f ((h.joined f hf).resolve_right List.not_mem_nil) (h.takes f hf).1⟩

end

end Sys2Proof.Machine
end

