-- ==== Sys2Proof/Proofs/Heartbeats.lean ====
section
/-! SUPPORT. The heartbeat (R62, R64, R70, R72, R157 to R159): what it owes, which local loads its calls reach,
and which frames it queues. -/

namespace Sys2Proof.Machine

/-! ## What a heartbeat owes -/

/-- The CALL frame of the channel's standing calls, where it has one to send. -/
def State.standingFrames (s : State) (ch : Ch) : List Frame :=
  match s.standingTargets ch with
  | [] => []
  | targets => [⟨0, .call ch targets⟩]

/-- The outbox of a heartbeat in a node: its STATE frame, the CALL frames of the watch, and the calls owed. -/
def State.heartbeatOut (s : State) : Outbox where
  stateDue := true
  calls := .tabulate s.standingFrames
  callDue := .tabulate fun ch => decide ((s.cc.get ch).state = .pending .calling)
  standingDue := .tabulate fun ch => (s.du.marks.get ch).filter s.isLocal

/-- What a heartbeat adds to the outbox for one channel. -/
def Event.withCalls (ch : Ch) (e : Event) : Event :=
  { e with
    out.calls := e.out.calls.set ch (e.out.calls.get ch ++ e.standingFrames ch)
    out.callDue := e.out.callDue.set ch
      (e.out.callDue.get ch || decide ((e.cc.get ch).state = .pending .calling))
    out.standingDue := e.out.standingDue.set ch
      (e.out.standingDue.get ch ++ (e.du.marks.get ch).filter e.isLocal) }

theorem Event.standingFrame_eq (ch : Ch) (e : Event) : e.standingFrame ch =
    { e with out.calls := e.out.calls.set ch (e.out.calls.get ch ++ e.standingFrames ch) } := by
  unfold Event.standingFrame Event.callFrame State.standingFrames
  cases e.standingTargets ch with
  | nil =>
    simp only
    rw [List.append_nil, PerChannel.set_get]
  | cons r rest => rfl

theorem Event.heartbeatCalls_eq (ch : Ch) (e : Event) : e.heartbeatCalls ch = e.withCalls ch := by
  unfold Event.heartbeatCalls Event.withCalls
  simp only
  split
  · rename_i h
    rw [decide_eq_true h, Bool.or_true, Event.standingFrame_eq]
    rfl
  · rename_i h
    rw [decide_eq_false h, Bool.or_false, PerChannel.set_get, Event.standingFrame_eq]
    rfl

/-- The node at a heartbeat whose timer has started again. -/
def State.beaten (s : State) : State := { s with li.heartbeatTimer := some s.heartbeatPeriod }

/-- What a heartbeat leaves before anything follows from it. -/
def State.beat (s : State) : Event := { toState := s.beaten, out := s.heartbeatOut }

theorem Event.heartbeat_eq (e : Event) (hd : Timer.due e.li.heartbeatTimer = true) (ho : e.out = {}) :
    e.heartbeat = e.toState.beat := by
  have hstart : ({ e with li.heartbeatTimer := some e.heartbeatPeriod } : Event).oweState =
      { toState := e.beaten, out := { stateDue := true } } := by
    unfold Event.oweState
    rw [ho]
    rfl
  have hcalls : (Event.heartbeatCalls : Ch → Event → Event) = Event.withCalls :=
    funext fun ch => funext fun b => Event.heartbeatCalls_eq ch b
  unfold Event.heartbeat
  rw [if_pos hd, hstart, hcalls]
  rfl

theorem State.beaten_settled {s : State} (h : s.settled) : s.beaten.settled :=
  State.settled_of_same h (fun _ => rfl) (fun _ => rfl) rfl rfl rfl rfl rfl fun _ => rfl

theorem State.standingFrames_plain (s : State) (ch : Ch) :
    ∀ f ∈ s.standingFrames ch, f.isState = false := by
  unfold State.standingFrames
  intro f hf
  split at hf
  · exact absurd hf List.not_mem_nil
  · rw [List.mem_singleton.1 hf]; rfl

theorem State.beat_owesReport (s : State) : s.beat.OwesReport where
  owed := rfl
  notices ch f hf := by
    rw [show s.beat.out.notices = .all [] from rfl, PerChannel.get_all] at hf
    exact absurd hf List.not_mem_nil
  calls ch f hf := by
    rw [show s.beat.out.calls = .tabulate s.standingFrames from rfl, PerChannel.get_tabulate] at hf
    exact s.standingFrames_plain ch f hf

/-! ## The frames of one caller -/

/-- A STATE frame owed, and CALL frames of one channel alone. -/
def loneOut (k : Ch) (frames : List Frame) : Outbox where
  stateDue := true
  calls := (PerChannel.all []).set k frames

theorem loneOut_allCalls (k : Ch) (frames : List Frame) : (loneOut k frames).allCalls = frames := by
  cases k <;> simp [Outbox.allCalls, loneOut, PerChannel.toList, PerChannel.all, PerChannel.set]

/-- With room for them the STATE frame and the frames of the one caller join the queue. -/
theorem Event.flush_lone (order : List Block) (s : State) (k : Ch) (frames : List Frame) (hs : s.speaks)
    (hf : ∀ f ∈ frames, f.isState = false ∧ s.queueTakes f.body = true)
    (hroom : s.li.queue.length + 1 + frames.length ≤ 16) :
    s.stateFrame ∈ (Event.flush order { toState := s, out := loneOut k frames }).li.queue ∧
      ∀ f ∈ frames, f ∈ (Event.flush order { toState := s, out := loneOut k frames }).li.queue := by
  have hcalls := loneOut_allCalls k frames
  have h := Event.flush_fits (F := s.stateFrame) order { toState := s, out := loneOut k frames } rfl rfl
    ⟨rfl, rfl, rfl, State.queueTakes_state hs _, .inl rfl, by rw [hcalls]; exact hroom⟩
    (by rw [hcalls]; exact hf)
  rw [hcalls] at h
  exact h

theorem State.standingFrames_of_unmarked {s : State} {ch : Ch} (h : s.du.marks.get ch = []) :
    s.standingFrames ch = [] := by
  unfold State.standingFrames State.standingTargets
  rw [h]
  rfl

section
variable {s : State} {k : Ch}

/-- The outbox of a heartbeat where one channel alone has watch marks, none of them local. -/
theorem State.heartbeatOut_lone (hm : ∀ j, j ≠ k → s.du.marks.get j = [])
    (hl : (s.du.marks.get k).filter s.isLocal = []) : s.heartbeatOut = { loneOut k (s.standingFrames k) with
      callDue := .tabulate fun ch => decide ((s.cc.get ch).state = .pending .calling) } := by
  have hcalls : PerChannel.tabulate s.standingFrames = (PerChannel.all []).set k (s.standingFrames k) := by
    refine PerChannel.ext_get fun j => ?_
    rw [PerChannel.get_tabulate, PerChannel.get_set, PerChannel.get_all]
    split
    · rename_i hj; rw [hj]
    · rename_i hj; exact State.standingFrames_of_unmarked (hm j hj)
  have hstanding : (PerChannel.tabulate fun ch => (s.du.marks.get ch).filter s.isLocal) = .all [] := by
    refine PerChannel.ext_get fun j => ?_
    rw [PerChannel.get_tabulate, PerChannel.get_all]
    by_cases hj : j = k
    · rw [hj]; exact hl
    · rw [hm j hj]; rfl
  unfold State.heartbeatOut
  rw [hcalls, hstanding]
  rfl

theorem State.callDue_none (hc : ∀ ch, (s.cc.get ch).state ≠ .pending .calling) :
    (PerChannel.tabulate fun ch => decide ((s.cc.get ch).state = .pending .calling)) = .all false :=
  PerChannel.ext_get fun ch => by
    rw [PerChannel.get_tabulate, PerChannel.get_all]
    exact decide_eq_false (hc ch)

/-- Without a CALLING channel nothing follows from such a heartbeat. -/
theorem State.beat_settled (hs : s.settled) (hc : ∀ ch, (s.cc.get ch).state ≠ .pending .calling)
    (hm : ∀ j, j ≠ k → s.du.marks.get j = []) (hl : (s.du.marks.get k).filter s.isLocal = []) :
    s.beat.settled = { toState := s.beaten, out := loneOut k (s.standingFrames k) } := by
  have hout : s.heartbeatOut = loneOut k (s.standingFrames k) := by
    rw [State.heartbeatOut_lone hm hl, State.callDue_none hc]; rfl
  unfold State.beat
  rw [hout]
  exact Event.settled_of_quiet _ rfl rfl (State.beaten_settled hs)

end

/-! ## The calls of a CALLING channel (R64) -/

theorem Event.payCalls_of_none (ch : Ch) (e : Event) (hc : e.out.callDue.get ch = false)
    (hs : e.out.standingDue.get ch = []) : e.payCalls ch = e := by
  have hset : e.out.standingDue.set ch [] = e.out.standingDue := by rw [← hs, PerChannel.set_get]
  unfold Event.payCalls Event.payCall Event.payStanding
  rw [hc, if_neg Bool.noConfusion, hset, hs]
  rfl

/-- Where one channel alone has something to do, and that once, its turn is all that happens. -/
theorem Event.forChannels_lone {f : Ch → Event → Event} {k : Ch} {e e' : Event} (hown : f k e = e')
    (hother : ∀ j, j ≠ k → f j e = e) (hidle : ∀ j, f j e' = e') : e.forChannels f = e' := by
  refine Event.forChannels_reaches (J := fun b => b = e ∨ b = e') (N := fun b => b = e')
    (fun b j hb => ?_) (fun b j hb => by rw [hb]; exact hidle j) k (fun b hb => ?_) e (.inl rfl)
  · rcases hb with rfl | rfl
    · by_cases hj : j = k
      · rw [hj]; exact .inr hown
      · exact .inl (hother j hj)
    · exact .inr (hidle j)
  · rcases hb with rfl | rfl
    · exact hown
    · exact hidle k

/-- A call reaches no channel of the node where its targets are all of other stations. -/
theorem Event.localCalls_remote (refs : List Ref) (e : Event) (h : ∀ r ∈ refs, r.station ≠ e.mc.station) :
    e.localCalls refs = e := by
  induction refs with
  | nil => rfl
  | cons r rest ih =>
    have hr : e.localCall r = e := by
      unfold Event.localCall
      rw [State.localCh?_remote (h r (List.mem_cons_self ..))]
    show (e.localCall r).localCalls rest = e
    rw [hr]
    exact ih fun q hq => h q (List.mem_cons_of_mem _ hq)

theorem Event.makeCall_remote (ch : Ch) (e : Event)
    (h : ∀ r ∈ (e.record ch).needs, r.station ≠ e.mc.station) (hu : e.unavailable ch ≠ []) :
    e.makeCall ch = e.queueCall ch (e.unavailable ch) := by
  have hneeds : ∀ r ∈ e.unavailable ch, r.station ≠ e.mc.station := fun r hr =>
    h r (List.mem_filter.1 hr).1
  have hall : (e.unavailable ch).filter (fun r => !e.isLocal r) = e.unavailable ch :=
    List.filter_eq_self.2 fun r hr => by
      unfold State.isLocal
      rw [beq_false_of_ne (hneeds r hr)]; rfl
  have hframe : e.callFrame ch (e.unavailable ch) = e.queueCall ch (e.unavailable ch) := by
    unfold Event.callFrame
    split
    · rename_i hn; exact absurd hn hu
    · rfl
  unfold Event.makeCall
  simp only
  rw [hall, hframe]
  exact Event.localCalls_remote _ _ hneeds

theorem Event.settle_of_quiet (n : Nat) (e : Event) (hc : e.out.callDue = .all false)
    (hd : e.out.standingDue = .all []) (hs : e.toState.settled) : e.settle n = e := by
  have hu : (Ch.all.any e.reportDue || Ch.all.any e.watchStale) = false :=
    (State.settled_iff e.toState).1 hs
  have ho : Ch.all.any e.owesCall = false := List.any_eq_false.2 fun ch _ => by
    unfold Event.owesCall
    rw [hc, hd, PerChannel.get_all, PerChannel.get_all]
    exact Bool.noConfusion
  cases n with
  | zero => rfl
  | succ n =>
    unfold Event.settle
    rw [hu, ho, if_neg Bool.noConfusion, if_neg Bool.noConfusion]

/-- In a settled node the calls owed are made first. -/
theorem Event.settle_calls (n : Nat) (e : Event) (hs : e.toState.settled) (ch : Ch)
    (ho : e.owesCall ch = true) : e.settle (n + 1) = (e.forChannels Event.payCalls).settle n := by
  have hu : (Ch.all.any e.reportDue || Ch.all.any e.watchStale) = false :=
    (State.settled_iff e.toState).1 hs
  conv_lhs => unfold Event.settle
  rw [hu, if_neg Bool.noConfusion, if_pos (List.any_eq_true.2 ⟨ch, Ch.mem_all ch, ho⟩)]

section
variable {s : State} {k : Ch}

/-- The CALL frame of a CALLING channel to its unavailable providers. -/
def State.callOf (s : State) (k : Ch) : Frame := ⟨0, .call k (s.unavailable k)⟩

/-- A lone CALLING channel of a settled node, with no local provider, calls its unavailable providers. -/
theorem State.beat_settled_calling (hs : s.settled) (hk : (s.cc.get k).state = .pending .calling)
    (hlone : ∀ j, j ≠ k → (s.cc.get j).state ≠ .pending .calling) (hm : ∀ j, s.du.marks.get j = [])
    (hremote : ∀ r ∈ (s.record k).needs, r.station ≠ s.mc.station) :
    s.beat.settled = { toState := s.beaten, out := loneOut k [s.callOf k] } := by
  have hdue : (PerChannel.tabulate fun ch => decide ((s.cc.get ch).state = .pending .calling)) =
      (PerChannel.all false).set k true := PerChannel.ext_get fun j => by
    rw [PerChannel.get_tabulate, PerChannel.get_set, PerChannel.get_all]
    split
    · rename_i hj; rw [hj]; exact decide_eq_true hk
    · rename_i hj; exact decide_eq_false (hlone j hj)
  have hout : s.heartbeatOut = { loneOut k [] with callDue := (PerChannel.all false).set k true } := by
    rw [State.heartbeatOut_lone (fun j _ => hm j) (by rw [hm k]; rfl),
      State.standingFrames_of_unmarked (hm k), hdue]
  have hu : s.unavailable k ≠ [] := fun hnone => by
    refine (hs k).1 ⟨hk, List.all_eq_true.2 fun r hr => ?_⟩
    have hr' := List.filter_eq_nil_iff.1 hnone r hr
    simpa using hr'
  generalize he' : ({ toState := s.beaten, out := loneOut k [s.callOf k] } : Event) = e'
  have hquiet : e'.out.callDue = .all false ∧ e'.out.standingDue = .all [] ∧ e'.toState.settled := by
    rw [← he']; exact ⟨rfl, rfl, State.beaten_settled hs⟩
  obtain ⟨hqc, hqs, hqn⟩ := hquiet
  have hdueB : s.beat.out.callDue = (PerChannel.all false).set k true := congrArg Outbox.callDue hout
  have hstandingB : s.beat.out.standingDue = .all [] := congrArg Outbox.standingDue hout
  have hown : s.beat.payCalls k = e' := by
    have hpay : s.beat.payCall k = e' := by
      unfold Event.payCall
      rw [hdueB, PerChannel.get_set_same, if_pos rfl]
      simp only
      rw [if_pos (show (s.beat.cc.get k).state = .pending .calling from hk),
        Event.makeCall_remote k _ hremote hu, ← he', State.beat, hout]
      cases k <;> rfl
    unfold Event.payCalls Event.payStanding
    rw [hpay, hqs, PerChannel.get_all]
    rw [← he']
    cases k <;> rfl
  have hother : ∀ j, j ≠ k → s.beat.payCalls j = s.beat := fun j hj =>
    Event.payCalls_of_none j s.beat (by rw [hdueB, PerChannel.get_set_other _ hj, PerChannel.get_all])
      (by rw [hstandingB, PerChannel.get_all])
  have hidle : ∀ j, e'.payCalls j = e' := fun j =>
    Event.payCalls_of_none j e' (by rw [hqc, PerChannel.get_all]) (by rw [hqs, PerChannel.get_all])
  have hall : s.beat.forChannels Event.payCalls = e' := Event.forChannels_lone hown hother hidle
  unfold Event.settled settleRounds
  rw [Event.settle_calls 95 s.beat (State.beaten_settled hs) k, hall]
  · exact Event.settle_of_quiet 95 e' hqc hqs hqn
  · unfold Event.owesCall
    rw [hdueB, PerChannel.get_set_same]
    rfl

end

end Sys2Proof.Machine
end

