-- ==== Sys2Proof/Proofs/HeartbeatCalls.lean ====
section
/-! SUPPORT. The local calls of a heartbeat (R62, R64, R70): a call that a channel owes stands until the
channel's turn, and reaches the local load at rest that it is made to. -/

namespace Sys2Proof.Machine

/-! ## A call that is owed stands until it is made -/

/-- What the channel owes is still owed, by a channel that is still CALLING if it was. -/
structure Event.KeepsOwed (k : Ch) (e e' : Event) : Prop where
  calling : (e.cc.get k).state = .pending .calling → (e'.cc.get k).state = .pending .calling
  due : e.out.callDue.get k = true → e'.out.callDue.get k = true
  standing : e'.out.standingDue.get k = e.out.standingDue.get k

theorem Event.KeepsOwed.refl (k : Ch) (e : Event) : e.KeepsOwed k e := ⟨id, id, rfl⟩

theorem Event.KeepsOwed.trans {k : Ch} {a b c : Event} (h : a.KeepsOwed k b) (j : b.KeepsOwed k c) :
    a.KeepsOwed k c :=
  ⟨fun ha => j.calling (h.calling ha), fun ha => j.due (h.due ha), j.standing.trans h.standing⟩

theorem Event.enterPending_due (ch k : Ch) (e : Event) (h : e.out.callDue.get k = true) :
    (e.enterPending ch).out.callDue.get k = true := by
  by_cases hk : k = ch
  · subst hk
    unfold Event.enterPending
    simp only
    rw [(Event.wakeStagger_rest _).2.2.2.2]
    split
    · show (Event.setState k _ _).out.callDue.get k = true
      rw [Event.setState_callDue]; exact h
    · exact PerChannel.get_set_same _ k true
  · rw [Event.enterPending_callDue ch k e hk]; exact h

theorem Event.addOrigin_keepsOwed (o : Origin) (ch k : Ch) (e : Event) :
    e.KeepsOwed k (e.addOrigin o ch) where
  calling h := by
    by_cases hk : k = ch
    · subst hk
      have heq : e.addOrigin o k = e.recordOrigin o k := by unfold Event.addOrigin; rw [h]
      rw [heq, Event.recordOrigin_state]; exact h
    · rw [(Event.addOrigin_other o ch k e hk).1]; exact h
  due h := by
    have hp := Event.enterPending_due ch k (e.recordOrigin o ch) h
    unfold Event.addOrigin
    split
    case h_1 | h_2 =>
      split
      · exact hp
      · exact h
    all_goals exact h
  standing := by rw [(Event.addOrigin_unnoticed o ch e).2]

theorem Event.localCalls_keepsOwed (k : Ch) (refs : List Ref) (e : Event) :
    e.KeepsOwed k (e.localCalls refs) :=
  foldl_induct (P := fun b : Event => e.KeepsOwed k b) (fun b r h => h.trans (by
    unfold Event.localCall
    split
    · exact Event.addOrigin_keepsOwed .call _ k b
    · exact Event.KeepsOwed.refl k b)) refs e (Event.KeepsOwed.refl k e)

theorem Event.makeCall_keepsOwed (ch k : Ch) (e : Event) : e.KeepsOwed k (e.makeCall ch) := by
  have hframe : ∀ targets, e.KeepsOwed k (e.callFrame ch targets) := fun targets => by
    unfold Event.callFrame
    split <;> exact ⟨id, id, rfl⟩
  exact (hframe _).trans (Event.localCalls_keepsOwed k _ _)

/-- The turn of another channel leaves what a channel owes. -/
theorem Event.payCalls_keepsOwed (ch k : Ch) (e : Event) (hk : k ≠ ch) : e.KeepsOwed k (e.payCalls ch) := by
  have hpay : e.KeepsOwed k (e.payCall ch) := by
    unfold Event.payCall
    split
    · have hpaid : e.KeepsOwed k { e with out.callDue := e.out.callDue.set ch false } :=
        ⟨id, fun h => (PerChannel.get_set_other _ hk false).trans h, rfl⟩
      simp only
      split
      · exact hpaid.trans (Event.makeCall_keepsOwed ch k _)
      · exact hpaid
    · exact Event.KeepsOwed.refl k e
  have hstand : (e.payCall ch).KeepsOwed k
      { e.payCall ch with out.standingDue := (e.payCall ch).out.standingDue.set ch [] } :=
    ⟨id, id, PerChannel.get_set_other _ hk []⟩
  exact (hpay.trans hstand).trans (Event.localCalls_keepsOwed k _ _)

theorem Event.payCall_standing (ch : Ch) (e : Event) :
    (e.payCall ch).out.standingDue = e.out.standingDue := by
  unfold Event.payCall
  split
  · simp only
    split
    · exact (Event.makeCall_calls ch _).standing
    · rfl
  · rfl

/-! ## It is made -/

theorem Event.localCalls_calledAt {e b : Event} {r : Ref} {refs : List Ref} {ch : Ch} (hf : Follows e b)
    (hr : r ∈ refs) (hl : e.localCh? r = some ch) (h : (e.cc.get ch).state.records = true) :
    e.calledAt ch (b.localCalls refs) := by
  refine foldl_reaches (J := fun b : Event => Follows e b) (N := e.calledAt ch)
    (f := fun (e : Event) r => e.localCall r) (fun b q hb => hb.trans (Event.localCall_follows q b))
    (fun b q hb => hb.of_follows (Event.localCall_follows q b)) r (fun b hb => ?_) refs b hr hf
  have heq : b.localCall r = b.addOrigin .call ch := by
    unfold Event.localCall
    rw [State.localCh?_of_station hb.kept.station, hl]
  show e.calledAt ch (b.localCall r)
  rw [heq]
  exact Event.calledAt_addOrigin ch hb h

/-- A load that was at rest is not available while the event lasts. -/
theorem Follows.rest_unavailable {e b : Event} {r : Ref} {ch : Ch} (hf : Follows e b)
    (hl : e.localCh? r = some ch) (hst : (e.cc.get ch).state = .rest) : b.available r = false := by
  have hcode : (b.cc.get ch).state.code = .rest ∨ (b.cc.get ch).state.code = .pending := by
    have h := (hf.channels ch).state
    rw [hst] at h
    rcases ChState.follows_cases h ChState.noConfusion with hb | hb
    · rw [hb]; exact .inl rfl
    · exact .inr (ChState.code_of_isPending hb)
  unfold State.available State.known
  rw [State.localCh?_of_station hf.kept.station, hl]
  show countsAvailable _ _ = false
  rcases hcode with h | h <;> rw [h] <;> rfl

/-- The channel owes the reference a call: its call while CALLING (R64), or a standing call (R70). -/
def Event.owesTo (k : Ch) (r : Ref) (e : Event) : Prop :=
  e.out.callDue.get k = true ∧ (e.cc.get k).state = .pending .calling ∧ r ∈ (e.record k).needs ∨
    r ∈ e.out.standingDue.get k

section
variable {e b : Event} {k ch : Ch} {r : Ref}

theorem Event.owesTo.kept (h : b.owesTo k r) (j : b.KeepsOwed k e) (hf : Follows b e) : e.owesTo k r := by
  rcases h with ⟨hd, hc, hn⟩ | hs
  · exact .inl ⟨j.due hd, j.calling hc, by rw [hf.kept.record]; exact hn⟩
  · exact .inr (by rw [j.standing]; exact hs)

/-- At its turn the channel makes the call. -/
theorem Event.owesTo.paid (h : b.owesTo k r) (hf : Follows e b) (hl : e.localCh? r = some ch)
    (hst : (e.cc.get ch).state = .rest) : e.calledAt ch (b.payCalls k) := by
  have hrec : (e.cc.get ch).state.records = true := by rw [hst]; rfl
  rcases h with ⟨hd, hc, hn⟩ | hs
  · have hpay : e.calledAt ch (b.payCall k) := by
      have hun : r ∈ b.unavailable k :=
        List.mem_filter.2 ⟨hn, by rw [hf.rest_unavailable hl hst]; rfl⟩
      have hpaid : Follows b { b with out.callDue := b.out.callDue.set k false } :=
        Event.owed_follows _ b.out.standingDue b
      unfold Event.payCall
      rw [if_pos hd]
      simp only
      rw [if_pos hc]
      exact Event.localCalls_calledAt ((hf.trans hpaid).trans (Event.callFrame_follows k _ _)) hun hl hrec
    exact hpay.of_follows (Event.payStanding_follows k _)
  · have hpaid : Follows (b.payCall k)
        { b.payCall k with out.standingDue := (b.payCall k).out.standingDue.set k [] } :=
      Event.owed_follows (b.payCall k).out.callDue _ (b.payCall k)
    exact Event.localCalls_calledAt ((hf.trans (Event.payCall_follows k b)).trans hpaid)
      (by rw [Event.payCall_standing]; exact hs) hl hrec

/-- When all calls owed have been made, a local load at rest that is owed one has been called. -/
theorem Event.payAll_calledAt (h : e.owesTo k r) (hl : e.localCh? r = some ch)
    (hst : (e.cc.get ch).state = .rest) : e.calledAt ch (e.forChannels Event.payCalls) := by
  have turn : ∀ b : Event, e.calledAt ch b ∨ Follows e b ∧ b.owesTo k r →
      e.calledAt ch (b.payCalls k) := fun b hb => by
    rcases hb with hb | ⟨hf, ho⟩
    · exact hb.of_follows (Event.payCalls_follows k b)
    · exact ho.paid hf hl hst
  refine Event.forChannels_reaches (J := fun b => e.calledAt ch b ∨ Follows e b ∧ b.owesTo k r)
    (N := e.calledAt ch) (fun b j hb => ?_)
    (fun b j hb => hb.of_follows (Event.payCalls_follows j b)) k turn e (.inr ⟨Follows.refl e, h⟩)
  by_cases hj : j = k
  · rw [hj]; exact .inl (turn b hb)
  · refine hb.imp (fun hb => hb.of_follows (Event.payCalls_follows j b)) fun ⟨hf, ho⟩ => ?_
    have hstep := Event.payCalls_follows j b
    exact ⟨hf.trans hstep, ho.kept (Event.payCalls_keepsOwed j k b fun h => hj h.symm) hstep⟩

/-- In a settled node the first of what follows is the calls owed. -/
theorem Event.settled_calledAt (hs : e.toState.settled) (h : e.owesTo k r) (hl : e.localCh? r = some ch)
    (hst : (e.cc.get ch).state = .rest) : e.calledAt ch e.settled := by
  have ho : e.owesCall k = true := by
    unfold Event.owesCall
    rcases h with ⟨hd, -⟩ | hr
    · rw [hd, Bool.true_or]
    · rw [bne_iff_ne.2 (List.ne_nil_of_mem hr), Bool.or_true]
  have h1 := (Event.payAll_calledAt h hl hst).of_follows (Event.settle_follows 95 _)
  rw [← Event.settle_calls 95 e hs k ho] at h1
  exact h1

/-- The joining of frames leaves a load woken and its origins. -/
theorem Event.calledAt.flushed (order : List Block) (h : e.calledAt ch b)
    (hst : (e.cc.get ch).state = .rest) (hm : e.mc.mode.wakesAtOnce = true) :
    ((b.flush order).cc.get ch).state.isPending = true ∧
      ((b.flush order).cc.get ch).origins.has .call = true := by
  obtain ⟨-, ho, hp⟩ := h
  have k := Event.flush_flushes order b
  have horigins := congrArg Controller.origins (k.rest ch)
  exact ⟨ChState.isPending_flushes (hp hst hm) (k.state ch), horigins ▸ ho⟩

end

/-! ## The watch marks of a settled node (R69, R70) -/

section
variable {s : State} {k : Ch}

theorem State.marks_of_settled (hs : s.settled) {r : Ref} (hr : r ∈ s.du.marks.get k) :
    (s.cc.get k).state.watching = true ∧ r ∈ (s.record k).needs := by
  obtain ⟨-, -, hm⟩ := hs k
  rw [hm] at hr
  unfold State.lostProviders at hr
  split at hr
  · rename_i hw; exact ⟨hw, (List.mem_filter.1 hr).1⟩
  · exact absurd hr List.not_mem_nil

/-- A channel with a watch mark runs, so it is not CALLING. -/
theorem State.not_calling_of_marked (hs : s.settled) (hm : s.du.marks.get k ≠ []) :
    (s.cc.get k).state ≠ .pending .calling := fun hc => by
  obtain ⟨r, hr⟩ := List.exists_mem_of_ne_nil _ hm
  have hw := (State.marks_of_settled hs hr).1
  rw [hc] at hw
  exact Bool.noConfusion hw

/-- Where the marks are all of other stations, the standing calls name those not reported held. -/
theorem State.standingTargets_remote (h : ∀ r ∈ s.du.marks.get k, r.station ≠ s.mc.station) :
    s.standingTargets k = (s.du.marks.get k).filter fun r =>
      !((s.du.peers.find? fun p => p.ref == r).any fun p => p.held) := by
  refine List.filter_congr fun r hr => ?_
  have hlocal : s.isLocal r = false := beq_false_of_ne (h r hr)
  rw [hlocal]
  unfold State.peer?
  cases s.du.peers.find? fun p => p.ref == r <;> rfl

theorem State.standingFrames_of_targets {targets : List Ref} (h : s.standingTargets k = targets)
    (hne : targets ≠ []) : s.standingFrames k = [⟨0, .call k targets⟩] := by
  unfold State.standingFrames
  rw [h]
  split
  · rename_i hn; exact absurd rfl hne
  · rfl

end

/-! ## The heartbeat -/

/-- The node when a heartbeat has ended that found it as `a`. -/
def State.afterBeat (a : State) (order : List Block) : State := (a.beat.settled.flush order).toState

section
variable (order : List Block) (a : State)

/-- A STATE frame of the node as it stands is in the queue, or finds no place in it (R157, R159). -/
theorem State.afterBeat_reports (hs : a.speaks) :
    standsOrShut (a.afterBeat order).stateFrame (a.afterBeat order).li.queue :=
  Event.follows_reports order a.beat hs a.beat_owesReport rfl rfl rfl rfl

/-- Where no channel calls and none has a watch mark nothing but the queue changes. -/
theorem State.afterBeat_quiet (hs : a.settled) (hc : ∀ ch, (a.cc.get ch).state ≠ .pending .calling)
    (hm : ∀ ch, a.du.marks.get ch = []) :
    (a.afterBeat order).cc = a.cc ∧ (a.speaks → a.li.queue.length < 16 →
      a.stateFrame ∈ (a.afterBeat order).li.queue) := by
  have hsettled := State.beat_settled (k := .c0) hs hc (fun j _ => hm j) (by rw [hm .c0]; rfl)
  rw [State.standingFrames_of_unmarked (hm .c0)] at hsettled
  unfold State.afterBeat
  rw [hsettled]
  refine ⟨?_, fun hsp hlen => ?_⟩
  · obtain ⟨q, hq⟩ := Event.flush_queue order { toState := a.beaten, out := loneOut .c0 [] } rfl rfl
    rw [hq]
    rfl
  · exact (Event.flush_lone order a.beaten .c0 [] hsp (fun f hf => absurd hf List.not_mem_nil) hlen).1

/-- A local load at rest that a channel calls is woken with origin CALL (R62, R64, R70). -/
theorem State.afterBeat_wakes (hs : a.settled) (hm : a.mc.mode.wakesAtOnce = true) (k ch : Ch) (r : Ref)
    (hl : a.localCh? r = some ch) (hst : (a.cc.get ch).state = .rest)
    (h : (a.cc.get k).state = .pending .calling ∧ r ∈ (a.record k).needs ∧ a.available r = false ∨
      r ∈ a.du.marks.get k) :
    ((a.afterBeat order).cc.get ch).state.isPending = true ∧
      ((a.afterBeat order).cc.get ch).origins.has .call = true := by
  have howes : a.beat.owesTo k r := by
    rcases h with ⟨hc, hn, -⟩ | hr
    · refine .inl ⟨?_, hc, hn⟩
      show (PerChannel.tabulate fun ch => decide ((a.cc.get ch).state = .pending .calling)).get k = true
      rw [PerChannel.get_tabulate]
      exact decide_eq_true hc
    · right
      show r ∈ (PerChannel.tabulate fun ch => (a.du.marks.get ch).filter a.isLocal).get k
      rw [PerChannel.get_tabulate]
      refine List.mem_filter.2 ⟨hr, ?_⟩
      by_contra hloc
      unfold State.localCh? at hl
      rw [if_neg hloc] at hl
      exact absurd hl.symm (Option.some_ne_none ch)
  have hcalled := Event.settled_calledAt (State.beaten_settled hs) howes hl hst
  exact hcalled.flushed order hst hm

/-- The one channel that calls, with no local provider, has its CALL frame in the queue (R63, R72). -/
theorem State.afterBeat_calls (k : Ch) (hs : a.settled) (hsp : a.speaks)
    (ht : ∀ targets, a.queueTakes (.call k targets) = true) (hlen : a.li.queue.length < 15)
    (hlone : ∀ j, j ≠ k → (a.cc.get j).state ≠ .pending .calling ∧ a.du.marks.get j = [])
    (hremote : ∀ r ∈ (a.record k).needs, r.station ≠ a.mc.station) :
    ((a.cc.get k).state = .pending .calling → a.du.marks.get k = [] →
      a.callOf k ∈ (a.afterBeat order).li.queue) ∧
    (a.du.marks.get k ≠ [] → ∀ targets, a.standingTargets k = targets → targets ≠ [] →
      (⟨0, .call k targets⟩ : Frame) ∈ (a.afterBeat order).li.queue) := by
  have joins : ∀ targets, (⟨0, .call k targets⟩ : Frame) ∈ (Event.flush order
      { toState := a.beaten, out := loneOut k [⟨0, .call k targets⟩] }).li.queue := fun targets =>
    (Event.flush_lone order a.beaten k [⟨0, .call k targets⟩] hsp
      (fun f hf => by rw [List.mem_singleton.1 hf]; exact ⟨rfl, ht targets⟩)
      (Nat.succ_le_succ hlen)).2 _ (List.mem_singleton.2 rfl)
  unfold State.afterBeat
  refine ⟨fun hc hm => ?_, fun hm targets htargets hne => ?_⟩
  · have hmarks : ∀ j, a.du.marks.get j = [] := fun j => by
      by_cases hj : j = k
      · rw [hj]; exact hm
      · exact (hlone j hj).2
    rw [State.beat_settled_calling hs hc (fun j hj => (hlone j hj).1) hmarks hremote]
    exact joins _
  · have hnone : ∀ j, (a.cc.get j).state ≠ .pending .calling := fun j => by
      by_cases hj : j = k
      · rw [hj]; exact State.not_calling_of_marked hs hm
      · exact (hlone j hj).1
    have hlocal : (a.du.marks.get k).filter a.isLocal = [] := List.filter_eq_nil_iff.2 fun r hr hb =>
      hremote r (State.marks_of_settled hs hr).2 (eq_of_beq hb)
    rw [State.beat_settled hs hnone (fun j hj => (hlone j hj).2) hlocal,
      State.standingFrames_of_targets htargets hne]
    exact joins targets

end

/-- Settles O45. -/
theorem heartbeatRestarts : Obligations.HeartbeatRestarts := by
  unfold Obligations.HeartbeatRestarts
  intro m s a hd
  have heq : effectOf (.heartbeatExpiry m) (s.begin m) = a.beat := Event.heartbeat_eq (s.begin m) hd rfl
  have settled : s.settled → a.settled := State.settled_elapse m.elapsed s
  have quiet : ∀ {j}, (s.cc.get j).state ≠ .pending .calling ∧ s.du.marks.get j = [] →
      (a.cc.get j).state ≠ .pending .calling ∧ a.du.marks.get j = [] := fun {j} h =>
    ⟨by rw [State.state_elapse]; exact h.1, h.2⟩
  have speaks : s.mc.station ≠ 0 → s.onLine ∨ s.mc.mode = .isolated → a.speaks ∧
      ∀ b, a.queueTakes b = true := fun h0 hm => by
    have hmode : a.mc.mode = .listening ∨ a.mc.mode = .operating ∨ a.mc.mode = .isolated :=
      hm.elim (fun ho => ho.imp_right .inl) fun h => .inr (.inr h)
    have h0 : a.mc.station ≠ 0 := h0
    unfold State.speaks State.queueTakes
    rcases hmode with h | h | h <;> rw [h] <;>
      exact ⟨⟨h0, Mode.noConfusion, Mode.noConfusion⟩, fun _ => by rw [decide_eq_true h0]; rfl⟩
  refine ⟨a.afterBeat m.order, ?_, ?_, fun h0 hl hq => a.afterBeat_reports m.order ⟨h0, hl, hq⟩,
    fun hs hq => ?_, fun hs hm k ch r hl hst h => ?_, fun k hs h0 hm hlen hlone hremote => ?_⟩
  · rw [exec_eq]
    exact congrArg (fun e : Event => Host.Outcome.next (e.settled.flush m.order).toState) heq
  · obtain ⟨q, hq⟩ := (Event.took m.order a.beat).li
    exact congrArg LineInterface.heartbeatTimer hq
  · obtain ⟨hcc, hstate⟩ := a.afterBeat_quiet m.order (settled hs) (fun ch => (quiet (hq ch)).1)
      fun ch => (quiet (hq ch)).2
    exact ⟨hcc, fun h0 ho hlen => hstate (speaks h0 (.inl ho)).1 hlen⟩
  · refine a.afterBeat_wakes m.order (settled hs) ?_ k ch r hl hst h
    show s.mc.mode.wakesAtOnce = true
    rcases hm with h | h | h <;> rw [h] <;> rfl
  · obtain ⟨hsp, ht⟩ := speaks h0 hm
    obtain ⟨hcall, hstanding⟩ := a.afterBeat_calls m.order k (settled hs) hsp (fun _ => ht _) hlen
      (fun j hj => quiet (hlone j hj)) hremote
    exact ⟨hcall, fun hmarks hne => hstanding hmarks _
      (State.standingTargets_remote fun r hr => hremote r (State.marks_of_settled (settled hs) hr).2) hne⟩

end Sys2Proof.Machine
end

