-- ==== Sys2Proof/Proofs/ClaimShares.lean ====
section
/-! SUPPORT. What the bounds on the Claim Table read of it (R75, R78): of each entry its key, whether it is own,
and the weight of an own one. An operation after which no further such share stands keeps the bounds. -/

namespace Sys2Proof.Machine

/-- What the bounds read of an entry: its key, whether it is own, and the weight of an own one. -/
def Claim.share (c : Claim) : (Nat × Nat) × Bool × Nat := (c.key, c.isOwn, if c.isOwn then c.weight else 0)

/-- The Claim Table is sound and the own claims fit in the budget (R75, R78). -/
def State.claimsBounded (s : State) : Prop := s.claimTableSound ∧ s.ownWithinBudget

/-- No entry joins the table, and none gains in what the bounds read of it. -/
def Event.noneJoins (e e' : Event) : Prop :=
  (e'.bu.claims.map Claim.share).Sublist (e.bu.claims.map Claim.share)

theorem ownWeight_of_shares (l : List Claim) :
    weightSum (l.filter Claim.isOwn) = ((l.map Claim.share).map fun p => p.2.2).sum := by
  unfold weightSum
  induction l with
  | nil => rfl
  | cons c l ih =>
    rw [List.filter_cons, List.map_cons, List.map_cons, List.sum_cons, ← ih]
    cases h : c.isOwn <;> simp [Claim.share, h]

theorem ownNone_of_shares (l : List Claim) :
    l.filter Claim.isOwn = [] ↔ ∀ p ∈ l.map Claim.share, p.2.1 = false := by
  rw [List.filter_eq_nil_iff, List.forall_mem_map]
  exact forall₂_congr fun c _ => by rw [Bool.not_eq_true]; rfl

/-- Where no share joins, the bounds stay; at the end of LOADING too, whose budget is not yet set (R74). -/
theorem State.claimsBounded.of_shares {s s' : State} (hst : s'.mc.station = s.mc.station)
    (hre : s'.mc.inReset = true → s.mc.inReset = true ∧ s'.mc.mode = .loading)
    (hmo : s'.mc.mode = .loading → s.mc.mode = .loading)
    (hb : s'.plantBudget = s.plantBudget ∨ s.mc.mode = .loading)
    (sub : (s'.bu.claims.map Claim.share).Sublist (s.bu.claims.map Claim.share))
    (h : s.claimsBounded) : s'.claimsBounded := by
  obtain ⟨⟨hlen, hkeys, hown, hremote, hreset⟩, hfit, hload⟩ := h
  have back : ∀ c ∈ s'.bu.claims, ∃ d ∈ s.bu.claims, d.key = c.key ∧ d.isOwn = c.isOwn := fun c hc => by
    obtain ⟨d, hd, hs⟩ := List.mem_map.1 (sub.subset (List.mem_map_of_mem hc))
    exact ⟨d, hd, congrArg (fun p => p.1) hs, congrArg (fun p => p.2.1) hs⟩
  have hload' : s.mc.mode = .loading → s'.bu.claims.filter Claim.isOwn = [] := fun hl =>
    (ownNone_of_shares _).2 fun p hp => (ownNone_of_shares _).1 (hload hl) p (sub.subset hp)
  refine ⟨⟨?_, ?_, fun c hc ho => ?_, fun c hc ho => ?_, fun hr => ?_⟩, ?_, fun hl => hload' (hmo hl)⟩
  · have := sub.length_le
    rw [List.length_map, List.length_map] at this
    exact this.trans hlen
  · have hk : ∀ l : List Claim, l.map Claim.key = (l.map Claim.share).map fun p => p.1 := fun l => by
      rw [List.map_map]; rfl
    rw [hk] at hkeys ⊢
    exact (sub.map _).nodup hkeys
  · obtain ⟨d, hd, hk, hdo⟩ := back c hc
    rw [hst, show c.station = d.station from (congrArg Prod.fst hk).symm]
    exact hown d hd (hdo.trans ho)
  · obtain ⟨d, hd, hk, hdo⟩ := back c hc
    rw [hst, show c.station = d.station from (congrArg Prod.fst hk).symm]
    exact hremote d hd (hdo.trans ho)
  · obtain ⟨hr, hl⟩ := hre hr
    rw [(hreset hr).2] at sub
    exact ⟨hl, List.map_eq_nil_iff.1 (List.sublist_nil.1 sub)⟩
  · rcases hb with hb | hl
    · rw [hb]
      refine le_trans ?_ hfit
      rw [ownWeight_of_shares, ownWeight_of_shares]
      exact (sub.map _).sum_le_sum fun _ _ => Nat.zero_le _
    · rw [hload' hl]; exact Nat.zero_le _

/-! ## Operations that take entries away -/

theorem Event.noneJoins.refl (e : Event) : e.noneJoins e := List.Sublist.refl _

theorem Event.noneJoins.trans {e e' e'' : Event} (h : e.noneJoins e') (k : e'.noneJoins e'') :
    e.noneJoins e'' := List.Sublist.trans k h

theorem Event.noneJoins.of_claims {e e' : Event} (h : e'.bu.claims = e.bu.claims) : e.noneJoins e' := by
  unfold Event.noneJoins; rw [h]

theorem NodeKept.noneJoins {e e' : Event} (h : NodeKept e e') : e.noneJoins e' :=
  .of_claims (by rw [h.bu])

/-- Some entries leave, and those that stay change in nothing that the bounds read. -/
theorem Event.noneJoins.of_filter {e e' : Event} (p : Claim → Bool) (f : Claim → Claim)
    (hf : ∀ c, (f c).share = c.share) (h : e'.bu.claims = (e.bu.claims.filter p).map f) :
    e.noneJoins e' := by
  unfold Event.noneJoins
  rw [h, List.map_map, show Claim.share ∘ f = Claim.share from funext hf]
  exact List.filter_sublist.map _

theorem Event.foldl_noneJoins {α : Type} {f : Event → α → Event} (h : ∀ (e : Event) a, e.noneJoins (f e a))
    (l : List α) (e : Event) : e.noneJoins (l.foldl f e) :=
  foldl_induct (P := fun e' => e.noneJoins e') (fun e' a he => he.trans (h e' a)) l e (.refl e)

theorem Event.forChannels_noneJoins {f : Ch → Event → Event} (h : ∀ ch (e : Event), e.noneJoins (f ch e))
    (e : Event) : e.noneJoins (e.forChannels f) := Event.foldl_noneJoins (fun e ch => h ch e) _ e

theorem Claim.share_of_rest {c d : Claim} (hk : d.key = c.key) (ho : d.isOwn = c.isOwn)
    (hw : c.isOwn = true → d.weight = c.weight) : d.share = c.share := by
  unfold Claim.share
  rw [hk, ho]
  split
  · rename_i h; rw [hw h]
  · rfl

theorem Claim.dropMarks_share (n : Nat) (c : Claim) : (c.dropMarks n).share = c.share :=
  Claim.share_of_rest (Claim.dropMarks_key n c) (Claim.dropMarks_isOwn n c) fun h => by
    rw [Claim.dropMarks_own h]

theorem Event.removeProvisional_noneJoins (x : Claim) (e : Event) : e.noneJoins (e.removeProvisional x) :=
  .of_filter _ _ (Claim.dropMarks_share x.number) rfl

theorem Event.withdraw_noneJoins (x : Claim) (e : Event) : e.noneJoins (e.withdraw x) := by
  have h := Event.removeProvisional_noneJoins x e
  unfold Event.noneJoins at h ⊢
  rwa [Event.withdraw_claims]

theorem Event.forProvisional_noneJoins {f : Claim → Event → Event} (h : ∀ c (e : Event), e.noneJoins (f c e))
    (e : Event) : e.noneJoins (e.forProvisional f) := by
  refine Event.foldl_noneJoins (fun e p => ?_) _ e
  split
  · split
    · exact h _ e
    · exact .refl e
  · exact .refl e

theorem Event.withdrawAll_noneJoins (e : Event) : e.noneJoins e.withdrawAll :=
  Event.forProvisional_noneJoins Event.withdraw_noneJoins e

theorem Event.conflictCheck_noneJoins (e : Event) : e.noneJoins e.conflictCheck :=
  Event.forProvisional_noneJoins (fun c e => by
    split
    · exact Event.withdraw_noneJoins c e
    · exact .refl e) e

theorem Event.filter_noneJoins (p : Claim → Bool) (e : Event) :
    e.noneJoins { e with bu.claims := e.bu.claims.filter p } :=
  .of_filter p id (fun _ => rfl) (by rw [List.map_id])

theorem Event.releaseClaim_noneJoins (x : Claim) (e : Event) : e.noneJoins (e.releaseClaim x) :=
  Event.filter_noneJoins _ e

theorem Event.leavePending_noneJoins (ch : Ch) (e : Event) : e.noneJoins (e.leavePending ch) := by
  unfold Event.leavePending
  simp only
  split
  · exact Event.removeProvisional_noneJoins _ ((e.setCallWait ch none).setRetryGap ch none)
  · exact .refl e

theorem Event.handOverInrush_noneJoins (ch : Ch) (e : Event) : e.noneJoins (e.handOverInrush ch) := by
  unfold Event.handOverInrush
  simp only
  split
  · unfold Event.noneJoins
    rw [List.map_map]
    refine (List.map_congr_left fun c _ => ?_).symm ▸ List.Sublist.refl _
    simp only [Function.comp]
    split <;> rfl
  · exact .refl e

theorem Event.settled_noneJoins (e : Event) : e.noneJoins e.settled := (Event.settled_follows e).kept.noneJoins

end Sys2Proof.Machine
end

