-- ==== Sys2Proof/Proofs/ClaimEffects.lean ====
section
/-! SUPPORT. The effects at which no share joins the Claim Table: all but those that create a claim, record one
or settle one. -/

namespace Sys2Proof.Machine

/-! ## Operations at one channel -/

theorem Event.setState_noneJoins (ch : Ch) (st : ChState) (e : Event) : e.noneJoins (e.setState ch st) :=
  (Event.setState_kept ch st e).noneJoins

theorem Event.addOrigin_noneJoins (o : Origin) (ch : Ch) (e : Event) : e.noneJoins (e.addOrigin o ch) :=
  (Event.addOrigin_follows o ch e).kept.noneJoins

theorem Event.enterPending_noneJoins (ch : Ch) (e : Event) : e.noneJoins (e.enterPending ch) := by
  obtain ⟨-, -, -, -, -, h⟩ := Event.enterPending_spec ch e
  exact h.noneJoins

theorem Event.returnToAwake_noneJoins (ch : Ch) (e : Event) : e.noneJoins (e.returnToAwake ch) := by
  obtain ⟨-, -, -, h, -⟩ := Event.returnToAwake_spec ch e
  exact h.noneJoins

theorem Event.tryWait_noneJoins (ch : Ch) (e : Event) : e.noneJoins (e.tryWait ch) :=
  (Event.tryWait_kept ch e).noneJoins

theorem Event.trip_noneJoins (ch : Ch) (cause : TripCause) (e : Event) : e.noneJoins (e.trip ch cause) := by
  obtain ⟨-, -, -, hbu, -⟩ := Event.trip_spec ch cause e
  exact (Event.handOverInrush_noneJoins ch e).trans (.of_claims (by rw [hbu]))

theorem Event.lock_noneJoins (ch : Ch) (cause : LockCause) (e : Event) : e.noneJoins (e.lock ch cause) := by
  obtain ⟨-, -, -, hbu, -⟩ := Event.lock_spec ch cause e
  split at hbu
  · exact (Event.leavePending_noneJoins ch e).trans (.of_claims (by rw [hbu]))
  · exact .of_claims (by rw [hbu])

theorem Event.shedPending_noneJoins (ch : Ch) (e : Event) : e.noneJoins (e.shedPending ch) := by
  obtain ⟨-, -, -, hbu, -⟩ := Event.shedPending_spec ch e
  exact (Event.leavePending_noneJoins ch e).trans (.of_claims (by rw [hbu]))

theorem Event.startUnclaimed_noneJoins (ch : Ch) (e : Event) : e.noneJoins (e.startUnclaimed ch) := by
  obtain ⟨-, -, -, hbu, -⟩ := Event.startUnclaimed_spec ch e
  exact (Event.leavePending_noneJoins ch e).trans (.of_claims (by rw [hbu]))

theorem Event.shedStarting_noneJoins (ch : Ch) (e : Event) : e.noneJoins (e.shedStarting ch) := by
  have coast : ∀ e : Event, e.noneJoins (e.enterCoast ch) := fun e => by
    rw [Event.enterCoast_eq]
    split
    · exact ((Event.beginCoast_kept ch e).trans (Event.runDownEnds_kept ch _)).noneJoins
    · exact (Event.beginCoast_kept ch e).noneJoins
  exact (Event.handOverInrush_noneJoins ch e).trans (coast ((e.handOverInrush ch).clearOrigins ch))

theorem Event.shedTripped_noneJoins (ch : Ch) (e : Event) : e.noneJoins (e.shedTripped ch) :=
  Event.setState_noneJoins ch .rest ((e.modCc ch fun c => { c with retryTimer := none }).clearOrigins ch)

/-! ## Holds, wakes and calls -/

theorem Event.becomeHeld_noneJoins (ch : Ch) (e : Event) : e.noneJoins (e.becomeHeld ch) := by
  unfold Event.becomeHeld
  split
  · exact Event.returnToAwake_noneJoins ch (e.modIt ch Tracker.pause)
  · exact Event.addOrigin_noneJoins .hold ch e

theorem Event.changeHolds_noneJoins (cu : CommandUnit) (e : Event) : e.noneJoins (e.changeHolds cu) := by
  have change : ∀ (b c : Bool) (ch : Ch) (e : Event),
      e.noneJoins (if b then e.becomeHeld ch else if c then e.ceaseHeld ch else e) := by
    intro b c ch e
    cases b
    · cases c
      · exact .refl e
      · exact (Event.ceaseHeld_unread ch e).kept.noneJoins
    · exact Event.becomeHeld_noneJoins ch e
  unfold Event.changeHolds
  simp only
  refine Event.noneJoins.trans (?_ : e.noneJoins _)
    (Event.forChannels_noneJoins (fun ch e => change _ _ ch e) _)
  split <;> exact .of_claims rfl

theorem Event.wakeChannel_noneJoins (o : Origin) (ch : Ch) (e : Event) : e.noneJoins (e.wakeChannel o ch) := by
  unfold Event.wakeChannel
  split
  · exact Event.returnToAwake_noneJoins ch (e.modIt ch _)
  · exact Event.addOrigin_noneJoins o ch e

theorem Event.press_noneJoins (ch : Ch) (e : Event) : e.noneJoins (e.press ch) := by
  have woken := Event.wakeChannel_noneJoins .loc ch e
  unfold Event.press
  split
  exacts [woken, woken, woken, woken, .refl e, .refl e]

theorem Event.callFrame_noneJoins (ch : Ch) (targets : List Ref) (e : Event) :
    e.noneJoins (e.callFrame ch targets) := by
  unfold Event.callFrame
  split <;> exact .of_claims rfl

/-! ## Effects of the unit's own events -/

theorem Event.feedbackChange_noneJoins (ch : Ch) (closed : Bool) (e : Event) :
    e.noneJoins (e.feedbackChange ch closed) := by
  unfold Event.feedbackChange
  simp only
  split <;> exact .of_claims rfl

theorem Event.feedbackMismatch_noneJoins (ch : Ch) (e : Event) : e.noneJoins (e.feedbackMismatch ch) := by
  unfold Event.feedbackMismatch
  split
  · simp only
    split
    · exact Event.trip_noneJoins ch _ (e.modCc ch fun c => { c with mark := none, mismatchTimer := none })
    · exact Event.lock_noneJoins ch _ (e.modCc ch fun c => { c with mark := none, mismatchTimer := none })
  · exact .refl e

theorem Event.retryEnds_noneJoins (ch : Ch) (e : Event) : e.noneJoins (e.retryEnds ch) := by
  unfold Event.retryEnds
  split
  · split
    · exact Event.enterPending_noneJoins ch (e.recordOrigin .retry ch)
    · exact Event.lock_noneJoins ch _ e
  · exact .refl e

theorem Event.runDownExpires_noneJoins (ch : Ch) (e : Event) : e.noneJoins (e.runDownExpires ch) := by
  unfold Event.runDownExpires
  split
  · exact (Event.runDownEnds_kept ch e).noneJoins
  · exact .refl e

theorem Event.inrushEnds_noneJoins (ch : Ch) (e : Event) : e.noneJoins (e.inrushEnds ch) := by
  have awake : e.noneJoins (e.enterAwake ch) := (Event.enterAwake_spec ch e).2.2.1.noneJoins
  unfold Event.inrushEnds
  split
  · refine awake.trans ?_
    unfold Event.releaseLive
    split
    · exact Event.releaseClaim_noneJoins _ _
    · exact .refl _
  · exact awake
  · exact .refl e

theorem Event.inrushHoldEnds_noneJoins (ch : Ch) (e : Event) : e.noneJoins (e.inrushHoldEnds ch) := by
  unfold Event.inrushHoldEnds
  split
  · split
    · exact Event.releaseClaim_noneJoins _ e
    · exact .refl e
  · exact .refl e

theorem Event.activitySenseChange_noneJoins (ch : Ch) (active : Bool) (e : Event) :
    e.noneJoins (e.activitySenseChange ch active) := by
  unfold Event.activitySenseChange
  split <;> exact .of_claims rfl

theorem Event.activityDebounced_noneJoins (ch : Ch) (e : Event) : e.noneJoins (e.activityDebounced ch) := by
  unfold Event.activityDebounced
  split
  · split
    · exact Event.returnToAwake_noneJoins ch (e.modIt ch _)
    · exact .of_claims rfl
  · exact .refl e

theorem Event.idleWindowEnds_noneJoins (ch : Ch) (e : Event) : e.noneJoins (e.idleWindowEnds ch) := by
  unfold Event.idleWindowEnds
  split
  · exact (Event.windowExpired_kept ch e).noneJoins
  · exact .refl e

theorem Event.holdKeyChange_noneJoins (ch : Ch) (on : Bool) (e : Event) :
    e.noneJoins (e.holdKeyChange ch on) := by
  unfold Event.holdKeyChange
  simp only
  split_ifs <;> exact .of_claims rfl

theorem Event.holdKeyDebounced_noneJoins (ch : Ch) (e : Event) : e.noneJoins (e.holdKeyDebounced ch) := by
  unfold Event.holdKeyDebounced
  split
  · exact Event.changeHolds_noneJoins _ e
  · exact .refl e

theorem Event.wakeButtonChange_noneJoins (ch : Ch) (pressed : Bool) (e : Event) :
    e.noneJoins (e.wakeButtonChange ch pressed) := by
  unfold Event.wakeButtonChange
  simp only
  split_ifs <;> exact .of_claims rfl

theorem Event.wakeButtonDebounced_noneJoins (ch : Ch) (e : Event) :
    e.noneJoins (e.wakeButtonDebounced ch) := by
  unfold Event.wakeButtonDebounced
  simp only
  split_ifs
  · exact Event.press_noneJoins ch { e with
      cu.button := e.cu.button.set ch (e.pins.buttonPressed.get ch)
      cu.buttonTimer := e.cu.buttonTimer.set ch none }
  · exact .of_claims rfl
  · exact .refl e

theorem Event.callWaitEnds_noneJoins (ch : Ch) (e : Event) : e.noneJoins (e.callWaitEnds ch) := by
  unfold Event.callWaitEnds
  split
  · have h1 : e.noneJoins (e.noticeUnanswered ch) := by
      unfold Event.noticeUnanswered
      split <;> exact .of_claims rfl
    exact h1.trans (Event.setState_noneJoins ch _ ((e.noticeUnanswered ch).setCallWait ch none))
  · exact .refl e

theorem Event.ageOut_noneJoins (stations : List Nat) (e : Event) : e.noneJoins (e.ageOut stations) := by
  unfold Event.ageOut
  simp only
  refine Event.noneJoins.trans (e' := { e with du.peers := e.du.peers.map (PeerEntry.aged stations) })
    (.of_claims rfl) ?_
  exact Event.foldl_noneJoins (f := fun e n => e.noticeNode (.peerAbsent n)) (fun _ _ => .of_claims rfl) _ _

theorem Event.claimHoldEnds_noneJoins (station number : Nat) (e : Event) :
    e.noneJoins (e.claimHoldEnds station number) := by
  unfold Event.claimHoldEnds
  split
  · exact Event.filter_noneJoins _ e
  · exact .refl e

theorem Event.overflowEnds_noneJoins (e : Event) : e.noneJoins e.overflowEnds := by
  unfold Event.overflowEnds
  split <;> exact .of_claims rfl

theorem Event.retryGapEnds_noneJoins (ch : Ch) (e : Event) : e.noneJoins (e.retryGapEnds ch) := by
  unfold Event.retryGapEnds
  split <;> exact .of_claims rfl

theorem Event.holdEntriesExpire_noneJoins (keys : List HoldKey) (e : Event) :
    e.noneJoins (e.holdEntriesExpire keys) :=
  (Event.foldl_noneJoins (f := fun e (h : HoldEntry) => e.noticeHold h.target h.tag)
    (fun _ _ => .of_claims rfl) _ e).trans (Event.changeHolds_noneJoins _ _)

theorem Event.heartbeat_noneJoins (e : Event) : e.noneJoins e.heartbeat := by
  unfold Event.heartbeat
  split
  · refine Event.noneJoins.trans (e' := ({ e with li.heartbeatTimer := some e.heartbeatPeriod } : Event).oweState)
      (.of_claims rfl) (Event.forChannels_noneJoins (fun ch e => ?_) _)
    unfold Event.heartbeatCalls
    simp only
    refine Event.noneJoins.trans (?_ : e.noneJoins _) (Event.callFrame_noneJoins ch _ _)
    split <;> exact .of_claims rfl
  · exact .refl e

theorem Event.accessGap_noneJoins (e : Event) : e.noneJoins e.accessGap := by
  have fill : ∀ (f : Frame) (rest : List Frame) (a : Event),
      (a.fillSender f rest).bu.claims = a.bu.claims := fun f rest a => by
    unfold Event.fillSender
    simp only
    split <;> rfl
  unfold Event.accessGap
  simp only
  split
  · exact .refl e
  · split
    · exact .of_claims rfl
    · exact .of_claims (fill _ _ _)
    · exact .of_claims rfl

theorem Event.contentionLost_noneJoins (winner : Byte) (e : Event) :
    e.noneJoins (e.contentionLost winner) := by
  unfold Event.contentionLost
  split <;> exact .of_claims rfl

theorem Event.frameSent_noneJoins (e : Event) : e.noneJoins e.frameSent := by
  unfold Event.frameSent
  split <;> exact .of_claims rfl

theorem Event.sendFault_noneJoins (e : Event) : e.noneJoins e.sendFault := by
  unfold Event.sendFault
  split <;> exact .of_claims rfl

/-! ## Frames of other stations -/

theorem Event.adopt_noneJoins (adoption : Option PhaseUnit) (e : Event) : e.noneJoins (e.adopt adoption) := by
  unfold Event.adopt
  split
  · rename_i v
    simp only
    split
    · exact .of_claims rfl
    · exact (Event.phaseEntry_keptQuietly ({ e with pu := v } : Event).oweState).1.noneJoins
  · exact .refl e

theorem Event.takeState_noneJoins (env : Envelope) (p : StatePayload) (e : Event) :
    e.noneJoins (e.takeState env p) := by
  have peers : ∀ a : Event, a.noneJoins (a.updatePeers env.sender.toNat p.reports) := fun a => by
    unfold Event.updatePeers
    split <;> exact .of_claims rfl
  exact ((Event.adopt_noneJoins (e.stateAdoption p) e).trans (Event.settled_noneJoins _)).trans (peers _)

theorem Event.takeEnd_noneJoins (env : Envelope) (number : Byte) (e : Event) :
    e.noneJoins (e.takeEnd env number) := by
  unfold Event.takeEnd
  split
  · exact Event.filter_noneJoins _ e
  · exact .refl e

theorem Event.takeCall_noneJoins (p : CallPayload) (e : Event) : e.noneJoins (e.takeCall p) := by
  unfold Event.takeCall
  split
  · refine Event.foldl_noneJoins (fun e r => ?_) _ e
    unfold Event.callTarget
    split
    · split
      · exact Event.addOrigin_noneJoins _ _ e
      · exact .refl e
    · exact .refl e
  · exact .refl e

/-! ## Commands of consoles -/

theorem Event.command_noneJoins (env : Envelope) (kind channel tag : Byte) (judge : Event → Judged)
    (e : Event) (h : e.noneJoins (judge e).2) : e.noneJoins (e.command env kind channel tag judge) := by
  unfold Event.command
  split
  · exact .refl e
  · split
    exacts [.refl e, .refl e, .of_claims rfl, h, h, h]

theorem Event.judgeChannel_noneJoins (env : Envelope) (channel level : Byte) (gate : Nat)
    (carryOut : Ch → Event → Judged) (e : Event) (h : ∀ ch, e.noneJoins (carryOut ch e).2) :
    e.noneJoins (e.judgeChannel env channel level gate carryOut).2 := by
  unfold Event.judgeChannel
  split
  · exact .refl e
  · split
    · exact .refl e
    · split
      · exact .refl e
      · exact h _

theorem Event.carryOutShed_noneJoins (ch : Ch) (e : Event) : e.noneJoins (e.carryOutShed ch).2 := by
  have unused : ∀ shed : Event → Event, e.noneJoins (shed e) → e.noneJoins (e.shedIfUnused ch shed).2 :=
    fun shed h => by
      unfold Event.shedIfUnused
      split
      · exact h
      · exact .refl e
  unfold Event.carryOutShed
  split
  · exact .refl e
  · split
    · exact Event.tryWait_noneJoins ch (e.modIt ch _)
    · exact .refl e
    · exact .refl e
    · exact .of_claims rfl
    · exact unused _ (Event.shedPending_noneJoins ch e)
    · exact unused _ (Event.shedTripped_noneJoins ch e)
    · split
      · exact unused _ (Event.shedStarting_noneJoins ch e)
      · exact .refl e
    all_goals exact .refl e

theorem Event.judgeShed_noneJoins (env : Envelope) (channel level : Byte) (e : Event) :
    e.noneJoins (e.judgeShed env channel level).2 := by
  unfold Event.judgeShed
  split
  · exact .refl e
  · exact Event.judgeChannel_noneJoins env channel level 2 _ e fun ch => Event.carryOutShed_noneJoins ch e

theorem Event.judgeHold_noneJoins (env : Envelope) (target tag level : Byte) (expiry : Word16)
    (e : Event) : e.noneJoins (e.judgeHold env target tag level expiry).2 := by
  unfold Event.judgeHold
  split
  · exact .refl e
  · split
    · exact .refl e
    · unfold Event.carryOutHold
      split
      · exact Event.changeHolds_noneJoins _ e
      · exact .refl e

theorem Event.judgeUnhold_noneJoins (env : Envelope) (target tag level : Byte) (e : Event) :
    e.noneJoins (e.judgeUnhold env target tag level).2 := by
  unfold Event.judgeUnhold
  split
  · exact .refl e
  · split
    · exact .refl e
    · unfold Event.carryOutUnhold
      simp only
      split_ifs
      · exact .refl e
      · exact .refl e
      · exact Event.changeHolds_noneJoins _ e

theorem Event.carryOutUnlock_noneJoins (ch : Ch) (e : Event) : e.noneJoins (e.carryOutUnlock ch).2 := by
  have rest : e.noneJoins
      ((e.modCc ch fun c => { c with tripCount := 0, origins := {} }).setState ch .rest) :=
    Event.setState_noneJoins ch .rest (e.modCc ch _)
  unfold Event.carryOutUnlock
  split
  · unfold Event.unlockToRest
    simp only
    split
    · exact rest.trans (Event.addOrigin_noneJoins .hold ch _)
    · exact rest
  · exact .refl e

end Sys2Proof.Machine
end

