-- ==== Sys2Proof/Proofs/ClaimBounds.lean ====
section
/-! SUPPORT. Every command keeps the bounds on the Claim Table (R75, R78): a claim is created where it fits, a
remote one is recorded under a key of its own, and every other effect takes entries away. -/

namespace Sys2Proof.Machine

/-- What an operation inside an event keeps: the station, whether the node is in LOADING, and the bounds. -/
structure KeepsBounds (e e' : Event) : Prop where
  station : e'.mc.station = e.mc.station
  loading : e'.mc.mode = .loading ↔ e.mc.mode = .loading
  bounds : e.claimsBounded → e'.claimsBounded

section
variable {e e' e'' : Event}

theorem KeepsBounds.refl (e : Event) : KeepsBounds e e := ⟨rfl, Iff.rfl, id⟩

theorem KeepsBounds.trans (h : KeepsBounds e e') (k : KeepsBounds e' e'') : KeepsBounds e e'' :=
  ⟨k.station.trans h.station, k.loading.trans h.loading, fun hb => k.bounds (h.bounds hb)⟩

/-- No entry joins, and the node goes from a mode other than LOADING to another such. -/
theorem KeepsBounds.of_mode (hst : e'.mc.station = e.mc.station) (hre : e'.mc.inReset = e.mc.inReset)
    (him : e'.mc.image = e.mc.image) (hl : e.mc.mode ≠ .loading) (hl' : e'.mc.mode ≠ .loading)
    (hj : e.noneJoins e') : KeepsBounds e e' := by
  refine ⟨hst, iff_of_false hl' hl, fun h => ?_⟩
  refine h.of_shares hst (fun hr => ?_) (fun h => absurd h hl') (.inl (by unfold State.plantBudget; rw [him])) hj
  obtain ⟨⟨-, -, -, -, hreset⟩, -⟩ := h
  exact absurd (hreset (hre.symm.trans hr)).1 hl

theorem Calm.keepsBounds {x u : Prop} (h : Calm x u e e') (hj : e.noneJoins e') : KeepsBounds e e' := by
  have hre : e'.mc.inReset = e.mc.inReset ∧ e'.mc.image = e.mc.image := by
    rcases h.mc with hm | ⟨-, -, hm⟩ <;> rw [hm] <;> exact ⟨rfl, rfl⟩
  refine ⟨h.station, by rw [h.mode], fun hb => ?_⟩
  refine hb.of_shares h.station (fun hr => ?_) (fun hl => h.mode.symm.trans hl)
    (.inl (by unfold State.plantBudget; rw [hre.2])) hj
  obtain ⟨⟨-, -, -, -, hreset⟩, -⟩ := hb
  have hr := hre.1.symm.trans hr
  exact ⟨hr, h.mode.trans (hreset hr).1⟩

/-- An operation that leaves Mode Control as it is. -/
theorem KeepsBounds.of_mc (hmc : e'.mc = e.mc) (hj : e.noneJoins e') : KeepsBounds e e' := by
  refine ⟨by rw [hmc], by rw [hmc], fun hb => ?_⟩
  refine hb.of_shares (by rw [hmc]) (fun hr => ?_) (fun hl => by rw [← hl, hmc])
    (.inl (by unfold State.plantBudget; rw [hmc])) hj
  obtain ⟨⟨-, -, -, -, hreset⟩, -⟩ := hb
  rw [hmc] at hr ⊢
  exact ⟨hr, (hreset hr).1⟩

end

theorem Event.oweEval_keepsBounds (e : Event) : KeepsBounds e e.oweEval := .of_mc rfl (.of_claims rfl)

theorem Event.noticeNode_keepsBounds (n : Notice) (e : Event) : KeepsBounds e (e.noticeNode n) :=
  .of_mc rfl (.of_claims rfl)

theorem Event.withdrawAll_keepsBounds (e : Event) : KeepsBounds e e.withdrawAll :=
  .of_mc (Event.withdrawAll_flushes e).mc (Event.withdrawAll_noneJoins e)

theorem Event.conflictCheck_keepsBounds (e : Event) : KeepsBounds e e.conflictCheck :=
  .of_mc (Event.conflictCheck_flushes e).mc (Event.conflictCheck_noneJoins e)

/-! ## The creation of a claim (R78, R79) -/

theorem Claim.addMark_share (n : Nat) (a : Arrival) (c : Claim) : (c.addMark n a).share = c.share :=
  Claim.share_of_rest (Claim.addMark_key n a c) (Claim.addMark_isOwn n a c) fun h => by
    rw [Claim.addMark_own h]

/-- The shares of the table after a claim has been created. -/
theorem Event.openClaim_shares (ch : Ch) (e : Event) : (e.openClaim ch).bu.claims.map Claim.share =
    e.bu.claims.map Claim.share ++ [(e.newClaim ch).share] := by
  rw [Event.openClaim_bu, List.map_append, List.map_map,
    show Claim.share ∘ Claim.addMark (e.newClaim ch).number .before = Claim.share from
      funext (Claim.addMark_share _ _)]
  rfl

theorem Event.openClaim_keys (ch : Ch) (e : Event) : (e.openClaim ch).bu.claims.map Claim.key =
    e.bu.claims.map Claim.key ++ [(e.newClaim ch).key] := by
  have h := congrArg (List.map fun p => p.1) (Event.openClaim_shares ch e)
  rw [List.map_append, List.map_map, List.map_map] at h
  exact h

theorem weightSum_own_le (l : List Claim) : weightSum (l.filter Claim.isOwn) ≤ weightSum l :=
  (List.filter_sublist.map Claim.weight).sum_le_sum fun _ _ => Nat.zero_le _

theorem State.claimable_fits {s : State} {ch : Ch} (h : s.claimable ch = true) :
    weightSum s.bu.claims + (s.record ch).weight ≤ s.plantBudget := by
  unfold State.claimable at h
  exact of_decide_eq_true (Bool.and_eq_true_iff.1 h).2

/-- A claim is created only where the table has room for it and the budget for its weight. -/
theorem Event.openClaim_claimsBounded (ch : Ch) (e : Event) (hc : e.claimable ch = true)
    (h : e.claimsBounded) : (e.openClaim ch).claimsBounded := by
  obtain ⟨⟨-, hkeys, hown, hremote, hreset⟩, -, -⟩ := h
  obtain ⟨-, hmode, -, hroom⟩ := State.claimable_iff hc
  obtain ⟨-, -, hmc, -⟩ := Event.openClaim_rest ch e
  have mem : ∀ c ∈ (e.openClaim ch).bu.claims,
      (∃ d ∈ e.bu.claims, d.station = c.station ∧ d.isOwn = c.isOwn) ∨ c = e.newClaim ch := fun c hm => by
    rw [Event.openClaim_bu, List.mem_append, List.mem_singleton] at hm
    rcases hm with hm | rfl
    · obtain ⟨d, hd, rfl⟩ := List.mem_map.1 hm
      exact .inl ⟨d, hd, (congrArg Prod.fst (Claim.addMark_key _ _ d)).symm,
        (Claim.addMark_isOwn _ _ d).symm⟩
    · exact .inr rfl
  refine ⟨⟨?_, ?_, fun c hm ho => ?_, fun c hm ho => ?_, fun hr => ?_⟩, ?_, fun hl => ?_⟩
  · rw [Event.openClaim_bu, List.length_append, List.length_map]; exact hroom
  · rw [Event.openClaim_keys, List.nodup_append]
    refine ⟨hkeys, List.nodup_singleton _, fun k hk k' hk' he => ?_⟩
    obtain ⟨c, hm, rfl⟩ := List.mem_map.1 hk
    obtain rfl := List.mem_singleton.1 hk'
    cases ho : c.isOwn
    · exact hremote c hm ho (congrArg Prod.fst he)
    · exact State.claimNumber_fresh e.toState hroom c hm ho (congrArg Prod.snd he)
  · rw [hmc]
    rcases mem c hm with ⟨d, hd, hs, hi⟩ | rfl
    · rw [← hs]; exact hown d hd (hi.trans ho)
    · rfl
  · rw [hmc]
    rcases mem c hm with ⟨d, hd, hs, hi⟩ | rfl
    · rw [← hs]; exact hremote d hd (hi.trans ho)
    · exact Bool.noConfusion ho
  · rw [hmc] at hr
    exact absurd ((hreset hr).1.symm.trans hmode) (by decide)
  · have hfit := State.claimable_fits hc
    have hown := weightSum_own_le (e.openClaim ch).bu.claims
    rw [Event.openClaim_weight] at hown
    have hplant : (e.openClaim ch).plantBudget = e.plantBudget := by unfold State.plantBudget; rw [hmc]
    omega
  · rw [hmc, hmode] at hl; exact Mode.noConfusion hl

theorem claimsBounded_keptByJoins : KeptByJoins fun e => e.claimsBounded where
  enqueue f e h := by
    obtain ⟨-, -, hmc, hbu, -⟩ := Event.enqueue_rest f e
    exact (KeepsBounds.of_mc hmc (.of_claims (by rw [hbu]))).bounds h
  out _ _ h := h
  full _ _ h := h
  claim := Event.openClaim_claimsBounded

theorem Event.drainBudget_keepsBounds (n : Nat) (e : Event) : KeepsBounds e (e.drainBudget n) := by
  have hmc := (Event.drainBudget_flushes n e).mc
  exact ⟨by rw [hmc], by rw [hmc], claimsBounded_keptByJoins.drainBudget n e⟩

theorem Event.settled_keepsBounds (e : Event) : KeepsBounds e e.settled :=
  (Event.settled_calm (x := True) (u := True) e).keepsBounds (Event.settled_noneJoins e)

/-! ## The record of a claim (R92) -/

/-- No remote entry has this key. -/
def State.noRemote (station number : Nat) (s : State) : Prop :=
  ∀ c ∈ s.bu.claims, c.isRemote station number = false

theorem Claim.isRemote_iff (station number : Nat) (c : Claim) :
    c.isRemote station number = true ↔ c.isOwn = false ∧ c.key = (station, number) := by
  unfold Claim.isRemote Claim.hasKey Claim.key
  simp [Prod.ext_iff]

theorem State.noRemote_iff {station number : Nat} {s : State} :
    s.noRemote station number ↔ ∀ c ∈ s.bu.claims, c.isOwn = false → c.key ≠ (station, number) :=
  forall₂_congr fun c _ => by
    rw [← Bool.not_eq_true, Claim.isRemote_iff, not_and]

theorem noRemote_keptByJoins (station number : Nat) : KeptByJoins fun e => e.noRemote station number where
  enqueue f e h := by
    unfold State.noRemote; rw [(Event.enqueue_rest f e).2.2.2.1]; exact h
  out _ _ h := h
  full _ _ h := h
  claim ch e _ h := by
    rw [State.noRemote_iff] at h ⊢
    intro c hm ho
    rw [Event.openClaim_bu, List.mem_append, List.mem_singleton] at hm
    rcases hm with hm | rfl
    · obtain ⟨d, hd, rfl⟩ := List.mem_map.1 hm
      rw [Claim.addMark_key]
      exact h d hd ((Claim.addMark_isOwn _ _ d).symm.trans ho)
    · exact Bool.noConfusion ho

theorem Event.dropOlder_keepsBounds (c : Claim) (e : Event) : KeepsBounds e (e.dropOlder c) := by
  have removed : KeepsBounds e ({ e with
      bu.claims := e.bu.claims.filter fun y => !y.isRemoteFor c.station c.ch } : Event).oweEval :=
    .of_mc rfl (Event.filter_noneJoins _ e)
  unfold Event.dropOlder
  simp only
  split
  · split
    · exact removed.trans (Event.drainBudget_keepsBounds _ _)
    · exact removed
  · exact .refl e

theorem Event.dropOlder_noRemote (station number : Nat) (c : Claim) (e : Event)
    (h : e.noRemote station number) : (e.dropOlder c).noRemote station number := by
  have removed : State.noRemote station number ({ e with
      bu.claims := e.bu.claims.filter fun y => !y.isRemoteFor c.station c.ch } : Event).oweEval.toState :=
    fun d hd => h d (List.mem_filter.1 hd).1
  unfold Event.dropOlder
  simp only
  split
  · split
    · exact (noRemote_keptByJoins station number).drainBudget _ _ removed
    · exact removed
  · exact h

/-- A remote claim of a new key joins a table with room. -/
theorem Event.appendRemote_keepsBounds (c : Claim) (e : Event) (hr : c.isOwn = false)
    (hs : c.station ≠ e.mc.station) (hm : e.mc.mode ≠ .loading)
    (hroom : e.bu.claims.length < Config.claimCapacity) (hnew : e.noRemote c.station c.number) :
    KeepsBounds e { e with bu.claims := e.bu.claims ++ [c] } := by
  refine ⟨rfl, Iff.rfl, fun ⟨⟨_, hkeys, hown, hremote, hreset⟩, hfit, _⟩ => ?_⟩
  have mem : ∀ d ∈ e.bu.claims ++ [c], d ∈ e.bu.claims ∨ d = c := fun d hd =>
    (List.mem_append.1 hd).imp_right List.mem_singleton.1
  refine ⟨⟨?_, ?_, fun d hd ho => ?_, fun d hd ho => ?_, fun hr => absurd (hreset hr).1 hm⟩, ?_,
    fun hl => absurd hl hm⟩
  · show (e.bu.claims ++ [c]).length ≤ _
    rw [List.length_append]; exact hroom
  · show ((e.bu.claims ++ [c]).map Claim.key).Nodup
    rw [List.map_append, List.nodup_append]
    refine ⟨hkeys, List.nodup_singleton _, fun k hk k' hk' he => ?_⟩
    obtain ⟨d, hd, rfl⟩ := List.mem_map.1 hk
    obtain rfl := List.mem_singleton.1 hk'
    cases ho : d.isOwn
    · exact State.noRemote_iff.1 hnew d hd ho he
    · exact hs ((congrArg Prod.fst he).symm.trans (hown d hd ho))
  · rcases mem d hd with hd | rfl
    · exact hown d hd ho
    · rw [hr] at ho; exact Bool.noConfusion ho
  · rcases mem d hd with hd | rfl
    · exact hremote d hd ho
    · exact hs
  · show weightSum ((e.bu.claims ++ [c]).filter Claim.isOwn) ≤ _
    rw [List.filter_append, List.filter_cons_of_neg (by rw [hr]; decide), List.filter_nil,
      List.append_nil]
    exact hfit

theorem Claim.retake_share (limit : Micros) (c y : Claim) : (Claim.retake limit c y).share = y.share := by
  unfold Claim.retake
  split
  · rename_i h
    exact Claim.share_of_rest rfl rfl fun ho => by
      rw [((Claim.isRemote_iff _ _ _).1 h).1] at ho; exact Bool.noConfusion ho
  · rfl

theorem Event.replaceClaim_keepsBounds (c old : Claim) (e : Event) :
    KeepsBounds e (e.replaceClaim c old) := by
  have retaken : KeepsBounds e { e with
      bu.claims := e.bu.claims.map (Claim.retake (e.plantTime Image.claimHoldLimit) c) } :=
    .of_mc rfl (.of_filter (fun _ => true) (Claim.retake (e.plantTime Image.claimHoldLimit) c)
      (Claim.retake_share _ c) (by rw [List.filter_true]))
  have checked := retaken.trans (Event.conflictCheck_keepsBounds _)
  rw [show e.replaceClaim c old = if c.weight < old.weight then
      (Event.conflictCheck { e with
        bu.claims := e.bu.claims.map (Claim.retake (e.plantTime Image.claimHoldLimit) c) }).oweEval
    else Event.conflictCheck { e with
      bu.claims := e.bu.claims.map (Claim.retake (e.plantTime Image.claimHoldLimit) c) } from rfl]
  split
  · exact checked.trans (Event.oweEval_keepsBounds _)
  · exact checked

theorem Event.setOverflow_keepsBounds (e : Event) : KeepsBounds e e.setOverflow := by
  have set : KeepsBounds e { e with
      bu.overflow := true
      bu.overflowTimer := some (e.plantTime Image.claimHoldLimit) } := .of_mc rfl (.of_claims rfl)
  unfold Event.setOverflow
  simp only
  split
  · exact set
  · exact (set.trans (Event.noticeNode_keepsBounds _ _)).trans (Event.withdrawAll_keepsBounds _)

theorem Event.recordClaim_keepsBounds (c : Claim) (e : Event) (hs : c.station ≠ e.mc.station)
    (hm : e.mc.mode ≠ .loading) : KeepsBounds e (e.recordClaim c) := by
  unfold Event.recordClaim
  split
  · exact Event.replaceClaim_keepsBounds _ _ e
  · rename_i hnone
    have dropped := Event.dropOlder_keepsBounds c e
    have hnew : (e.dropOlder c).noRemote c.station c.number :=
      Event.dropOlder_noRemote _ _ c e fun d hd => by
        have := List.find?_eq_none.1 hnone d hd
        rwa [Bool.not_eq_true] at this
    simp only
    split
    · rename_i hroom
      refine dropped.trans (KeepsBounds.trans (e' := { e.dropOlder c with
        bu.claims := (e.dropOlder c).bu.claims ++ [(e.dropOlder c).recorded c] })
        (Event.appendRemote_keepsBounds _ _ rfl ?_ ?_ hroom hnew) ?_)
      · rw [dropped.station]; exact hs
      · exact fun hl => hm (dropped.loading.1 hl)
      · exact Event.conflictCheck_keepsBounds _
    · exact dropped.trans (Event.setOverflow_keepsBounds _)

theorem remoteClaim?_station {station : Nat} {number channel weight rank : Byte} {c : Claim}
    (h : remoteClaim? station number channel weight rank = some c) : c.station = station := by
  unfold remoteClaim? at h
  split at h
  · split at h
    · rw [← Option.some.inj h]
    · exact nomatch h
  · exact nomatch h

theorem Event.takeClaim_keepsBounds (env : Envelope) (number channel weight rank : Byte) (e : Event)
    (hs : env.sender.toNat ≠ e.mc.station) : KeepsBounds e (e.takeClaim env number channel weight rank) := by
  unfold Event.takeClaim
  split
  · rename_i c hc
    split
    · rename_i hm
      refine Event.recordClaim_keepsBounds c e (remoteClaim?_station hc ▸ hs) fun hl => ?_
      rw [hl] at hm; exact Bool.noConfusion hm
    · exact .refl e
  · exact .refl e

/-! ## Changes of mode -/

theorem Event.setMode_keepsBounds (mode : Mode) (e : Event) (hl : e.mc.mode ≠ .loading)
    (hl' : mode ≠ .loading) : KeepsBounds e (e.setMode mode) := by
  obtain ⟨-, -, hbu, hmc, -⟩ := Event.setMode_rest mode e
  exact .of_mode (by rw [hmc]) (by rw [hmc]) (by rw [hmc]) hl (by rw [hmc]; exact hl')
    (.of_claims (by rw [hbu]))

theorem Event.cutOff_keepsBounds (e : Event) (hl : e.mc.mode ≠ .loading) : KeepsBounds e e.cutOff := by
  refine KeepsBounds.trans (e' := { e with mc.staggerTimer := some e.staggerStart })
    (.of_mode rfl rfl rfl hl hl (.of_claims rfl)) ?_
  exact (((Event.withdrawAll_calm _).trans (Event.forChannels_calm Event.returnToAwake_calm _)).trans
    (Event.forChannels_calm (x := True) (u := True) (Event.addIfResting_calm .isolation) _)).keepsBounds
    (((Event.withdrawAll_noneJoins _).trans (Event.forChannels_noneJoins Event.returnToAwake_noneJoins _)).trans
      (Event.forChannels_noneJoins (fun ch e => (Event.addIfResting_kept .isolation ch e).noneJoins) _))

theorem Event.enterIsolated_keepsBounds (e : Event) (hl : e.mc.mode ≠ .loading) :
    KeepsBounds e e.enterIsolated := by
  obtain ⟨-, -, hbu, hmc, -⟩ := Event.alone_rest e
  have h : KeepsBounds e e.alone := .of_mode (by rw [hmc]) (by rw [hmc]) (by rw [hmc]) hl
    (by rw [hmc]; exact Mode.noConfusion) (.of_claims (by rw [hbu]))
  exact h.trans (Event.cutOff_keepsBounds _ (by rw [hmc]; exact Mode.noConfusion))

theorem Event.enterSilent_keepsBounds (e : Event) : KeepsBounds e e.enterSilent := by
  have silent : ∀ e : Event, e.mc.mode ≠ .loading → KeepsBounds e (e.setMode .silent) ∧
      (e.setMode .silent).mc.mode ≠ .loading := fun e h => by
    have k := Event.setMode_keepsBounds .silent e h Mode.noConfusion
    exact ⟨k, fun hl => h (k.loading.1 hl)⟩
  have quiet : KeepsBounds e e.goQuiet := .of_mc rfl (.of_claims rfl)
  unfold Event.enterSilent
  split <;> rename_i hm
  · exact .refl e
  · exact .refl e
  · exact quiet.trans (silent _ (by show e.mc.mode ≠ _; rw [hm]; decide)).1
  · exact (quiet.trans (silent _ (by show e.mc.mode ≠ _; rw [hm]; decide)).1).trans
      (Event.withdrawAll_keepsBounds _)
  all_goals
    have hl : e.mc.mode ≠ .loading := by rw [hm]; decide
    have stopped : KeepsBounds e.goQuiet e.goQuiet.stopModeTimers :=
      .of_mode rfl rfl rfl hl hl (.of_claims rfl)
    obtain ⟨h, hl'⟩ := silent e.goQuiet.stopModeTimers hl
    exact ((quiet.trans stopped).trans h).trans (Event.cutOff_keepsBounds _ hl')

theorem Event.rejoin_keepsBounds (e : Event) (hl : e.mc.mode ≠ .loading) : KeepsBounds e e.rejoin := by
  have back := (Event.setMode_keepsBounds .operating e hl Mode.noConfusion).trans
    (Event.noticeNode_keepsBounds .rejoined _)
  have timers : ∀ a : Event, a.mc.mode ≠ .loading → KeepsBounds a { a with
      mc.isolationTimer := some (a.plantTime Image.isolationLimit), mc.staggerTimer := none } :=
    fun a ha => .of_mode rfl rfl rfl ha ha (.of_claims rfl)
  have waits : ∀ a : Event, KeepsBounds a (a.forChannels Event.tryWait) := fun a =>
    (Event.forChannels_calm (x := True) (u := True) Event.tryWait_calm a).keepsBounds
      (Event.forChannels_noneJoins Event.tryWait_noneJoins a)
  exact ((back.trans (timers _ (mt back.loading.1 hl))).trans (waits _)).trans
    (Event.oweEval_keepsBounds _)

theorem Event.staggerEnds_keepsBounds (e : Event) : KeepsBounds e e.staggerEnds := by
  unfold Event.staggerEnds
  split
  · rename_i h
    have hl : e.mc.mode ≠ .loading := by rcases h.1 with h | h <;> rw [h] <;> decide
    split
    · rename_i ch _
      have hmc := (Event.startUnclaimed_spec ch e).2.2.1
      have started : KeepsBounds e (e.startUnclaimed ch) := .of_mc hmc (Event.startUnclaimed_noneJoins ch e)
      have hl' := mt started.loading.1 hl
      exact started.trans (.of_mode rfl rfl rfl hl' hl' (.of_claims rfl))
    · exact .of_mode rfl rfl rfl hl hl (.of_claims rfl)
  · exact .refl e

/-! ## A frame that arrives -/

/-- What the dispatch of a frame keeps at a node of this station, the return from ISOLATED with it keeps. -/
theorem Event.rejoinWith_keepsBounds (order : RejoinOrder) (dispatch : Event → Event) (e : Event)
    (hl : e.mc.mode ≠ .loading)
    (hd : ∀ f : Event, f.mc.station = e.mc.station → KeepsBounds f (dispatch f)) :
    KeepsBounds e (e.rejoinWith order dispatch) := by
  have first := Event.rejoin_keepsBounds e hl
  have dispatched : KeepsBounds e (dispatch e).settled := (hd e rfl).trans (Event.settled_keepsBounds _)
  unfold Event.rejoinWith
  split
  · exact first.trans (hd _ first.station)
  · have h := first.trans ((Event.settled_keepsBounds _).trans (Event.drainBudget_keepsBounds budgetRounds _))
    exact h.trans (hd _ h.station)
  · exact dispatched.trans (Event.rejoin_keepsBounds _ (mt dispatched.loading.1 hl))
  · have h := dispatched.trans ((Event.staggerEnds_keepsBounds _).trans (Event.settled_keepsBounds _))
    exact h.trans (Event.rejoin_keepsBounds _ (mt h.loading.1 hl))

theorem Event.heard_keepsBounds (order : RejoinOrder) (dispatch : Event → Event) (e : Event)
    (hd : ∀ f : Event, f.mc.station = e.mc.station → KeepsBounds f (dispatch f)) :
    KeepsBounds e (e.heard order dispatch) := by
  have restarted : e.mc.mode ≠ .loading → KeepsBounds e
      (dispatch { e with mc.isolationTimer := some (e.plantTime Image.isolationLimit) }) := fun hl =>
    KeepsBounds.trans (e' := { e with mc.isolationTimer := some (e.plantTime Image.isolationLimit) })
      (.of_mode rfl rfl rfl hl hl (.of_claims rfl)) (hd _ rfl)
  unfold Event.heard
  split <;> rename_i hm
  · exact restarted (by rw [hm]; decide)
  · exact restarted (by rw [hm]; decide)
  · exact Event.rejoinWith_keepsBounds order dispatch e (by rw [hm]; decide) hd
  all_goals exact hd e rfl

/-- A frame that arrives: what its dispatch keeps, the arrival keeps. -/
theorem Event.hear_keepsBounds (order : RejoinOrder) (env : Envelope) (kind : Byte) (payload : List Byte)
    (dispatch : Event → Event) (e : Event)
    (hd : ∀ f : Event, env.sender.toNat ≠ f.mc.station → KeepsBounds f (dispatch f)) :
    KeepsBounds e (e.hear order env kind payload dispatch) := by
  have ended : KeepsBounds e { e with li.inProgress := none } := .of_mc rfl (.of_claims rfl)
  unfold Event.hear
  split
  · exact .refl e
  · split
    · exact .refl e
    · simp only
      split
      · exact ended.trans (Event.enterSilent_keepsBounds _)
      · rename_i hne
        exact ended.trans (Event.heard_keepsBounds order dispatch _ fun f hf => hd f (hf ▸ hne))

end Sys2Proof.Machine
end

