-- ==== Sys2Proof/Proofs/ClaimSteps.lean ====
section
/-! SUPPORT. Every step keeps the bounds on the Claim Table: command by command (R74, R75, R78). -/

namespace Sys2Proof.Machine

theorem NodeKept.keepsBounds {e e' : Event} (h : NodeKept e e') : KeepsBounds e e' := by
  obtain ⟨t, hmc⟩ := h.mc
  refine ⟨by rw [hmc], by rw [hmc], fun hb => ?_⟩
  refine hb.of_shares (by rw [hmc]) (fun hr => ?_) (fun hl => by rw [← hl, hmc])
    (.inl (by unfold State.plantBudget; rw [hmc])) h.noneJoins
  obtain ⟨⟨-, -, -, -, hreset⟩, -⟩ := hb
  rw [hmc] at hr ⊢
  exact ⟨hr, (hreset hr).1⟩

theorem Event.forChannels_keepsBounds {f : Ch → Event → Event} (h : ∀ ch e, KeepsBounds e (f ch e))
    (e : Event) : KeepsBounds e (e.forChannels f) :=
  foldl_induct (P := fun e' => KeepsBounds e e') (fun e' ch he => he.trans (h ch e')) _ e (.refl e)

/-! ## Timers of the modes -/

theorem Event.listenEnds_keepsBounds (e : Event) : KeepsBounds e e.listenEnds := by
  have acts : ∀ ch (a : Event), KeepsBounds a (a.actOnOrigins ch) := fun ch a => by
    refine (Event.actOnOrigins_calm (x := True) (u := True) ch a).keepsBounds ?_
    unfold Event.actOnOrigins
    split
    · split
      · exact .refl a
      · exact Event.enterPending_noneJoins ch a
    · exact .refl a
  have rules : ∀ ch (a : Event), KeepsBounds a (a.startRule ch) := fun ch a => by
    obtain ⟨-, -, -, h, -⟩ := Event.startRule_spec ch a
    exact h.keepsBounds
  have decides : ∀ a : Event, KeepsBounds a a.startDecision := fun a =>
    ((Event.forChannels_keepsBounds rules a).trans (Event.forChannels_keepsBounds acts _)).trans
      (Event.oweEval_keepsBounds _)
  unfold Event.listenEnds
  split
  · rename_i h
    have hl : e.mc.mode ≠ .loading := by rw [h.1]; decide
    refine KeepsBounds.trans (e' := e.listened) ?_ (decides _)
    exact KeepsBounds.trans (e' := { e with mc.listenTimer := none })
      (.of_mode rfl rfl rfl hl hl (.of_claims rfl)) (Event.setMode_keepsBounds _ _ hl Mode.noConfusion)
  · exact .refl e

theorem Event.isolationEnds_keepsBounds (e : Event) : KeepsBounds e e.isolationEnds := by
  unfold Event.isolationEnds
  split
  · rename_i h
    exact Event.enterIsolated_keepsBounds e (by rcases h.1 with h | h <;> rw [h] <;> decide)
  · exact .refl e

theorem Event.bypassEnds_claimsBounded (ch : Ch) (e : Event) (h : e.claimsBounded) :
    (e.bypassEnds ch).claimsBounded := by
  unfold Event.bypassEnds
  split
  · exact (Event.setState_kept ch .bypass
      { e with mc.bypassTimer := e.mc.bypassTimer.set ch none }).keepsBounds.bounds h
  · exact h

/-! ## A settled claim (R87) -/

/-- Only the claim's own entry has its key, so the table's shares stay as they are. -/
theorem promote_shares {y : Claim} {claims : List Claim} (hy : y ∈ claims) (ho : y.isOwn = true)
    (hn : (claims.map Claim.key).Nodup) :
    (promote y claims).map Claim.share = claims.map Claim.share := by
  unfold promote
  rw [List.map_map]
  refine List.map_congr_left fun c hc => ?_
  simp only [Function.comp]
  split
  · rename_i hk
    obtain rfl := List.inj_on_of_nodup_map hn hc hy ((Claim.hasKey_iff c y).1 hk)
    exact Claim.share_of_rest rfl ho.symm fun _ => rfl
  · exact Claim.dropMarks_share _ c

theorem Event.settleEnds_claimsBounded (ch : Ch) (e : Event) (h : e.claimsBounded) :
    (e.settleEnds ch).claimsBounded := by
  rcases Event.settleEnds_cases ch e with he | ⟨y, hm, hp, -, -, he⟩ <;> rw [he]
  · exact h
  · obtain ⟨-, hmc, hbu⟩ := Event.startClaimed_rest ch { e with bu.claims := promote y e.bu.claims }
    refine (KeepsBounds.of_mc (e := e) hmc ?_).bounds h
    unfold Event.noneJoins
    rw [hbu]
    exact (promote_shares hm (Claim.own_of_provisional hp) h.1.2.1).symm ▸ List.Sublist.refl _

/-! ## Reset and image (R74, R136, R139) -/

theorem State.claimsBounded.of_empty {s : State} (h : s.bu.claims = [])
    (hr : s.mc.inReset = true → s.mc.mode = .loading) : s.claimsBounded := by
  unfold State.claimsBounded State.claimTableSound State.ownWithinBudget
  rw [h]
  refine ⟨⟨Nat.zero_le _, List.nodup_nil, fun c hc => ?_, fun c hc => ?_, fun h => ⟨hr h, rfl⟩⟩,
    Nat.zero_le _, fun _ => rfl⟩ <;> exact absurd hc List.not_mem_nil

theorem Event.release_claimsBounded (adr : BitVec 6) (e : Event) (h : e.claimsBounded) :
    (e.release adr).claimsBounded := by
  unfold Event.release
  split
  · rename_i hr
    obtain ⟨⟨-, -, -, -, hreset⟩, -⟩ := h
    exact .of_empty (hreset hr).2 Bool.noConfusion
  · exact h

theorem Event.leaveOffline_keepsBounds (ch : Ch) (e : Event) : KeepsBounds e (e.leaveOffline ch) := by
  unfold Event.leaveOffline
  split
  · split
    · obtain ⟨-, -, hmc, -⟩ := Event.lock_spec ch .welded e
      exact .of_mc hmc (Event.lock_noneJoins ch .welded e)
    · have started := (Event.setState_kept ch .rest e).trans
        (Event.addOrigin_follows .start ch (e.setState ch .rest)).kept
      simp only
      split
      · exact (started.trans (Event.addOrigin_follows .hold ch _).kept).keepsBounds
      · exact started.keepsBounds
  · exact .refl e

/-- LOADING ends with no own claim in the table, whatever the budget of the image. -/
theorem State.claimsBounded.of_loaded {s s' : State} (h : s.claimsBounded) (hl : s.mc.mode = .loading)
    (hst : s'.mc.station = s.mc.station) (hr : s'.mc.inReset = false) (hcl : s'.bu.claims = s.bu.claims) :
    s'.claimsBounded :=
  h.of_shares hst (fun h => absurd (hr.symm.trans h) Bool.noConfusion) (fun _ => hl) (.inr hl)
    (by rw [hcl])

theorem Event.imageRead_claimsBounded (read : ImageRead) (e : Event) (h : e.claimsBounded) :
    (e.imageRead read).claimsBounded := by
  unfold Event.imageRead
  split
  · rename_i hg
    obtain ⟨hl, hr⟩ := hg
    split
    · rename_i image _
      obtain ⟨-, -, hbu, hmc, -⟩ := Event.setMode_rest .listening (e.takeImage image)
      rw [Event.acceptImage_eq]
      refine ((Event.noticeNode_keepsBounds _ _).trans
        (Event.forChannels_keepsBounds Event.leaveOffline_keepsBounds _)).bounds ?_
      exact h.of_loaded hl (by rw [hmc]; rfl) (by rw [hmc]; exact hr) (by rw [hbu]; rfl)
    · rename_i reason record _
      obtain ⟨-, -, hbu, hmc, -⟩ := Event.setMode_rest .unconfigured (e.refuseImage reason record)
      rw [Event.rejectImage_eq]
      refine ((Event.noticeNode_keepsBounds _ _).trans (Event.noticeNode_keepsBounds _ _)).bounds ?_
      exact h.of_loaded hl (by rw [hmc]; rfl) (by rw [hmc]; exact hr) (by rw [hbu]; rfl)
  · exact h

/-! ## Every step -/

/-- What the dispatch of a frame to the blocks keeps: CLAIM alone lets an entry join. -/
theorem effectOf_keepsBounds_of_frame (order : RejoinOrder) (env : Envelope) (kind : Byte)
    (payload : List Byte) (dispatch : Event → Event) (e : Event)
    (hc : ∀ f, Calm True True f (dispatch f)) (hj : ∀ f : Event, f.noneJoins (dispatch f)) :
    KeepsBounds e (e.hear order env kind payload dispatch) :=
  Event.hear_keepsBounds order env kind payload dispatch e fun f _ => (hc f).keepsBounds (hj f)

/-- A command of a console: what its judgement keeps, its arrival keeps. -/
theorem effectOf_keepsBounds_of_command (order : RejoinOrder) (env : Envelope) (kind channel tag : Byte)
    (payload : List Byte) (judge : Event → Judged) (e : Event)
    (hc : ∀ f, Calm True True f (judge f).2) (hj : ∀ f : Event, f.noneJoins (judge f).2) :
    KeepsBounds e (e.hear order env kind payload (Event.command env kind channel tag judge)) :=
  effectOf_keepsBounds_of_frame order env kind payload _ e
    (fun f => Event.command_calm env kind channel tag judge f (hc f))
    (fun f => Event.command_noneJoins env kind channel tag judge f (hj f))

theorem effectOf_claimsBounded (c : Instr) (e : Event) (h : e.claimsBounded) :
    (effectOf c e).claimsBounded := by
  have calm : ∀ {e' : Event}, Calm True True e e' → e.noneJoins e' → e'.claimsBounded :=
    fun hc hj => (hc.keepsBounds hj).bounds h
  cases c
  case reset m cause => exact .of_empty rfl fun _ => rfl
  case resetRelease m adr => exact Event.release_claimsBounded adr e h
  case imageReadComplete m read => exact Event.imageRead_claimsBounded read e h
  case settleExpiry m ch => exact Event.settleEnds_claimsBounded ch e h
  case bypassTimerExpiry m ch => exact Event.bypassEnds_claimsBounded ch e h
  case listenExpiry m => exact (Event.listenEnds_keepsBounds e).bounds h
  case isolationExpiry m => exact (Event.isolationEnds_keepsBounds e).bounds h
  case isolationStaggerExpiry m => exact (Event.staggerEnds_keepsBounds e).bounds h
  case feedbackChange m ch closed =>
    exact calm (Event.feedbackChange_calm ch closed e) (Event.feedbackChange_noneJoins ch closed e)
  case feedbackMismatch m ch =>
    exact calm (Event.feedbackMismatch_calm ch e) (Event.feedbackMismatch_noneJoins ch e)
  case retryTimerExpiry m ch => exact calm (Event.retryEnds_calm ch e) (Event.retryEnds_noneJoins ch e)
  case runDownExpiry m ch =>
    exact calm (Event.runDownExpires_calm ch e) (Event.runDownExpires_noneJoins ch e)
  case inrushExpiry m ch => exact calm (Event.inrushEnds_calm ch e) (Event.inrushEnds_noneJoins ch e)
  case inrushHoldExpiry m ch =>
    exact calm (Event.inrushHoldEnds_calm ch e) (Event.inrushHoldEnds_noneJoins ch e)
  case activitySenseChange m ch active =>
    exact calm (Event.activitySenseChange_calm ch active e) (Event.activitySenseChange_noneJoins ch active e)
  case activityDebounceExpiry m ch =>
    exact calm (Event.activityDebounced_calm ch e) (Event.activityDebounced_noneJoins ch e)
  case idleWindowExpiry m ch =>
    exact calm (Event.idleWindowEnds_calm ch e) (Event.idleWindowEnds_noneJoins ch e)
  case holdKeyChange m ch on =>
    exact calm (Event.holdKeyChange_calm ch on e) (Event.holdKeyChange_noneJoins ch on e)
  case holdKeyDebounceExpiry m ch =>
    exact calm (Event.holdKeyDebounced_calm ch e) (Event.holdKeyDebounced_noneJoins ch e)
  case wakeButtonChange m ch pressed =>
    exact calm (Event.wakeButtonChange_calm ch pressed e) (Event.wakeButtonChange_noneJoins ch pressed e)
  case wakeButtonDebounceExpiry m ch =>
    exact calm (Event.wakeButtonDebounced_calm ch e) (Event.wakeButtonDebounced_noneJoins ch e)
  case callWaitExpiry m ch => exact calm (Event.callWaitEnds_calm ch e) (Event.callWaitEnds_noneJoins ch e)
  case ageTimerExpiry m stations =>
    exact calm (Event.ageOut_calm stations e) (Event.ageOut_noneJoins stations e)
  case claimHoldTimerExpiry m station number =>
    exact calm (Event.claimHoldEnds_calm station number e) (Event.claimHoldEnds_noneJoins station number e)
  case overflowTimerExpiry m => exact calm (Event.overflowEnds_calm e) (Event.overflowEnds_noneJoins e)
  case retryGapExpiry m ch => exact calm (Event.retryGapEnds_calm ch e) (Event.retryGapEnds_noneJoins ch e)
  case holdEntryExpiry m entries =>
    exact calm (Event.holdEntriesExpire_calm entries e) (Event.holdEntriesExpire_noneJoins entries e)
  case heartbeatExpiry m => exact calm (Event.heartbeat_calm e) (Event.heartbeat_noneJoins e)
  case lampStep m lamp => exact calm (Event.lampStep_calm lamp e) (by cases lamp <;> exact .of_claims rfl)
  case lineAccessGap m => exact calm (Event.accessGap_calm e) (Event.accessGap_noneJoins e)
  case contentionLost m winner =>
    exact calm (Event.contentionLost_calm winner e) (Event.contentionLost_noneJoins winner e)
  case frameSent m => exact calm (Event.frameSent_calm e) (Event.frameSent_noneJoins e)
  case sendFault m => exact calm (Event.sendFault_calm e) (Event.sendFault_noneJoins e)
  case invalidFrame m bytes => exact calm (Event.invalidFrame_calm e) (.of_claims rfl)
  case unknownKindFrame m env kind payload =>
    show (e.unknownKind _ env kind payload).claimsBounded
    unfold Event.unknownKind
    split
    · exact (effectOf_keepsBounds_of_frame _ env kind payload id e (Calm.refl _ _) .refl).bounds h
    · exact h
  case stateReceived m env p =>
    exact (effectOf_keepsBounds_of_frame _ env _ _ _ e (Event.takeState_calm env p)
      (Event.takeState_noneJoins env p)).bounds h
  case phaseReceived m env phase epoch level =>
    exact (effectOf_keepsBounds_of_frame _ env _ _ _ e (Event.takePhaseFrame_calm env phase epoch level)
      fun f => Event.adopt_noneJoins _ f).bounds h
  case claimReceived m env number channel weight rank =>
    exact (Event.hear_keepsBounds _ env _ _ _ e
      (Event.takeClaim_keepsBounds env number channel weight rank)).bounds h
  case withdrawReceived m env number =>
    exact (effectOf_keepsBounds_of_frame _ env _ _ _ e (Event.takeEnd_calm env number)
      (Event.takeEnd_noneJoins env number)).bounds h
  case releaseReceived m env number =>
    exact (effectOf_keepsBounds_of_frame _ env _ _ _ e (Event.takeEnd_calm env number)
      (Event.takeEnd_noneJoins env number)).bounds h
  case callReceived m env p =>
    exact (effectOf_keepsBounds_of_frame _ env _ _ _ e (Event.takeCall_calm p)
      (Event.takeCall_noneJoins p)).bounds h
  case wake m env channel level =>
    exact (effectOf_keepsBounds_of_command _ env _ _ _ _ _ e (Event.judgeWake_calm env channel level)
      fun f => Event.judgeChannel_noneJoins env channel level _ _ f fun ch =>
        Event.wakeChannel_noneJoins .console ch f).bounds h
  case shed m env channel level =>
    exact (effectOf_keepsBounds_of_command _ env _ _ _ _ _ e (Event.judgeShed_calm env channel level)
      (Event.judgeShed_noneJoins env channel level)).bounds h
  case hold m env target tag level expiry =>
    exact (effectOf_keepsBounds_of_command _ env _ _ _ _ _ e
      (Event.judgeHold_calm env target tag level expiry)
      (Event.judgeHold_noneJoins env target tag level expiry)).bounds h
  case unhold m env target tag level =>
    exact (effectOf_keepsBounds_of_command _ env _ _ _ _ _ e (Event.judgeUnhold_calm env target tag level)
      (Event.judgeUnhold_noneJoins env target tag level)).bounds h
  case unlock m env channel level =>
    exact (effectOf_keepsBounds_of_command _ env _ _ _ _ _ e
      (Event.judgeUnlock_calm trivial env channel level)
      fun f => Event.judgeChannel_noneJoins env channel level _ _ f fun ch =>
        Event.carryOutUnlock_noneJoins ch f).bounds h
  case replyReceived m env kind channel tag code =>
    exact (effectOf_keepsBounds_of_frame _ env _ _ id e (Calm.refl _ _) .refl).bounds h
  case noticeReceived m env channel code detail1 detail2 =>
    exact (effectOf_keepsBounds_of_frame _ env _ _ id e (Calm.refl _ _) .refl).bounds h

theorem State.claimsBounded.elapse {s : State} (d : Micros) (h : s.claimsBounded) :
    (s.elapse d).claimsBounded := by
  refine State.claimsBounded.of_shares (s := s) (s' := s.elapse d) rfl (fun hr => ⟨hr, ?_⟩) id (.inl rfl) ?_ h
  · obtain ⟨⟨-, -, -, -, hreset⟩, -⟩ := h
    exact (hreset hr).1
  · show ((s.bu.claims.map (Claim.elapse d)).map Claim.share).Sublist _
    rw [List.map_map]; exact List.Sublist.refl _

/-- Settles O56: time, each effect and what follows from it keep `State.claimsBounded`. -/
theorem everyStepKeepsOwnClaimsWithinBudget : Obligations.EveryStepKeepsOwnClaimsWithinBudget := by
  unfold Obligations.EveryStepKeepsOwnClaimsWithinBudget
  intro s t hs hb ht
  have h : s.claimsBounded := ⟨hs, hb⟩
  unfold step at ht
  split at ht
  · rename_i c rest _
    have hp : State.claimsBounded { s with pending := rest } := h
    rw [exec_eq] at ht
    obtain rfl := Host.Outcome.next.inj ht
    exact claimsBounded_keptByJoins.flush _ _
      ((Event.settled_keepsBounds _).bounds (effectOf_claimsBounded c _ (hp.elapse c.moment.elapsed)))
  · obtain rfl := Host.Outcome.next.inj ht
    exact h

end Sys2Proof.Machine
end

