-- ==== Sys2Proof/Proofs/Precedence.lean ====
section
/-! SUPPORT. Which entries outrank an own PROVISIONAL claim (R82, R83). -/

namespace Sys2Proof.Machine

theorem ranksAbove_iff (rankE rankX numE numX : Nat) :
    ranksAbove rankE rankX numE numX = true ↔ rankX < rankE ∨ rankE = rankX ∧ numE < numX := by
  simp [ranksAbove]

theorem outranks_of_live {station : Nat} {x e : Claim} (h : e.status = .live) :
    outranks station x e = true := by
  unfold outranks; rw [h]

theorem outranks_of_provisional {station : Nat} {x e : Claim} (h : e.status = .provisional) :
    outranks station x e = ranksAbove e.rank x.rank e.ch.toNat x.ch.toNat := by
  unfold outranks; rw [h]

/-- A remote entry outranks by its mark with respect to the claim. -/
theorem outranks_of_mark {station : Nat} {x e : Claim} {marks : List (Nat × Arrival)} {a : Arrival}
    (h : e.status = .remote marks) (hm : marks.find? (fun k => k.1 == x.number) = some (x.number, a)) :
    outranks station x e =
      match a with
      | .before => true
      | .during => ranksAbove e.rank x.rank e.station station := by
  unfold outranks
  rw [h]
  simp only [hm]
  cases a <;> rfl

/-- Settles O25. -/
theorem outrankingFollowsTheTable : Obligations.OutrankingFollowsTheTable := by
  unfold Obligations.OutrankingFollowsTheTable
  intro station x e hx
  refine ⟨outranks_of_live, fun marks he hm => outranks_of_mark he hm, fun marks he hm => ?_,
    fun he => ?_, not_outranks_self station (by unfold Claim.isProvisional; rw [hx])⟩
  · rw [outranks_of_mark he hm]; exact ranksAbove_iff _ _ _ _
  · rw [outranks_of_provisional he]; exact ranksAbove_iff _ _ _ _

end Sys2Proof.Machine
end

