-- ==== Sys2Proof/Proofs/InrushHold.lean ====
section
/-! SUPPORT. A command in a settled node after which nothing follows but the joining of its frames, and the end
of an inrush hold (R90, R99). -/

namespace Sys2Proof.Machine

/-- A command whose effect on the event is known. -/
theorem exec_of_effect {c : Instr} {s : State} {e : Event} (h : effectOf c (s.begin c.moment) = e) :
    exec c s = .next (e.settled.flush c.moment.order).toState := by
  rw [exec_eq, take, h]

/-- What an operation on the Budget Unit alone leaves of a settled node. -/
theorem State.settled_of_budget {a b : State} (h : a.settled) (hcc : b.cc = a.cc) (hdu : b.du = a.du)
    (hmc : b.mc = a.mc) (hcu : b.cu = a.cu) : b.settled :=
  State.settled_of_same h (fun ch => by rw [hcc]) (fun ch => by rw [hcc]) (by rw [hdu]) (by rw [hdu])
    (by rw [hmc]) (by rw [hmc]) (by rw [hmc])
    (State.held_of_same hcu (by rw [hmc]))

/-- In the joining of frames a channel stays as it is, or moves between BUDGET and CLAIMING. -/
theorem Flushes.same_or_moves {e e' : Event} (h : Flushes e e') (k : Ch) :
    e'.cc.get k = e.cc.get k ∨
      ((e.cc.get k).state = .pending .budget ∨ (e.cc.get k).state = .pending .claiming) ∧
      ((e'.cc.get k).state = .pending .budget ∨ (e'.cc.get k).state = .pending .claiming) ∧
      { e'.cc.get k with state := (e.cc.get k).state } = e.cc.get k := by
  have hs := h.state k
  have hr := h.rest k
  by_cases hm : (e.cc.get k).state = .pending .budget ∨ (e.cc.get k).state = .pending .claiming
  · refine .inr ⟨hm, ?_, hr⟩
    rcases hm with hm | hm <;> rw [hm] at hs <;>
      simpa only [ChState.flushes, Bool.or_eq_true, beq_iff_eq] using hs
  · obtain ⟨hb, hc⟩ := not_or.1 hm
    have he := ChState.flushes_of_ne hb hc hs
    rw [← he] at hr
    exact .inl hr

/-- Settles O14. -/
theorem inrushHoldExpiryReleasesTheClaim : Obligations.InrushHoldExpiryReleasesTheClaim := by
  unfold Obligations.InrushHoldExpiryReleasesTheClaim
  intro m ch x s a hx hd
  have heq : effectOf (.inrushHoldExpiry m ch) (s.begin m) = (s.begin m).releaseClaim x := by
    show (s.begin m).inrushHoldEnds ch = _
    unfold Event.inrushHoldEnds
    rw [show (s.begin m).liveOf ch = some x from hx]
    exact if_pos hd
  have took := Event.took m.order ((s.begin m).releaseClaim x)
  have released := Event.releaseClaim_released m.order x (s.begin m) s rfl rfl
  obtain ⟨-, hlive, -⟩ := State.liveOf_some hx
  refine ⟨_, exec_of_effect (c := .inrushHoldExpiry m ch) heq,
    fun hin => released.1 x hin hlive rfl, released, took.code_kept, fun hs => ?_, took.cu, took.pu⟩
  have quiet : ((s.begin m).releaseClaim x).settled = (s.begin m).releaseClaim x :=
    Event.settled_of_quiet _ rfl rfl
      (State.settled_of_budget (State.settled_elapse m.elapsed s hs) rfl rfl rfl rfl)
  have flushed := Event.flush_flushes m.order ((s.begin m).releaseClaim x)
  rw [show (Instr.inrushHoldExpiry m ch).moment.order = m.order from rfl, quiet]
  exact ⟨flushed.it, flushed.same_or_moves⟩

end Sys2Proof.Machine
end

