-- ==== Sys2Proof/Proofs/RemoteClaims.lean ====
section
/-! SUPPORT. A remote claim leaves the table: at the end of its hold, and at the WITHDRAW or RELEASE of its
station (R93, R94). -/

namespace Sys2Proof.Machine

theorem Event.follows_noRemote (order : List Block) (station number : Nat) (e : Event)
    (h : e.noRemote station number) : (e.settled.flush order).noRemote station number := by
  refine (noRemote_keptByJoins station number).flush order _ ?_
  unfold State.noRemote; rw [(Event.settled_follows e).kept.bu]; exact h

/-- The entry whose hold ends is the only one of its key. -/
theorem Event.claimHoldEnds_noRemote (station number : Nat) (e : Event)
    (hn : (e.bu.claims.map Claim.key).Nodup) (h : e.bu.claims.any (Claim.expiresAs station number) = true) :
    (e.claimHoldEnds station number).noRemote station number := by
  obtain ⟨d, hd, hx⟩ := List.any_eq_true.1 h
  have hdr : d.isRemote station number = true := (Bool.and_eq_true_iff.1 hx).1
  unfold Event.claimHoldEnds
  rw [if_pos h]
  intro c hc
  obtain ⟨hm, hout⟩ := List.mem_filter.1 hc
  by_contra hr
  rw [Bool.not_eq_false] at hr
  have hk := ((Claim.isRemote_iff _ _ c).1 hr).2.trans ((Claim.isRemote_iff _ _ d).1 hdr).2.symm
  obtain rfl := List.inj_on_of_nodup_map hn hm hd hk
  rw [hx] at hout
  exact Bool.noConfusion hout

theorem Event.takeEnd_noRemote (env : Envelope) (number : Byte) (e : Event)
    (hm : e.mc.mode.takesReports = true) :
    (e.takeEnd env number).noRemote env.sender.toNat number.toNat := by
  unfold Event.takeEnd
  split
  · intro c hc
    have := (List.mem_filter.1 (show c ∈ e.bu.claims.filter _ from hc)).2
    rwa [Bool.not_eq_true'] at this
  · rename_i hn
    intro c hc
    by_contra hr
    rw [Bool.not_eq_false] at hr
    exact hn ⟨hm, List.any_eq_true.2 ⟨c, hc, hr⟩⟩

/-- On the line or in SILENT a frame of another station is dispatched in the mode of the node. -/
theorem hear_dispatches {s : State} {env : Envelope} {kind : Byte} {payload : List Byte}
    (order : RejoinOrder) (dispatch : Event → Event) (m : Moment)
    (hm : s.onLine ∨ s.mc.mode = .silent) (h : s.hears env kind payload) :
    ∃ e : Event, e.mc.mode = s.mc.mode ∧
      (s.begin m).hear order env kind payload dispatch = dispatch e := by
  rcases hm with ho | hsilent
  · exact ⟨s.heardAt m, rfl, hear_onLine order env kind payload dispatch m s ho h⟩
  · refine ⟨{ s.begin m with li.inProgress := none }, rfl, ?_⟩
    rw [Event.hear_of_hears order env kind payload dispatch (s.begin m) h]
    unfold Event.heard
    rw [show ({ s.begin m with li.inProgress := none } : Event).mc.mode = .silent from hsilent]

/-- Settles O27. -/
theorem remoteClaimsEnd : Obligations.RemoteClaimsEnd := by
  unfold Obligations.RemoteClaimsEnd
  intro m station number env n s a
  refine ⟨fun hs hx => ?_, fun hm => ?_⟩
  · obtain ⟨-, hkeys, -⟩ := hs
    refine ⟨_, exec_of_effect (c := .claimHoldTimerExpiry m station number) rfl, ?_⟩
    refine Event.follows_noRemote m.order station number _ ?_
    refine Event.claimHoldEnds_noRemote station number (s.begin m) ?_ hx
    exact (elapse_keys m.elapsed s).symm ▸ hkeys
  · have reports : s.mc.mode.takesReports = true := by
      rcases hm with (hm | hm) | hm <;> rw [hm] <;> rfl
    have ended : ∀ (c : Instr) (kind : Byte),
        effectOf c (s.begin c.moment) = (s.begin c.moment).hear (.inTurn c.moment.arrival) env kind [n]
          (Event.takeEnd env n) →
        s.hears env kind [n] → ∃ t, exec c s = .next t ∧
          ∀ c ∈ t.bu.claims, c.isRemote env.sender.toNat n.toNat = false := fun c kind hc hh => by
      obtain ⟨e, he, hd⟩ := hear_dispatches (.inTurn c.moment.arrival) (Event.takeEnd env n) c.moment hm hh
      exact ⟨_, exec_of_effect (hc.trans hd),
        Event.follows_noRemote c.moment.order _ _ _ (Event.takeEnd_noRemote env n e (he ▸ reports))⟩
    exact ⟨ended (.withdrawReceived m env n) kindWithdraw rfl, ended (.releaseReceived m env n) kindRelease rfl⟩

end Sys2Proof.Machine
end

