-- ==== Sys2Proof/Proofs/Evaluation.lean ====
section
/-! SUPPORT. A budget evaluation at which one channel asks for a claim, and may have it (R78, R79, R80): the end
of a retry gap (R86). -/

namespace Sys2Proof.Machine

/-! ## What the creation of a claim leaves (R79) -/

theorem State.claimable_iff_of_parts {s : State} {ch : Ch} : s.claimable ch = true ↔
    (s.cc.get ch).state = .pending .budget ∧ s.mc.mode = .operating ∧ s.bu.overflow = false ∧
    (∀ c ∈ s.bu.claims, c.isOwn = true → c.ch ≠ ch) ∧ s.bu.retryGap.get ch = none ∧
    s.bu.claims.length < 24 ∧ s.li.queue.length < 16 ∧
    weightSum s.bu.claims + (s.record ch).weight ≤ s.plantBudget := by
  unfold State.claimable
  simp only [Bool.and_eq_true, decide_eq_true_eq, Bool.not_eq_true', List.any_eq_false, not_and,
    and_assoc, Option.isNone_iff_eq_none]
  exact Iff.rfl

/-- A channel in PENDING that changes its sub-phase is in that sub-phase, and nothing is owed for it. -/
theorem Event.setState_subPhase (ch : Ch) (a b : SubPhase) (e : Event)
    (h : (e.cc.get ch).state = .pending a) : e.setState ch (.pending b) =
      e.modCc ch (Controller.enter (e.record ch).feedbackWindow (.pending b)) := by
  unfold Event.setState
  rw [h]
  exact if_pos rfl

theorem Event.openClaim_out (ch : Ch) (e : Event) (h : (e.cc.get ch).state = .pending .budget) :
    (e.openClaim ch).out = e.out := by
  unfold Event.openClaim
  simp only
  rw [Event.setState_subPhase ch .budget .claiming _ (by rw [(Event.enqueue_rest _ _).1]; exact h)]
  exact (Event.enqueue_rest _ _).2.2.2.2

theorem Event.openClaim_counter (ch : Ch) (e : Event) :
    (e.openClaim ch).bu.counter = nextNumber e.claimNumber := by
  unfold Event.openClaim
  simp only [(Event.setState_kept _ _ _).bu, (Event.enqueue_rest _ _).2.2.2.1]
  rfl

/-- The CLAIM frame of the claim that a channel's next claim is. -/
def State.claimFrame (s : State) (ch : Ch) : Frame :=
  ⟨0, .claim s.claimNumber ch (s.record ch).weight (s.record ch).rank⟩

theorem Event.openClaim_queue (ch : Ch) (e : Event) (hm : e.mc.mode = .operating)
    (h0 : e.mc.station ≠ 0) (hq : e.li.queue.length < 16) :
    (e.openClaim ch).li.queue = e.li.queue ++ [e.claimFrame ch] := by
  unfold Event.openClaim
  simp only [(Event.setState_kept _ _ _).li]
  rw [Event.enqueue_queue, joinQueue_append rfl hq]
  · rfl
  · unfold State.queueTakes
    simp [hm, h0]

theorem Event.openClaim_state (ch : Ch) (e : Event) :
    ((e.openClaim ch).cc.get ch).state = .pending .claiming := by
  rw [(Event.openClaim_rest ch e).1, PerChannel.get_set_same]; exact Controller.enter_state _ _ _

/-- The number of the counter is taken where no own claim carries it. -/
theorem State.claimNumber_of_free {s : State}
    (h : ∀ c ∈ s.bu.claims, c.isOwn = true → c.number ≠ s.bu.counter) : s.claimNumber = s.bu.counter := by
  unfold State.claimNumber Config.claimCapacity freeNumber
  refine if_neg fun hn => ?_
  obtain ⟨c, hc, hk⟩ := List.mem_map.1 (List.contains_iff_mem.1 hn)
  obtain ⟨hm, ho⟩ := List.mem_filter.1 hc
  exact h c hm ho hk

/-! ## An evaluation that creates one claim (R80) -/

theorem foldl_of_one {α β : Type} {f : β → α → β} {a b : β} {q : α} (turn : f a q = b)
    (before : ∀ p, p ≠ q → f a p = a) (after : ∀ p, f b p = b) {l : List α} (h : q ∈ l) :
    l.foldl f a = b := by
  induction l with
  | nil => exact absurd h List.not_mem_nil
  | cons p l ih =>
    rw [List.foldl_cons]
    by_cases hp : p = q
    · rw [hp, turn]
      exact foldl_induct (P := fun e => e = b) (fun e p he => by rw [he]; exact after p) l b rfl
    · rw [before p hp]
      exact ih ((List.mem_cons.1 h).resolve_left (Ne.symm hp))

/-- One channel is in BUDGET and may claim: the evaluation creates its claim and no other. -/
theorem Event.evaluateBudget_one (ch : Ch) (e : Event) (hc : e.claimable ch = true)
    (hr : 1 ≤ (e.record ch).rank ∧ (e.record ch).rank ≤ 3)
    (alone : ∀ k, k ≠ ch → (e.cc.get k).state ≠ .pending .budget) :
    ∃ b, e.evaluateBudget =
      { ({ e with out.evalDue := false } : Event).openClaim ch with bu.fullAtEval := b } := by
  generalize he : ({ e with out.evalDue := false } : Event) = a
  have hcc : a.cc = e.cc := by rw [← he]
  have hrec : a.record ch = e.record ch := by rw [← he]
  have hca : a.claimable ch = true := by rw [← he]; exact hc
  have shut : ∀ (f : Event) k, (f.cc.get k).state ≠ .pending .budget → ¬f.claimable k = true :=
    fun f k hk h => hk (State.claimable_iff h).1
  have fold : byPrecedence.foldl (fun (e : Event) p =>
      if (e.record p.2).rank = p.1 ∧ e.claimable p.2 then e.createClaim p.2 else e) a = a.openClaim ch := by
    refine foldl_of_one (q := ((e.record ch).rank, ch)) ?_ (fun p hp => ?_) (fun p => ?_)
      (mem_byPrecedence hr ch)
    · rw [← Event.createClaim_of_claimable hca]
      exact if_pos ⟨by rw [hrec], hca⟩
    · refine if_neg fun ⟨hrank, hk⟩ => ?_
      by_cases hpc : p.2 = ch
      · rw [hpc, hrec] at hrank
        exact hp (Prod.ext hrank.symm hpc)
      · exact shut a p.2 (by rw [hcc]; exact alone p.2 hpc) hk
    · refine if_neg fun ⟨_, hk⟩ => shut (a.openClaim ch) p.2 ?_ hk
      by_cases hpc : p.2 = ch
      · rw [hpc, Event.openClaim_state]; exact fun h => by injection h with h; exact SubPhase.noConfusion h
      · rw [(Event.openClaim_rest ch a).1, PerChannel.get_set_other _ hpc, hcc]; exact alone p.2 hpc
  unfold Event.evaluateBudget
  simp only
  rw [he, fold]
  exact ⟨_, rfl⟩

/-! ## The end of an event that owes an evaluation alone -/

/-- Whatever the order of the moment, an event that owes an evaluation alone ends with it, where that owes
nothing more. -/
theorem Event.flush_of_evalDue (order : List Block) (e : Event) (ho : e.out = { evalDue := true })
    (hd : e.evaluateBudget.out = {}) : e.flush order = e.evaluateBudget := by
  generalize hf : e.evaluateBudget = f at hd
  have hpe : e.payBudget = f := by unfold Event.payBudget; rw [ho]; exact hf
  have hpf : f.payBudget = f := by unfold Event.payBudget; rw [hd]; rfl
  have hse : e.payState = e := by unfold Event.payState; rw [ho]; rfl
  have hsf : f.payState = f := by unfold Event.payState; rw [hd]; rfl
  have hdf : ∀ n, f.drainBudget n = f := fun n => by
    cases n with
    | zero => rfl
    | succ n => unfold Event.drainBudget; rw [hd]; rfl
  have hde : e.drainBudget budgetRounds = f := by
    have he : Event.enqueueAll e.out.budget { e with out.budget := [] } = e := by
      rw [ho]
      show ({ e with out := { evalDue := true } } : Event) = e
      rw [← ho]
    unfold budgetRounds Event.drainBudget
    simp only [he]
    rw [if_neg (by rw [ho]; decide), if_pos (by rw [ho]), hf]
    exact hdf 7
  have hfold : order.foldl Ending.next ⟨e, [], [], []⟩ = ⟨e, [], [], []⟩ ∨
      order.foldl Ending.next ⟨e, [], [], []⟩ = ⟨f, [], [], []⟩ := by
    refine foldl_induct (P := fun d : Ending => d = ⟨e, [], [], []⟩ ∨ d = ⟨f, [], [], []⟩) (fun d b h => ?_)
      order _ (.inl rfl)
    rcases h with rfl | rfl
    · cases b
      case bu => exact .inr (by unfold Ending.next; simp only [hpe])
      all_goals exact .inl (by unfold Ending.next; simp only [hse])
    · exact .inr (by cases b <;> unfold Ending.next <;> simp only [hpf, hsf])
  have hn : e.out.allNotices = [] := by rw [ho]; rfl
  have hcalls : e.out.allCalls = [] := by rw [ho]; rfl
  have hreplies : e.out.replies = [] := by rw [ho]
  unfold Event.flush
  rw [hn, hcalls, hreplies]
  rcases hfold with hx | hx <;> rw [hx] <;>
    simp only [Event.enqueueAll, List.foldl_nil, hde, hdf, hsf]

end Sys2Proof.Machine
end

