-- ==== Sys2Proof/Proofs/Gaps.lean ====
section
/-! SUPPORT. The end of the overflow state and of a retry gap, and the claim created at it (R79, R86, R96). -/

namespace Sys2Proof.Machine

/-- The event of an expired retry gap. -/
def State.gapEnded (m : Moment) (ch : Ch) (s : State) : Event :=
  ((s.begin m).setRetryGap ch none).oweEval

theorem Event.retryGapEnds_due (m : Moment) (ch : Ch) (s : State)
    (h : Timer.due ((s.elapse m.elapsed).bu.retryGap.get ch) = true) :
    (s.begin m).retryGapEnds ch = s.gapEnded m ch := if_pos h

/-- Where the conditions for a claim hold at the end of a retry gap, the claim is created there. -/
theorem State.gapEnded_creates (m : Moment) (ch : Ch) (s : State) (hs : s.settled)
    (hc : (s.gapEnded m ch).claimable ch = true)
    (hr : 1 ≤ ((s.elapse m.elapsed).record ch).rank ∧ ((s.elapse m.elapsed).record ch).rank ≤ 3)
    (alone : ∀ k, k ≠ ch → ((s.elapse m.elapsed).cc.get k).state ≠ .pending .budget) :
    ∃ b, (s.gapEnded m ch).settled.flush m.order =
      { ({ s.gapEnded m ch with out := {} } : Event).openClaim ch with bu.fullAtEval := b } := by
  have quiet : (s.gapEnded m ch).settled = s.gapEnded m ch :=
    Event.settled_of_quiet _ rfl rfl
      (State.settled_of_budget (State.settled_elapse m.elapsed s hs) rfl rfl rfl rfl)
  obtain ⟨b, hb⟩ := Event.evaluateBudget_one ch (s.gapEnded m ch) hc hr alone
  refine ⟨b, ?_⟩
  rw [quiet, Event.flush_of_evalDue m.order (s.gapEnded m ch) rfl, hb]
  · rfl
  · rw [hb]
    exact Event.openClaim_out ch _ (State.claimable_iff hc).1

/-- Settles O28. -/
theorem overflowAndRetryGapEnd : Obligations.OverflowAndRetryGapEnd := by
  unfold Obligations.OverflowAndRetryGapEnd
  intro m ch s a n r
  refine ⟨fun hd => ?_, fun hd => ?_⟩
  · have heq : effectOf (.overflowTimerExpiry m) (s.begin m) =
        ({ s.begin m with bu.overflow := false, bu.overflowTimer := none } : Event).oweEval := if_pos hd
    have took := Event.took m.order
      ({ s.begin m with bu.overflow := false, bu.overflowTimer := none } : Event).oweEval
    exact ⟨_, exec_of_effect (c := .overflowTimerExpiry m) heq, took.overflow, took.overflowTimer⟩
  · refine ⟨_, exec_of_effect (c := .retryGapExpiry m ch) (Event.retryGapEnds_due m ch s hd), ?_, ?_⟩
    · show ((s.gapEnded m ch).settled.flush m.order).bu.retryGap.get ch = none
      rw [Event.follows_retryGap]; exact PerChannel.get_set_same _ _ _
    · intro image hs hmode himage h0 hst alone hr hover hown hroom hq hfit
      have hplant : a.plantBudget = image.plantBudget := by
        show s.plantBudget = _
        unfold State.plantBudget; rw [himage]
      have hc : (s.gapEnded m ch).claimable ch = true :=
        State.claimable_iff_of_parts.2 ⟨hst, hmode, hover, fun c hc ho => (hown c hc ho).1,
          PerChannel.get_set_same _ _ _, hroom, hq, by rw [← hplant] at hfit; exact hfit⟩
      obtain ⟨b, hend⟩ := State.gapEnded_creates m ch s hs hc hr alone
      have hnum : State.claimNumber { s.gapEnded m ch with out := {} }.toState = n :=
        State.claimNumber_of_free fun c hc ho => (hown c hc ho).2
      have hnew : State.newClaim { s.gapEnded m ch with out := {} }.toState ch =
          ⟨s.mc.station, n, ch, r.weight, r.rank, .provisional, some image.settleInterval⟩ := by
        have hsettle : s.plantTime Image.settleInterval = image.settleInterval := by
          unfold State.plantTime; rw [himage]
        unfold State.newClaim
        rw [hnum, ← hsettle]
        rfl
      show (((s.gapEnded m ch).settled.flush m.order).cc.get ch).state = _ ∧ _
      rw [show (Instr.retryGapExpiry m ch).moment.order = m.order from rfl, hend]
      refine ⟨Event.openClaim_state ch _, ?_, ?_, ?_⟩
      · show (Event.openClaim ch { s.gapEnded m ch with out := {} }).bu.counter = _
        rw [Event.openClaim_counter, hnum]; rfl
      · show (Event.openClaim ch { s.gapEnded m ch with out := {} }).bu.claims = _
        rw [Event.openClaim_bu, hnew]
        refine congrArg (· ++ _) (List.map_congr_left fun c _ => ?_)
        unfold Claim.addMark
        cases c.status <;> rfl
      · show (Event.openClaim ch { s.gapEnded m ch with out := {} }).li.queue = _
        rw [Event.openClaim_queue ch _ hmode h0 hq]
        unfold State.claimFrame
        rw [hnum]
        rfl

end Sys2Proof.Machine
end

