-- ==== Sys2Proof/Proofs/Withdrawals.lean ====
section
/-! SUPPORT. What the withdrawal of PROVISIONAL claims leaves, channel by channel, and how many WITHDRAW frames
it queues (R84, R85, R86, R95). -/

namespace Sys2Proof.Machine

/-! ## One withdrawal (R85) -/

theorem Event.withdraw_out (x : Claim) (e : Event) : (e.withdraw x).out =
    { e.out with budget := e.out.budget ++ [⟨0, .withdraw x.number⟩], evalDue := true } := by
  unfold Event.withdraw
  simp only
  split
  · rename_i hst
    rw [Event.setState_subPhase x.ch .claiming .budget _ hst]; rfl
  · rfl

theorem Event.withdraw_mc (x : Claim) (e : Event) : (e.withdraw x).mc = e.mc := (Event.withdraw_flushes x e).mc

theorem State.retryGapTime_of_mc {a b : State} (h : b.mc = a.mc) : b.retryGapTime = a.retryGapTime := by
  unfold State.retryGapTime State.plantTime; rw [h]

theorem Event.withdraw_retryGap (x : Claim) (e : Event) :
    (e.withdraw x).bu.retryGap = e.bu.retryGap.set x.ch (some e.retryGapTime) := by
  unfold Event.withdraw
  simp only
  split
  · rw [(Event.setState_kept _ _ _).bu]; rfl
  · rfl

theorem Event.withdraw_other (x : Claim) (e : Event) {k : Ch} (h : k ≠ x.ch) :
    (e.withdraw x).cc.get k = e.cc.get k := by
  unfold Event.withdraw
  simp only
  split
  · rw [Event.setState_cc]; exact PerChannel.get_set_other _ h _
  · rfl

theorem Event.withdraw_state (x : Claim) (e : Event) (h : (e.cc.get x.ch).state = .pending .claiming) :
    ((e.withdraw x).cc.get x.ch).state = .pending .budget := by
  unfold Event.withdraw
  simp only
  split
  · rw [Event.setState_cc, PerChannel.get_set_same]; exact Controller.enter_state _ _ _
  · rename_i hn; exact absurd h hn

theorem Event.noneJoins.keys {e e' : Event} (h : e.noneJoins e') :
    (e'.bu.claims.map Claim.key).Sublist (e.bu.claims.map Claim.key) := by
  have hs := List.Sublist.map (fun p => p.1) h
  rwa [List.map_map, List.map_map] at hs

/-! ## Turn by turn -/

theorem Event.turnOf_cases (f : Claim → Event → Event) (e : Event) (p : Nat × Ch) : e.turnOf f p = e ∨
    ∃ x, e.provisionalOf p.2 = some x ∧ x.rank = p.1 ∧ e.turnOf f p = f x e := by
  unfold Event.turnOf
  split
  · rename_i x hx
    split
    · rename_i hr; exact .inr ⟨x, hx, hr, rfl⟩
    · exact .inl rfl
  · exact .inl rfl

/-- The claim stands, its channel in CLAIMING. -/
structure Event.Claiming (x : Claim) (e : Event) : Prop where
  first : e.provisionalOf x.ch = some x
  state : (e.cc.get x.ch).state = .pending .claiming
  keys : (e.bu.claims.map Claim.key).Nodup

/-- The claim has been withdrawn: its channel is in BUDGET with its retry gap running, WITHDRAW is queued, and
no PROVISIONAL claim of the channel is left. -/
structure Event.Withdrawn (x : Claim) (gap : Micros) (e : Event) : Prop where
  state : (e.cc.get x.ch).state = .pending .budget
  gap : e.bu.retryGap.get x.ch = some gap
  frame : (⟨0, .withdraw x.number⟩ : Frame) ∈ e.out.budget
  gone : ∀ c ∈ e.bu.claims, c.isProvisional = true → c.ch ≠ x.ch

/-- The withdrawal of a claim whose channel has that one alone. -/
theorem Event.withdraw_withdrawn {x : Claim} {e : Event} (h : (e.cc.get x.ch).state = .pending .claiming)
    (alone : ∀ c ∈ e.bu.claims, c.isProvisional = true → c.ch = x.ch → c.key = x.key) :
    (e.withdraw x).Withdrawn x e.retryGapTime where
  state := Event.withdraw_state x e h
  gap := by rw [Event.withdraw_retryGap, PerChannel.get_set_same]
  frame := by rw [Event.withdraw_out]; exact List.mem_append_right _ (List.mem_singleton.2 rfl)
  gone c hc hp he := by
    obtain ⟨hm, hk⟩ := (Event.withdraw_provisional x e c hp).1 hc
    exact hk (alone c hm hp he)

/-- The withdrawal of the claim of another channel leaves the claim as it stands. -/
theorem Event.Claiming.withdraw_other {x y : Claim} {e : Event} (h : e.Claiming x) (hy : y ∈ e.bu.claims)
    (hne : x.ch ≠ y.ch) : (e.withdraw y).Claiming x where
  first := Event.withdraw_provisionalOf y e h.first fun hk => hne (by
    rw [List.inj_on_of_nodup_map h.keys (State.provisionalOf_some h.first).1 hy hk])
  state := by rw [Event.withdraw_other y e hne]; exact h.state
  keys := (Event.withdraw_noneJoins y e).keys.nodup h.keys

theorem Event.Withdrawn.withdraw_other {x y : Claim} {gap : Micros} {e : Event} (h : e.Withdrawn x gap)
    (hne : x.ch ≠ y.ch) : (e.withdraw y).Withdrawn x gap where
  state := by rw [Event.withdraw_other y e hne]; exact h.state
  gap := by rw [Event.withdraw_retryGap, PerChannel.get_set_other _ hne]; exact h.gap
  frame := by rw [Event.withdraw_out]; exact List.mem_append_left _ h.frame
  gone c hc hp := h.gone c ((Event.withdraw_provisional y e c hp).1 hc).1 hp

/-- A turn of another channel leaves a withdrawn claim withdrawn, and there is no turn of its own left. -/
theorem Event.Withdrawn.turn {x : Claim} {gap : Micros} {e : Event} (h : e.Withdrawn x gap) (p : Nat × Ch) :
    (e.turnOf Event.withdraw p).Withdrawn x gap := by
  rcases Event.turnOf_cases Event.withdraw e p with ht | ⟨y, hy, -, ht⟩ <;> rw [ht]
  · exact h
  · obtain ⟨hm, hp, -⟩ := State.provisionalOf_some hy
    exact h.withdraw_other fun he => h.gone y hm hp he.symm

/-! ## The withdrawal of all (R95) -/

/-- Before its turn a claim stands; from its turn on it is withdrawn. -/
def Event.withdrawing (x : Claim) (gap : Micros) (e : Event) : Prop :=
  e.retryGapTime = gap ∧
    (e.Claiming x ∧ (∀ c ∈ e.bu.claims, c.isProvisional = true → c.ch = x.ch → c.key = x.key) ∨
      e.Withdrawn x gap)

theorem Event.withdrawing.turn {x : Claim} {gap : Micros} {e : Event} (h : e.withdrawing x gap)
    (p : Nat × Ch) : (e.turnOf Event.withdraw p).withdrawing x gap := by
  obtain ⟨hg, h⟩ := h
  refine ⟨Event.turnOf_keeps (P := fun e => e.retryGapTime = gap) (fun y a ha => ?_) e p hg, ?_⟩
  · rw [State.retryGapTime_of_mc (Event.withdraw_mc y a)]; exact ha
  rcases h with ⟨hc, alone⟩ | hw
  · rcases Event.turnOf_cases Event.withdraw e p with ht | ⟨y, hy, -, ht⟩ <;> rw [ht]
    · exact .inl ⟨hc, alone⟩
    · obtain ⟨hm, -, hch⟩ := State.provisionalOf_some hy
      by_cases hne : x.ch = y.ch
      · rw [← hch, ← hne, hc.first] at hy
        obtain rfl := Option.some.inj hy
        exact .inr (hg ▸ Event.withdraw_withdrawn hc.state alone)
      · exact .inl ⟨hc.withdraw_other hm hne,
          fun c hin hp => alone c ((Event.withdraw_provisional y e c hp).1 hin).1 hp⟩
  · exact .inr (hw.turn p)

/-- A claim of a channel that has that one alone is withdrawn with all. -/
theorem Event.withdrawAll_withdraws (x : Claim) (e : Event) (h : e.Claiming x)
    (alone : ∀ c ∈ e.bu.claims, c.isProvisional = true → c.ch = x.ch → c.key = x.key)
    (hr : 1 ≤ x.rank ∧ x.rank ≤ 3) : e.withdrawAll.Withdrawn x e.retryGapTime := by
  rw [Event.withdrawAll_eq]
  refine foldl_reaches (J := Event.withdrawing x e.retryGapTime) (N := Event.Withdrawn x e.retryGapTime)
    (fun _ p h => h.turn p) (fun _ p h => h.turn p) (x.rank, x.ch) (fun a ha => ?_) _ e
    (mem_byPrecedence hr x.ch) ⟨rfl, .inl ⟨h, alone⟩⟩
  rcases ha.2 with ⟨hc, alone⟩ | hw
  · have ht : a.turnOf Event.withdraw (x.rank, x.ch) = a.withdraw x := by
      unfold Event.turnOf
      rw [show a.provisionalOf (x.rank, x.ch).2 = some x from hc.first]
      exact if_pos rfl
    rw [ht]
    exact ha.1 ▸ Event.withdraw_withdrawn hc.state alone
  · exact hw.turn _

/-- What an event owes after some of `n` PROVISIONAL claims have been withdrawn: a WITHDRAW frame for each, and
maybe an evaluation, beside what it owed. -/
def Event.owesWithdraws (o : Outbox) (n : Nat) (e : Event) : Prop :=
  ∃ (fs : List Frame) (b : Bool), e.out = { o with budget := fs, evalDue := b } ∧
    fs.length + (e.bu.claims.filter Claim.isProvisional).length ≤ n

/-- A withdrawal takes one PROVISIONAL claim from the table at least. -/
theorem Event.withdraw_fewer (x : Claim) (e : Event) (hm : x ∈ e.bu.claims) (hp : x.isProvisional = true) :
    ((e.withdraw x).bu.claims.filter Claim.isProvisional).length + 1 ≤
      (e.bu.claims.filter Claim.isProvisional).length := by
  have hdrop : Claim.isProvisional ∘ Claim.dropMarks x.number = Claim.isProvisional :=
    funext fun c => (Claim.dropMarks_isProvisional x.number c).1
  have hcl : (e.withdraw x).bu.claims =
      (e.bu.claims.filter fun c => !c.hasKey x.station x.number).map (Claim.dropMarks x.number) :=
    Event.withdraw_claims x e
  have hself : x.hasKey x.station x.number = true := (Claim.hasKey_iff x x).2 rfl
  rw [hcl, List.filter_map, List.length_map, hdrop, List.filter_comm, Nat.succ_le_iff]
  exact List.length_filter_lt_length_iff_exists.2
    ⟨x, List.mem_filter.2 ⟨hm, hp⟩, by rw [hself]; decide⟩

theorem Event.withdrawAll_owes (e : Event) : e.withdrawAll.owesWithdraws e.out
    (e.out.budget.length + (e.bu.claims.filter Claim.isProvisional).length) := by
  rw [Event.withdrawAll_eq]
  refine foldl_induct (P := Event.owesWithdraws e.out _) (fun a p ha => ?_) _ e
    ⟨e.out.budget, e.out.evalDue, rfl, Nat.le_refl _⟩
  rcases Event.turnOf_cases Event.withdraw a p with ht | ⟨y, hy, -, ht⟩ <;> rw [ht]
  · exact ha
  · obtain ⟨fs, b, ho, hn⟩ := ha
    obtain ⟨hm, hp, -⟩ := State.provisionalOf_some hy
    have hfewer := Event.withdraw_fewer y a hm hp
    refine ⟨fs ++ [⟨0, .withdraw y.number⟩], true, by rw [Event.withdraw_out, ho], ?_⟩
    rw [List.length_append, List.length_singleton]
    omega

/-- A channel has at most one PROVISIONAL claim, so there are six at most. -/
theorem provisional_length_le {claims : List Claim} (hn : (claims.map Claim.key).Nodup)
    (hk : ∀ c ∈ claims, ∀ d ∈ claims, c.isProvisional = true → d.isProvisional = true → c.ch = d.ch →
      c.key = d.key) : (claims.filter Claim.isProvisional).length ≤ 6 := by
  have hnd : ((claims.filter Claim.isProvisional).map Claim.ch).Nodup := by
    refine List.Nodup.map_on (fun c hc d hd he => ?_) ((List.Nodup.of_map _ hn).filter _)
    obtain ⟨hc, hcp⟩ := List.mem_filter.1 hc
    obtain ⟨hd, hdp⟩ := List.mem_filter.1 hd
    exact List.inj_on_of_nodup_map hn hc hd (hk c hc d hd hcp hdp he)
  have hsub := (hnd.subperm fun ch _ => Ch.mem_all ch).length_le
  rwa [List.length_map] at hsub

/-! ## A conflict check with one claim to check (R84) -/

theorem Event.conflictCheck_alone (x : Claim) (e : Event) (hm : x ∈ e.bu.claims)
    (hp : x.isProvisional = true) (hr : 1 ≤ x.rank ∧ x.rank ≤ 3)
    (alone : ∀ c ∈ e.bu.claims, c.isProvisional = true → c = x) :
    e.conflictCheck = if e.plantBudget < e.conflictWeight x then e.withdraw x else e := by
  have hof : e.provisionalOf x.ch = some x := by
    cases hx : e.provisionalOf x.ch with
    | none => exact absurd rfl (State.provisionalOf_none hx x hm hp)
    | some y =>
      obtain ⟨hy, hyp, -⟩ := State.provisionalOf_some hx
      rw [alone y hy hyp]
  have only : ∀ (f : Claim → Event → Event) p, p ≠ (x.rank, x.ch) → e.turnOf f p = e := fun f p hne => by
    rcases Event.turnOf_cases f e p with ht | ⟨y, hy, hrank, -⟩
    · exact ht
    · obtain ⟨hym, hyp, hch⟩ := State.provisionalOf_some hy
      obtain rfl := alone y hym hyp
      exact absurd (Prod.ext hrank.symm hch.symm) hne
  have turn : ∀ f : Claim → Event → Event, e.turnOf f (x.rank, x.ch) = f x e := fun f => by
    unfold Event.turnOf
    rw [show e.provisionalOf (x.rank, x.ch).2 = some x from hof]
    exact if_pos rfl
  refine foldl_of_one (f := Event.turnOf fun x e => if e.plantBudget < e.conflictWeight x then e.withdraw x else e)
    (q := (x.rank, x.ch)) (turn _) (only _) (fun p => ?_) (mem_byPrecedence hr x.ch)
  split
  · rcases Event.turnOf_cases (fun x e => if e.plantBudget < e.conflictWeight x then e.withdraw x else e)
      (e.withdraw x) p with ht | ⟨y, hy, -, -⟩
    · exact ht
    · obtain ⟨hym, hyp, -⟩ := State.provisionalOf_some hy
      obtain ⟨hin, hk⟩ := (Event.withdraw_provisional x e y hyp).1 hym
      exact absurd (by rw [alone y hin hyp]) hk
  · rename_i hfits
    by_cases hq : p = (x.rank, x.ch)
    · rw [hq, turn]; exact if_neg hfits
    · exact only _ p hq

end Sys2Proof.Machine
end

