-- ==== Sys2Proof/Proofs/BudgetRoom.lean ====
section
/-! SUPPORT. An event that owes NOTICE frames of the node and frames of the Budget Unit alone, with room in the
queue for all of them: every frame of the Budget Unit joins, before any CLAIM that the evaluation queues
(R156, log 4). -/

namespace Sys2Proof.Machine

/-- A frame that presses stays where it is when another joins. -/
theorem mem_joinQueue_of_pressing {f : Frame} (hf : f.pressing) (g : Frame) {q : List Frame} (h : f ∈ q) :
    f ∈ joinQueue g q := by
  obtain ⟨-, hr, hs⟩ := hf
  unfold joinQueue
  split
  · exact List.mem_map.2 ⟨f, h, by rw [hs]; rfl⟩
  · split
    · exact List.mem_append_left _ h
    · split
      · split
        · rename_i q' hq; exact List.mem_append_left _ (dropOldestReport_mem hq h hr)
        · exact h
      · exact h

theorem inQueue_keptByJoins {f : Frame} (hf : f.pressing) : KeptByJoins fun e => f ∈ e.li.queue := by
  have enqueue : ∀ (g : Frame) (e : Event), f ∈ e.li.queue → f ∈ (e.enqueue g).li.queue := fun g e h => by
    unfold Event.enqueue
    split
    · exact mem_joinQueue_of_pressing hf g h
    · exact h
  refine ⟨enqueue, fun _ _ h => h, fun _ _ h => h, fun ch e _ h => ?_⟩
  unfold Event.openClaim
  simp only [(Event.setState_kept _ _ _).li]
  exact enqueue _ _ h

/-- The frame waits among those of the Budget Unit, in a mode that takes it, with room in the queue for them
and `n` more; no STATE frame is owed. -/
structure Event.waits (f : Frame) (n : Nat) (e : Event) : Prop where
  takes : e.queueTakes f.body = true
  owed : f ∈ e.out.budget
  room : e.li.queue.length + e.out.budget.length + n ≤ 16
  noState : e.out.stateDue = false

theorem Event.enqueue_length (g : Frame) (e : Event) (h : e.li.queue.length < 16) :
    (e.enqueue g).li.queue.length ≤ e.li.queue.length + 1 := by
  unfold Event.enqueue
  split
  · exact (joinQueue_room g h).1
  · exact Nat.le_succ _

section
variable {f : Frame} {n : Nat} {e : Event}

/-- A frame of another block joins in its room. -/
theorem Event.waits.enqueue (h : e.waits f (n + 1)) (g : Frame) : (e.enqueue g).waits f n := by
  obtain ⟨-, -, hmc, -, hout⟩ := Event.enqueue_rest g e
  have hroom := h.room
  have hlen := Event.enqueue_length g e (by omega)
  refine ⟨by rw [State.queueTakes_of_mc hmc]; exact h.takes, by rw [hout]; exact h.owed, ?_,
    by rw [hout]; exact h.noState⟩
  rw [hout]; omega

theorem Event.waits.enqueueAll (gs : List Frame) (h : e.waits f gs.length) : (e.enqueueAll gs).waits f 0 := by
  induction gs generalizing e with
  | nil => exact h
  | cons g rest ih => exact ih (Event.waits.enqueue h g)

/-- The frame joins where the queue has room. -/
theorem Event.enqueue_mem (hf : f.pressing) (ht : e.queueTakes f.body = true) (h : e.li.queue.length < 16) :
    f ∈ (e.enqueue f).li.queue := by
  rw [Event.enqueue_queue f e ht]
  exact (joinQueue_room f h).2 f hf.2.2 (.inr rfl)

/-- The next frame of the Budget Unit joins: it is the frame, or the frame waits on. -/
theorem Event.waits.payBudget (hf : f.pressing) (h : e.waits f n) :
    f ∈ e.payBudget.li.queue ∨ e.payBudget.waits f n := by
  obtain ⟨ht, ho, hroom, hs⟩ := h
  unfold Event.payBudget
  split
  · rename_i g rest hg
    rw [hg] at ho hroom
    rw [List.length_cons] at hroom
    rcases List.mem_cons.1 ho with rfl | ho
    · exact .inl (Event.enqueue_mem (e := { e with out.budget := rest }) hf ht (by show e.li.queue.length < 16; omega))
    · obtain ⟨-, -, hmc, -, hout⟩ := Event.enqueue_rest g { e with out.budget := rest }
      have hlen := Event.enqueue_length g { e with out.budget := rest } (by show e.li.queue.length < 16; omega)
      refine .inr ⟨by rw [State.queueTakes_of_mc hmc]; exact ht, by rw [hout]; exact ho, ?_, by rw [hout]; exact hs⟩
      rw [hout]
      show _ + rest.length + n ≤ 16
      have hlen' : _ ≤ e.li.queue.length + 1 := hlen
      omega
  · rename_i hnil; rw [hnil] at ho; exact absurd ho List.not_mem_nil

/-- Frames of the Budget Unit join one after the other, each where there is room for all. -/
theorem Event.enqueueAll_mem (hf : f.pressing) (gs : List Frame) (e : Event) (ht : e.queueTakes f.body = true)
    (hg : f ∈ gs) (h : e.li.queue.length + gs.length ≤ 16) : f ∈ (e.enqueueAll gs).li.queue := by
  induction gs generalizing e with
  | nil => exact absurd hg List.not_mem_nil
  | cons g rest ih =>
    rw [List.length_cons] at h
    have hmc := (Event.enqueue_rest g e).2.2.1
    rcases List.mem_cons.1 hg with rfl | hg
    · exact (inQueue_keptByJoins hf).enqueueAll rest _ (Event.enqueue_mem hf ht (by omega))
    · have hlen := Event.enqueue_length g e (by omega)
      exact ih (e.enqueue g) (by rw [State.queueTakes_of_mc hmc]; exact ht) hg (by omega)

theorem Event.waits.drainBudget (hf : f.pressing) (h : e.waits f 0) (n : Nat) :
    f ∈ (e.drainBudget (n + 1)).li.queue := by
  have k := inQueue_keptByJoins hf
  have joined : f ∈ (Event.enqueueAll e.out.budget { e with out.budget := [] }).li.queue :=
    Event.enqueueAll_mem hf e.out.budget { e with out.budget := [] } h.takes h.owed h.room
  unfold Event.drainBudget
  split
  · rename_i hnil
    rw [hnil.1] at joined
    exact joined
  · simp only
    refine k.drainBudget n _ ?_
    split
    · exact k.evaluateBudget _ joined
    · exact joined

end

/-- The frame stands in the queue, or waits with room for the notices left; no block but these has frames. -/
def Ending.joining (f : Frame) (d : Ending) : Prop :=
  d.calls = [] ∧ d.replies = [] ∧ (f ∈ d.ev.li.queue ∨ d.ev.waits f d.notices.length)

theorem Ending.joining.next {f : Frame} (hf : f.pressing) {d : Ending} (h : d.joining f) (b : Block) :
    (d.next b).joining f := by
  obtain ⟨hc, hr, h⟩ := h
  have k := inQueue_keptByJoins hf
  cases b <;> unfold Ending.next <;> simp only
  case iu =>
    split
    · rename_i g rest hn
      rw [hn] at h
      exact ⟨hc, hr, h.imp (k.enqueue g _) fun hw => hw.enqueue g⟩
    · exact ⟨hc, hr, h⟩
  case du => rw [hc]; exact ⟨hc, hr, h⟩
  case cu => rw [hr]; exact ⟨hc, hr, h⟩
  case bu => exact ⟨hc, hr, h.elim (fun hq => .inl (k.payBudget _ hq)) fun hw => hw.payBudget hf⟩
  case li =>
    refine ⟨hc, hr, h.imp (k.payState _) fun hw => ?_⟩
    have hs : d.ev.payState = d.ev := by
      unfold Event.payState
      rw [hw.noState]; rfl
    show d.ev.payState.waits f _
    rw [hs]; exact hw

/-- In room for all of them, a frame of the Budget Unit joins the queue. -/
theorem Event.flush_queues {f : Frame} (hf : f.pressing) (order : List Block) (e : Event)
    (hc : e.out.allCalls = []) (hr : e.out.replies = []) (h : e.waits f e.out.allNotices.length) :
    f ∈ (e.flush order).li.queue := by
  have k := inQueue_keptByJoins hf
  have joined : (order.foldl Ending.next ⟨e, e.out.allNotices, e.out.allCalls, e.out.replies⟩).joining f :=
    foldl_induct (P := Ending.joining f) (fun d b hd => hd.next hf b) order _ ⟨hc, hr, .inr h⟩
  unfold Event.flush
  simp only
  generalize order.foldl Ending.next _ = d at joined ⊢
  obtain ⟨hcalls, hreplies, hd⟩ := joined
  rw [hcalls, hreplies]
  refine k.payState _ ?_
  rcases hd with hq | hw
  · exact k.drainBudget _ _ (k.enqueueAll [] _ (k.enqueueAll _ _ hq))
  · exact (Event.waits.enqueueAll d.notices hw).drainBudget hf 7

end Sys2Proof.Machine
end

