-- ==== Sys2Proof/Proofs/ClaimRecords.lean ====
section
/-! SUPPORT. The record of a CLAIM in its cases (R92, R95): the entry that it leaves in the table, the check of a
PROVISIONAL claim against it, and the overflow state where the table has no place for it. -/

namespace Sys2Proof.Machine

/-! ## The entry stays in the table -/

/-- The remote entry stands in the table, whatever its marks. -/
def State.lists (y : Claim) (s : State) : Prop := ∃ marks, { y with status := .remote marks } ∈ s.bu.claims

/-- The station of no own entry is this one, nor is the node's. -/
def State.ownApart (station : Nat) (s : State) : Prop :=
  s.mc.station ≠ station ∧ ∀ c ∈ s.bu.claims, c.isOwn = true → c.station ≠ station

theorem lists_keptByJoins (y : Claim) : KeptByJoins fun e => e.lists y where
  enqueue f e h := by
    unfold State.lists; rw [(Event.enqueue_rest f e).2.2.2.1]; exact h
  out _ _ h := h
  full _ _ h := h
  claim ch e _ h := by
    obtain ⟨marks, h⟩ := h
    unfold State.lists
    rw [Event.openClaim_bu]
    exact ⟨_, List.mem_append_left _ (List.mem_map.2 ⟨_, h, rfl⟩)⟩

theorem ownApart_keptByJoins (station : Nat) : KeptByJoins fun e => e.ownApart station where
  enqueue f e h := by
    unfold State.ownApart
    rw [(Event.enqueue_rest f e).2.2.2.1, (Event.enqueue_rest f e).2.2.1]; exact h
  out _ _ h := h
  full _ _ h := h
  claim ch e _ h := by
    refine ⟨by rw [(Event.openClaim_rest ch e).2.2.1]; exact h.1, fun c hc ho => ?_⟩
    rcases (Event.openClaim_own ch e c ho).1 hc with hc | rfl
    · exact h.2 c hc ho
    · exact h.1

/-- The withdrawal of a claim of another station leaves the entry, maybe with a mark less. -/
theorem Event.withdraw_lists (x y : Claim) (e : Event) (hne : x.station ≠ y.station) (h : e.lists y) :
    (e.withdraw x).lists y := by
  obtain ⟨marks, h⟩ := h
  have hcl : (e.withdraw x).bu.claims =
      (e.bu.claims.filter fun c => !c.hasKey x.station x.number).map (Claim.dropMarks x.number) :=
    Event.withdraw_claims x e
  unfold State.lists
  rw [hcl]
  refine ⟨_, List.mem_map.2 ⟨_, List.mem_filter.2 ⟨h, ?_⟩, rfl⟩⟩
  rw [Bool.not_eq_true', ← Bool.not_eq_true, Claim.hasKey_iff]
  exact fun hk => hne (congrArg Prod.fst hk).symm

theorem Event.conflictCheck_lists (y : Claim) (e : Event) (ho : e.ownApart y.station) (h : e.lists y) :
    e.conflictCheck.lists y := by
  have kept := foldl_induct
    (P := fun e : Event => (∀ c ∈ e.bu.claims, c.isOwn = true → c.station ≠ y.station) ∧ e.lists y)
    (f := Event.turnOf fun x e => if e.plantBudget < e.conflictWeight x then e.withdraw x else e)
    (fun a p ha => ?_) byPrecedence e ⟨ho.2, h⟩
  · exact kept.2
  · rcases Event.turnOf_cases (fun x e => if e.plantBudget < e.conflictWeight x then e.withdraw x else e)
      a p with ht | ⟨x, hx, -, ht⟩ <;> rw [ht]
    · exact ha
    · obtain ⟨hm, hp, -⟩ := State.provisionalOf_some hx
      split
      · refine ⟨fun c hc ho => ?_, Event.withdraw_lists x y a (ha.1 x hm (Claim.own_of_provisional hp)) ha.2⟩
        rw [Event.withdraw_claims] at hc
        exact ha.1 c ((Event.removeProvisional_own x a c ho).1 hc).1 ho
      · exact ha

/-! ## The cases of the record (R92) -/

theorem Event.find?_none_iff {station number : Nat} {e : Event} :
    e.bu.claims.find? (Claim.isRemote station number) = none ↔ e.noRemote station number :=
  List.find?_eq_none.trans (forall₂_congr fun c _ => by rw [Bool.not_eq_true])

theorem Event.dropOlder_none (c : Claim) (e : Event)
    (h : e.bu.claims.any (Claim.isRemoteFor c.station c.ch) = false) : e.dropOlder c = e := by
  unfold Event.dropOlder
  rw [h]; rfl

/-- A claim of a new key that has a place in the table is recorded there and checked. -/
theorem Event.recordClaim_new (c : Claim) (e : Event) (hn : e.noRemote c.station c.number)
    (hroom : (e.dropOlder c).bu.claims.length < Config.claimCapacity) :
    e.recordClaim c = Event.conflictCheck { e.dropOlder c with
      bu.claims := (e.dropOlder c).bu.claims ++ [(e.dropOlder c).recorded c] } := by
  unfold Event.recordClaim
  rw [Event.find?_none_iff.2 hn]
  exact if_pos hroom

/-- One that has none sets the overflow state. -/
theorem Event.recordClaim_full (c : Claim) (e : Event) (hn : e.noRemote c.station c.number)
    (ho : e.bu.claims.any (Claim.isRemoteFor c.station c.ch) = false)
    (hfull : e.bu.claims.length = 24) : e.recordClaim c = e.setOverflow := by
  unfold Event.recordClaim
  rw [Event.find?_none_iff.2 hn]
  simp only
  rw [Event.dropOlder_none c e ho]
  exact if_neg (by rw [hfull]; decide)

theorem Event.replaceClaim_lists (c old : Claim) (e : Event) (ho : e.ownApart c.station)
    (hm : old ∈ e.bu.claims) (hr : old.isRemote c.station c.number = true) :
    (e.replaceClaim c old).lists { c with timer := some (e.plantTime Image.claimHoldLimit) } := by
  obtain ⟨hown, hkey⟩ := (Claim.isRemote_iff _ _ old).1 hr
  have retaken : ∃ marks, Claim.retake (e.plantTime Image.claimHoldLimit) c old =
      { c with timer := some (e.plantTime Image.claimHoldLimit), status := .remote marks } := by
    have hstation : old.station = c.station := congrArg Prod.fst hkey
    have hnumber : old.number = c.number := congrArg Prod.snd hkey
    unfold Claim.retake
    rw [if_pos hr]
    unfold Claim.isOwn at hown
    split at hown
    · exact Bool.noConfusion hown
    · exact Bool.noConfusion hown
    · rename_i marks hs
      exact ⟨marks, by rw [← hstation, ← hnumber, ← hs]⟩
  obtain ⟨marks, hret⟩ := retaken
  have checked : (Event.conflictCheck { e with
      bu.claims := e.bu.claims.map (Claim.retake (e.plantTime Image.claimHoldLimit) c) }).lists
        { c with timer := some (e.plantTime Image.claimHoldLimit) } := by
    refine Event.conflictCheck_lists _ _ ⟨ho.1, fun d hd hdo => ?_⟩
      ⟨marks, List.mem_map.2 ⟨old, hm, hret⟩⟩
    obtain ⟨b, hb, rfl⟩ := List.mem_map.1 hd
    obtain ⟨hbo, hbs⟩ := Claim.retake_rest (e.plantTime Image.claimHoldLimit) c b
    rw [hbs]
    exact ho.2 b hb (hbo.symm.trans hdo)
  rw [show e.replaceClaim c old = if c.weight < old.weight then
      (Event.conflictCheck { e with
        bu.claims := e.bu.claims.map (Claim.retake (e.plantTime Image.claimHoldLimit) c) }).oweEval
    else Event.conflictCheck { e with
      bu.claims := e.bu.claims.map (Claim.retake (e.plantTime Image.claimHoldLimit) c) } from rfl]
  have owed : ∀ (a : Event) (y : Claim), a.lists y → a.oweEval.lists y := fun _ _ h => h
  split
  · exact owed _ _ checked
  · exact checked

theorem Event.dropOlder_ownApart (station : Nat) (c : Claim) (e : Event) (h : e.ownApart station) :
    (e.dropOlder c).ownApart station := by
  have removed : State.ownApart station ({ e with
      bu.claims := e.bu.claims.filter fun y => !y.isRemoteFor c.station c.ch } : Event).oweEval.toState :=
    ⟨h.1, fun d hd => h.2 d (List.mem_filter.1 hd).1⟩
  unfold Event.dropOlder
  simp only
  split
  · split
    · exact (ownApart_keptByJoins station).drainBudget _ _ removed
    · exact removed
  · exact h

/-- A claim leaves its entry in the table where it takes the place of another of its station, or has room. -/
theorem Event.recordClaim_lists (c : Claim) (e : Event) (ho : e.ownApart c.station)
    (hlen : e.bu.claims.length ≤ Config.claimCapacity)
    (hplace : e.bu.claims.length < 24 ∨
      ∃ d ∈ e.bu.claims, d.station = c.station ∧ (d.number = c.number ∨ d.ch = c.ch)) :
    (e.recordClaim c).lists { c with timer := some (e.plantTime Image.claimHoldLimit) } := by
  cases hf : e.bu.claims.find? (Claim.isRemote c.station c.number) with
  | some old =>
    have h : e.recordClaim c = e.replaceClaim c old := by unfold Event.recordClaim; rw [hf]
    rw [h]
    exact Event.replaceClaim_lists c old e ho (List.mem_of_find?_eq_some hf) (List.find?_some hf)
  | none =>
    have hn := Event.find?_none_iff.1 hf
    have hroom : (e.dropOlder c).bu.claims.length < Config.claimCapacity := by
      cases ha : e.bu.claims.any (Claim.isRemoteFor c.station c.ch) with
      | true => exact Event.dropOlder_room c e ha hlen
      | false =>
        rw [Event.dropOlder_none c e ha]
        rcases hplace with hl | ⟨d, hd, hs, hk⟩
        · exact hl
        · have hremote : d.isOwn = false := by
            by_contra hdo
            exact ho.2 d hd (by simpa using hdo) hs
          rcases hk with hk | hk
          · exact absurd (Prod.ext hs hk) (State.noRemote_iff.1 hn d hd hremote)
          · refine absurd (List.any_eq_true.2 ⟨d, hd, ?_⟩) (by rw [ha]; exact Bool.noConfusion)
            unfold Claim.isRemoteFor
            simp [hremote, hs, hk]
    have apart := Event.dropOlder_ownApart c.station c e ho
    have hlimit : (e.dropOlder c).plantTime Image.claimHoldLimit = e.plantTime Image.claimHoldLimit := by
      unfold State.plantTime; rw [(Event.dropOlder_flushes c e).mc]
    rw [Event.recordClaim_new c e hn hroom, ← hlimit]
    refine Event.conflictCheck_lists _ _ ⟨apart.1, fun d hd hdo => ?_⟩
      ⟨_, List.mem_append_right _ (List.mem_singleton.2 rfl)⟩
    rcases List.mem_append.1 hd with hd | hd
    · exact apart.2 d hd hdo
    · rw [List.mem_singleton.1 hd] at hdo; exact Bool.noConfusion hdo

/-! ## The overflow state (R95) -/

/-- The overflow state is set and noticed, and no claim is withdrawn yet. -/
def Event.overflowing (e : Event) : Event :=
  Event.noticeNode .claimOverflow { e with
    bu.overflow := true
    bu.overflowTimer := some (e.plantTime Image.claimHoldLimit) }

theorem Event.setOverflow_first (e : Event) (h : e.bu.overflow = false) :
    e.setOverflow = e.overflowing.withdrawAll :=
  if_neg (by rw [h]; exact Bool.noConfusion)

theorem Event.setOverflow_sets (e : Event) : e.setOverflow.bu.overflow = true ∧
    e.setOverflow.bu.overflowTimer = some (e.plantTime Image.claimHoldLimit) := by
  cases h : e.bu.overflow with
  | false =>
    have k := Event.withdrawAll_flushes e.overflowing
    rw [Event.setOverflow_first e h]
    exact ⟨k.overflow, k.overflowTimer⟩
  | true =>
    rw [show e.setOverflow = { e with
      bu.overflow := true
      bu.overflowTimer := some (e.plantTime Image.claimHoldLimit) } from if_pos h]
    exact ⟨rfl, rfl⟩

/-- In the overflow state no claim is created at the end of a command. -/
theorem overflowed_keptByJoins : KeptByJoins fun e =>
    e.bu.overflow = true ∧ ∀ c ∈ e.bu.claims, c.isProvisional = false where
  enqueue f e h := by rw [(Event.enqueue_rest f e).2.2.2.1]; exact h
  out _ _ h := h
  full _ _ h := h
  claim ch e hc h := by
    obtain ⟨-, -, hover, -⟩ := State.claimable_iff_of_parts.1 hc
    exact absurd (h.1.symm.trans hover) Bool.noConfusion

theorem Event.withdrawAll_li (e : Event) : e.withdrawAll.li = e.li := by
  rw [Event.withdrawAll_eq]
  exact foldl_induct (P := fun a : Event => a.li = e.li)
    (Event.turnOf_keeps fun x a ha => (Event.withdraw_li x a).trans ha) _ e rfl

/-! ## A channel whose claim was withdrawn (R85, R86) -/

/-- The channel is in BUDGET with its retry gap running, and has no PROVISIONAL claim. -/
def Event.waitsForGap (ch : Ch) (gap : Micros) (e : Event) : Prop :=
  (e.cc.get ch).state = .pending .budget ∧ e.bu.retryGap.get ch = some gap ∧
    ∀ c ∈ e.bu.claims, c.isProvisional = true → c.ch ≠ ch

/-- While its retry gap runs a channel claims nothing (R78). -/
theorem waitsForGap_keptByJoins (ch : Ch) (gap : Micros) : KeptByJoins fun e => e.waitsForGap ch gap where
  enqueue f e h := by
    unfold Event.waitsForGap
    rw [(Event.enqueue_rest f e).2.2.2.1, (Event.enqueue_rest f e).1]; exact h
  out _ _ h := h
  full _ _ h := h
  claim k e hc h := by
    obtain ⟨hst, hgap, hnone⟩ := h
    have hk : ch ≠ k := fun hk => by
      obtain ⟨-, -, -, -, hg, -⟩ := State.claimable_iff_of_parts.1 hc
      rw [hk, hg] at hgap; exact nomatch hgap
    refine ⟨?_, by rw [Event.openClaim_retryGap]; exact hgap, fun c hm hp => ?_⟩
    · rw [(Event.openClaim_rest k e).1, PerChannel.get_set_other _ hk]; exact hst
    · rcases (Event.openClaim_own k e c (Claim.own_of_provisional hp)).1 hm with hm | rfl
      · exact hnone c hm hp
      · exact fun h => hk h.symm

theorem Event.Withdrawn.follows {x : Claim} {gap : Micros} {e : Event} (h : e.Withdrawn x gap)
    (order : List Block) : (e.settled.flush order).waitsForGap x.ch gap := by
  have k := Event.settled_follows e
  refine (waitsForGap_keptByJoins x.ch gap).flush order _ ⟨?_, ?_, ?_⟩
  · have hf := (k.channels x.ch).state
    rw [h.state] at hf
    exact (beq_iff_eq.1 (show (ChState.pending .budget == _) = true from hf)).symm
  · rw [k.kept.bu]; exact h.gap
  · rw [k.kept.bu]; exact h.gone

end Sys2Proof.Machine
end

