-- ==== Sys2Proof/Proofs/ClaimFrames.lean ====
section
/-! SUPPORT. A CLAIM frame at a node on the line: recorded, checked against the node's own claim, or refused by a
full table (R82 to R86, R92, R95). -/

namespace Sys2Proof.Machine

/-! ## The frame reaches the table (R92) -/

/-- The claim that a CLAIM frame describes. -/
def sentClaim (station : Nat) (number weight rank : Byte) (ch : Ch) : Claim where
  station := station
  number := number.toNat
  ch := ch
  weight := weight.toNat
  rank := rank.toNat
  status := .remote []
  timer := none

theorem remoteClaim?_of_ranges (station : Nat) {number channel weight rank : Byte} {ch : Ch}
    (hc : channel.toNat = ch.toNat) (hn : number.toNat ≠ 0) (hw : 1 ≤ weight.toNat ∧ weight.toNat ≤ 63)
    (hr : 1 ≤ rank.toNat ∧ rank.toNat ≤ 3) :
    remoteClaim? station number channel weight rank = some (sentClaim station number weight rank ch) := by
  unfold remoteClaim?
  rw [hc, Ch.ofNat?_toNat]
  exact if_pos ⟨fun h => hn (by rw [h]; rfl), hw, hr⟩

theorem claimReceived_effect (m : Moment) (env : Envelope) {number channel weight rank : Byte} {ch : Ch}
    (s : State) (ho : s.onLine) (hh : s.hears env kindClaim [number, channel, weight, rank])
    (hc : channel.toNat = ch.toNat) (hn : number.toNat ≠ 0) (hw : 1 ≤ weight.toNat ∧ weight.toNat ≤ 63)
    (hr : 1 ≤ rank.toNat ∧ rank.toNat ≤ 3) :
    effectOf (.claimReceived m env number channel weight rank) (s.begin m) =
      (s.heardAt m).recordClaim (sentClaim env.sender.toNat number weight rank ch) := by
  refine (hear_onLine _ env kindClaim _ _ m s ho hh).trans ?_
  unfold Event.takeClaim
  rw [remoteClaim?_of_ranges _ hc hn hw hr]
  refine if_pos ?_
  show s.mc.mode.takesAll = true
  rcases ho with h | h <;> rw [h] <;> rfl

/-! ## The table as a heard frame finds it -/

theorem mem_elapse {d : Micros} {s : State} {c : Claim} (h : c ∈ (s.elapse d).bu.claims) :
    ∃ y ∈ s.bu.claims, c = y.elapse d := by
  obtain ⟨y, hy, rfl⟩ := List.mem_map.1 h
  exact ⟨y, hy, rfl⟩

theorem elapse_length (d : Micros) (s : State) :
    (s.elapse d).bu.claims.length = s.bu.claims.length := List.length_map _

theorem State.ownApart_heardAt {s : State} (m : Moment) {station : Nat} (h : s.claimTableSound)
    (hne : station ≠ s.mc.station) : (s.heardAt m).ownApart station := by
  obtain ⟨-, -, hown, -⟩ := h
  refine ⟨fun he => hne he.symm, fun c hc ho => ?_⟩
  obtain ⟨y, hy, rfl⟩ := mem_elapse hc
  exact fun he => hne (he.symm.trans (hown y hy ho))

/-- No entry of the station has the number or the channel of its new claim. -/
theorem State.noneOf_heardAt {s : State} (m : Moment) {station number : Nat} {ch : Ch}
    (h : ∀ c ∈ s.bu.claims, c.station = station → c.number ≠ number ∧ c.ch ≠ ch) :
    (s.heardAt m).noRemote station number ∧
      (s.heardAt m).bu.claims.any (Claim.isRemoteFor station ch) = false := by
  refine ⟨State.noRemote_iff.2 fun c hc _ hk => ?_, ?_⟩
  · obtain ⟨y, hy, rfl⟩ := mem_elapse hc
    exact (h y hy (congrArg Prod.fst hk)).1 (congrArg Prod.snd hk)
  · refine List.any_eq_false.2 fun c hc hr => ?_
    obtain ⟨y, hy, rfl⟩ := mem_elapse hc
    unfold Claim.isRemoteFor at hr
    simp only [Bool.and_eq_true, beq_iff_eq, decide_eq_true_eq] at hr
    obtain ⟨⟨-, hs⟩, hch⟩ := hr
    exact (h y hy hs).2 hch

theorem State.settled_heardAt {s : State} (m : Moment) (h : s.settled) : (s.heardAt m).toState.settled :=
  State.settled_of_same (State.settled_elapse m.elapsed s h) (fun _ => rfl) (fun _ => rfl) rfl rfl rfl rfl rfl
    fun _ => rfl

/-! ## A full table (R95) -/

/-- At the first overflow every PROVISIONAL claim is withdrawn. -/
theorem Event.setOverflow_withdraws (e : Event) (hover : e.bu.overflow = false)
    (hn : (e.bu.claims.map Claim.key).Nodup) (hp : e.toState.provisionalClaiming) {x : Claim}
    (hx : x ∈ e.bu.claims) (hxp : x.isProvisional = true) (hr : 1 ≤ x.rank ∧ x.rank ≤ 3) :
    e.setOverflow.Withdrawn x e.retryGapTime := by
  have alone : ∀ c ∈ e.bu.claims, c.isProvisional = true → c.ch = x.ch → c.key = x.key :=
    fun c hc hcp => hp.2 c hc x hx hcp hxp
  have claiming : e.overflowing.Claiming x := by
    refine ⟨?_, hp.1 x hx hxp, hn⟩
    show e.provisionalOf x.ch = some x
    cases hf : e.provisionalOf x.ch with
    | none => exact absurd rfl (State.provisionalOf_none hf x hx hxp)
    | some y =>
      obtain ⟨hy, hyp, hch⟩ := State.provisionalOf_some hf
      rw [List.inj_on_of_nodup_map hn hy hx (alone y hy hyp hch)]
  rw [Event.setOverflow_first e hover]
  exact Event.withdrawAll_withdraws x e.overflowing claiming alone hr

theorem Event.setOverflow_leavesNone (order : List Block) (e : Event) (hover : e.bu.overflow = false)
    (hp : e.toState.provisionalClaiming)
    (hr : ∀ c ∈ e.bu.claims, c.isProvisional = true → 1 ≤ c.rank ∧ c.rank ≤ 3) :
    ∀ c ∈ (e.setOverflow.settled.flush order).bu.claims, c.isProvisional = false := by
  have cleared : ∀ c ∈ e.setOverflow.bu.claims, c.isProvisional = false := by
    rw [Event.setOverflow_first e hover]
    exact Event.withdrawAll_clears e.overflowing hp.2 hr
  have kept := (Event.settled_follows e.setOverflow).kept.bu
  exact (overflowed_keptByJoins.flush order e.setOverflow.settled
    ⟨by rw [kept]; exact e.setOverflow_sets.1, by rw [kept]; exact cleared⟩).2

/-- What the first overflow of an event owes: CLAIM_OVERFLOW, and a WITHDRAW for each PROVISIONAL claim. -/
theorem Event.setOverflow_owes (e : Event) (hover : e.bu.overflow = false) (ho : e.out = {})
    (hn : (e.bu.claims.map Claim.key).Nodup) (hp : e.toState.provisionalClaiming) :
    ∃ (fs : List Frame) (b : Bool), fs.length ≤ 6 ∧ e.setOverflow.out =
      { nodeNotices := [⟨0, .notice .claimOverflow⟩], budget := fs, evalDue := b } := by
  obtain ⟨fs, b, hout, hlen⟩ := Event.withdrawAll_owes e.overflowing
  have hover' : e.overflowing.out = { nodeNotices := [⟨0, .notice .claimOverflow⟩] } := by
    show ({ e.out with nodeNotices := e.out.nodeNotices ++ [⟨0, .notice .claimOverflow⟩] } : Outbox) = _
    rw [ho]; rfl
  have hsix := provisional_length_le hn hp.2
  rw [hover'] at hout hlen
  refine ⟨fs, b, ?_, by rw [Event.setOverflow_first e hover]; exact hout⟩
  have hlen' : fs.length + _ ≤ 0 + (e.bu.claims.filter Claim.isProvisional).length := hlen
  omega

theorem Event.setOverflow_notices (order : List Block) (e : Event) (hover : e.bu.overflow = false)
    (hs : e.speaks) : (e.setOverflow.settled.flush order).noticed .claimOverflow := by
  have hmc : e.setOverflow.mc = e.mc := by
    rw [Event.setOverflow_first e hover]; exact (Event.withdrawAll_flushes e.overflowing).mc
  refine Event.follows_noticed_node order _ _ ?_ ?_
  · unfold State.speaks; rw [hmc]; exact hs
  · obtain ⟨fs, b, hout, -⟩ := Event.withdrawAll_owes e.overflowing
    rw [Event.setOverflow_first e hover, hout]
    exact List.mem_append_right _ (List.mem_singleton.2 rfl)

theorem withdraw_pressing (n : Nat) : Frame.pressing ⟨0, .withdraw n⟩ := ⟨rfl, rfl, rfl⟩

/-- On the line, at a station of the line, the queue takes every frame. -/
theorem State.onLine.takes {s : State} (h : s.onLine) (h0 : s.mc.station ≠ 0) (b : Body) :
    s.queueTakes b = true := by
  unfold State.queueTakes
  rcases h with h | h <;> rw [h] <;> simp [h0]

/-- In a settled node with room for all of them in the queue, each WITHDRAW of the overflow joins it. -/
theorem Event.setOverflow_queues (order : List Block) (e : Event) (hover : e.bu.overflow = false)
    (ho : e.out = {}) (hs : e.toState.settled) (hline : e.toState.onLine) (h0 : e.mc.station ≠ 0)
    (hq : e.li.queue.length ≤ 9) (hn : (e.bu.claims.map Claim.key).Nodup)
    (hp : e.toState.provisionalClaiming) {n : Nat}
    (hf : (⟨0, .withdraw n⟩ : Frame) ∈ e.setOverflow.out.budget) :
    (⟨0, .withdraw n⟩ : Frame) ∈ (e.setOverflow.settled.flush order).li.queue := by
  obtain ⟨fs, b, hlen, hout⟩ := Event.setOverflow_owes e hover ho hn hp
  have k : Flushes e.overflowing e.setOverflow := by
    rw [Event.setOverflow_first e hover]; exact Event.withdrawAll_flushes e.overflowing
  have hli : e.setOverflow.li = e.li := by
    rw [Event.setOverflow_first e hover]; exact Event.withdrawAll_li e.overflowing
  have quiet : e.setOverflow.settled = e.setOverflow :=
    Event.settled_of_quiet _ (by rw [hout]) (by rw [hout])
      (k.settled (State.settled_of_budget hs rfl rfl rfl rfl))
  rw [quiet]
  refine Event.flush_queues (withdraw_pressing n) order _ (by rw [hout]; rfl) (by rw [hout])
    ⟨?_, hf, ?_, by rw [hout]⟩
  · rw [State.queueTakes_of_mc k.mc]; exact State.onLine.takes (s := e.overflowing.toState) hline h0 _
  · rw [hout, hli]
    show e.li.queue.length + fs.length + 1 ≤ 16
    omega

/-! ## A claim of the node against a new one (R83, R84) -/

/-- The event of a heard claim, with its entry at the end of the table. -/
def Event.listing (c : Claim) (e : Event) : Event := { e with bu.claims := e.bu.claims ++ [e.recorded c] }

theorem Event.recordClaim_listing (c : Claim) (e : Event) (hn : e.noRemote c.station c.number)
    (ho : e.bu.claims.any (Claim.isRemoteFor c.station c.ch) = false) (hroom : e.bu.claims.length < 24) :
    e.recordClaim c = (e.listing c).conflictCheck := by
  have hd := Event.dropOlder_none c e ho
  rw [Event.recordClaim_new c e hn (by rw [hd]; exact hroom), hd]
  rfl

/-- A new entry comes during the settle interval of the one PROVISIONAL claim, so its rank decides. -/
theorem Event.recorded_outranks (x c : Claim) (e : Event) (hx : x ∈ e.bu.claims)
    (hp : x.isProvisional = true) (alone : ∀ y ∈ e.bu.claims, y.isProvisional = true → y = x) :
    outranks e.mc.station x (e.recorded c) = ranksAbove c.rank x.rank c.station e.mc.station := by
  have marked : ((e.bu.claims.filter Claim.isProvisional).map fun y => (y.number, Arrival.during)).find?
      (fun k => k.1 == x.number) = some (x.number, .during) := by
    have all : ∀ k ∈ (e.bu.claims.filter Claim.isProvisional).map (fun y => (y.number, Arrival.during)),
        k = (x.number, .during) := fun k hk => by
      obtain ⟨y, hy, rfl⟩ := List.mem_map.1 hk
      obtain ⟨hm, hyp⟩ := List.mem_filter.1 hy
      rw [alone y hm hyp]
    cases hf : ((e.bu.claims.filter Claim.isProvisional).map fun y => (y.number, Arrival.during)).find?
        (fun k => k.1 == x.number) with
    | none =>
      have hin : (x.number, Arrival.during) ∈
          (e.bu.claims.filter Claim.isProvisional).map fun y => (y.number, Arrival.during) :=
        List.mem_map.2 ⟨x, List.mem_filter.2 ⟨hx, hp⟩, rfl⟩
      exact absurd (beq_self_eq_true x.number) (List.find?_eq_none.1 hf _ hin)
    | some k => rw [all k (List.mem_of_find?_eq_some hf)]
  exact outranks_of_mark rfl marked

theorem Event.listing_conflictWeight (x c : Claim) (e : Event) (hx : x ∈ e.bu.claims)
    (hp : x.isProvisional = true) (alone : ∀ y ∈ e.bu.claims, y.isProvisional = true → y = x) :
    (e.listing c).conflictWeight x =
      weightSum (e.bu.claims.filter (outranks e.mc.station x)) +
        (if x.rank < c.rank ∨ (c.rank = x.rank ∧ c.station < e.mc.station) then c.weight else 0) +
        x.weight := by
  have hrank := Event.recorded_outranks x c e hx hp alone
  show weightSum ((e.bu.claims ++ [e.recorded c]).filter (outranks e.mc.station x)) + x.weight = _
  rw [List.filter_append]
  unfold weightSum
  rw [List.map_append, List.sum_append, List.filter_singleton, hrank]
  congr 2
  simp only [← ranksAbove_iff]
  cases ranksAbove c.rank x.rank c.station e.mc.station <;> rfl

theorem standsOwn_keptByJoins {x : Claim} (ho : x.isOwn = true) : KeptByJoins fun e => x ∈ e.bu.claims where
  enqueue f e h := by rw [(Event.enqueue_rest f e).2.2.2.1]; exact h
  out _ _ h := h
  full _ _ h := h
  claim ch e _ h := (Event.openClaim_own ch e x ho).2 (.inl h)

/-- A WITHDRAW owed alone joins a queue with room. -/
theorem Event.withdraw_queues (order : List Block) (x : Claim) (e : Event) (ho : e.out = {})
    (hs : e.toState.settled) (hline : e.toState.onLine) (h0 : e.mc.station ≠ 0)
    (hq : e.li.queue.length < 16) :
    (⟨0, .withdraw x.number⟩ : Frame) ∈ ((e.withdraw x).settled.flush order).li.queue := by
  have hout : (e.withdraw x).out = { budget := [⟨0, .withdraw x.number⟩], evalDue := true } := by
    rw [Event.withdraw_out, ho]; rfl
  have quiet : (e.withdraw x).settled = e.withdraw x :=
    Event.settled_of_quiet _ (by rw [hout]) (by rw [hout]) ((Event.withdraw_flushes x e).settled hs)
  rw [quiet]
  refine Event.flush_queues (withdraw_pressing x.number) order _ (by rw [hout]; rfl) (by rw [hout])
    ⟨?_, by rw [hout]; exact List.mem_singleton.2 rfl, ?_, by rw [hout]⟩
  · rw [State.queueTakes_of_mc (Event.withdraw_mc x e)]; exact hline.takes h0 _
  · rw [hout, Event.withdraw_li]
    show e.li.queue.length + 1 + 0 ≤ 16
    omega

end Sys2Proof.Machine
end

