-- ==== Sys2Proof/Proofs/ClaimReceived.lean ====
section
/-! SUPPORT. The statement about CLAIM frames: its three cases, each for the event in which the frame has been
heard (R82 to R86, R92, R95, R168). -/

namespace Sys2Proof.Machine

section
variable {s : State} {m : Moment} {image : Image}

theorem heardAt_keys (h : s.claimTableSound) : ((s.heardAt m).bu.claims.map Claim.key).Nodup := by
  obtain ⟨-, hkeys, -⟩ := h
  exact (elapse_keys m.elapsed s).symm ▸ hkeys

theorem heardAt_limit (hi : s.mc.image = some image) :
    (s.heardAt m).plantTime Image.claimHoldLimit = image.claimHoldLimit := by
  show s.plantTime _ = _
  unfold State.plantTime; rw [hi]

theorem heardAt_gap (hi : s.mc.image = some image) :
    (s.heardAt m).retryGapTime = image.retryGap + s.mc.station * Config.ms 100 := by
  show s.plantTime Image.retryGap + s.mc.station * Config.ms 100 = _
  unfold State.plantTime; rw [hi]

/-- The claim has its entry in the table at the end of the command. -/
theorem recordClaim_recorded (order : List Block) (c : Claim) (hs : s.claimTableSound)
    (hne : c.station ≠ s.mc.station)
    (hplace : s.bu.claims.length < 24 ∨
      ∃ d ∈ s.bu.claims, d.station = c.station ∧ (d.number = c.number ∨ d.ch = c.ch)) :
    State.lists { c with timer := some ((s.heardAt m).plantTime Image.claimHoldLimit) }
      (((s.heardAt m).recordClaim c).settled.flush order).toState := by
  refine (lists_keptByJoins _).flush order _ ?_
  unfold State.lists
  rw [(Event.settled_follows _).kept.bu]
  refine Event.recordClaim_lists c (s.heardAt m) (State.ownApart_heardAt m hs hne) ?_ ?_
  · obtain ⟨hlen, -⟩ := hs
    exact (elapse_length m.elapsed s).trans_le hlen
  · refine hplace.imp (fun h => (elapse_length m.elapsed s).trans_lt h) fun ⟨d, hd, hk⟩ => ?_
    exact ⟨d.elapse m.elapsed, List.mem_map_of_mem hd, hk⟩

/-- A full table: the overflow state, and at its beginning every PROVISIONAL claim withdrawn. -/
theorem setOverflow_obliges (order : List Block) (hs : s.claimTableSound) (hline : s.onLine)
    (hi : s.mc.image = some image) :
    let t := (((s.heardAt m).setOverflow).settled.flush order).toState
    t.bu.overflow = true ∧ t.bu.overflowTimer = some image.claimHoldLimit ∧
      (s.bu.overflow = false → s.mc.station ≠ 0 → t.noticed .claimOverflow) ∧
      (s.bu.overflow = false → s.provisionalClaiming →
        (∀ c ∈ s.bu.claims, c.isProvisional = true → 1 ≤ c.rank ∧ c.rank ≤ 3) →
        (∀ c ∈ t.bu.claims, c.isProvisional = false) ∧
        ∀ c ∈ s.bu.claims, c.isProvisional = true →
          (t.cc.get c.ch).state = .pending .budget ∧
          t.bu.retryGap.get c.ch = some (image.retryGap + s.mc.station * Config.ms 100) ∧
          (s.settled → s.mc.station ≠ 0 → s.li.queue.length ≤ 9 →
            (⟨0, .withdraw c.number⟩ : Frame) ∈ t.li.queue)) := by
  intro t
  have took := Event.took order (s.heardAt m).setOverflow
  have set := (s.heardAt m).setOverflow_sets
  refine ⟨took.overflow.trans set.1, took.overflowTimer.trans (set.2.trans (by rw [heardAt_limit hi])),
    fun hover h0 => ?_, fun hover hp hr => ?_⟩
  · refine Event.setOverflow_notices order (s.heardAt m) hover ⟨h0, ?_, ?_⟩
    all_goals
      show s.mc.mode ≠ _
      rcases hline with h | h <;> rw [h] <;> decide
  · have hp' : (s.heardAt m).toState.provisionalClaiming := State.provisionalClaiming_elapse m.elapsed hp
    refine ⟨Event.setOverflow_leavesNone order (s.heardAt m) hover hp' fun c hc hcp => ?_,
      fun c hc hcp => ?_⟩
    · obtain ⟨y, hy, rfl⟩ := mem_elapse hc
      exact hr y hy hcp
    · have withdrawn := Event.setOverflow_withdraws (s.heardAt m) hover (heardAt_keys hs) hp'
        (x := c.elapse m.elapsed) (List.mem_map_of_mem hc) hcp (hr c hc hcp)
      obtain ⟨hst, hgap, -⟩ := withdrawn.follows order
      refine ⟨hst, hgap.trans (by rw [heardAt_gap hi]), fun hsettled h0 hq => ?_⟩
      exact Event.setOverflow_queues order (s.heardAt m) hover rfl (State.settled_heardAt m hsettled) hline h0
        hq (heardAt_keys hs) hp' withdrawn.frame

/-- The one PROVISIONAL claim against a new entry: it stands where it fits beside what outranks it, and is
withdrawn elsewhere. -/
theorem listing_obliges (order : List Block) (c x : Claim) (hline : s.onLine)
    (hi : s.mc.image = some image) (hx : x ∈ (s.heardAt m).bu.claims) (hp : x.isProvisional = true)
    (hr : 1 ≤ x.rank ∧ x.rank ≤ 3)
    (alone : ∀ y ∈ (s.heardAt m).bu.claims, y.isProvisional = true → y = x)
    (hst : ((s.heardAt m).cc.get x.ch).state = .pending .claiming) :
    let t := (((s.heardAt m).listing c).conflictCheck.settled.flush order).toState
    let outranked : Nat :=
      (((s.heardAt m).bu.claims.filter (outranks s.mc.station x)).map Claim.weight).sum +
      (if x.rank < c.rank ∨ (c.rank = x.rank ∧ c.station < s.mc.station) then c.weight else 0)
    (outranked + x.weight ≤ image.plantBudget → x ∈ t.bu.claims) ∧
    (image.plantBudget < outranked + x.weight →
      (t.cc.get x.ch).state = .pending .budget ∧
      t.bu.retryGap.get x.ch = some (image.retryGap + s.mc.station * Config.ms 100) ∧
      (∀ y ∈ t.bu.claims, y.isProvisional = true → y.ch ≠ x.ch) ∧
      (s.settled → s.mc.station ≠ 0 → s.li.queue.length < 16 →
        (⟨0, .withdraw x.number⟩ : Frame) ∈ t.li.queue)) := by
  intro t outranked
  have budget : ((s.heardAt m).listing c).plantBudget = image.plantBudget := by
    show s.plantBudget = _
    unfold State.plantBudget; rw [hi]
  have weight : ((s.heardAt m).listing c).conflictWeight x = outranked + x.weight :=
    Event.listing_conflictWeight x c (s.heardAt m) hx hp alone
  have alone' : ∀ y ∈ ((s.heardAt m).listing c).bu.claims, y.isProvisional = true → y = x :=
    fun y hy hyp => by
      rcases List.mem_append.1 hy with hy | hy
      · exact alone y hy hyp
      · rw [List.mem_singleton.1 hy] at hyp; exact Bool.noConfusion hyp
  have hx' : x ∈ ((s.heardAt m).listing c).bu.claims := List.mem_append_left _ hx
  have check := Event.conflictCheck_alone x ((s.heardAt m).listing c) hx' hp hr alone'
  rw [budget, weight] at check
  refine ⟨fun hfits => ?_, fun hconflict => ?_⟩
  · rw [if_neg (Nat.not_lt.2 hfits)] at check
    refine (standsOwn_keptByJoins (Claim.own_of_provisional hp)).flush order _ ?_
    rw [check, (Event.settled_follows _).kept.bu]
    exact hx'
  · rw [if_pos hconflict] at check
    have withdrawn : (((s.heardAt m).listing c).withdraw x).Withdrawn x _ :=
      Event.withdraw_withdrawn hst fun y hy hyp _ => by rw [alone' y hy hyp]
    have gap : ((s.heardAt m).listing c).retryGapTime = image.retryGap + s.mc.station * Config.ms 100 :=
      heardAt_gap (m := m) hi
    rw [gap, ← check] at withdrawn
    obtain ⟨hb, hg, hgone⟩ := withdrawn.follows order
    refine ⟨hb, hg, hgone, fun hsettled h0 hq => ?_⟩
    show _ ∈ (((s.heardAt m).listing c).conflictCheck.settled.flush order).li.queue
    rw [check]
    exact Event.withdraw_queues order x ((s.heardAt m).listing c) rfl
      (State.settled_of_budget (State.settled_heardAt m hsettled) rfl rfl rfl rfl) hline h0 hq

end

/-- Settles O29. -/
theorem claimFrameIsRecorded : Obligations.ClaimFrameIsRecorded := by
  unfold Obligations.ClaimFrameIsRecorded
  intro m env number channel weight rank ch image s a gap hs hline hh hi hc hn hw hr
  have hne : env.sender.toNat ≠ s.mc.station := by
    obtain ⟨-, -, -, hne, -⟩ := hh
    exact hne
  refine ⟨_, exec_of_effect (c := .claimReceived m env number channel weight rank)
    (claimReceived_effect m env s hline hh hc hn hw hr), fun hplace => ?_, fun hfull hnone => ?_,
    fun x hx hp hxr alone hst hroom hnone => ?_⟩
  · obtain ⟨marks, hmem⟩ := recordClaim_recorded (m := m) m.order
      (sentClaim env.sender.toNat number weight rank ch) hs hne hplace
    exact ⟨_, hmem, rfl, rfl, rfl, rfl, rfl, rfl, by rw [heardAt_limit hi]⟩
  · obtain ⟨hnew, holder⟩ := State.noneOf_heardAt m hnone
    have heq := Event.recordClaim_full (sentClaim env.sender.toNat number weight rank ch) (s.heardAt m) hnew
      holder ((elapse_length m.elapsed s).trans hfull)
    rw [heq]
    exact setOverflow_obliges m.order hs hline hi
  · obtain ⟨hnew, holder⟩ := State.noneOf_heardAt m hnone
    have heq := Event.recordClaim_listing (sentClaim env.sender.toNat number weight rank ch) (s.heardAt m)
      hnew holder ((elapse_length m.elapsed s).trans_lt hroom)
    rw [heq]
    exact listing_obliges m.order (sentClaim env.sender.toNat number weight rank ch) x hline hi hx hp hxr
      alone hst

end Sys2Proof.Machine
end
